-- ==== Sys2Proof/Word.lean ====
section
/-! DEFINITION. The words of the part and the two plainest operations on a fixed row of like things.

A byte and a tote identity are the two things that travel as bits (R159, R171). Counts, ranks and times are
natural numbers; a time is counted in steps of 0.1 s, the part's common tick (00_scope.md, Durations). -/

namespace Sys2Proof

/-- A byte of the request port or of a link. -/
abbrev Byte := BitVec 8

/-- A tote identity: four bytes, 1 to 4,294,967,295; 0 stands for a failed read (00_scope.md, Terms). -/
abbrev Ident := BitVec 32

/-- One member of a fixed row. -/
def nth {α : Type} {n : Nat} (v : Vector α n) (i : Fin n) : α := v[i.val]

/-- One member of a fixed row, changed in place. -/
def upd {α : Type} {n : Nat} (v : Vector α n) (i : Fin n) (f : α → α) : Vector α n :=
  v.set i.val (f (nth v i))

/-- A fixed row given member by member. -/
def tab {α : Type} (n : Nat) (f : Fin n → α) : Vector α n :=
  ⟨⟨(List.finRange n).map f⟩, by simp⟩

theorem nth_upd {α : Type} {n : Nat} (v : Vector α n) (i j : Fin n) (f : α → α) :
    nth (upd v i f) j = if i = j then f (nth v j) else nth v j := by
  simp only [nth, upd, Vector.getElem_set, Fin.ext_iff]
  split
  · next h => simp [h]
  · rfl

@[simp] theorem nth_upd_self {α : Type} {n : Nat} (v : Vector α n) (i : Fin n) (f : α → α) :
    nth (upd v i f) i = f (nth v i) := by
  simp [nth_upd]

theorem nth_upd_ne {α : Type} {n : Nat} (v : Vector α n) (i j : Fin n) (f : α → α) (h : i ≠ j) :
    nth (upd v i f) j = nth v j := by
  simp [nth_upd, h]

@[simp] theorem nth_tab {α : Type} {n : Nat} (f : Fin n → α) (i : Fin n) : nth (tab n f) i = f i := by
  simp [nth, tab]

@[simp] theorem nth_replicate {α : Type} {n : Nat} (a : α) (i : Fin n) : nth (Vector.replicate n a) i = a := by
  simp [nth]

theorem ext_nth {α : Type} {n : Nat} {v w : Vector α n} (h : ∀ i, nth v i = nth w i) : v = w :=
  Vector.ext fun i hi => h ⟨i, hi⟩

end Sys2Proof
end

