-- ==== Sys2Proof/Syntax.lean ====
section
/-! DEFINITION. The commands of the AT-36: one constructor of `Instr` per row of spec/opcode_table.json.

The part is a block, not a processor. A command is one event that reaches it: a request over the request port, a
frame on a link, a change of a line, or the expiry of one of its timers. A request carries its fields as the bytes
the host shifts in, in range or not, because the owning rule refuses a value out of range (R171). A frame carries
its fields as R158, R159, R164 and R165 decode them. -/

namespace Sys2Proof

/-- A lift side (00_scope.md; coded as R159's side byte). -/
inductive Side where
  | a
  | b
  deriving DecidableEq, Repr

/-- The four lanes of a level, in the order of R159's lane index (R21). -/
inductive LaneName where
  | aIn
  | aOut
  | bIn
  | bOut
  deriving DecidableEq, Repr

/-- A logical level: level n of the manual is the value n - 1. -/
abbrev Level := Fin 32

/-- A stop of the masts: stop n of the manual is the value n - 1. -/
abbrev Stop := Fin 36

/-- A pick station: station n of the manual is the value n - 1. -/
abbrev StationNo := Fin 4

/-- One of the 128 lanes (R21). -/
structure LaneId where
  level : Level
  name : LaneName
  deriving DecidableEq, Repr

/-- One of the 39 links (R156, R160). -/
inductive Port where
  | stop (n : Stop)
  | lift (side : Side)
  | front
  deriving DecidableEq, Repr

/-- The two senders of DONE and ABORTED: a level node at a stop, or a lift controller (R64). -/
inductive Sender where
  | node (stop : Stop)
  | lift (side : Side)
  deriving DecidableEq, Repr

/-- A lane report (R28, R165): a count of 0 to 3 and whether the lane has settled. -/
structure LaneReport where
  count : Fin 4
  settled : Bool
  deriving DecidableEq, Repr

/-- What a carriage report says of one place (R87, R165): a seated bit without an occupied bit is not seated. -/
inductive PlaceReport where
  | empty
  | running
  | seated
  deriving DecidableEq, Repr

/-- A carriage report (R83, R87, R165). -/
structure CarriageReport where
  front : PlaceReport
  back : PlaceReport
  deriving DecidableEq, Repr

/-- The lists of scanned identities of an AUDIT_SCAN, head first, one per lane (R41, R159). -/
structure Scan where
  aIn : List Ident
  aOut : List Ident
  bIn : List Ident
  bOut : List Ident
  deriving DecidableEq, Repr

/-- One entry of an OPEN_LIST or APPEND_ENTRIES request, as its bytes carry it (R132, R171). -/
structure EntryArg where
  ident : Ident
  level : Byte
  pref : Byte
  weight : Byte
  deriving DecidableEq, Repr

/-- The last field of APPROVE_CLAIM and DENY_CLAIM: the identity for a put, the side for a take (R77, R171). -/
inductive ClaimArg where
  | identity (i : Ident)
  | side (b : Byte)
  deriving DecidableEq, Repr

/-- The location field of DECLARE_TOTE, as its bytes carry it (R151, R171). -/
inductive LocArg where
  | lane (level : Byte) (name : Byte)
  | carriage (lift : Byte)
  | entry (side : Byte)
  | noForm (form : Byte)
  deriving DecidableEq, Repr

/-- What the port sees of a transaction that carries no request (R167): chip select is asserted; or it is released after
`count` bytes behind the selector of a COLLECT, or of a status poll. The table's one row of the bare port carries all
three, and the assertion before a REQUEST too (log 14). -/
inductive PortAct where
  | asserts
  | collects (count : Nat)
  | polls (count : Nat)
  deriving DecidableEq, Repr

/-- Bytes that come in on a link, from a start marker on, and are no well-framed frame (R156). -/
structure Incoming where
  port : Port
  bytes : List Byte
  deriving DecidableEq, Repr

/-- The disposition of a REQUEST that reaches no owning rule (R170). -/
inductive PortError where
  | badLength
  | checkError
  | unknownRequest
  deriving DecidableEq, Repr

/-- The commands. The row of the table and its rule stand beside each. -/
inductive Instr where
  /-- HARD_RESET (R66) -/
  | hardReset
  /-- RESET_RELEASE (R163) -/
  | resetRelease
  /-- STOP_ASSERTED (R142) -/
  | stopAsserted
  /-- STOP_RELEASED (R143) -/
  | stopReleased
  /-- COLLECT (R167, R169), with the other acts of the port that carry no request. -/
  | collect (act : PortAct)
  /-- UNKNOWN_REQUEST (R170): the port's own check that fails. -/
  | unknownRequest (why : PortError)
  /-- READ_TOTE (R12) -/
  | readTote (ident : Ident)
  /-- WALK (R13) -/
  | walk (start : BitVec 16)
  /-- ANNOUNCE_INBOUND (R14) -/
  | announceInbound (ident : Ident) (level : Byte)
  /-- RETARGET (R15) -/
  | retarget (ident : Ident) (level : Byte)
  /-- CANCEL_RECORD (R16) -/
  | cancelRecord (ident : Ident)
  /-- SET_CORRECTION (R17) -/
  | setCorrection (entry : Byte) (enabled : Byte) (read : Ident) (corrected : Ident)
  /-- READ_CORRECTIONS (R17) -/
  | readCorrections
  /-- SET_LEVEL_MAP (R20): a stop byte of 0 is "none" (R171). -/
  | setLevelMap (level : Byte) (stop : Byte)
  /-- SET_LANE_DEPTH (R22): that a depth takes one byte is the model's choice (log 10). -/
  | setLaneDepth (level : Byte) (lane : Byte) (depth : Byte)
  /-- SET_LEVEL_MODE (R33) -/
  | setLevelMode (level : Byte) (mode : Byte)
  /-- SET_FENCE_ON_LOSS (R37) -/
  | setFenceOnLoss (level : Byte) (setting : Byte)
  /-- START_AUDIT (R40) -/
  | startAudit (level : Byte)
  /-- CLEAR_LANE_BLOCK (R43) -/
  | clearLaneBlock (level : Byte) (lane : Byte)
  /-- READ_LEVEL (R44) -/
  | readLevel (level : Byte)
  /-- READ_LANE (R44) -/
  | readLane (level : Byte) (lane : Byte)
  /-- READ_TRANSFER (R67) -/
  | readTransfer (slot : Byte)
  /-- APPROVE_CLAIM (R77) -/
  | approveClaim (level : Byte) (kind : Byte) (arg : ClaimArg)
  /-- DENY_CLAIM (R78) -/
  | denyClaim (level : Byte) (kind : Byte) (arg : ClaimArg)
  /-- READ_APPROVALS (R82) -/
  | readApprovals (first : Byte)
  /-- DIRECT_LIFT (R91): a take carries a count, a drop does not. -/
  | directLift (lift : Byte) (kind : Byte) (level : Byte) (count : Option Byte)
  /-- CANCEL_DIRECTED (R91) -/
  | cancelDirected (lift : Byte)
  /-- SET_LIFT_ENABLE (R103) -/
  | setLiftEnable (lift : Byte) (setting : Byte)
  /-- CLEAR_LIFT_BLOCK (R104) -/
  | clearLiftBlock (lift : Byte)
  /-- READ_LIFT (R105) -/
  | readLift (lift : Byte)
  /-- READ_ENTRY (R115) -/
  | readEntry (side : Byte)
  /-- OPEN_LIST (R132) -/
  | openList (station : Byte) (entries : List EntryArg)
  /-- APPEND_ENTRIES (R134) -/
  | appendEntries (list : Byte) (entries : List EntryArg)
  /-- CLOSE_LIST (R135) -/
  | closeList (list : Byte)
  /-- ABORT_LIST (R136) -/
  | abortList (list : Byte)
  /-- SKIP_ENTRY (R137) -/
  | skipEntry (list : Byte) (rank : Byte)
  /-- CONFIRM_EXIT (R131) -/
  | confirmExit (ident : Ident)
  /-- DECLARE_MISSING (R131) -/
  | declareMissing (ident : Ident)
  /-- SET_REPORT_MODE (R139) -/
  | setReportMode (station : Byte) (mode : Byte)
  /-- READ_STATION (R140) -/
  | readStation (station : Byte)
  /-- READ_LIST (R140) -/
  | readList (list : Byte) (first : Byte)
  /-- RESOLVE_HOLD (R150) -/
  | resolveHold (ident : Ident) (disposition : Byte)
  /-- DECLARE_TOTE (R151) -/
  | declareTote (ident : Ident) (direction : Byte) (level : Byte) (weight : Byte) (pref : Byte) (loc : LocArg)
  /-- READ_LINKS (R166) -/
  | readLinks
  /-- SOFT_RESET (R173) -/
  | softReset
  /-- IDENTIFY (R174) -/
  | identify
  /-- SET_PARAMETER (R172) -/
  | setParameter (number : Byte) (value : BitVec 16)
  /-- READ_PARAMETERS (R172) -/
  | readParameters
  /-- READ_EVENTS (R177): that a group number takes one byte is the model's choice, here and in the next two (log 10). -/
  | readEvents (group : Byte)
  /-- READ_CLEAR_EVENTS (R177) -/
  | readClearEvents (group : Byte)
  /-- SET_EVENT_MASK (R176) -/
  | setEventMask (group : Byte) (mask : Byte)
  /-- READ_SUMMARY (R178) -/
  | readSummary
  /-- SET_SUMMARY_ENABLE (R176) -/
  | setSummaryEnable (setting : Byte)
  /-- BEACON of a level node (R28, R159): four lane reports in lane index order. -/
  | beacon (stop : Stop) (aIn : LaneReport) (aOut : LaneReport) (bIn : LaneReport) (bOut : LaneReport)
  /-- LANE_STATE (R28) -/
  | laneState (stop : Stop) (lane : LaneName) (report : LaneReport)
  /-- CLAIM_PUT (R71) -/
  | claimPut (stop : Stop) (ident : Ident)
  /-- CLAIM_TAKE (R74) -/
  | claimTake (stop : Stop) (side : Side)
  /-- DONE (R50): the slot and generation bytes of R164. -/
  | done (sender : Sender) (slot : Byte) (gen : Byte)
  /-- ABORTED (R51) -/
  | aborted (sender : Sender) (slot : Byte) (gen : Byte)
  /-- AUDIT_SCAN (R41) -/
  | auditScan (stop : Stop) (scan : Scan)
  /-- LIFT_BEACON (R87) -/
  | liftBeacon (side : Side) (report : CarriageReport)
  /-- CARRIAGE_STATE (R87) -/
  | carriageState (side : Side) (report : CarriageReport)
  /-- JOB_REQUEST (R89) -/
  | jobRequest (side : Side)
  /-- FRONT_BEACON (R159) -/
  | frontBeacon
  /-- ARRIVAL (R108): side, weight and position bytes as R159 passes them on. -/
  | arrival (side : Byte) (ident : Ident) (weight : Byte) (position : Byte)
  /-- EXIT_READ (R127) -/
  | exitRead (side : Byte) (ident : Ident)
  /-- DISCARDED_FRAME (R156) -/
  | discardedFrame (run : Incoming)
  /-- WRONG_NODE (R157) -/
  | wrongNode (port : Port)
  /-- FOREIGN_FRAME (R158) -/
  | foreignFrame (port : Port)
  /-- MALFORMED_FRAME (R158) -/
  | malformedFrame (port : Port)
  /-- MOTION_TIMEOUT (R49) -/
  | motionTimeout (slot : Fin 34)
  /-- CONFIRM_TIMEOUT (R55) -/
  | confirmTimeout (slot : Fin 34)
  /-- EXIT_READ_WINDOW_EXPIRY (R57) -/
  | exitReadWindowExpiry (slot : Fin 34)
  /-- SETTLE_EXPIRY (R31) -/
  | settleExpiry (lane : LaneId)
  /-- SCAN_TIMEOUT (R42) -/
  | scanTimeout (level : Level)
  /-- APPROVAL_TIMEOUT (R79) -/
  | approvalTimeout (level : Level)
  /-- LINK_LOST (R160) -/
  | linkLost (port : Port)
  /-- ENTRY_AGED (R114) -/
  | entryAged (side : Side)
  /-- STATUS_PERIOD_END (R162) -/
  | statusPeriodEnd
  /-- FRAME_LEAVES_LINK (R162) -/
  | frameLeavesLink (port : Port)
  deriving DecidableEq, Repr

end Sys2Proof
end

