-- ==== Sys2Proof/Decode.lean ====
section
/-! DEFINITION. Bytes to commands and back: check words, request frames of the port and frames of the links.

No row of spec/opcode_table.json gives bits, so no word spells a command. What spells a command is the bytes that the
host shifts in (R170, R171) and the bytes on a link (R156 to R159, R164, R165); both are read and written here. -/

namespace Sys2Proof

/-- The command that a word spells by the bits of the table: no row gives bits, so none. -/
def decodeTableWord (_nbits _w : Nat) : Option Instr := none

/-! ### Check words (R156, R170) -/

/-- One bit of the CRC-8 with generator x^8 + x^2 + x + 1. -/
def crc8Bit (c : Byte) : Byte := if c.msb then (c <<< 1) ^^^ 0x07 else c <<< 1

/-- One byte of the CRC-8, most significant bit first. -/
def crc8Byte (c b : Byte) : Byte := (List.range 8).foldl (fun c _ => crc8Bit c) (c ^^^ b)

/-- The check byte of a request or response: initial value 0, no final inversion (R170). -/
def crc8 (bytes : List Byte) : Byte := bytes.foldl crc8Byte 0

/-- One bit of the CRC-16 with generator x^16 + x^12 + x^5 + 1. -/
def crc16Bit (c : BitVec 16) : BitVec 16 := if c.msb then (c <<< 1) ^^^ 0x1021 else c <<< 1

/-- One byte of the CRC-16, most significant bit first. -/
def crc16Byte (c : BitVec 16) (b : Byte) : BitVec 16 :=
  (List.range 8).foldl (fun c _ => crc16Bit c) (c ^^^ (b.setWidth 16 <<< 8))

/-- The check word of a link frame: initial value 0xFFFF, no final inversion (R156). -/
def crc16 (bytes : List Byte) : BitVec 16 := bytes.foldl crc16Byte 0xFFFF

/-! ### Fields of more than one byte: high byte first (R159, R171) -/

def identOf (a b c d : Byte) : Ident := a ++ b ++ c ++ d

def identBytes (i : Ident) : List Byte :=
  [i.extractLsb' 24 8, i.extractLsb' 16 8, i.extractLsb' 8 8, i.extractLsb' 0 8]

def wordOf (a b : Byte) : BitVec 16 := a ++ b

def wordBytes (w : BitVec 16) : List Byte := [w.extractLsb' 8 8, w.extractLsb' 0 8]

/-- A natural number as two bytes. -/
def natBytes (n : Nat) : List Byte := wordBytes (BitVec.ofNat 16 n)

/-! ### Request bodies (R171) -/

/-- The entries of OPEN_LIST and APPEND_ENTRIES: seven bytes each (R132, R171). -/
def entriesOf : List Byte → Option (List EntryArg)
  | [] => some []
  | a :: b :: c :: d :: l :: p :: w :: rest =>
    (entriesOf rest).map fun es => { ident := identOf a b c d, level := l, pref := p, weight := w } :: es
  | _ => none

def entryBytes (e : EntryArg) : List Byte := identBytes e.ident ++ [e.level, e.pref, e.weight]

def entriesBytes : List EntryArg → List Byte
  | [] => []
  | e :: es => entryBytes e ++ entriesBytes es

/-- The claim named by APPROVE_CLAIM and DENY_CLAIM: the kind fixes the form of the last field; a kind of neither form
takes either length (R77, R171; log 10). -/
def claimArgOf (kind : Byte) : List Byte → Option ClaimArg
  | [a, b, c, d] => if kind = 1 then none else some (.identity (identOf a b c d))
  | [s] => if kind = 0 then none else some (.side s)
  | _ => none

def claimArgBytes : ClaimArg → List Byte
  | .identity i => identBytes i
  | .side s => [s]

/-- The count of DIRECT_LIFT: a LIFT_TAKE carries one, a LIFT_DROP does not; another kind takes either length (R91,
R171; log 10). -/
def directCountOf (kind : Byte) : List Byte → Option (Option Byte)
  | [] => if kind = 4 then none else some none
  | [c] => if kind = 3 then none else some (some c)
  | _ => none

def countBytes : Option Byte → List Byte
  | none => []
  | some c => [c]

/-- The location of DECLARE_TOTE: the form byte carries the position of the form in R151's list (R171). -/
def locArgOf : List Byte → Option LocArg
  | [f, x, y] => if f = 0 then some (.lane x y) else none
  | [f, x] => if f = 1 then some (.carriage x) else if f = 2 then some (.entry x) else none
  | [f] => if f = 0 ∨ f = 1 ∨ f = 2 then none else some (.noForm f)
  | _ => none

def locArgBytes : LocArg → List Byte
  | .lane x y => [0, x, y]
  | .carriage x => [1, x]
  | .entry x => [2, x]
  | .noForm f => [f]

/-- Bodies of fixed shape. -/
def body0 (c : Instr) : List Byte → Option Instr
  | [] => some c
  | _ => none

def body1 (c : Byte → Instr) : List Byte → Option Instr
  | [x] => some (c x)
  | _ => none

def body2 (c : Byte → Byte → Instr) : List Byte → Option Instr
  | [x, y] => some (c x y)
  | _ => none

def body3 (c : Byte → Byte → Byte → Instr) : List Byte → Option Instr
  | [x, y, z] => some (c x y z)
  | _ => none

def bodyIdent (c : Ident → Instr) : List Byte → Option Instr
  | [x, y, z, w] => some (c (identOf x y z w))
  | _ => none

def bodyIdent1 (c : Ident → Byte → Instr) : List Byte → Option Instr
  | [x, y, z, w, b] => some (c (identOf x y z w) b)
  | _ => none

def bodyWord (c : BitVec 16 → Instr) : List Byte → Option Instr
  | [x, y] => some (c (wordOf x y))
  | _ => none

def body1Word (c : Byte → BitVec 16 → Instr) : List Byte → Option Instr
  | [b, x, y] => some (c b (wordOf x y))
  | _ => none

def bodyCorrection : List Byte → Option Instr
  | [e, on, a, b, c, d, x, y, z, w] => some (.setCorrection e on (identOf a b c d) (identOf x y z w))
  | _ => none

def bodyClaim (c : Byte → Byte → ClaimArg → Instr) : List Byte → Option Instr
  | level :: kind :: rest => (claimArgOf kind rest).map fun a => c level kind a
  | _ => none

def bodyDirect : List Byte → Option Instr
  | lift :: kind :: level :: rest => (directCountOf kind rest).map fun n => .directLift lift kind level n
  | _ => none

def bodyEntries (c : Byte → List EntryArg → Instr) : List Byte → Option Instr
  | b :: rest => (entriesOf rest).map fun es => c b es
  | _ => none

def bodyDeclare : List Byte → Option Instr
  | x :: y :: z :: w :: d :: l :: k :: p :: rest =>
    (locArgOf rest).map fun a => .declareTote (identOf x y z w) d l k p a
  | _ => none

/-- What reads the body of a request, by its code; none for a code that is not in the catalogue (10.4). R171 names no width for
the depth of SET_LANE_DEPTH and for the event group number of READ_EVENTS, READ_CLEAR_EVENTS and SET_EVENT_MASK: one byte is the
model's choice (log 10). -/
def requestReader (code : Nat) : Option (List Byte → Option Instr) :=
  match code with
  | 1 => some (bodyIdent .readTote)
  | 2 => some (bodyWord .walk)
  | 3 => some (bodyIdent1 .announceInbound)
  | 4 => some (bodyIdent1 .retarget)
  | 5 => some (bodyIdent .cancelRecord)
  | 6 => some bodyCorrection
  | 7 => some (body0 .readCorrections)
  | 16 => some (body2 .setLevelMap)
  | 17 => some (body3 .setLaneDepth)
  | 18 => some (body2 .setLevelMode)
  | 19 => some (body2 .setFenceOnLoss)
  | 20 => some (body1 .startAudit)
  | 21 => some (body2 .clearLaneBlock)
  | 22 => some (body1 .readLevel)
  | 23 => some (body2 .readLane)
  | 24 => some (body1 .readTransfer)
  | 32 => some (bodyClaim .approveClaim)
  | 33 => some (bodyClaim .denyClaim)
  | 34 => some (body1 .readApprovals)
  | 40 => some bodyDirect
  | 41 => some (body1 .cancelDirected)
  | 42 => some (body2 .setLiftEnable)
  | 43 => some (body1 .clearLiftBlock)
  | 44 => some (body1 .readLift)
  | 48 => some (body1 .readEntry)
  | 56 => some (bodyEntries .openList)
  | 57 => some (bodyEntries .appendEntries)
  | 58 => some (body1 .closeList)
  | 59 => some (body1 .abortList)
  | 60 => some (body2 .skipEntry)
  | 61 => some (bodyIdent .confirmExit)
  | 62 => some (bodyIdent .declareMissing)
  | 63 => some (body2 .setReportMode)
  | 64 => some (body1 .readStation)
  | 65 => some (body2 .readList)
  | 72 => some (bodyIdent1 .resolveHold)
  | 73 => some bodyDeclare
  | 80 => some (body0 .readLinks)
  | 96 => some (body0 .softReset)
  | 97 => some (body0 .identify)
  | 98 => some (body1Word .setParameter)
  | 99 => some (body0 .readParameters)
  | 112 => some (body1 .readEvents)
  | 113 => some (body1 .readClearEvents)
  | 114 => some (body2 .setEventMask)
  | 115 => some (body0 .readSummary)
  | 116 => some (body1 .setSummaryEnable)
  | _ => none

/-- The command that a REQUEST's bytes spell, the selector aside: the port's four checks in order, then the body (R170). -/
def requestOfBytes : List Byte → Instr
  | [] => .unknownRequest .badLength
  | [_] => .unknownRequest .badLength
  | code :: len :: rest =>
    if 250 < len.toNat ∨ rest.length < len.toNat + 1 then .unknownRequest .badLength
    else if rest[len.toNat]? ≠ some (crc8 (code :: len :: rest.take len.toNat)) then .unknownRequest .checkError
    else
      match requestReader code.toNat with
      | none => .unknownRequest .unknownRequest
      | some read =>
        match read (rest.take len.toNat) with
        | some c => c
        | none => .unknownRequest .badLength

/-- The command that a transaction spells by the bytes the host shifts in: the first is the selector (R167). A transaction
without a whole selector is a poll of no further byte. -/
def transactionOf : List Byte → Instr
  | [] => .collect (.polls 0)
  | selector :: rest =>
    if selector = 1 then requestOfBytes rest
    else if selector = 2 then .collect (.collects rest.length)
    else .collect (.polls rest.length)

/-- The code and body of a request (R171, 10.4); none for a command that is no request. -/
def requestParts : Instr → Option (Byte × List Byte)
  | .readTote i => some (1, identBytes i)
  | .walk n => some (2, wordBytes n)
  | .announceInbound i l => some (3, identBytes i ++ [l])
  | .retarget i l => some (4, identBytes i ++ [l])
  | .cancelRecord i => some (5, identBytes i)
  | .setCorrection e on r c => some (6, [e, on] ++ identBytes r ++ identBytes c)
  | .readCorrections => some (7, [])
  | .setLevelMap l n => some (16, [l, n])
  | .setLaneDepth l k d => some (17, [l, k, d])
  | .setLevelMode l m => some (18, [l, m])
  | .setFenceOnLoss l x => some (19, [l, x])
  | .startAudit l => some (20, [l])
  | .clearLaneBlock l k => some (21, [l, k])
  | .readLevel l => some (22, [l])
  | .readLane l k => some (23, [l, k])
  | .readTransfer n => some (24, [n])
  | .approveClaim l k a => some (32, [l, k] ++ claimArgBytes a)
  | .denyClaim l k a => some (33, [l, k] ++ claimArgBytes a)
  | .readApprovals n => some (34, [n])
  | .directLift x k l n => some (40, [x, k, l] ++ countBytes n)
  | .cancelDirected x => some (41, [x])
  | .setLiftEnable x n => some (42, [x, n])
  | .clearLiftBlock x => some (43, [x])
  | .readLift x => some (44, [x])
  | .readEntry x => some (48, [x])
  | .openList n es => some (56, n :: entriesBytes es)
  | .appendEntries n es => some (57, n :: entriesBytes es)
  | .closeList n => some (58, [n])
  | .abortList n => some (59, [n])
  | .skipEntry n r => some (60, [n, r])
  | .confirmExit i => some (61, identBytes i)
  | .declareMissing i => some (62, identBytes i)
  | .setReportMode n m => some (63, [n, m])
  | .readStation n => some (64, [n])
  | .readList n r => some (65, [n, r])
  | .resolveHold i d => some (72, identBytes i ++ [d])
  | .declareTote i d l w p a => some (73, identBytes i ++ [d, l, w, p] ++ locArgBytes a)
  | .readLinks => some (80, [])
  | .softReset => some (96, [])
  | .identify => some (97, [])
  | .setParameter n v => some (98, n :: wordBytes v)
  | .readParameters => some (99, [])
  | .readEvents g => some (112, [g])
  | .readClearEvents g => some (113, [g])
  | .setEventMask g m => some (114, [g, m])
  | .readSummary => some (115, [])
  | .setSummaryEnable x => some (116, [x])
  | .hardReset => none
  | .resetRelease => none
  | .stopAsserted => none
  | .stopReleased => none
  | .collect _ => none
  | .unknownRequest _ => none
  | .beacon _ _ _ _ _ => none
  | .laneState _ _ _ => none
  | .claimPut _ _ => none
  | .claimTake _ _ => none
  | .done _ _ _ => none
  | .aborted _ _ _ => none
  | .auditScan _ _ => none
  | .liftBeacon _ _ => none
  | .carriageState _ _ => none
  | .jobRequest _ => none
  | .frontBeacon => none
  | .arrival _ _ _ _ => none
  | .exitRead _ _ => none
  | .discardedFrame _ => none
  | .wrongNode _ => none
  | .foreignFrame _ => none
  | .malformedFrame _ => none
  | .motionTimeout _ => none
  | .confirmTimeout _ => none
  | .exitReadWindowExpiry _ => none
  | .settleExpiry _ => none
  | .scanTimeout _ => none
  | .approvalTimeout _ => none
  | .linkLost _ => none
  | .entryAged _ => none
  | .statusPeriodEnd => none
  | .frameLeavesLink _ => none

/-- A frame of the port: code, body length, body, check byte (R170). -/
def portFrame (code : Byte) (body : List Byte) : List Byte :=
  let head := code :: BitVec.ofNat 8 body.length :: body
  head ++ [crc8 head]

/-- The bytes of a request. -/
def requestBytes (c : Instr) : Option (List Byte) := (requestParts c).map fun p => portFrame p.1 p.2

/-! ### Frames of the links (R156 to R159, R164, R165) -/

/-- The node number of the partner on a port (R156, R157). -/
def Port.node : Port → Byte
  | .stop n => BitVec.ofNat 8 (n.val + 1)
  | .lift .a => 40
  | .lift .b => 41
  | .front => 50

/-- A frame of a link: marker, node, kind, body length, body, check word high byte first (R156). -/
def linkFrame (node kind : Byte) (body : List Byte) : List Byte :=
  let checked := node :: kind :: BitVec.ofNat 8 body.length :: body
  0xC3 :: checked ++ wordBytes (crc16 checked)

/-- A lane report byte; an upper bit set makes the frame malformed (R165). -/
def laneReportOf (b : Byte) : Option LaneReport :=
  if b &&& 0xF8 = 0 then some { count := ⟨b.toNat % 4, by omega⟩, settled := b.getLsbD 2 } else none

def laneReportByte (r : LaneReport) : Byte := BitVec.ofNat 8 (r.count.val + if r.settled then 4 else 0)

/-- One place of a carriage report: a seated bit without an occupied bit is not seated (R165). -/
def placeOf (occupied seated : Bool) : PlaceReport :=
  if occupied then (if seated then .seated else .running) else .empty

/-- A carriage report byte (R165). -/
def carriageReportOf (b : Byte) : Option CarriageReport :=
  if b &&& 0xF0 = 0 then
    some { front := placeOf (b.getLsbD 0) (b.getLsbD 1), back := placeOf (b.getLsbD 2) (b.getLsbD 3) }
  else none

def placeBits : PlaceReport → Nat
  | .empty => 0
  | .running => 1
  | .seated => 3

def carriageReportByte (r : CarriageReport) : Byte := BitVec.ofNat 8 (placeBits r.front + 4 * placeBits r.back)

/-- A lane index (R159). -/
def laneIndexOf (b : Byte) : Option LaneName :=
  if b = 0 then some .aIn else if b = 1 then some .aOut else if b = 2 then some .bIn
  else if b = 3 then some .bOut else none

def laneIndexByte : LaneName → Byte
  | .aIn => 0
  | .aOut => 1
  | .bIn => 2
  | .bOut => 3

/-- A number of identities taken from the front of some bytes, with what is left. -/
def takeIdents : Nat → List Byte → Option (List Ident × List Byte)
  | 0, rest => some ([], rest)
  | n + 1, a :: b :: c :: d :: rest => (takeIdents n rest).map fun p => (identOf a b c d :: p.1, p.2)
  | _ + 1, _ => none

/-- One lane's list of a scan: a count of 0 to 3, then that many identities (R159). -/
def takeScan : List Byte → Option (List Ident × List Byte)
  | [] => none
  | n :: rest => if 3 < n.toNat then none else takeIdents n.toNat rest

/-- The body of an AUDIT_SCAN: four lists in lane index order, and nothing after them (R159). -/
def scanOf (body : List Byte) : Option Scan :=
  match takeScan body with
  | none => none
  | some (a, r1) =>
    match takeScan r1 with
    | none => none
    | some (b, r2) =>
      match takeScan r2 with
      | none => none
      | some (c, r3) =>
        match takeScan r3 with
        | some (d, []) => some { aIn := a, aOut := b, bIn := c, bOut := d }
        | _ => none

def identsBytes : List Ident → List Byte
  | [] => []
  | i :: rest => identBytes i ++ identsBytes rest

def scanListBytes (l : List Ident) : List Byte := BitVec.ofNat 8 l.length :: identsBytes l

def scanBytes (x : Scan) : List Byte :=
  scanListBytes x.aIn ++ scanListBytes x.aOut ++ scanListBytes x.bIn ++ scanListBytes x.bOut

def beaconOf (stop : Stop) : List Byte → Option Instr
  | [a, b, c, d] =>
    match laneReportOf a, laneReportOf b, laneReportOf c, laneReportOf d with
    | some a, some b, some c, some d => some (.beacon stop a b c d)
    | _, _, _, _ => none
  | _ => none

def laneStateOf (stop : Stop) : List Byte → Option Instr
  | [i, r] =>
    match laneIndexOf i, laneReportOf r with
    | some n, some r => some (.laneState stop n r)
    | _, _ => none
  | _ => none

def claimTakeOf (stop : Stop) : List Byte → Option Instr
  | [b] => if b = 0 then some (.claimTake stop .a) else if b = 1 then some (.claimTake stop .b) else none
  | _ => none

def carriageFrameOf (c : CarriageReport → Instr) : List Byte → Option Instr
  | [b] => (carriageReportOf b).map c
  | _ => none

def arrivalOf : List Byte → Option Instr
  | [s, a, b, c, d, w, p] => some (.arrival s (identOf a b c d) w p)
  | _ => none

def exitReadOf : List Byte → Option Instr
  | [s, a, b, c, d] => some (.exitRead s (identOf a b c d))
  | _ => none

/-- What reads the body of a frame from a port, by its kind code; none for a kind that is foreign there (R158, R159). -/
def frameReader (p : Port) (kind : Nat) : Option (List Byte → Option Instr) :=
  match p with
  | .stop n =>
    match kind with
    | 1 => some (beaconOf n)
    | 2 => some (laneStateOf n)
    | 3 => some (bodyIdent (.claimPut n))
    | 4 => some (claimTakeOf n)
    | 5 => some (body2 (.done (.node n)))
    | 6 => some (body2 (.aborted (.node n)))
    | 7 => some fun body => (scanOf body).map (.auditScan n)
    | _ => none
  | .lift side =>
    match kind with
    | 1 => some (carriageFrameOf (.liftBeacon side))
    | 8 => some (carriageFrameOf (.carriageState side))
    | 9 => some (body0 (.jobRequest side))
    | 5 => some (body2 (.done (.lift side)))
    | 6 => some (body2 (.aborted (.lift side)))
    | _ => none
  | .front =>
    match kind with
    | 1 => some (body0 .frontBeacon)
    | 10 => some arrivalOf
    | 11 => some exitReadOf
    | _ => none

/-- The command that a well-framed frame on a port is: its node number is checked, then its kind, then its body (R157,
R158). -/
def commandOfFrame (p : Port) (node kind : Byte) (body : List Byte) : Instr :=
  if node ≠ p.node then .wrongNode p
  else
    match frameReader p kind.toNat with
    | none => .foreignFrame p
    | some read =>
      match read body with
      | some c => c
      | none => .malformedFrame p

/-- The commands that a run of bytes on a link spells, in order. The receiver hunts for the marker; a frame that is not
well framed is discarded and the hunt resumes at the byte after its marker; a frame not yet whole is none (R156). One
byte at least is used at each turn, so `fuel` is the number of bytes. -/
def receive (p : Port) : Nat → List Byte → List Instr
  | 0, _ => []
  | _ + 1, [] => []
  | fuel + 1, m :: rest =>
    if m ≠ 0xC3 then receive p fuel rest
    else
      match rest with
      | node :: kind :: len :: more =>
        if 60 < len.toNat then .discardedFrame ⟨p, [m, node, kind, len]⟩ :: receive p fuel rest
        else if more.length < len.toNat + 2 then []
        else
          let body := more.take len.toNat
          if (more.drop len.toNat).take 2 = wordBytes (crc16 (node :: kind :: len :: body)) then
            commandOfFrame p node kind body :: receive p fuel (more.drop (len.toNat + 2))
          else .discardedFrame ⟨p, m :: node :: kind :: len :: more.take (len.toNat + 2)⟩ :: receive p fuel rest
      | _ => []

/-- What the receiver still holds of a run of bytes: those, from a start marker on, that may yet become a well-framed frame
(R156). It reads as `receive` does. -/
def unfinished : Nat → List Byte → List Byte
  | 0, _ => []
  | _ + 1, [] => []
  | fuel + 1, m :: rest =>
    if m ≠ 0xC3 then unfinished fuel rest
    else
      match rest with
      | node :: kind :: len :: more =>
        if 60 < len.toNat then unfinished fuel rest
        else if more.length < len.toNat + 2 then m :: rest
        else if (more.drop len.toNat).take 2 = wordBytes (crc16 (node :: kind :: len :: more.take len.toNat)) then
          unfinished fuel (more.drop (len.toNat + 2))
        else unfinished fuel rest
      | _ => m :: rest

/-- The port, kind and body of a frame that a partner sends (R159); none for a command that is no such frame. -/
def frameParts : Instr → Option (Port × Byte × List Byte)
  | .beacon n a b c d => some (.stop n, 1, [laneReportByte a, laneReportByte b, laneReportByte c, laneReportByte d])
  | .laneState n l r => some (.stop n, 2, [laneIndexByte l, laneReportByte r])
  | .claimPut n i => some (.stop n, 3, identBytes i)
  | .claimTake n .a => some (.stop n, 4, [0])
  | .claimTake n .b => some (.stop n, 4, [1])
  | .done (.node n) x g => some (.stop n, 5, [x, g])
  | .done (.lift side) x g => some (.lift side, 5, [x, g])
  | .aborted (.node n) x g => some (.stop n, 6, [x, g])
  | .aborted (.lift side) x g => some (.lift side, 6, [x, g])
  | .auditScan n x => some (.stop n, 7, scanBytes x)
  | .liftBeacon side r => some (.lift side, 1, [carriageReportByte r])
  | .carriageState side r => some (.lift side, 8, [carriageReportByte r])
  | .jobRequest side => some (.lift side, 9, [])
  | .frontBeacon => some (.front, 1, [])
  | .arrival x i w p => some (.front, 10, [x] ++ identBytes i ++ [w, p])
  | .exitRead x i => some (.front, 11, [x] ++ identBytes i)
  | .hardReset => none
  | .resetRelease => none
  | .stopAsserted => none
  | .stopReleased => none
  | .collect _ => none
  | .unknownRequest _ => none
  | .readTote _ => none
  | .walk _ => none
  | .announceInbound _ _ => none
  | .retarget _ _ => none
  | .cancelRecord _ => none
  | .setCorrection _ _ _ _ => none
  | .readCorrections => none
  | .setLevelMap _ _ => none
  | .setLaneDepth _ _ _ => none
  | .setLevelMode _ _ => none
  | .setFenceOnLoss _ _ => none
  | .startAudit _ => none
  | .clearLaneBlock _ _ => none
  | .readLevel _ => none
  | .readLane _ _ => none
  | .readTransfer _ => none
  | .approveClaim _ _ _ => none
  | .denyClaim _ _ _ => none
  | .readApprovals _ => none
  | .directLift _ _ _ _ => none
  | .cancelDirected _ => none
  | .setLiftEnable _ _ => none
  | .clearLiftBlock _ => none
  | .readLift _ => none
  | .readEntry _ => none
  | .openList _ _ => none
  | .appendEntries _ _ => none
  | .closeList _ => none
  | .abortList _ => none
  | .skipEntry _ _ => none
  | .confirmExit _ => none
  | .declareMissing _ => none
  | .setReportMode _ _ => none
  | .readStation _ => none
  | .readList _ _ => none
  | .resolveHold _ _ => none
  | .declareTote _ _ _ _ _ _ => none
  | .readLinks => none
  | .softReset => none
  | .identify => none
  | .setParameter _ _ => none
  | .readParameters => none
  | .readEvents _ => none
  | .readClearEvents _ => none
  | .setEventMask _ _ => none
  | .readSummary => none
  | .setSummaryEnable _ => none
  | .discardedFrame _ => none
  | .wrongNode _ => none
  | .foreignFrame _ => none
  | .malformedFrame _ => none
  | .motionTimeout _ => none
  | .confirmTimeout _ => none
  | .exitReadWindowExpiry _ => none
  | .settleExpiry _ => none
  | .scanTimeout _ => none
  | .approvalTimeout _ => none
  | .linkLost _ => none
  | .entryAged _ => none
  | .statusPeriodEnd => none
  | .frameLeavesLink _ => none

/-- The bytes of a frame that a partner sends. -/
def frameBytes (c : Instr) : Option (List Byte) := (frameParts c).map fun p => linkFrame p.1.node p.2.1 p.2.2

end Sys2Proof
end

