-- ==== Sys2Proof/Config.lean ====
section
/-! DEFINITION. What is fixed for the part (R174) and the values the manual leaves free.

A free value has no body: nothing can evaluate it, and a claim holds whatever it is. -/

namespace Sys2Proof.Config

/-- The part code that IDENTIFY returns (R174). -/
def partCode : Nat := 2614

/-- The revision number that IDENTIFY returns (R174). -/
def revision : Nat := 3

/-- Record slots of the tote table (R6). -/
def recordSlots : Nat := 512

/-- Entries that one release list may hold (R117). -/
def listEntries : Nat := 64

/-- The STATUS period, 0.2 s (R162). -/
def statusPeriod : Nat := 2

/-- Where an age stays: 999.9 s (R106). -/
def ageCap : Nat := 9999

/-- FREE VALUE (log 3). R162 tells a frame that has begun to leave a link from one that is still waiting, and does
not say when a waiting frame begins. `frameBegun k i` says, at the k-th time the part asks, whether the frame at
the head of link i's order has begun to leave. -/
opaque frameBegun : Nat → Nat → Bool

/-- FREE VALUE (log 2). When several expiries are due, the manual does not say which is taken first.
`expiryPick k n` picks, at the k-th time the part asks, one of the n expiries that are due. -/
opaque expiryPick : Nat → Nat → Nat

end Sys2Proof.Config
end

