-- ==== Sys2Proof/Machine/State.lean ====
section
/-! DEFINITION. The state of the AT-36 as plain data, its two ways to stop, and the state after a reset.

Every field names the rule of spec/ that gives it. A field that the manual calls present only at times is an
`Option`, or is carried by the constructor of the value that makes it present. -/

namespace Sys2Proof.Machine

/-! ### The two ways a step can stop -/

/-- Faults. The manual gives every command an effect, so nothing in this part stops the machine: there is none. -/
inductive Fault where
  deriving DecidableEq, Repr

/-- Refusals. -/
inductive Refusal where
  /-- Raised only by an arm of `exec` whose command has no meaning yet (safe: nothing can be proved of it). No arm
  of this model raises it. -/
  | notModelled (mnemonic : String)
  deriving DecidableEq, Repr

/-! ### Codes -/

/-- The response codes, which are also the refusal codes of REFUSE and REJECT (R171), in their numbering. -/
inductive Code where
  | ok | none | end_ | noRecord | duplicate | wrongState | wrongLevel | unmapped | levelOff | levelDraining
  | levelFenced | audit | laneBlocked | laneBusy | settling | laneFull | laneEmpty | notEligible | carriageFull
  | mixedDirection | weightLimit | busy | blocked | stopped | tableFull | outOfRange | mismatch | checkError
  | unknownRequest | badLength | denied | timeout | noRead | overhang | overweight | queueFull
  deriving DecidableEq, Repr

/-! ### The tote table (R1, R2, R10, R17) -/

inductive Direction where
  | inbound
  | outbound
  deriving DecidableEq, Repr

/-- Side preference of an outbound record (R1). -/
inductive Pref where
  | a
  | b
  | either
  deriving DecidableEq, Repr

/-- A weight class, 0 to 4 (R1). -/
abbrev Weight := Fin 5

/-- Why a transfer failed (R45). -/
inductive FailReason where
  | motionTimeout
  | confirmTimeout
  | confirmContrary
  deriving DecidableEq, Repr

/-- Why a record is held (R1): a failed transfer, or one of the two exit faults. -/
inductive HoldReason where
  | failed (why : FailReason)
  | exitMismatch
  | exitNoRead
  deriving DecidableEq, Repr

/-- The giver of a handover (R1, R47). -/
inductive Giver where
  | lane (lane : LaneId)
  | carriage (lift : Side)
  | entry (side : Side)
  | rack (level : Level)
  deriving DecidableEq, Repr

/-- The taker of a handover (R1, R47). -/
inductive Taker where
  | lane (lane : LaneId)
  | carriage (lift : Side)
  | shuttle
  | exit
  deriving DecidableEq, Repr

/-- A hold record (R1, R10). -/
structure Hold where
  reason : HoldReason
  giver : Giver
  taker : Taker
  deriving DecidableEq, Repr

/-- The state of a record with the location or hold record that the state calls for (R1, R2). The position in a
lane or queue and the place on a carriage are those of the owning list (R2) and are not stored here. -/
inductive Place where
  | expected
  | entry (side : Side)
  | lane (lane : LaneId)
  | carriage (lift : Side)
  | held (hold : Hold)
  deriving DecidableEq, Repr

/-- An entry reference: list number 0 to 15 and rank 1 to 64 (R1). -/
structure EntryRef where
  list : Fin 16
  rank : Nat
  deriving DecidableEq, Repr

/-- A transfer number: slot and generation (R46, R164). -/
structure TransferNumber where
  slot : Fin 34
  gen : Byte
  deriving DecidableEq, Repr

/-- The record of one tote (R1). -/
structure Record where
  ident : Ident
  direction : Direction
  place : Place
  level : Level
  pref : Option Pref
  weight : Option Weight
  entry : Option EntryRef
  transfer : Option TransferNumber
  deriving DecidableEq, Repr

/-- One entry of the identity correction table (R17). -/
structure Correction where
  enabled : Bool
  read : Ident
  corrected : Ident
  deriving DecidableEq, Repr

/-! ### Levels and lanes (R21, R32, R35, R38, R39) -/

inductive BlockReason where
  | confirmFail
  | unexpectedChange
  | auditMismatch
  | scanTimeout
  deriving DecidableEq, Repr

/-- A lane's condition (R21), with the settle timer while SETTLING and the block reason while BLOCKED. -/
inductive Condition where
  | clear
  | settling (timer : Nat)
  | audit
  | blocked (why : BlockReason)
  deriving DecidableEq, Repr

/-- A lane (R21). Its depth, which a soft reset keeps, stands in `Settings`. -/
structure Lane where
  contents : List Ident
  reserved : Nat
  condition : Condition
  report : Option LaneReport
  discrepancy : Option (List Ident)
  deriving DecidableEq, Repr

inductive Mode where
  | off
  | manual
  | auto
  | draining
  deriving DecidableEq, Repr

/-- A logical level: mode (R32), fence (R38), fault streak (R35), and the scan timer of a running audit (R39). -/
structure LevelState where
  mode : Mode
  fenced : Bool
  streak : Nat
  scan : Option Nat
  deriving DecidableEq, Repr

/-! ### The transfer table (R45, R47) -/

inductive Kind where
  | shuttlePut
  | shuttleTake
  | entryLoad
  | liftDrop
  | liftTake
  | exitUnload
  deriving DecidableEq, Repr

inductive LastEnd where
  | none
  | committed
  | aborted
  | failed (why : FailReason)
  deriving DecidableEq, Repr

/-- Start count, target and mark of one lane or carriage that an open transfer names (R45, R48). -/
structure Watch where
  start : Nat
  target : Nat
  mark : Bool
  deriving DecidableEq, Repr

/-- An open transfer (R45). GRANTED is `confirming = false`. -/
structure Open where
  kind : Kind
  confirming : Bool
  totes : List Ident
  granted : Nat
  giver : Giver
  taker : Taker
  laneWatch : Option Watch
  carriageWatch : Option Watch
  timer : Nat
  paused : Bool
  reads : Nat
  deriving DecidableEq, Repr

/-- A transfer slot (R45): FREE is `opened = none`. -/
structure Slot where
  generation : Byte
  lastEnd : LastEnd
  opened : Option Open
  deriving DecidableEq, Repr

/-! ### Shuttle claims (R68) -/

inductive ClaimState where
  | idle
  | awaitingApproval
  | working
  deriving DecidableEq, Repr

/-- What a shuttle claims: a put of an identity, or a take from a side (R68). -/
inductive Claim where
  | put (ident : Ident)
  | take (side : Side)
  deriving DecidableEq, Repr

/-- A pending claim of the approval list (R68). -/
structure PendingClaim where
  level : Level
  claim : Claim
  timer : Nat
  deriving DecidableEq, Repr

/-! ### Lifts (R83) -/

inductive LiftStatus where
  | disabled
  | ready
  | parked
  | working
  | blocked
  deriving DecidableEq, Repr

/-- One reserved carriage place: the direction and weight class of its tote (R83). -/
structure Reserved where
  direction : Direction
  weight : Weight
  deriving DecidableEq, Repr

/-- A directed job (R83). -/
inductive Directed where
  | take (level : Level) (count : Nat)
  | drop (level : Level)
  deriving DecidableEq, Repr

/-- A lift (R83). Its parked request is present exactly in PARKED. `disputed` is the verdict that R88 passed on the latest
carriage report when it arrived: compared with the contents as they stood then, it disagreed (log 7). -/
structure Lift where
  status : LiftStatus
  contents : List Ident
  reserved : List Reserved
  report : Option CarriageReport
  disputed : Bool
  directed : Option Directed
  refusal : Option Code
  stuck : Bool
  deriving DecidableEq, Repr

/-! ### The entry point (R106) -/

/-- A weight class or OVERWEIGHT, as an arrival reports it (R106). -/
inductive Weighed where
  | weight (w : Weight)
  | overweight
  deriving DecidableEq, Repr

/-- The last rejection of a side (R106). -/
structure Rejection where
  ident : Ident
  reason : Code
  weighed : Weighed
  deriving DecidableEq, Repr

/-- An entry queue (R106): the head age is there while the queue is not empty. -/
structure EntryQueue where
  contents : List Ident
  age : Option Nat
  aged : Bool
  rejection : Option Rejection
  deriving DecidableEq, Repr

/-! ### The sequence unit (R116 to R118) -/

inductive EntryState where
  | pending
  | claimed
  | loaded
  | delivered
  | exitHeld
  | missing
  | skipped
  deriving DecidableEq, Repr

/-- An entry of a release list (R118). Its rank is its place in the list, counted from 1, and its record is the one
that holds its identity. -/
structure Entry where
  ident : Ident
  level : Level
  pref : Pref
  weight : Weight
  state : EntryState
  deriving DecidableEq, Repr

/-- A list in use (R117). -/
structure ReleaseList where
  station : StationNo
  opening : Nat
  closed : Bool
  entries : List Entry
  deriving DecidableEq, Repr

/-- Where a station's pointer stands: an entry, the end of an OPEN list, or the end (R116). -/
inductive Pointer where
  | entry (ref : EntryRef)
  | endOfList (list : Fin 16)
  | atEnd
  deriving DecidableEq, Repr

/-- Next-to-load may also be withheld (R116, R121). -/
inductive LoadPointer where
  | withheld
  | stands (at_ : Pointer)
  deriving DecidableEq, Repr

/-- A station's last exit fault (R116). -/
structure ExitFault where
  expected : Ident
  read : Ident
  reason : HoldReason
  deriving DecidableEq, Repr

/-- A station record (R116). Its report mode, which a soft reset keeps, stands in `Settings`. -/
structure Station where
  queue : List (Fin 16)
  nextLoad : LoadPointer
  nextExit : Pointer
  stalled : Bool
  fault : Option ExitFault
  deriving DecidableEq, Repr

inductive ReportMode where
  | each
  | list
  deriving DecidableEq, Repr

/-! ### Links (R159 to R163) -/

inductive ResetKind where
  | hard
  | soft
  deriving DecidableEq, Repr

/-- The frames that the part sends (R159). -/
inductive OutFrame where
  | status (stopped : Bool)
  | grant (slot : Byte) (gen : Byte) (kind : Kind) (lane : LaneName) (ident : Ident)
  | job (slot : Byte) (gen : Byte) (kind : Kind) (count : Nat) (stop : Option Stop) (lane : Option LaneName) (idents : List Ident)
  | idle
  | wait
  | refuse (reason : Code)
  | ack (slot : Byte) (gen : Byte)
  | late (slot : Byte) (gen : Byte)
  | stale (slot : Byte) (gen : Byte)
  | auditRequest
  | accept (ident : Ident) (position : Nat)
  | reject (ident : Ident) (reason : Code)
  | resync (kind : ResetKind)
  deriving DecidableEq, Repr

/-- A link's status, with the remaining silence time while UP (R160). -/
inductive LinkStatus where
  | down
  | up (silence : Nat)
  | lost
  deriving DecidableEq, Repr

/-- A link (R156, R160, R162). `heard` holds the bytes of the frame that its receiver has partly received, from the start
marker on. `order` holds the frames produced and not yet gone, the next to go first. `begun` says that the frame at its
head is known to have begun to leave. -/
structure Link where
  status : LinkStatus
  heard : List Byte
  order : List OutFrame
  begun : Bool
  deriving DecidableEq, Repr

/-! ### The request port's chip select (R167, R168) -/

/-- Where the port's transaction stands: no chip select; chip select asserted, with the status byte as it stood then
(R168); or chip select asserted since a hard reset abandoned its transaction, so that its release ends none (R167). -/
inductive ChipSelect where
  | idle
  | asserted (status : Byte)
  | abandoned
  deriving DecidableEq, Repr

/-! ### Settings: all that a soft reset keeps (R172, R173) -/

/-- The eleven parameters, each in its unit (R172). -/
structure Params where
  motionLimitShuttle : Nat
  motionLimitLift : Nat
  confirmWindow : Nat
  exitReadWindow : Nat
  settleTime : Nat
  lossTime : Nat
  approvalLimit : Nat
  entryAgeLimit : Nat
  scanLimit : Nat
  streakLimit : Nat
  carriageLimit : Nat
  deriving DecidableEq, Repr

/-- The settings that a soft reset keeps (R173). -/
structure Settings where
  corrections : Vector Correction 8
  levelMap : Vector (Option Stop) 32
  laneDepth : Vector Nat 128
  fenceOnLoss : Vector Bool 32
  reportMode : Vector ReportMode 4
  masks : Vector Byte 41
  summaryEnable : Bool
  params : Params
  deriving DecidableEq, Repr

/-! ### Responses (R171): what each request's owning rule returns -/

/-- What READ_LEVEL returns (R44). -/
structure LevelView where
  stop : Option Stop
  mode : Mode
  fenceOnLoss : Bool
  fenced : Bool
  streak : Nat
  scan : Option Nat
  deriving DecidableEq, Repr

/-- What READ_LANE returns (R44). -/
structure LaneView where
  depth : Nat
  lane : Lane
  transfer : Option TransferNumber
  deriving DecidableEq, Repr

/-- What READ_LIFT returns (R105): the reservation as a count of places. -/
structure LiftView where
  status : LiftStatus
  contents : List Ident
  reserved : Nat
  report : Option CarriageReport
  parkedRequest : Bool
  directed : Option Directed
  refusal : Option Code
  stuck : Bool
  transfer : Option TransferNumber
  deriving DecidableEq, Repr

/-- One record of READ_ENTRY (R115). -/
structure EntryRow where
  ident : Ident
  level : Level
  weight : Option Weight
  deriving DecidableEq, Repr

/-- What READ_ENTRY returns (R115). -/
structure EntryView where
  rows : List EntryRow
  age : Option Nat
  isAged : Bool
  mark : Bool
  load : Option TransferNumber
  rejection : Option Rejection
  deriving DecidableEq, Repr

/-- One list of a station's queue in READ_STATION (R140). -/
structure QueueRow where
  list : Fin 16
  opening : Nat
  closed : Bool
  deriving DecidableEq, Repr

/-- What READ_STATION returns (R140). -/
structure StationView where
  queue : List QueueRow
  nextLoad : LoadPointer
  nextExit : Pointer
  stalled : Bool
  mode : ReportMode
  fault : Option ExitFault
  unsolicited : Option (Side × Ident)
  deriving DecidableEq, Repr

/-- One entry of READ_LIST with its rank (R140). -/
structure ListRow where
  rank : Nat
  entry : Entry
  deriving DecidableEq, Repr

/-- What READ_LIST returns (R140). -/
structure ListView where
  station : StationNo
  opening : Nat
  closed : Bool
  size : Nat
  rows : List ListRow
  deriving DecidableEq, Repr

/-- A record as READ_TOTE and WALK give it: with its position, counted from 1, where it has a location (R12). -/
structure ToteView where
  record : Record
  position : Option Nat
  deriving DecidableEq, Repr

/-- The body of a response. -/
inductive Body where
  | empty
  | position (n : Nat)
  | mode (m : Mode)
  | number (t : TransferNumber)
  | opened (list : Fin 16) (opening : Nat)
  | rank (n : Nat)
  | tote (v : ToteView)
  | walked (slot : Nat) (v : ToteView)
  | corrections (t : Vector Correction 8)
  | level (v : LevelView)
  | lane (v : LaneView)
  | slot (v : Slot)
  | approvals (count : Nat) (part : List PendingClaim)
  | lift (v : LiftView)
  | entry (v : EntryView)
  | station (v : StationView)
  | list (v : ListView)
  | links (v : Vector LinkStatus 39)
  | identity (part : Nat) (revision : Nat)
  | params (p : Params)
  | events (flags : Byte) (mask : Byte)
  | summary (v : Vector Byte 41)
  deriving DecidableEq, Repr

/-- A response: its code and what it carries (R170, R171). -/
structure Response where
  code : Code
  body : Body
  deriving DecidableEq, Repr

end Sys2Proof.Machine

namespace Sys2Proof.Machine

/-- The state of the part. -/
structure State where
  /-- the reset line is asserted: the part is in hard reset (00_scope.md, R66) -/
  inReset : Bool
  /-- kind of the latest reset (R163) -/
  resetKind : ResetKind
  /-- the aisle stop line is asserted (R141) -/
  stopLine : Bool
  /-- the aisle stop status is STOPPED (R141) -/
  stopped : Bool
  /-- what a soft reset keeps (R173) -/
  settings : Settings
  /-- the occupied record slots, by rising slot number (R6) -/
  records : List (Nat × Record)
  /-- the 128 lanes (R21) -/
  lanes : Vector Lane 128
  /-- the 32 logical levels (R32) -/
  levels : Vector LevelState 32
  /-- the 34 transfer slots (R45) -/
  slots : Vector Slot 34
  /-- the shuttle claim states (R68) -/
  claims : Vector ClaimState 32
  /-- the approval list, oldest first (R68) -/
  approvals : List PendingClaim
  /-- lifts A and B (R83) -/
  lifts : Vector Lift 2
  /-- entry queues A and B (R106) -/
  entries : Vector EntryQueue 2
  /-- the four station records (R116) -/
  stations : Vector Station 4
  /-- the 16 list slots (R117) -/
  lists : Vector (Option ReleaseList) 16
  /-- the opening counter (R117) -/
  opening : Nat
  /-- the aisle-wide last unsolicited read (R116) -/
  unsolicited : Option (Side × Ident)
  /-- the 39 links (R160, R162) -/
  links : Vector Link 39
  /-- what remains of the STATUS period, in steps of 0.1 s (R162) -/
  statusPeriod : Nat
  /-- the response buffer (R169) -/
  buffer : Option Response
  /-- the overrun flag (R169) -/
  overrun : Bool
  /-- the transaction in progress on the port (R167, R168) -/
  chip : ChipSelect
  /-- the bytes shifted out in the latest transaction; every byte after them is 0 (R167, log 14) -/
  portOut : List Byte
  /-- the flags of the 41 event groups (R175) -/
  flags : Vector Byte 41
  /-- the attention line (R179) -/
  attention : Bool
  /-- MODEL'S OWN (log 6): a cause of R101 has occurred in the event under way; false between events -/
  cause : Bool
  /-- MODEL'S OWN (logs 2, 3): how many times a free value has been asked for -/
  fresh : Nat
  /-- MODEL'S OWN: the commands waiting, first in first out -/
  pending : List Instr
  deriving DecidableEq, Repr

/-! ### Values after a reset -/

/-- The defaults of R172. -/
def Params.default : Params :=
  { motionLimitShuttle := 80, motionLimitLift := 120, confirmWindow := 15, exitReadWindow := 30, settleTime := 3,
    lossTime := 10, approvalLimit := 30, entryAgeLimit := 60, scanLimit := 30, streakLimit := 3, carriageLimit := 6 }

/-- Every setting after a hard reset (R17, R19, R21, R37, R116, R172, R176). -/
def Settings.default : Settings :=
  { corrections := Vector.replicate 8 { enabled := false, read := 0, corrected := 0 }
    levelMap := tab 32 fun l => some (l.castLE (by omega))
    laneDepth := Vector.replicate 128 2
    fenceOnLoss := Vector.replicate 32 true
    reportMode := Vector.replicate 4 .list
    masks := Vector.replicate 41 0
    summaryEnable := false
    params := Params.default }

/-- A lane after either reset (R21). -/
def Lane.initial : Lane :=
  { contents := [], reserved := 0, condition := .clear, report := none, discrepancy := none }

/-- A level after either reset (R32, R35, R39); a link that is DOWN fences no level (R38). -/
def LevelState.initial : LevelState := { mode := .off, fenced := false, streak := 0, scan := none }

/-- A transfer slot after a reset, with the generation it takes (R45, R66). -/
def Slot.initial (gen : Byte) : Slot := { generation := gen, lastEnd := .none, opened := none }

/-- A lift after either reset (R83): without a latest report there is no verdict on one. -/
def Lift.initial : Lift :=
  { status := .disabled, contents := [], reserved := [], report := none, disputed := false
    directed := none, refusal := none, stuck := false }

/-- An entry queue after either reset (R106). -/
def EntryQueue.initial : EntryQueue := { contents := [], age := none, aged := false, rejection := none }

/-- A station after either reset (R116). -/
def Station.initial : Station :=
  { queue := [], nextLoad := .stands .atEnd, nextExit := .atEnd, stalled := false, fault := none }

/-- A link after a hard reset (R160, R162). -/
def Link.initial : Link := { status := .down, heard := [], order := [], begun := false }

/-- The flags after either reset: RESET_SEEN alone, bit 0 of the aisle group (R175). -/
def resetFlags : Vector Byte 41 := upd (Vector.replicate 41 0) 0 fun _ => 1

/-- The part held in hard reset: every block in its state after a hard reset (R66, R175, R179), with the stop status
taken from the line (R141). The line's level, the queue and the count of free values are what they were. A transaction in
progress is abandoned: a chip select that was asserted only waits for its release (R167). -/
def State.inHardReset (line : Bool) (chip : ChipSelect) (fresh : Nat) (pending : List Instr) : State :=
  { inReset := true
    resetKind := .hard
    stopLine := line
    stopped := line
    settings := Settings.default
    records := []
    lanes := Vector.replicate 128 Lane.initial
    levels := Vector.replicate 32 LevelState.initial
    slots := Vector.replicate 34 (Slot.initial 0)
    claims := Vector.replicate 32 .idle
    approvals := []
    lifts := Vector.replicate 2 Lift.initial
    entries := Vector.replicate 2 EntryQueue.initial
    stations := Vector.replicate 4 Station.initial
    lists := Vector.replicate 16 none
    opening := 0
    unsolicited := none
    links := Vector.replicate 39 Link.initial
    statusPeriod := Config.statusPeriod
    buffer := none
    overrun := false
    chip := if chip = .idle then .idle else .abandoned
    portOut := []
    flags := resetFlags
    attention := false
    cause := false
    fresh := fresh
    pending := pending }

/-- The machine right after reset: it has just left hard reset with the stop line released and chip select not asserted,
and RESYNC with reset kind 0 has been produced on every link (R163). Log 5. -/
def State.reset : State :=
  { State.inHardReset false .idle 0 [] with
    inReset := false
    links := Vector.replicate 39 { Link.initial with order := [.resync .hard] } }

end Sys2Proof.Machine
end

