-- ==== Sys2Proof/Machine/Ops.lean ====
section
/-! DEFINITION. The named operations over the state: one home for every register, the lists of records, the frames
that leave on links, and the record table. -/

namespace Sys2Proof

/-! ### Where a thing stands in its row -/

def Side.ix : Side → Fin 2
  | .a => 0
  | .b => 1

def LaneName.ix : LaneName → Fin 4
  | .aIn => 0
  | .aOut => 1
  | .bIn => 2
  | .bOut => 3

/-- The lift a lane faces (R21). -/
def LaneName.side : LaneName → Side
  | .aIn => .a
  | .aOut => .a
  | .bIn => .b
  | .bOut => .b

/-- The IN lane of a side (R21, R47). -/
def Side.inLane : Side → LaneName
  | .a => .aIn
  | .b => .bIn

/-- The OUT lane of a side (R21, R47). -/
def Side.outLane : Side → LaneName
  | .a => .aOut
  | .b => .bOut

/-- The four lanes of a level in lane index order (R159). -/
def LaneName.all : List LaneName := [.aIn, .aOut, .bIn, .bOut]

def LaneId.ix (l : LaneId) : Fin 128 := ⟨4 * l.level.val + l.name.ix.val, by omega⟩

/-- Links 0 to 35 are the stops, 36 and 37 the lifts, 38 the front (R166). -/
def Port.ix : Port → Fin 39
  | .stop n => n.castLE (by omega)
  | .lift .a => 36
  | .lift .b => 37
  | .front => 38

def Sender.port : Sender → Port
  | .node s => .stop s
  | .lift side => .lift side

/-- The four lanes of a level. -/
def lanesOf (l : Level) : List LaneId := LaneName.all.map fun n => { level := l, name := n }

/-- Level n uses slot n - 1 (R45). -/
def shuttleSlot (l : Level) : Fin 34 := l.castLE (by omega)

/-- Slot 32 belongs to lift A and slot 33 to lift B (R45). -/
def liftSlot : Side → Fin 34
  | .a => 32
  | .b => 33

/-- The party whose slot it is: a level's shuttle, or a lift (R45). -/
def slotOwner (i : Fin 34) : Level ⊕ Side :=
  if h : i.val < 32 then .inl ⟨i.val, h⟩ else if i.val = 32 then .inr .a else .inr .b

end Sys2Proof

namespace Sys2Proof.Machine

abbrev Result := Host.Outcome State Fault Refusal

/-! ### Reading and changing one member -/

namespace State

def lane (s : State) (l : LaneId) : Lane := nth s.lanes l.ix
def modLane (s : State) (l : LaneId) (f : Lane → Lane) : State := { s with lanes := upd s.lanes l.ix f }

def level (s : State) (l : Level) : LevelState := nth s.levels l
def modLevel (s : State) (l : Level) (f : LevelState → LevelState) : State := { s with levels := upd s.levels l f }

def slot (s : State) (i : Fin 34) : Slot := nth s.slots i
def modSlot (s : State) (i : Fin 34) (f : Slot → Slot) : State := { s with slots := upd s.slots i f }

def claimState (s : State) (l : Level) : ClaimState := nth s.claims l
def setClaimState (s : State) (l : Level) (c : ClaimState) : State := { s with claims := upd s.claims l fun _ => c }

def lift (s : State) (side : Side) : Lift := nth s.lifts side.ix
def modLift (s : State) (side : Side) (f : Lift → Lift) : State := { s with lifts := upd s.lifts side.ix f }

def queue (s : State) (side : Side) : EntryQueue := nth s.entries side.ix
def modQueue (s : State) (side : Side) (f : EntryQueue → EntryQueue) : State :=
  { s with entries := upd s.entries side.ix f }

def station (s : State) (n : StationNo) : Station := nth s.stations n
def modStation (s : State) (n : StationNo) (f : Station → Station) : State :=
  { s with stations := upd s.stations n f }

def list (s : State) (l : Fin 16) : Option ReleaseList := nth s.lists l
def setList (s : State) (l : Fin 16) (r : Option ReleaseList) : State := { s with lists := upd s.lists l fun _ => r }

def link (s : State) (p : Port) : Link := nth s.links p.ix
def modLink (s : State) (p : Port) (f : Link → Link) : State := { s with links := upd s.links p.ix f }

/-- The depth of a lane (R21). -/
def depth (s : State) (l : LaneId) : Nat := nth s.settings.laneDepth l.ix

/-- The stop a level is mapped to, or none (R19). -/
def stopOf (s : State) (l : Level) : Option Stop := nth s.settings.levelMap l

/-- The level mapped to a stop, or none for a spare stop (R19). -/
def levelAt (s : State) (n : Stop) : Option Level := (List.finRange 32).find? fun l => s.stopOf l == some n

/-- A cause of re-evaluation has occurred in the event under way (R101). -/
def withCause (s : State) : State := { s with cause := true }

/-! ### The record table (R6 to R8, R11) -/

/-- The record that holds an identity (R11). -/
def lookup (s : State) (i : Ident) : Option Record := (s.records.find? fun p => p.2.ident == i).map (·.2)

/-- The record that holds an identity is changed in its slot. -/
def modRecord (s : State) (i : Ident) (f : Record → Record) : State :=
  { s with records := s.records.map fun p => if p.2.ident = i then (p.1, f p.2) else p }

/-- The record that holds an identity leaves the table and its slot becomes free (R8). -/
def retire (s : State) (i : Ident) : State := { s with records := s.records.filter fun p => p.2.ident ≠ i }

end State

/-- The lowest slot number from `k` up that is not in a rising list of slots (R6). -/
def lowestFree : List (Nat × Record) → Nat → Nat
  | [], k => k
  | p :: rest, k => if p.1 = k then lowestFree rest (k + 1) else k

/-- A record put into a slot, the list kept rising. -/
def insertSlot (k : Nat) (r : Record) : List (Nat × Record) → List (Nat × Record)
  | [] => [(k, r)]
  | p :: rest => if k < p.1 then (k, r) :: p :: rest else p :: insertSlot k r rest

namespace State

/-- The number of free record slots (R6, R7). -/
def freeSlots (s : State) : Nat := Config.recordSlots - s.records.length

/-- A record is created in the lowest-numbered free slot (R6, R7). -/
def create (s : State) (r : Record) : State :=
  { s with records := insertSlot (lowestFree s.records 0) r s.records }

/-- The record is listed in a transfer (R4). -/
def setTransfer (s : State) (i : Ident) (t : Option TransferNumber) : State :=
  s.modRecord i fun r => { r with transfer := t }

/-- The record takes a new state and location (R9). -/
def setPlace (s : State) (i : Ident) (p : Place) : State := s.modRecord i fun r => { r with place := p }

/-! ### The lists of records (R5, R23, R85, R107) -/

/-- The lane's contents are replaced (R23). -/
def setContents (s : State) (l : LaneId) (c : List Ident) : State := s.modLane l fun x => { x with contents := c }

/-- The carriage's contents are replaced. An event that changes them clears the stuck mark (R85, R94). -/
def setCarriage (s : State) (side : Side) (c : List Ident) : State :=
  s.modLift side fun x => if x.contents = c then x else { x with contents := c, stuck := false }

/-- The queue's contents are replaced. A head that the queue did not have before begins its age at 0.0 s with the
aged mark clear; an empty queue counts no age (R107, R113). -/
def setQueue (s : State) (side : Side) (c : List Ident) : State :=
  s.modQueue side fun x =>
    if x.contents.head? = c.head? then { x with contents := c }
    else { x with contents := c, age := if c.isEmpty then none else some 0, aged := false }

/-- The records leave the list of their giver; those behind close up (R23, R85, R107). -/
def leaveGiver (s : State) (g : Giver) (totes : List Ident) : State :=
  match g with
  | .lane l => s.setContents l ((s.lane l).contents.filter fun i => i ∉ totes)
  | .carriage side => s.setCarriage side ((s.lift side).contents.filter fun i => i ∉ totes)
  | .entry side => s.setQueue side ((s.queue side).contents.filter fun i => i ∉ totes)
  | .rack _ => s

/-- The place of a record in its list, counted from 1 (R2). -/
def positionOf (s : State) (r : Record) : Option Nat :=
  let place (c : List Ident) : Option Nat := (c.idxOf? r.ident).map (· + 1)
  match r.place with
  | .expected => none
  | .entry side => place (s.queue side).contents
  | .lane l => place (s.lane l).contents
  | .carriage side => place (s.lift side).contents
  | .held _ => none

/-- The weight classes of records, summed (R86). An inbound record that has no class yet counts 0: none such stands
in a queue, a lane or on a carriage (R1). -/
def weightSum (s : State) (totes : List Ident) : Nat :=
  (totes.map fun i => match s.lookup i with
    | some r => match r.weight with
      | some w => w.val
      | none => 0
    | none => 0).sum

/-- The direction of what a carriage holds, read from its FRONT record (R86). -/
def carriageDirection (s : State) (side : Side) : Option Direction :=
  match (s.lift side).contents with
  | [] => none
  | i :: _ => (s.lookup i).map (·.direction)

/-! ### Frames that leave (R162) -/

/-- A frame other than STATUS is produced on a link: it goes to the end of the link's order (R162). -/
def send (s : State) (p : Port) (f : OutFrame) : State :=
  s.modLink p fun x => { x with order := x.order ++ [f] }

/-- A frame is produced on the link of a level's stop. -/
def sendLevel (s : State) (l : Level) (f : OutFrame) : State :=
  match s.stopOf l with
  | some n => s.send (.stop n) f
  | none => s

end State

def OutFrame.isStatus : OutFrame → Bool
  | .status _ => true
  | .grant .. => false
  | .job .. => false
  | .idle => false
  | .wait => false
  | .refuse _ => false
  | .ack _ _ => false
  | .late _ _ => false
  | .stale _ _ => false
  | .auditRequest => false
  | .accept _ _ => false
  | .reject _ _ => false
  | .resync _ => false

/-- A STATUS frame is produced on a link: it replaces a STATUS frame that is still waiting to leave, in its place in
the order, and goes to the end otherwise (R162). Whether a frame at the head has begun to leave is the free value
`begins` unless it is known already (log 3). -/
def Link.putStatus (x : Link) (begins : Bool) (stopped : Bool) : Link :=
  match x.order with
  | [] => { x with order := [.status stopped] }
  | h :: rest =>
    if rest.any OutFrame.isStatus then
      { x with order := h :: rest.map fun f => if f.isStatus then .status stopped else f }
    else if h.isStatus then
      if x.begun || begins then { x with order := h :: (rest ++ [.status stopped]), begun := true }
      else { x with order := .status stopped :: rest }
    else { x with order := h :: (rest ++ [.status stopped]) }

/-- A link at a soft reset: it is DOWN, its receiver discards what it has partly received, a frame that has begun to leave
is sent to its end, every frame still waiting is discarded, and RESYNC follows (R160, R162, R163; log 3). -/
def Link.softReset (x : Link) (begins : Bool) : Link :=
  match x.order with
  | [] => { Link.initial with order := [.resync .soft] }
  | h :: _ =>
    if x.begun || begins then { Link.initial with order := [h, .resync .soft], begun := true }
    else { Link.initial with order := [.resync .soft] }

namespace State

/-- A STATUS frame with the stop status as it stands is produced on every link (R162). -/
def sendStatus (s : State) : State :=
  { s with
    links := tab 39 fun i => (nth s.links i).putStatus (Config.frameBegun s.fresh i.val) s.stopped
    fresh := s.fresh + 1 }

/-- The receiver of a link holds these bytes of a frame partly received (R156, R160). -/
def hear (s : State) (p : Port) (bytes : List Byte) : State := s.modLink p fun x => { x with heard := bytes }

/-- The frame at the head of a link's order has finished leaving, and the next may begin (R162). -/
def frameGone (s : State) (p : Port) : State :=
  s.modLink p fun x => { x with order := x.order.tail, begun := false }

end State

/-! ### Transfers read from the table (R26, R45) -/

/-- The lane that a giver and a taker name, if one of them is a lane (R47). -/
def laneNamed (g : Giver) (t : Taker) : Option LaneId :=
  match g, t with
  | .lane l, _ => some l
  | _, .lane l => some l
  | _, _ => none

/-- The carriage that a giver and a taker name (R47). -/
def carriageNamed (g : Giver) (t : Taker) : Option Side :=
  match g, t with
  | .carriage side, _ => some side
  | _, .carriage side => some side
  | _, _ => none

def Slot.namesLane (x : Slot) (l : LaneId) : Bool :=
  match x.opened with
  | some o => laneNamed o.giver o.taker == some l
  | none => false

namespace State

/-- The slot of the open transfer that names a lane (R26). -/
def slotNaming (s : State) (l : LaneId) : Option (Fin 34) :=
  (List.finRange 34).find? fun i => (s.slot i).namesLane l

/-- A lane is busy while an open transfer names it (R26). -/
def busy (s : State) (l : LaneId) : Bool := (s.slotNaming l).isSome

/-- The transfer in a slot touches a level: it is in that level's shuttle slot, or names one of its lanes (R26). -/
def touches (s : State) (i : Fin 34) (l : Level) : Bool :=
  (s.slot i).opened.isSome && (i == shuttleSlot l || LaneName.all.any fun n => (s.slot i).namesLane { level := l, name := n })

/-- Some open transfer touches a level (R26, R33). -/
def levelTouched (s : State) (l : Level) : Bool := (List.finRange 34).any fun i => s.touches i l

/-- The levels that the transfer in a slot touches (R26). -/
def levelsTouched (s : State) (i : Fin 34) : List Level := (List.finRange 32).filter fun l => s.touches i l

/-- The number of the open transfer in a slot (R46). -/
def numberOf (s : State) (i : Fin 34) : TransferNumber := { slot := i, gen := (s.slot i).generation }

/-- The number of the open transfer in a slot, if one is open. -/
def openNumber (s : State) (i : Fin 34) : Option TransferNumber :=
  if (s.slot i).opened.isSome then some (s.numberOf i) else none

end State

/-! ### Ordered checks -/

/-- Of checks taken in order, the refusal of the first that fails (00_scope.md, Answers). -/
def firstRefusal : List (Bool × Code) → Option Code
  | [] => none
  | (fails, c) :: rest => if fails then some c else firstRefusal rest

end Sys2Proof.Machine
end

