-- ==== Sys2Proof/Machine/Flags.lean ====
section
/-! DEFINITION. The event flags: the 41 groups, raising a flag, and the attention line (R175, R176, R179). -/

namespace Sys2Proof.Machine

inductive AisleFlag where
  | resetSeen | stopChange | frontLinkChange | unexpectedTote | holdRaised | wrongNode | spareLink
  deriving DecidableEq, Repr

inductive LevelFlag where
  | linkChange | wrongNode | transferFailed | modeChange | autoOff | laneBlocked | auditDone | approvalWaiting
  deriving DecidableEq, Repr

inductive LiftFlag where
  | linkChange | transferFailed | liftStuck | directedRefused | carriageMismatch
  deriving DecidableEq, Repr

inductive StationFlag where
  | delivered | listComplete | exitFault | stallCleared
  deriving DecidableEq, Repr

inductive EntryFlag where
  | rejected | entryAged
  deriving DecidableEq, Repr

/-- A flag of one of the 41 groups (R175). -/
inductive Flag where
  | aisle (f : AisleFlag)
  | level (l : Level) (f : LevelFlag)
  | lift (side : Side) (f : LiftFlag)
  | station (n : StationNo) (f : StationFlag)
  | entry (side : Side) (f : EntryFlag)
  deriving DecidableEq, Repr

/-- Group numbers (R175). -/
def Flag.group : Flag → Fin 41
  | .aisle _ => 0
  | .level l _ => ⟨l.val + 1, by omega⟩
  | .lift side _ => ⟨side.ix.val + 33, by omega⟩
  | .station n _ => ⟨n.val + 35, by omega⟩
  | .entry side _ => ⟨side.ix.val + 39, by omega⟩

/-- Bit positions (R175). -/
def Flag.bit : Flag → Nat
  | .aisle .resetSeen => 0
  | .aisle .stopChange => 1
  | .aisle .frontLinkChange => 2
  | .aisle .unexpectedTote => 3
  | .aisle .holdRaised => 4
  | .aisle .wrongNode => 5
  | .aisle .spareLink => 6
  | .level _ .linkChange => 0
  | .level _ .wrongNode => 1
  | .level _ .transferFailed => 2
  | .level _ .modeChange => 3
  | .level _ .autoOff => 4
  | .level _ .laneBlocked => 5
  | .level _ .auditDone => 6
  | .level _ .approvalWaiting => 7
  | .lift _ .linkChange => 0
  | .lift _ .transferFailed => 1
  | .lift _ .liftStuck => 2
  | .lift _ .directedRefused => 3
  | .lift _ .carriageMismatch => 4
  | .station _ .delivered => 0
  | .station _ .listComplete => 1
  | .station _ .exitFault => 2
  | .station _ .stallCleared => 3
  | .entry _ .rejected => 0
  | .entry _ .entryAged => 1

/-- The byte with the flag's bit alone. -/
def Flag.mask (f : Flag) : Byte := (1 : Byte) <<< f.bit

/-- The bits that flags of a group own (R175). -/
def ownedBits (g : Fin 41) : Byte :=
  if g.val = 0 then 0x7F else if g.val ≤ 32 then 0xFF else if g.val ≤ 34 then 0x1F
  else if g.val ≤ 38 then 0x0F else 0x03

/-- The group of a level's flags (R175). -/
def levelGroup (l : Level) : Fin 41 := ⟨l.val + 1, by omega⟩

/-- The level whose group it is (R175, R177). -/
def levelOfGroup (g : Fin 41) : Option Level :=
  if h : 1 ≤ g.val ∧ g.val ≤ 32 then some ⟨g.val - 1, by omega⟩ else none

namespace State

/-- A flag is raised: it is set whatever the mask and the summary enable (R175). -/
def raise (s : State) (f : Flag) : State := { s with flags := upd s.flags f.group fun b => b ||| f.mask }

def raised (s : State) (f : Flag) : Bool := nth s.flags f.group &&& f.mask != 0

/-- The flags of a group are cleared (R177). -/
def clearGroup (s : State) (g : Fin 41) : State := { s with flags := upd s.flags g fun _ => 0 }

/-- The value of the attention line: the summary enable is on and some flag is both set and unmasked (R179). -/
def attentionValue (s : State) : Bool :=
  s.settings.summaryEnable && (List.finRange 41).any fun g => nth s.flags g &&& nth s.settings.masks g != 0

/-- The attention line is recomputed (R179). -/
def recomputeAttention (s : State) : State := { s with attention := s.attentionValue }

/-- The summary byte of a group (R178). -/
def summaryByte (s : State) (g : Fin 41) : Byte :=
  (if nth s.flags g != 0 then 1 else 0) ||| (if nth s.flags g &&& nth s.settings.masks g != 0 then 2 else 0)

end State

end Sys2Proof.Machine
end

