-- ==== Sys2Proof/Machine/Operands.lean ====
section
/-! DEFINITION. The operand forms: how a field's byte names a value, or no value of the field's range (R171).

A byte outside the field's range gives `none`, and the owning rule refuses it OUT_OF_RANGE (R171). -/

namespace Sys2Proof

/-- Levels 1 to 32. -/
def Level.ofByte (b : Byte) : Option Level :=
  if h : 1 ≤ b.toNat ∧ b.toNat ≤ 32 then some ⟨b.toNat - 1, by omega⟩ else none

/-- Stops 1 to 36. -/
def Stop.ofByte (b : Byte) : Option Stop :=
  if h : 1 ≤ b.toNat ∧ b.toNat ≤ 36 then some ⟨b.toNat - 1, by omega⟩ else none

/-- Stations 1 to 4. -/
def StationNo.ofByte (b : Byte) : Option StationNo :=
  if h : 1 ≤ b.toNat ∧ b.toNat ≤ 4 then some ⟨b.toNat - 1, by omega⟩ else none

/-- List numbers 0 to 15. -/
def listOfByte (b : Byte) : Option (Fin 16) := if h : b.toNat < 16 then some ⟨b.toNat, h⟩ else none

/-- Transfer slots 0 to 33. -/
def slotOfByte (b : Byte) : Option (Fin 34) := if h : b.toNat < 34 then some ⟨b.toNat, h⟩ else none

/-- Event groups 0 to 40. -/
def groupOfByte (b : Byte) : Option (Fin 41) := if h : b.toNat < 41 then some ⟨b.toNat, h⟩ else none

/-- Correction entries 0 to 7. -/
def correctionOfByte (b : Byte) : Option (Fin 8) := if h : b.toNat < 8 then some ⟨b.toNat, h⟩ else none

/-- A side or lift byte: 0 is A, 1 is B (R159, R171). -/
def Side.ofByte (b : Byte) : Option Side :=
  if b = 0 then some .a else if b = 1 then some .b else none

/-- A lane name byte, coded as the lane index (R159, R171). -/
def LaneName.ofByte (b : Byte) : Option LaneName :=
  if b = 0 then some .aIn else if b = 1 then some .aOut else if b = 2 then some .bIn
  else if b = 3 then some .bOut else none

/-- A setting, "on or off": 0 is on and 1 is off, the positions in the list of R37, R103 and R176 (R171; log 10). -/
def settingOfByte (b : Byte) : Option Bool :=
  if b = 0 then some true else if b = 1 then some false else none

namespace Machine

/-- A weight class 0 to 4. -/
def Weight.ofByte (b : Byte) : Option Weight := if h : b.toNat < 5 then some ⟨b.toNat, h⟩ else none

/-- INBOUND, OUTBOUND (R1). -/
def Direction.ofByte (b : Byte) : Option Direction :=
  if b = 0 then some .inbound else if b = 1 then some .outbound else none

/-- A, B, EITHER (R1). -/
def Pref.ofByte (b : Byte) : Option Pref :=
  if b = 0 then some .a else if b = 1 then some .b else if b = 2 then some .either else none

/-- The modes SET_LEVEL_MODE may name: OFF, MANUAL, AUTO (R33). -/
def Mode.ofByte (b : Byte) : Option Mode :=
  if b = 0 then some .off else if b = 1 then some .manual else if b = 2 then some .auto else none

/-- EACH, LIST (R116, R139). -/
def ReportMode.ofByte (b : Byte) : Option ReportMode :=
  if b = 0 then some .each else if b = 1 then some .list else none

/-- AT_GIVER, AT_TAKER, RETIRE (R150). -/
inductive Disposition where
  | atGiver
  | atTaker
  | retire
  deriving DecidableEq, Repr

def Disposition.ofByte (b : Byte) : Option Disposition :=
  if b = 0 then some .atGiver else if b = 1 then some .atTaker else if b = 2 then some .retire else none

/-- A transfer kind byte (R159). -/
def Kind.ofByte (b : Byte) : Option Kind :=
  if b = 0 then some .shuttlePut else if b = 1 then some .shuttleTake else if b = 2 then some .entryLoad
  else if b = 3 then some .liftDrop else if b = 4 then some .liftTake else if b = 5 then some .exitUnload else none

/-- The claim that APPROVE_CLAIM or DENY_CLAIM names, or none when a field of it is out of range (R77 check 1). -/
def Claim.ofArg (kind : Byte) (arg : ClaimArg) : Option Claim :=
  match Kind.ofByte kind, arg with
  | some .shuttlePut, .identity i => if i = 0 then none else some (.put i)
  | some .shuttleTake, .side b => (Side.ofByte b).map .take
  | _, _ => none

/-- The job that DIRECT_LIFT names, or none when a field of it is out of range (R91 check 1). -/
def Directed.ofArg (kind level : Byte) (count : Option Byte) : Option Directed :=
  match Kind.ofByte kind, Level.ofByte level, count with
  | some .liftTake, some l, some c => if c = 1 ∨ c = 2 then some (.take l c.toNat) else none
  | some .liftDrop, some l, none => some (.drop l)
  | _, _, _ => none

/-- One entry of a release list request with its fields in range (R132 check 1). -/
structure NewEntry where
  ident : Ident
  level : Level
  pref : Pref
  weight : Weight
  deriving DecidableEq, Repr

def NewEntry.ofArg (e : EntryArg) : Option NewEntry :=
  match Level.ofByte e.level, Pref.ofByte e.pref, Weight.ofByte e.weight with
  | some l, some p, some w => if e.ident = 0 then none else some { ident := e.ident, level := l, pref := p, weight := w }
  | _, _, _ => none

/-- Every entry of a request with its fields in range, or none when a field is out of range. -/
def NewEntry.ofArgs : List EntryArg → Option (List NewEntry)
  | [] => some []
  | e :: rest =>
    match NewEntry.ofArg e, NewEntry.ofArgs rest with
    | some x, some xs => some (x :: xs)
    | _, _ => none

/-- The location a declaration names (R151). -/
inductive Location where
  | lane (lane : LaneId)
  | carriage (lift : Side)
  | entry (side : Side)
  deriving DecidableEq, Repr

def Location.ofArg : LocArg → Option Location
  | .lane level name =>
    match Level.ofByte level, LaneName.ofByte name with
    | some l, some n => some (.lane { level := l, name := n })
    | _, _ => none
  | .carriage lift => (Side.ofByte lift).map .carriage
  | .entry side => (Side.ofByte side).map .entry
  | .noForm _ => none

/-- What a carriage report shows when it gives a count (R52): exactly k places occupied, each seated, FRONT when one
is; none for a carriage in motion. -/
def reportCount (r : CarriageReport) : Option Nat :=
  match r.front, r.back with
  | .empty, .empty => some 0
  | .seated, .empty => some 1
  | .seated, .seated => some 2
  | _, _ => none

end Machine

end Sys2Proof
end

