-- ==== Sys2Proof/Machine/Sequence.lean ====
section
/-! DEFINITION. The sequence unit's shared operations: entries, station order and the two pointers, the two gates,
stalls and the completion of lists (R116 to R126, R135). -/

namespace Sys2Proof.Machine

/-- An entry has passed for exit (R119). -/
def EntryState.passed : EntryState → Bool
  | .pending => false
  | .claimed => false
  | .loaded => false
  | .delivered => true
  | .exitHeld => true
  | .missing => true
  | .skipped => true

/-- The final states (R118). -/
def EntryState.final : EntryState → Bool
  | .pending => false
  | .claimed => false
  | .loaded => false
  | .delivered => true
  | .exitHeld => false
  | .missing => true
  | .skipped => true

namespace State

/-- The entry that a reference names (R117, R118). -/
def entryAt (s : State) (ref : EntryRef) : Option Entry :=
  match s.list ref.list with
  | some r => r.entries[ref.rank - 1]?
  | none => none

/-- The entry that a reference names is changed. -/
def modEntry (s : State) (ref : EntryRef) (f : Entry → Entry) : State :=
  match s.list ref.list with
  | some r => s.setList ref.list (some { r with entries := r.entries.modify (ref.rank - 1) f })
  | none => s

def setEntryState (s : State) (ref : EntryRef) (e : EntryState) : State :=
  s.modEntry ref fun x => { x with state := e }

/-- The state of the entry that a reference names. -/
def entryState (s : State) (ref : EntryRef) : Option EntryState := (s.entryAt ref).map (·.state)

/-- The station of the list that a reference names. -/
def stationOf (s : State) (ref : EntryRef) : Option StationNo := (s.list ref.list).map (·.station)

/-- The first entry of a list of lists whose state is wanted, stopping at the end of an OPEN list (R120, R121). -/
def firstEntry (s : State) (want : EntryState → Bool) : List (Fin 16) → Pointer
  | [] => .atEnd
  | l :: rest =>
    match s.list l with
    | none => firstEntry s want rest
    | some r =>
      match r.entries.findIdx? (fun e => want e.state) with
      | some i => .entry { list := l, rank := i + 1 }
      | none => if r.closed then firstEntry s want rest else .endOfList l

/-- Where a station's next-to-exit stands (R120). -/
def nextExitOf (s : State) (n : StationNo) : Pointer :=
  s.firstEntry (fun e => !e.passed) (s.station n).queue

/-- The station has a CLAIMED entry whose record carries no transfer reference (R121). -/
def hasLooseClaim (s : State) (n : StationNo) : Bool :=
  (s.station n).queue.any fun l =>
    match s.list l with
    | none => false
    | some r => r.entries.any fun e => e.state == .claimed && (s.lookup e.ident).all fun x => x.transfer.isNone

/-- Next-to-load is withheld (R121). -/
def withheld (s : State) (n : StationNo) : Bool := (s.station n).stalled || s.hasLooseClaim n

/-- Where a station's next-to-load stands (R121). -/
def nextLoadOf (s : State) (n : StationNo) : LoadPointer :=
  if s.withheld n then .withheld else .stands (s.firstEntry (fun e => e == .pending) (s.station n).queue)

/-- A station record with both pointers at their values (R120, R121). -/
def stationNow (s : State) (n : StationNo) : Station :=
  { s.station n with nextLoad := s.nextLoadOf n, nextExit := s.nextExitOf n }

/-- Both pointers of every station take their values; a move of one is a cause of re-evaluation (R116, R122). -/
def refreshPointers (s : State) : State :=
  { s with
    stations := tab 4 s.stationNow
    cause := s.cause || decide (tab 4 s.stationNow ≠ s.stations) }

/-! ### The gate at loading (R123) -/

/-- An outbound record is eligible to load (R123). -/
def eligible (s : State) (r : Record) : Bool :=
  match r.entry with
  | none => true
  | some ref =>
    (s.entryState ref == some .claimed && r.transfer.isNone) ||
    match s.stationOf ref with
    | some n => s.nextLoadOf n == .stands (.entry ref)
    | none => false

/-- The state in which a head record is listed in the take being granted and its entry is CLAIMED (R123). -/
def assumeTaken (s : State) (head : Record) (slot : Fin 34) : State :=
  match head.entry with
  | none => s
  | some ref => (s.setEntryState ref .claimed).setTransfer head.ident (some (s.numberOf slot))

/-- The second record of a two-tote take is eligible, judged as if the head were CLAIMED and listed (R98, R123). -/
def eligibleBehind (s : State) (head second : Record) (slot : Fin 34) : Bool :=
  (s.assumeTaken head slot).eligible second

/-- A PENDING entry of a record listed in a granted LIFT_TAKE becomes CLAIMED (R124). -/
def claimEntry (s : State) (i : Ident) : State :=
  match (s.lookup i).bind (·.entry) with
  | some ref => if s.entryState ref = some .pending then s.setEntryState ref .claimed else s
  | none => s

/-- The entry of a record whose LIFT_TAKE commits becomes LOADED (R124). -/
def loadEntry (s : State) (i : Ident) : State :=
  match (s.lookup i).bind (·.entry) with
  | some ref => s.setEntryState ref .loaded
  | none => s

/-! ### The gate at the exit (R125) -/

/-- A record at FRONT is admissible to the exit (R125). -/
def admissible (s : State) (r : Record) : Bool :=
  match r.entry with
  | none => true
  | some ref =>
    match s.stationOf ref with
    | some n => !(s.station n).stalled && s.nextExitOf n == .entry ref
    | none => false

/-- The BACK record is admissible, judged as if the FRONT record's entry had already passed (R125). -/
def admissibleBehind (s : State) (front back : Record) : Bool :=
  match front.entry with
  | none => s.admissible back
  | some ref => (s.setEntryState ref .delivered).admissible back

/-! ### Lists freed and completed (R117, R135) -/

/-- With no list slot in use the opening counter is 0 (R117). -/
def testOpening (s : State) : State := if s.lists.toList.all Option.isNone then { s with opening := 0 } else s

/-- A list leaves its station's queue and its slot is freed; with the last slot in use the opening counter returns
to 0 (R117, R135, R136). -/
def freeList (s : State) (l : Fin 16) : State :=
  match s.list l with
  | none => s
  | some r =>
    ((s.modStation r.station fun x => { x with queue := x.queue.filter fun k => k ≠ l }).setList l none).testOpening

/-- A CLOSED list whose entries are all final becomes COMPLETE: it is freed and LIST_COMPLETE is raised (R135). -/
def testComplete (s : State) (l : Fin 16) : State :=
  match s.list l with
  | none => s
  | some r =>
    if r.closed && r.entries.all fun e => e.state.final then
      (s.freeList l).raise (.station r.station .listComplete)
    else s

/-- DELIVERED is raised for a station in report mode EACH (R139). -/
def raiseDelivered (s : State) (n : StationNo) : State :=
  if nth s.settings.reportMode n = .each then s.raise (.station n .delivered) else s

/-- A station has an EXIT_HELD entry (R126). -/
def hasExitHeld (s : State) (n : StationNo) : Bool :=
  (s.station n).queue.any fun l =>
    match s.list l with
    | none => false
    | some r => r.entries.any fun e => e.state == .exitHeld

/-- The stall of a station ends with its last EXIT_HELD entry: STALL_CLEARED is raised and parked requests are
re-evaluated (R126). -/
def testStall (s : State) (n : StationNo) : State :=
  if (s.station n).stalled && !s.hasExitHeld n then
    ((s.modStation n fun x => { x with stalled := false }).raise (.station n .stallCleared)).withCause
  else s

/-- A delivered entry is reported to its station's group under R139. -/
def reportDelivery (s : State) (ref : EntryRef) (e : EntryState) : State :=
  match s.stationOf ref with
  | some n => if e = .delivered then s.raiseDelivered n else s
  | none => s

/-- An entry becomes final with the given state; a delivered one is reported under R139. -/
def finishEntry (s : State) (ref : EntryRef) (e : EntryState) : State := (s.setEntryState ref e).reportDelivery ref e

/-- The stall of an entry's station is tested (R126). -/
def testStallOf (s : State) (ref : EntryRef) : State :=
  match s.stationOf ref with
  | some n => s.testStall n
  | none => s

/-! ### Records held (R10) -/

/-- A record enters HELD: it loses its location and transfer reference and gains a hold record; HOLD_RAISED is raised
(R10). The list it stood in is left by the caller. -/
def hold (s : State) (i : Ident) (h : Hold) : State :=
  (s.modRecord i fun r => { r with place := .held h, transfer := none }).raise (.aisle .holdRaised)

/-- A station stalls for an exit fault: the fault is kept and EXIT_FAULT is raised (R126, R129). -/
def stall (s : State) (n : StationNo) (x : ExitFault) : State :=
  (s.modStation n fun y => { y with stalled := true, fault := some x }).raise (.station n .exitFault)

/-- The station of an entry stalls for an exit fault. -/
def stallOf (s : State) (ref : EntryRef) (x : ExitFault) : State :=
  match s.stationOf ref with
  | none => s
  | some n => s.stall n x

/-- What an exit fault does to a sequenced tote's entry and station (R129). -/
def faultEntry (s : State) (ref : Option EntryRef) (x : ExitFault) : State :=
  match ref with
  | none => s
  | some ref => (s.setEntryState ref .exitHeld).stallOf ref x

/-- The reason of an exit fault: EXIT_NO_READ for a read of 0 (R129). -/
def faultReason (read : Ident) : HoldReason := if read = 0 then .exitNoRead else .exitMismatch

/-- A tote that leaves by an exit read which does not match it, or by a missing read: its record leaves the carriage
and is HELD, and a sequenced one makes its entry EXIT_HELD and stalls its station (R126, R129, R130). -/
def exitFault (s : State) (lift : Side) (i : Ident) (read : Ident) : State :=
  ((s.leaveGiver (.carriage lift) [i]).hold i { reason := faultReason read, giver := .carriage lift, taker := .exit }).faultEntry
    ((s.lookup i).bind (·.entry)) { expected := i, read := read, reason := faultReason read }

/-- A tote that leaves by a matching read: its record leaves the carriage and is retired, and a sequenced one makes
its entry DELIVERED and tests its list (R128). -/
def exitMatch (s : State) (lift : Side) (i : Ident) : State :=
  match (s.lookup i).bind (·.entry) with
  | none => (s.leaveGiver (.carriage lift) [i]).retire i
  | some ref => (((s.leaveGiver (.carriage lift) [i]).retire i).finishEntry ref .delivered).testComplete ref.list

end State

end Sys2Proof.Machine
end

