-- ==== Sys2Proof/Machine/Lanes.lean ====
section
/-! DEFINITION. Shared operations of levels and lanes: blocking and comparison (R27, R29), reservations (R25), level
modes with the approval they overtake (R32, R33, R80), and fences (R38). -/

namespace Sys2Proof.Machine

namespace State

/-! ### Pending claims that end (R76) -/

/-- The pending claim of a level (R68). -/
def pendingOf (s : State) (l : Level) : Option PendingClaim := s.approvals.find? fun p => p.level == l

/-- A level's pending claim leaves the approval list and its shuttle claim state becomes IDLE (R68, R76). -/
def dropClaim (s : State) (l : Level) : State :=
  { s.setClaimState l .idle with approvals := s.approvals.filter fun p => p.level ≠ l }

/-- A level's pending claim, if it has one, is ended with REFUSE and a reason (R79, R80, R81). -/
def endClaim (s : State) (l : Level) (why : Code) : State :=
  if (s.pendingOf l).isSome then (s.dropClaim l).sendLevel l (.refuse why) else s

/-! ### Blocking and comparison (R27, R29, R31) -/

/-- A lane becomes BLOCKED: one that is not BLOCKED takes the reason and LANE_BLOCKED is raised, one that is keeps its
first reason and no event is raised (R27). -/
def blockLane (s : State) (l : LaneId) (why : BlockReason) : State :=
  match (s.lane l).condition with
  | .blocked _ => s
  | .clear => (s.modLane l fun x => { x with condition := .blocked why }).raise (.level l.level .laneBlocked)
  | .settling _ => (s.modLane l fun x => { x with condition := .blocked why }).raise (.level l.level .laneBlocked)
  | .audit => (s.modLane l fun x => { x with condition := .blocked why }).raise (.level l.level .laneBlocked)

def isSettling : Condition → Bool
  | .settling _ => true
  | .clear => false
  | .audit => false
  | .blocked _ => false

/-- A lane's latest report is compared with its contents when it is settled, the lane is not busy and the lane is not
SETTLING (R29). -/
def compareLane (s : State) (l : LaneId) : State :=
  match (s.lane l).report with
  | none => s
  | some r =>
    if r.settled && !s.busy l && !(isSettling (s.lane l).condition) && r.count.val != (s.lane l).contents.length
    then s.blockLane l .unexpectedChange
    else s

/-- The end of a lane's settle time: the lane becomes CLEAR and its latest report is compared (R31). A lane that is
not SETTLING is left as it is. -/
def endSettle (s : State) (l : LaneId) : State :=
  match (s.lane l).condition with
  | .settling _ => ((s.modLane l fun x => { x with condition := .clear }).compareLane l).withCause
  | .clear => s
  | .audit => s
  | .blocked _ => s

/-- The commit of a transfer starts the settle time of the lane whose contents it changed; with SETTLE_TIME 0.0 s
the lane stays CLEAR (R30). -/
def startSettle (s : State) (l : LaneId) : State :=
  if s.settings.params.settleTime = 0 then s
  else s.modLane l fun x => { x with condition := .settling s.settings.params.settleTime }

/-! ### Level modes (R31 to R33, R80) -/

/-- The reason sent to a claim whose level leaves MANUAL for a mode (R80). -/
def overtakenBy : Mode → Code
  | .off => .levelOff
  | .draining => .levelDraining
  | .auto => .wrongState
  | .manual => .wrongState

/-- The settle times of a level that leaves AUTO are cut short (R31). -/
def cutSettles (s : State) (l : Level) (old : Mode) : State := if old = .auto then (lanesOf l).foldl endSettle s else s

/-- The pending claim of a level that leaves MANUAL is ended (R80). -/
def overtake (s : State) (l : Level) (old new : Mode) : State :=
  if old = .manual then s.endClaim l (overtakenBy new) else s

/-- A level's mode changes: leaving AUTO cuts its settle times short (R31), leaving MANUAL ends its pending claim
(R80), and parked requests are re-evaluated (R32, R101). -/
def changeMode (s : State) (l : Level) (m : Mode) : State :=
  if (s.level l).mode = m then s
  else
    (((s.modLevel l fun x => { x with mode := m }).cutSettles l (s.level l).mode).overtake l (s.level l).mode m).withCause

/-- The mode a level asked for OFF goes to (R33). -/
def modeAskedOff (s : State) (l : Level) : Mode :=
  match (s.level l).mode with
  | .off => .off
  | .draining => .draining
  | .manual => if s.levelTouched l then .draining else .off
  | .auto => if s.levelTouched l then .draining else .off

/-- SET_LEVEL_MODE asked for a mode (R33). -/
def askMode (s : State) (l : Level) (m : Mode) : State :=
  s.changeMode l (if m = .off then s.modeAskedOff l else m)

/-- A DRAINING level that no open transfer touches becomes OFF, and MODE_CHANGE is raised (R34). -/
def testDrain (s : State) (l : Level) : State :=
  if (s.level l).mode = .draining && !s.levelTouched l then
    (s.changeMode l .off).raise (.level l .modeChange)
  else s

/-- The switch-off test made after a failure touching the level (R36). -/
def testStreak (s : State) (l : Level) : State :=
  if s.settings.params.streakLimit ≤ (s.level l).streak && ((s.level l).mode = .auto || (s.level l).mode = .manual) then
    (s.askMode l .off).raise (.level l .autoOff)
  else s

/-! ### Fences (R38) -/

/-- A level is fenced while it is mapped, its stop's link is LOST, and its fence-on-loss setting is on (R38). -/
def fenceOf (s : State) (l : Level) : Bool :=
  match s.stopOf l with
  | none => false
  | some n => (s.link (.stop n)).status == .lost && nth s.settings.fenceOnLoss l

/-- A level's fence is recomputed. A change is a cause of re-evaluation, and a level that becomes fenced loses its
pending claim with LEVEL_FENCED (R38, R80). -/
def recomputeFence (s : State) (l : Level) : State :=
  if s.fenceOf l = (s.level l).fenced then s
  else if s.fenceOf l then ((s.modLevel l fun x => { x with fenced := true }).withCause).endClaim l .levelFenced
  else (s.modLevel l fun x => { x with fenced := false }).withCause

/-! ### Reservations (R25, R86) -/

/-- The taker's reservation is taken at a grant: a place in a lane's tail for each tote, or a carriage place with the
direction and weight class of each tote (R25, R86). -/
def reserve (s : State) (t : Taker) (totes : List Ident) : State :=
  match t with
  | .lane l => s.modLane l fun x => { x with reserved := x.reserved + totes.length }
  | .carriage side =>
    s.modLift side fun x =>
      { x with reserved := totes.filterMap fun i => (s.lookup i).map fun r =>
          { direction := r.direction, weight := r.weight.getD 0 } }
  | .shuttle => s
  | .exit => s

/-- The reservation a transfer holds is released when it ends (R25, R86). -/
def release (s : State) (t : Taker) (granted : Nat) : State :=
  match t with
  | .lane l => s.modLane l fun x => { x with reserved := x.reserved - granted }
  | .carriage side => s.modLift side fun x => { x with reserved := [] }
  | .shuttle => s
  | .exit => s

/-- The free places of a lane (R72). -/
def freePlaces (s : State) (l : LaneId) : Nat := s.depth l - ((s.lane l).contents.length + (s.lane l).reserved)

/-- The lane tests 1 to 4 of R72, in order. -/
def laneTests (s : State) (l : LaneId) : Option Code :=
  match (s.lane l).condition with
  | .blocked _ => some .laneBlocked
  | .audit => some .audit
  | .settling _ => some .settling
  | .clear => if s.busy l then some .laneBusy else none

/-- The lane tests of R72 for a lane that the grant would name as taker. -/
def takerTests (s : State) (l : LaneId) : Option Code :=
  match s.laneTests l with
  | some c => some c
  | none => if s.depth l ≤ (s.lane l).contents.length + (s.lane l).reserved then some .laneFull else none

/-- Why a level's standing refuses a handover: OFF, DRAINING or fenced, in that order (R70, R92). -/
def levelStanding (s : State) (l : Level) : Option Code :=
  match (s.level l).mode with
  | .off => some .levelOff
  | .draining => some .levelDraining
  | .manual => if (s.level l).fenced then some .levelFenced else none
  | .auto => if (s.level l).fenced then some .levelFenced else none

end State

end Sys2Proof.Machine
end

