-- ==== Sys2Proof/Machine/Transfers.lean ====
section
/-! DEFINITION. The transfer table's shared operations: the grant, the judgement of reports, commit, abort, failure
and the steps that end every transfer (R45 to R65). -/

namespace Sys2Proof.Machine

/-! ### The kinds (R47, R54) -/

def Kind.isShuttle : Kind → Bool
  | .shuttlePut => true
  | .shuttleTake => true
  | .entryLoad => false
  | .liftDrop => false
  | .liftTake => false
  | .exitUnload => false

/-- The motion limit of a kind, as the parameter stands (R47). -/
def Params.motionLimit (p : Params) (k : Kind) : Nat := if k.isShuttle then p.motionLimitShuttle else p.motionLimitLift

/-- The confirmation window of a kind, as the parameter stands (R47). -/
def Params.window (p : Params) (k : Kind) : Nat := if k = .exitUnload then p.exitReadWindow else p.confirmWindow

/-- Start count and target of a holder: the start plus the granted count for a taker, minus it for a giver (R48). -/
def Watch.ofGrant (start granted : Nat) (taker : Bool) : Watch :=
  { start := start, target := if taker then start + granted else start - granted, mark := false }

def Taker.isLane : Taker → Bool
  | .lane _ => true
  | .carriage _ => false
  | .shuttle => false
  | .exit => false

def Taker.isCarriage : Taker → Bool
  | .lane _ => false
  | .carriage _ => true
  | .shuttle => false
  | .exit => false

/-- What a grant names (R47, R48). -/
structure Grant where
  slot : Fin 34
  kind : Kind
  totes : List Ident
  giver : Giver
  taker : Taker
  deriving DecidableEq, Repr

namespace State

/-- The transfer that a grant opens, before it is put in its slot (R48). -/
def openedBy (s : State) (g : Grant) : Open :=
  { kind := g.kind
    confirming := false
    totes := g.totes
    granted := g.totes.length
    giver := g.giver
    taker := g.taker
    laneWatch := (laneNamed g.giver g.taker).map fun l =>
      Watch.ofGrant (s.lane l).contents.length g.totes.length g.taker.isLane
    carriageWatch := (carriageNamed g.giver g.taker).map fun side =>
      Watch.ofGrant (s.lift side).contents.length g.totes.length g.taker.isCarriage
    timer := s.settings.params.motionLimit g.kind
    paused := false
    reads := 0 }

/-- The party of a slot is at work: a level's shuttle claim state becomes WORKING (R75), or the lift becomes WORKING
with its stuck mark cleared (R94, R99). -/
def partyWorks (s : State) (i : Fin 34) : State :=
  match slotOwner i with
  | .inl l => s.setClaimState l .working
  | .inr side => s.modLift side fun x => { x with status := .working, stuck := false }

/-- A slot takes a transfer, and its generation advances by 1, from 255 to 0 (R46). -/
def openSlot (s : State) (i : Fin 34) (o : Open) : State :=
  s.modSlot i fun x => { x with generation := x.generation + 1, opened := some o }

/-- The records gain the number of the transfer open in a slot (R4, R48). -/
def enlist (s : State) (i : Fin 34) (totes : List Ident) : State :=
  totes.foldl (fun s t => s.setTransfer t (some (s.numberOf i))) s

/-- A grant opens a transfer in the slot of its party: the generation advances, start counts and targets are taken,
the taker's reservation is taken, and each listed record gains the transfer reference (R46, R48). -/
def openTransfer (s : State) (g : Grant) : State :=
  ((((s.openSlot g.slot (s.openedBy g)).reserve g.taker g.totes).enlist g.slot g.totes).partyWorks g.slot)

/-! ### The end of a transfer (R63) -/

/-- Step 1: the slot becomes FREE with its last end; the generation is kept (R63). -/
def freeSlot (s : State) (i : Fin 34) (e : LastEnd) : State :=
  s.modSlot i fun x => { x with lastEnd := e, opened := none }

/-- Step 2: the lift leaves WORKING, to BLOCKED at a failure and to READY otherwise, or the level's shuttle claim state
becomes IDLE (R63). -/
def partyFree (s : State) (i : Fin 34) (failed : Bool) : State :=
  match slotOwner i with
  | .inl l => s.setClaimState l .idle
  | .inr side => s.modLift side fun x => { x with status := if failed then .blocked else .ready }

/-- Steps 3 and 4: every level the transfer touched is tested for the end of its drain, and parked requests are
re-evaluated (R34, R63). -/
def afterEnd (s : State) (touched : List Level) : State := (touched.foldl testDrain s).withCause

/-- The records lose their transfer reference (R4). -/
def unlist (s : State) (totes : List Ident) : State := totes.foldl (fun s i => s.setTransfer i none) s

/-! ### Commit (R58) -/

/-- The records join their taker: the tail of a lane, the carriage, or, with the shuttle, they are retired (R58). An
EXIT_UNLOAD that commits has no tote left. -/
def joinTaker (s : State) (t : Taker) (totes : List Ident) : State :=
  match t with
  | .lane l => totes.foldl (fun s i => s.setPlace i (.lane l)) (s.setContents l ((s.lane l).contents ++ totes))
  | .carriage side =>
    totes.foldl (fun s i => s.setPlace i (.carriage side)) (s.setCarriage side ((s.lift side).contents ++ totes))
  | .shuttle => totes.foldl retire s
  | .exit => s

/-- A commit touching a level makes its fault streak 0 (R35). -/
def clearStreak (s : State) (l : Level) : State := s.modLevel l fun x => { x with streak := 0 }

def clearStreaks (s : State) (touched : List Level) : State := touched.foldl clearStreak s

/-- The entries of a LIFT_TAKE that commits become LOADED (R124). -/
def loadTaken (s : State) (o : Open) : State := if o.kind = .liftTake then o.totes.foldl loadEntry s else s

/-- The lane that a committed transfer names begins its settle time (R30). -/
def settleNamed (s : State) (o : Open) : State :=
  match laneNamed o.giver o.taker with
  | some l => s.startSettle l
  | none => s

/-- The transfer in a slot ends by commit: its records move from giver to taker, the reservation is released, the
lane it changed settles, and the entries of a LIFT_TAKE become LOADED (R58, R124). -/
def commit (s : State) (i : Fin 34) (o : Open) : State :=
  (((((((((s.unlist o.totes).leaveGiver o.giver o.totes).release o.taker o.granted).loadTaken o).joinTaker o.taker
    o.totes).settleNamed o).clearStreaks (s.levelsTouched i)).freeSlot i .committed).partyFree i false).afterEnd
      (s.levelsTouched i)

/-! ### Abort (R51) -/

/-- The transfer in a slot ends by abort: reservations are released and records keep what they had (R51). -/
def abort (s : State) (i : Fin 34) (o : Open) : State :=
  ((((s.unlist o.totes).release o.taker o.granted).freeSlot i .aborted).partyFree i false).afterEnd (s.levelsTouched i)

/-! ### Failure (R61, R62) -/

/-- A failure touching a level raises its fault streak, which stays at 7 (R35). -/
def raiseStreak (s : State) (l : Level) : State := s.modLevel l fun x => { x with streak := min 7 (x.streak + 1) }

/-- TRANSFER_FAILED is raised in the group of the level for a shuttle transfer, in the group of the lift for a lift
transfer, and for a LIFT_DROP or LIFT_TAKE also in the group of the level whose lane it named (R62). -/
def raiseFailed (s : State) (i : Fin 34) (o : Open) : State :=
  match slotOwner i with
  | .inl l => s.raise (.level l .transferFailed)
  | .inr side =>
    match laneNamed o.giver o.taker with
    | some l => (s.raise (.lift side .transferFailed)).raise (.level l.level .transferFailed)
    | none => s.raise (.lift side .transferFailed)

def raiseStreaks (s : State) (touched : List Level) : State := touched.foldl raiseStreak s

def testStreaks (s : State) (touched : List Level) : State := touched.foldl testStreak s

/-- Each tote still listed is HELD with the giver and taker of its transfer (R10, R61). -/
def holdTotes (s : State) (o : Open) (why : FailReason) : State :=
  o.totes.foldl (fun s t => s.hold t { reason := .failed why, giver := o.giver, taker := o.taker }) s

/-- The lane that a failed transfer names becomes BLOCKED with CONFIRM_FAIL (R27). -/
def blockNamed (s : State) (o : Open) : State :=
  match laneNamed o.giver o.taker with
  | some l => s.blockLane l .confirmFail
  | none => s

/-- The transfer in a slot fails: each tote still listed is HELD and leaves its list, the reservation is released, the
lanes named are BLOCKED, fault streaks rise, and the slot, its party and the levels touched are brought to their
end, with the switch-off test after the transfer has ended (R36, R61 to R63). -/
def fail (s : State) (i : Fin 34) (o : Open) (why : FailReason) : State :=
  (((((((((s.leaveGiver o.giver o.totes).holdTotes o why).release o.taker o.granted).blockNamed o).raiseStreaks
    (s.levelsTouched i)).raiseFailed i o).freeSlot i (.failed why)).partyFree i true).testStreaks
      (s.levelsTouched i)).afterEnd (s.levelsTouched i)

/-! ### Judging reports (R50, R52 to R54) -/

end State

/-- How a count stands to a holder's start count and target (R52). -/
inductive Verdict where
  | atTarget
  | intermediate
  | contrary
  deriving DecidableEq, Repr

def Watch.judge (w : Watch) (count : Nat) : Verdict :=
  if count = w.target then .atTarget
  else if min w.start w.target ≤ count ∧ count ≤ max w.start w.target then .intermediate
  else .contrary

/-- What the judgement of a count does to the transfer (R53). -/
inductive Ruling where
  | stored
  | marks
  | fails
  deriving DecidableEq, Repr

/-- The table of R53. -/
def Watch.ruling (w : Watch) (confirming : Bool) (count : Nat) : Ruling :=
  match w.judge count, confirming, w.mark with
  | .contrary, _, _ => .fails
  | .intermediate, true, true => .fails
  | .intermediate, true, false => .stored
  | .intermediate, false, _ => .stored
  | .atTarget, true, false => .marks
  | .atTarget, true, true => .stored
  | .atTarget, false, _ => .stored

/-- Every mark of the transfer is present, and for an EXIT_UNLOAD every tote has been read (R50, R53, R56). -/
def Open.complete (o : Open) : Bool :=
  o.confirming && o.laneWatch.all (·.mark) && o.carriageWatch.all (·.mark) && (o.kind != .exitUnload || o.totes.isEmpty)

def Open.markLane (o : Open) : Open := { o with laneWatch := o.laneWatch.map fun w => { w with mark := true } }

def Open.markCarriage (o : Open) : Open :=
  { o with carriageWatch := o.carriageWatch.map fun w => { w with mark := true } }

namespace State

/-- The open transfer of a slot is replaced. -/
def putOpen (s : State) (i : Fin 34) (o : Open) : State := s.modSlot i fun x => { x with opened := some o }

/-- The open transfer of a slot is replaced, and commits when it is complete (R53, R56). -/
def advance (s : State) (i : Fin 34) (o : Open) : State :=
  if o.complete then (s.putOpen i o).commit i o else s.putOpen i o

/-- A lane report is judged against the open transfer that names the lane. An unsettled report counts only toward the
mark of the giver lane of a LIFT_TAKE (R52, R53). -/
def judgeLane (s : State) (i : Fin 34) (r : LaneReport) : State :=
  match (s.slot i).opened with
  | none => s
  | some o =>
    match o.laneWatch with
    | none => s
    | some w =>
      if r.settled then
        match w.ruling o.confirming r.count.val with
        | .stored => s
        | .marks => s.advance i o.markLane
        | .fails => s.fail i o .confirmContrary
      else if o.kind = .liftTake ∧ w.ruling o.confirming r.count.val = .marks then s.advance i o.markLane
      else s

/-- A carriage report that gives a count is judged against the open transfer of the lift's slot (R52, R53). -/
def judgeCarriage (s : State) (i : Fin 34) (r : CarriageReport) : State :=
  match (s.slot i).opened, reportCount r with
  | some o, some count =>
    match o.carriageWatch with
    | none => s
    | some w =>
      match w.ruling o.confirming count with
      | .stored => s
      | .marks => s.advance i o.markCarriage
      | .fails => s.fail i o .confirmContrary
  | none, _ => s
  | _, none => s

/-- A lane report is judged by the transfer that names its lane, or compared with the contents (R28). -/
def judgeReport (s : State) (l : LaneId) (r : LaneReport) : State :=
  match s.slotNaming l with
  | some i => s.judgeLane i r
  | none => s.compareLane l

/-- A lane report is taken as one event of its lane: it is stored, and then judged by the transfer that names the lane
or compared with the contents (R28). -/
def takeLaneReport (s : State) (l : LaneId) (r : LaneReport) : State :=
  (s.modLane l fun x => { x with report := some r }).judgeReport l r

/-! ### DONE and ABORTED (R50, R51, R64) -/

/-- The latest report of the lane that a transfer names is judged (R50). -/
def judgeLatestLane (s : State) (i : Fin 34) (l : Option LaneId) : State :=
  match l.bind fun l => (s.lane l).report with
  | some r => s.judgeLane i r
  | none => s

/-- The latest report of the carriage that a transfer names is judged (R50). -/
def judgeLatestCarriage (s : State) (i : Fin 34) (side : Option Side) : State :=
  match side.bind fun side => (s.lift side).report with
  | some r => s.judgeCarriage i r
  | none => s

/-- The latest report of each holder of the confirmation set is judged as if it had just arrived (R50, R54). -/
def judgeLatest (s : State) (i : Fin 34) (o : Open) : State :=
  (s.judgeLatestLane i (laneNamed o.giver o.taker)).judgeLatestCarriage i (carriageNamed o.giver o.taker)

/-- A transfer that DONE brings from GRANTED to CONFIRMING (R50, R65). -/
def confirmed (s : State) (o : Open) : Open :=
  { o with confirming := true, timer := s.settings.params.window o.kind, paused := s.stopped }

/-- A DONE acts on the open transfer of a slot: from GRANTED to CONFIRMING with the window of its kind, paused while
the aisle is STOPPED, and the latest reports judged; in CONFIRMING it changes nothing (R50). -/
def takeDone (s : State) (i : Fin 34) : State :=
  match (s.slot i).opened with
  | none => s
  | some o =>
    if o.confirming then s else (s.advance i (s.confirmed o)).judgeLatest i (s.confirmed o)

/-- An ABORTED acts on the open transfer of a slot: abort in GRANTED, failure with CONFIRM_CONTRARY in CONFIRMING or
for an EXIT_UNLOAD with a tote read (R51). -/
def takeAborted (s : State) (i : Fin 34) : State :=
  match (s.slot i).opened with
  | none => s
  | some o =>
    if o.confirming || (o.kind = .exitUnload && 0 < o.reads) then s.fail i o .confirmContrary else s.abort i o

/-- The slot that a sender's frames belong to: the shuttle slot of the level mapped to a stop, or a lift's slot; none
for a spare stop (R64). -/
def senderSlot (s : State) : Sender → Option (Fin 34)
  | .node n => (s.levelAt n).map shuttleSlot
  | .lift side => some (liftSlot side)

end State

/-- How a DONE or ABORTED is answered (R64). -/
inductive Answered where
  | ack (slot : Fin 34)
  | late
  | stale
  deriving DecidableEq, Repr

namespace State

/-- The table of R64. -/
def answerFor (s : State) (from_ : Sender) (slot gen : Byte) : Answered :=
  match s.senderSlot from_ with
  | none => .stale
  | some i =>
    if slot.toNat = i.val ∧ gen = (s.slot i).generation then
      match (s.slot i).opened, (s.slot i).lastEnd with
      | some _, _ => .ack i
      | none, .failed _ => .late
      | none, .none => .stale
      | none, .committed => .stale
      | none, .aborted => .stale
    else .stale

/-- A DONE or ABORTED is answered, and acts on the open transfer it names (R64). -/
def answerParty (s : State) (from_ : Sender) (slot gen : Byte) (act : State → Fin 34 → State) : State :=
  match s.answerFor from_ slot gen with
  | .ack i => act (s.send from_.port (.ack slot gen)) i
  | .late => s.send from_.port (.late slot gen)
  | .stale => s.send from_.port (.stale slot gen)

/-! ### Exit reads (R56, R57) -/

/-- A read tote is struck off its unload's list and the reads rise by 1; a CONFIRMING unload that is complete commits
(R56). -/
def strikeOff (s : State) (i : Fin 34) (t : Ident) : State :=
  match (s.slot i).opened with
  | none => s
  | some o => s.advance i { o with totes := o.totes.filter fun x => x ≠ t, reads := o.reads + 1 }

/-! ### Timers that the stop acts on (R65) -/

/-- The full value for a transfer's present state, as the parameters stand (R65). -/
def fullTimer (s : State) (o : Open) : Nat :=
  if o.confirming then s.settings.params.window o.kind else s.settings.params.motionLimit o.kind

/-- Every open transfer's timer is paused (R65). -/
def pauseTimers (s : State) : State :=
  { s with slots := tab 34 fun i =>
      { nth s.slots i with opened := (nth s.slots i).opened.map fun o => { o with paused := true } } }

/-- Every open transfer's timer is restarted from its full value (R65). -/
def restartTimers (s : State) : State :=
  { s with slots := tab 34 fun i =>
      { nth s.slots i with opened := (nth s.slots i).opened.map fun o => { o with timer := s.fullTimer o, paused := false } } }

end State

end Sys2Proof.Machine
end

