-- ==== Sys2Proof/Machine/Arbiter.lean ====
section
/-! DEFINITION. The lift job arbiter: the directed job (R92), the walk of the selection order (R90, R93 to R98), the
grant (R99), parking (R100), re-evaluation (R101, R102), and the close of an event. -/

namespace Sys2Proof.Machine

namespace State

/-! ### The totes of each kind of job -/

/-- The level of the record that holds an identity. -/
def levelOf (s : State) (i : Ident) : Option Level := (s.lookup i).map (·.level)

/-- The totes of a LIFT_DROP to a lane: the BACK record goes too when it has the lane's level as target and the lane
has two free places (R92, R93). -/
def dropTotes (s : State) (side : Side) (l : LaneId) : List Ident :=
  match (s.lift side).contents with
  | [] => []
  | front :: [] => [front]
  | front :: back :: _ => if s.levelOf back = some l.level ∧ 2 ≤ s.freePlaces l then [front, back] else [front]

/-- A LIFT_DROP from a lift's carriage to a lane (R47). -/
def dropJob (s : State) (side : Side) (l : LaneId) : Grant :=
  { slot := liftSlot side, kind := .liftDrop, totes := s.dropTotes side l, giver := .carriage side, taker := .lane l }

/-- A LIFT_TAKE of totes from a lane (R47). -/
def takeJob (side : Side) (l : LaneId) (totes : List Ident) : Grant :=
  { slot := liftSlot side, kind := .liftTake, totes := totes, giver := .lane l, taker := .carriage side }

/-! ### Step 1: the directed job (R92) -/

/-- A directed LIFT_DROP is judged: the first check that fails, or the job (R92). -/
def judgeDirectedDrop (s : State) (side : Side) (l : Level) : Code ⊕ Grant :=
  let lane : LaneId := { level := l, name := side.inLane }
  match (s.lift side).contents with
  | [] => .inl .wrongState
  | front :: _ =>
    if s.carriageDirection side = some .outbound then .inl .mixedDirection
    else if s.levelOf front ≠ some l then .inl .wrongLevel
    else
      match s.levelStanding l with
      | some c => .inl c
      | none =>
        match s.takerTests lane with
        | some c => .inl c
        | none => .inr (s.dropJob side lane)

/-- The first records of a lane are eligible to load, in order (R92 check 6). -/
def takeEligible (s : State) (side : Side) : List Ident → Bool
  | [] => true
  | head :: [] => (s.lookup head).any s.eligible
  | head :: second :: _ =>
    match s.lookup head, s.lookup second with
    | some h, some x => s.eligible h && s.eligibleBehind h x (liftSlot side)
    | _, _ => false

/-- A directed LIFT_TAKE is judged: the first check that fails, or the job (R92). -/
def judgeDirectedTake (s : State) (side : Side) (l : Level) (count : Nat) : Code ⊕ Grant :=
  let lane : LaneId := { level := l, name := side.outLane }
  let totes := (s.lane lane).contents.take count
  if !(s.lift side).contents.isEmpty then .inl .carriageFull
  else
    match s.levelStanding l with
    | some c => .inl c
    | none =>
      match s.laneTests lane with
      | some c => .inl c
      | none =>
        if (s.lane lane).contents.length < count then .inl .laneEmpty
        else if totes.any fun i => (s.lookup i).any fun r => r.direction == .inbound then .inl .wrongState
        else if !s.takeEligible side totes then .inl .notEligible
        else if s.settings.params.carriageLimit < s.weightSum totes then .inl .weightLimit
        else .inr (takeJob side lane totes)

/-- A directed job is judged by the checks of its kind (R92). -/
def judgeDirected (s : State) (side : Side) : Directed → Code ⊕ Grant
  | .take l count => s.judgeDirectedTake side l count
  | .drop l => s.judgeDirectedDrop side l

/-! ### Steps 2 and 3: a carriage that holds totes (R93, R95) -/

/-- The automatic LIFT_DROP for the FRONT record (R93). -/
def findDrop (s : State) (side : Side) (front : Ident) : Option Grant :=
  match s.levelOf front with
  | none => none
  | some l =>
    let lane : LaneId := { level := l, name := side.inLane }
    if (s.level l).mode = .auto ∧ (s.level l).fenced = false ∧ s.takerTests lane = none
    then some (s.dropJob side lane) else none

/-- The totes of an EXIT_UNLOAD: FRONT, and BACK when it is admissible behind it (R95). -/
def unloadTotes (s : State) (front : Record) : List Ident → List Ident
  | [] => [front.ident]
  | back :: _ =>
    match s.lookup back with
    | some b => if s.admissibleBehind front b then [front.ident, back] else [front.ident]
    | none => [front.ident]

/-- The EXIT_UNLOAD of a carriage whose FRONT record is admissible to the exit (R95). -/
def findUnload (s : State) (side : Side) (front : Ident) (rest : List Ident) : Option Grant :=
  match s.lookup front with
  | none => none
  | some r =>
    if s.admissible r then
      some { slot := liftSlot side, kind := .exitUnload, totes := s.unloadTotes r rest, giver := .carriage side, taker := .exit }
    else none

/-! ### Steps 4 to 6: an empty carriage (R96 to R98) -/

/-- The totes of an ENTRY_LOAD: the head, and the record behind it when the weight limit allows two (R96). -/
def loadTotes (s : State) (side : Side) : List Ident :=
  match (s.queue side).contents with
  | [] => []
  | head :: [] => [head]
  | head :: second :: _ =>
    if s.weightSum [head, second] ≤ s.settings.params.carriageLimit then [head, second] else [head]

/-- The ENTRY_LOAD of a queue that is not empty (R96). -/
def findLoad (s : State) (side : Side) : Option Grant :=
  if (s.queue side).contents.isEmpty then none
  else some { slot := liftSlot side, kind := .entryLoad, totes := s.loadTotes side, giver := .entry side, taker := .carriage side }

/-- The head's age has reached ENTRY_AGE_LIMIT, a parameter in whole seconds (R96, R114). -/
def headAged (s : State) (side : Side) : Bool :=
  (s.queue side).age.any fun a => decide (10 * s.settings.params.entryAgeLimit ≤ a)

/-- Where a head record stands in the choice of R97: its class (a) 0, (b) 1 or (c) 2, then the opening number and rank
of its entry, or its level. None when it is not a candidate. -/
def takeKey (s : State) (l : Level) (r : Record) : Option (Nat × Nat × Nat) :=
  match r.entry with
  | none => some (2, l.val, 0)
  | some ref =>
    match s.list ref.list with
    | none => none
    | some list =>
      if s.entryState ref = some .claimed then some (0, list.opening, ref.rank)
      else if s.nextLoadOf list.station = .stands (.entry ref) then some (1, list.opening, ref.rank)
      else none

/-- The candidate of a level: the key of the head record of its OUT lane on the lift's side (R97). -/
def candidateAt (s : State) (side : Side) (l : Level) : Option (Nat × Nat × Nat) :=
  let lane : LaneId := { level := l, name := side.outLane }
  if (s.level l).mode = .auto ∧ (s.level l).fenced = false ∧ s.laneTests lane = none then
    match (s.lane lane).contents with
    | [] => none
    | head :: _ => (s.lookup head).bind (s.takeKey l)
  else none

end State

/-- One key goes before another (R97). -/
def keyBefore (a b : Nat × Nat × Nat) : Bool :=
  a.1 < b.1 || (a.1 == b.1 && (a.2.1 < b.2.1 || (a.2.1 == b.2.1 && a.2.2 < b.2.2)))

/-- The better of what was found so far and one more level. -/
def betterOf (best : Option (Level × (Nat × Nat × Nat))) (l : Level) (key : Option (Nat × Nat × Nat)) :
    Option (Level × (Nat × Nat × Nat)) :=
  match best, key with
  | best, none => best
  | none, some k => some (l, k)
  | some b, some k => if keyBefore k b.2 then some (l, k) else some b

namespace State

/-- The level of the head that R97 chooses. -/
def chosenLevel (s : State) (side : Side) : Option Level :=
  ((List.finRange 32).foldl (fun best l => betterOf best l (s.candidateAt side l)) none).map (·.1)

/-- The totes of an automatic LIFT_TAKE: the head, and the second record under R98. -/
def takeTotes (s : State) (side : Side) (contents : List Ident) : List Ident :=
  match contents with
  | [] => []
  | head :: [] => [head]
  | head :: second :: _ =>
    match s.lookup head, s.lookup second with
    | some h, some x =>
      if s.eligibleBehind h x (liftSlot side) ∧ s.weightSum [head, second] ≤ s.settings.params.carriageLimit
          ∧ x.transfer = none
      then [head, second] else [head]
    | _, _ => [head]

/-- The LIFT_TAKE of step 5 (R97, R98). -/
def findTake (s : State) (side : Side) : Option Grant :=
  (s.chosenLevel side).map fun l =>
    let lane : LaneId := { level := l, name := side.outLane }
    takeJob side lane (s.takeTotes side (s.lane lane).contents)

/-- Steps 4 to 6 in order (R90). -/
def findEmpty (s : State) (side : Side) : Option Grant :=
  if s.headAged side then s.findLoad side
  else
    match s.findTake side with
    | some g => some g
    | none => s.findLoad side

end State

/-- What the walk of steps 2 to 6 ends with. -/
inductive Found where
  | job (g : Grant)
  | stuck
  | nothing
  deriving DecidableEq, Repr

def Found.ofOption (o : Option Grant) (otherwise : Found) : Found :=
  match o with
  | some g => .job g
  | none => otherwise

namespace State

/-- Steps 2 to 6 of the walk (R90). A carriage that holds totes goes no further than steps 2 and 3. -/
def walk (s : State) (side : Side) : Found :=
  match (s.lift side).contents with
  | [] => Found.ofOption (s.findEmpty side) .nothing
  | front :: rest =>
    if s.carriageDirection side = some .inbound then Found.ofOption (s.findDrop side front) .stuck
    else Found.ofOption (s.findUnload side front rest) .nothing

/-! ### Grant and parking (R99, R100) -/

/-- The JOB frame of a grant: it carries the lane, and the stop the map gives its level, for a drop or a take (R99). -/
def jobFrame (s : State) (g : Grant) : OutFrame :=
  .job (BitVec.ofNat 8 g.slot.val) (s.slot g.slot).generation g.kind g.totes.length
    ((laneNamed g.giver g.taker).bind fun l => s.stopOf l.level) ((laneNamed g.giver g.taker).map (·.name)) g.totes

/-- The PENDING entries of a LIFT_TAKE become CLAIMED at its grant (R99, R124). -/
def claimTaken (s : State) (g : Grant) : State := if g.kind = .liftTake then g.totes.foldl claimEntry s else s

/-- JOB goes to the lift (R99). -/
def sendJob (s : State) (side : Side) (g : Grant) : State := s.send (.lift side) (s.jobFrame g)

/-- A job is granted: the transfer opens in the lift's slot, the PENDING entries of a LIFT_TAKE become CLAIMED, and
JOB goes to the lift (R99). -/
def grantJob (s : State) (side : Side) (g : Grant) : State := ((s.openTransfer g).claimTaken g).sendJob side g

/-- A selection that ends at step 2 without a drop raises LIFT_STUCK and sets the mark, once (R94). -/
def markStuck (s : State) (side : Side) : State :=
  if (s.lift side).stuck then s
  else (s.modLift side fun x => { x with stuck := true }).raise (.lift side .liftStuck)

/-- Steps 2 to 6 with their effect; true when a job was granted. -/
def selectOn (s : State) (side : Side) : State × Bool :=
  match s.walk side with
  | .job g => (s.grantJob side g, true)
  | .stuck => (s.markStuck side, false)
  | .nothing => (s, false)

/-- The directed job leaves its slot with a refusal reason kept (R92). -/
def discardDirected (s : State) (side : Side) (why : Code) : State :=
  (s.modLift side fun x => { x with directed := none, refusal := some why }).raise (.lift side .directedRefused)

/-- A selection for a lift (R90): true when it granted a job. -/
def select (s : State) (side : Side) : State × Bool :=
  match (s.lift side).directed with
  | none => s.selectOn side
  | some d =>
    match s.judgeDirected side d with
    | .inr g => ((s.modLift side fun x => { x with directed := none }).grantJob side g, true)
    | .inl why => (s.discardDirected side why).selectOn side

/-- The lift parks and is told IDLE (R100). -/
def park (s : State) (side : Side) : State :=
  (s.modLift side fun x => { x with status := .parked }).send (.lift side) .idle

/-- A request of a READY or PARKED lift: selection, or parking (R89, R100). -/
def selectOrPark (s : State) (side : Side) : State :=
  if s.stopped then s.park side
  else if (s.select side).2 then (s.select side).1
  else (s.select side).1.park side

/-! ### Re-evaluation and the close of an event (R101) -/

/-- A parked request is re-evaluated while the aisle is RUNNING (R100, R101). -/
def reevaluateLift (s : State) (side : Side) : State :=
  if (s.lift side).status = .parked ∧ s.stopped = false then (s.select side).1 else s

/-- Every parked request is re-evaluated: lift A, then lift B (R101; log 6). -/
def reevaluate (s : State) : State := (s.reevaluateLift .a).reevaluateLift .b

/-- The pointers take their values, and parked requests are re-evaluated while a cause is outstanding (R101, R122). A
pass without a grant moves no pointer and there are two lifts, so `fuel` passes are never used up from 3 on. -/
def drainCause (s : State) : Nat → State
  | 0 => { s.refreshPointers with cause := false }
  | fuel + 1 =>
    if s.refreshPointers.cause then ({ s.refreshPointers with cause := false }.reevaluate).drainCause fuel
    else s.refreshPointers

/-- The close of an event: pointers, re-evaluations and then the attention line (R101, R122, R179). -/
def closeEvent (s : State) : State := (s.drainCause 4).recomputeAttention

def setLift (s : State) (side : Side) (x : LiftStatus) : State := s.modLift side fun y => { y with status := x }

/-- The lift takes a new state. A parked request is dropped with REFUSE and a reason (R102). -/
def dropParked (s : State) (side : Side) (to_ : LiftStatus) (why : Code) : State :=
  if (s.lift side).status = .parked then (s.setLift side to_).send (.lift side) (.refuse why) else s.setLift side to_

end State

end Sys2Proof.Machine
end

