-- ==== Sys2Proof/Machine/Port.lean ====
section
/-! DEFINITION. How a command reaches its rule: a request through the port (R167 to R170), an event of the part, and
a valid frame through its link (R158, R160, R161). -/

namespace Sys2Proof.Machine

namespace State

/-! ### The request port (R167 to R169) -/

/-- The status byte (R168). -/
def statusByte (s : State) : Byte :=
  0xA0 ||| (if s.raised (.aisle .resetSeen) then 0x10 else 0) ||| (if s.stopped then 0x08 else 0)
    ||| (if s.overrun then 0x04 else 0) ||| (if s.buffer.isSome then 0x02 else 0) ||| (if s.attention then 0x01 else 0)

/-- The status byte of a transaction: as it stood when chip select was asserted (R168). -/
def firstByte (s : State) : Byte :=
  match s.chip with
  | .asserted b => b
  | .idle => s.statusByte
  | .abandoned => s.statusByte

/-- The n-th byte, from 0, that the port shifts out in the latest transaction: after those it has to send, 0 for as long as
chip select stays asserted (R167). -/
def shiftedOut (s : State) (n : Nat) : Byte := (s.portOut[n]?).getD 0

/-- Chip select is asserted: the status byte is taken. In hard reset no transaction starts (R167, R168). -/
def assertSelect (s : State) : State :=
  match s.chip with
  | .idle => { s with chip := if s.inReset then .abandoned else .asserted s.statusByte }
  | .asserted _ => s
  | .abandoned => s

/-- A transaction takes effect at the release of chip select: none does in hard reset, nor one that a hard reset abandoned
(R167). -/
def onRelease (s : State) (act : State → State) : State :=
  if s.inReset || s.chip == .abandoned then { s with chip := .idle } else act s

/-- The transaction ends, having shifted out these bytes and then zeros (R167). -/
def shift (s : State) (out : List Byte) : State := { s with portOut := out, chip := .idle }

end State

/-- What a request's owning rule answers: a response alone, or a response with a new state. -/
inductive Answer where
  | unchanged (r : Response)
  | changed (s : State) (r : Response)
  deriving DecidableEq, Repr

/-- A refusal has an empty body (R171). -/
def Answer.refuse (c : Code) : Answer := .unchanged { code := c, body := .empty }

/-- OK with a body, and nothing changed. -/
def Answer.reply (b : Body) : Answer := .unchanged { code := .ok, body := b }

/-- OK with an empty body, and a new state. -/
def Answer.accept (s : State) : Answer := .changed s { code := .ok, body := .empty }

/-- OK with a body, and a new state. -/
def Answer.acceptWith (s : State) (b : Body) : Answer := .changed s { code := .ok, body := b }

/-- The first failing check refuses; otherwise the request goes on (00_scope.md, Answers). -/
def Answer.checked (checks : List (Bool × Code)) (go : Answer) : Answer :=
  match firstRefusal checks with
  | some c => .refuse c
  | none => go

namespace State

/-- The response of an executed request fills the buffer (R169); the port shifts out the status byte and then zeros
(R167). -/
def answered (s : State) (a : Answer) : State :=
  match a with
  | .unchanged r => { s.shift [s.firstByte] with buffer := some r }
  | .changed t r => { t.closeEvent.shift [s.firstByte] with buffer := some r }

/-- A REQUEST is taken when chip select is released: with a response in the buffer it is discarded and the overrun flag is
set; otherwise it is judged and executed, and its response fills the buffer (R167, R169). -/
def takeRequest (s : State) (f : State → Answer) : State :=
  s.onRelease fun s =>
    if s.buffer.isSome then { s.shift [s.firstByte] with overrun := true } else s.answered (f s)

end State

/-- A request as a command. -/
def request (f : State → Answer) (s : State) : Result := .next (s.takeRequest f)

/-! ### Events -/

/-- One event of the part with its close. In hard reset nothing is taken (00_scope.md, Electrical notes; log 5). -/
def State.takeEvent (s : State) (f : State → State) : State := if s.inReset then s else (f s).closeEvent

/-- An event as a command. -/
def event (f : State → State) (s : State) : Result := .next (s.takeEvent f)

/-! ### Links (R158, R160, R161) -/

namespace State

/-- A change of a link's status raises its event and is made known (R161). -/
def linkChanged (s : State) (p : Port) : State :=
  match p with
  | .stop n =>
    match s.levelAt n with
    | some l => (s.raise (.level l .linkChange)).recomputeFence l
    | none => s.raise (.aisle .spareLink)
  | .lift side => s.raise (.lift side .linkChange)
  | .front => s.raise (.aisle .frontLinkChange)

def setLink (s : State) (p : Port) (x : LinkStatus) : State := s.modLink p fun y => { y with status := x }

/-- The effect of a valid frame on the status of its link: UP with the silence timer set to LOSS_TIME, and a link that was
DOWN is sent RESYNC with the kind of the latest reset (R158, R160, R163). -/
def bringUp (s : State) (p : Port) : State :=
  match (s.link p).status with
  | .up _ => s.setLink p (.up s.settings.params.lossTime)
  | .down => ((s.setLink p (.up s.settings.params.lossTime)).linkChanged p).send p (.resync s.resetKind)
  | .lost => (s.setLink p (.up s.settings.params.lossTime)).linkChanged p

/-- A valid frame is taken on a link: it is whole, so nothing of it is partly received any more, and the link is UP (R156,
R158, R160). -/
def takeValid (s : State) (p : Port) : State := (s.hear p []).bringUp p

/-- The lift whose link is lost is PARKED no longer, and is sent nothing (R102). -/
def unpark (s : State) (p : Port) : State :=
  match p with
  | .lift side => if (s.lift side).status = .parked then s.setLift side .ready else s
  | .stop _ => s
  | .front => s

/-- The silence timer of an UP link expires: the link is LOST, and a parked request of its lift is dropped (R102,
R160, R161). -/
def loseLink (s : State) (p : Port) : State :=
  match (s.link p).status with
  | .up _ => ((s.setLink p .lost).linkChanged p).unpark p
  | .down => s
  | .lost => s

/-- A wrong-node event (R157). -/
def raiseWrongNode (s : State) (p : Port) : State :=
  match p with
  | .stop n =>
    match s.levelAt n with
    | some l => s.raise (.level l .wrongNode)
    | none => s.raise (.aisle .spareLink)
  | .lift _ => s.raise (.aisle .wrongNode)
  | .front => s.raise (.aisle .wrongNode)

end State

/-- A valid frame as a command: its effect on its link, then what its owning block does with it (R158). -/
def frame (p : Port) (f : State → State) (s : State) : Result := event (fun s => f (s.takeValid p)) s

end Sys2Proof.Machine
end

