-- ==== Sys2Proof/Machine/Layout.lean ====
section
/-! DEFINITION. The bytes of responses (R170, R171) and of the frames that the part sends (R156, R159).

A named value takes the position it has in the list where its rule or record table first gives the values, and a form
the position of the form (R171); where the wording leaves a choice it is in log 9. -/

namespace Sys2Proof

def Side.byte (x : Side) : Byte := BitVec.ofNat 8 x.ix.val
def LaneName.byte (x : LaneName) : Byte := BitVec.ofNat 8 x.ix.val
def Level.byte (l : Level) : Byte := BitVec.ofNat 8 (l.val + 1)
def Stop.byte (n : Stop) : Byte := BitVec.ofNat 8 (n.val + 1)

namespace Machine

/-! ### Named values (R171) -/

def Code.byte : Code → Byte
  | .ok => 0 | .none => 1 | .end_ => 2 | .noRecord => 3 | .duplicate => 4 | .wrongState => 5 | .wrongLevel => 6
  | .unmapped => 7 | .levelOff => 8 | .levelDraining => 9 | .levelFenced => 10 | .audit => 11 | .laneBlocked => 12
  | .laneBusy => 13 | .settling => 14 | .laneFull => 15 | .laneEmpty => 16 | .notEligible => 17 | .carriageFull => 18
  | .mixedDirection => 19 | .weightLimit => 20 | .busy => 21 | .blocked => 22 | .stopped => 23 | .tableFull => 24
  | .outOfRange => 25 | .mismatch => 26 | .checkError => 27 | .unknownRequest => 28 | .badLength => 29 | .denied => 30
  | .timeout => 31 | .noRead => 32 | .overhang => 33 | .overweight => 34 | .queueFull => 35

def Direction.byte : Direction → Byte
  | .inbound => 0
  | .outbound => 1

def Pref.byte : Pref → Byte
  | .a => 0
  | .b => 1
  | .either => 2

def FailReason.byte : FailReason → Byte
  | .motionTimeout => 0
  | .confirmTimeout => 1
  | .confirmContrary => 2

/-- The five reasons of a hold record (R1). -/
def HoldReason.byte : HoldReason → Byte
  | .failed why => why.byte
  | .exitMismatch => 3
  | .exitNoRead => 4

/-- The two reasons of a station's last exit fault (R116). -/
def HoldReason.faultByte : HoldReason → Byte
  | .exitMismatch => 0
  | .exitNoRead => 1
  | .failed _ => 0

def BlockReason.byte : BlockReason → Byte
  | .confirmFail => 0
  | .unexpectedChange => 1
  | .auditMismatch => 2
  | .scanTimeout => 3

def Condition.byte : Condition → Byte
  | .clear => 0
  | .settling _ => 1
  | .audit => 2
  | .blocked _ => 3

def Mode.byte : Mode → Byte
  | .off => 0
  | .manual => 1
  | .auto => 2
  | .draining => 3

def Kind.byte : Kind → Byte
  | .shuttlePut => 0
  | .shuttleTake => 1
  | .entryLoad => 2
  | .liftDrop => 3
  | .liftTake => 4
  | .exitUnload => 5

def LastEnd.byte : LastEnd → Byte
  | .none => 0
  | .committed => 1
  | .aborted => 2
  | .failed _ => 3

def LiftStatus.byte : LiftStatus → Byte
  | .disabled => 0
  | .ready => 1
  | .parked => 2
  | .working => 3
  | .blocked => 4

def EntryState.byte : EntryState → Byte
  | .pending => 0
  | .claimed => 1
  | .loaded => 2
  | .delivered => 3
  | .exitHeld => 4
  | .missing => 5
  | .skipped => 6

def ReportMode.byte : ReportMode → Byte
  | .each => 0
  | .list => 1

def LinkStatus.byte : LinkStatus → Byte
  | .down => 0
  | .up _ => 1
  | .lost => 2

def ResetKind.byte : ResetKind → Byte
  | .hard => 0
  | .soft => 1

def Weighed.byte : Weighed → Byte
  | .weight w => BitVec.ofNat 8 w.val
  | .overweight => 255

/-- yes or no, on or off, set or clear: the first of the two is 0 (log 9). -/
def yesNo (b : Bool) : Byte := if b then 0 else 1

/-- OPEN or CLOSED (R117). -/
def closedByte (b : Bool) : Byte := if b then 1 else 0

def byteOf (n : Nat) : Byte := BitVec.ofNat 8 n

/-- A field that may be absent (R171). -/
def optional {α : Type} (f : α → List Byte) : Option α → List Byte
  | none => [0]
  | some a => 1 :: f a

/-! ### Fields with forms (R171) -/

def TransferNumber.bytes (t : TransferNumber) : List Byte := [byteOf t.slot.val, t.gen]

def Giver.bytes : Giver → List Byte
  | .lane l => [0, l.level.byte, l.name.byte]
  | .carriage lift => [1, lift.byte]
  | .entry side => [2, side.byte]
  | .rack l => [3, l.byte]

def Taker.bytes : Taker → List Byte
  | .lane l => [0, l.level.byte, l.name.byte]
  | .carriage lift => [1, lift.byte]
  | .shuttle => [2]
  | .exit => [3]

/-- The state of a record (R1). -/
def Place.byte : Place → Byte
  | .expected => 0
  | .entry _ => 1
  | .lane _ => 2
  | .carriage _ => 3
  | .held _ => 4

/-- The location of a record with its position (R1). A carriage place is FRONT 0 or BACK 1. R171 names a width for a queue
position only: that a lane position takes one byte too is the model's choice (log 9). -/
def locationBytes (p : Place) (position : Option Nat) : List Byte :=
  let n := position.getD 0
  match p with
  | .expected => [0]
  | .held _ => [0]
  | .entry side => [1, 0, side.byte, byteOf n]
  | .lane l => [1, 1, l.level.byte, l.name.byte, byteOf n]
  | .carriage lift => [1, 2, lift.byte, byteOf (n - 1)]

def holdBytes : Place → List Byte
  | .held h => 1 :: h.reason.byte :: (h.giver.bytes ++ h.taker.bytes)
  | .expected => [0]
  | .entry _ => [0]
  | .lane _ => [0]
  | .carriage _ => [0]

def EntryRef.bytes (r : EntryRef) : List Byte := [byteOf r.list.val, byteOf r.rank]

def weightBytes (w : Weight) : List Byte := [byteOf w.val]

/-- A record in the form of READ_TOTE (R12). -/
def ToteView.bytes (v : ToteView) : List Byte :=
  let r := v.record
  identBytes r.ident ++ [r.direction.byte, r.place.byte] ++ locationBytes r.place v.position ++ [r.level.byte]
    ++ optional (fun p => [p.byte]) r.pref ++ optional weightBytes r.weight ++ optional EntryRef.bytes r.entry
    ++ optional TransferNumber.bytes r.transfer ++ holdBytes r.place

def identsOf (l : List Ident) : List Byte := l.flatMap identBytes

def Correction.bytes (c : Correction) : List Byte := yesNo c.enabled :: (identBytes c.read ++ identBytes c.corrected)

/-- A stop, or 0 for "none" (R171). The "unmapped" of R44 is sent as that 0, with no presence or form byte: the model's choice
(log 9). -/
def stopByte (n : Option Stop) : Byte :=
  match n with
  | none => 0
  | some n => n.byte

def LevelView.bytes (v : LevelView) : List Byte :=
  [stopByte v.stop, v.mode.byte, yesNo v.fenceOnLoss, yesNo v.fenced, byteOf v.streak] ++ optional natBytes v.scan

def Condition.reason : Condition → Option BlockReason
  | .blocked why => some why
  | .clear => none
  | .settling _ => none
  | .audit => none

def Condition.settleTime : Condition → Option Nat
  | .settling n => some n
  | .clear => none
  | .audit => none
  | .blocked _ => none

/-- A lane (R44). That its depth takes one byte, that its latest report is sent as two fields, the count and the settled byte,
and that "none", where no open transfer names it, is an absent number, presence byte 0, are the model's choice (log 9). -/
def LaneView.bytes (v : LaneView) : List Byte :=
  [byteOf v.depth] ++ identsOf v.lane.contents ++ [byteOf v.lane.reserved, v.lane.condition.byte]
    ++ optional (fun b => [b.byte]) v.lane.condition.reason ++ optional identsOf v.lane.discrepancy
    ++ optional (fun r : LaneReport => [byteOf r.count.val, yesNo r.settled]) v.lane.report
    ++ optional natBytes v.lane.condition.settleTime ++ optional TransferNumber.bytes v.transfer

/-- The watches of an open transfer, its lane's first. -/
def Open.watches (o : Open) : List Watch := o.laneWatch.toList ++ o.carriageWatch.toList

def Slot.stateByte (x : Slot) : Byte :=
  match x.opened with
  | none => 0
  | some o => if o.confirming then 2 else 1

def LastEnd.reason : LastEnd → Option FailReason
  | .failed why => some why
  | .none => Option.none
  | .committed => Option.none
  | .aborted => Option.none

/-- A transfer slot (R67): the generation alone is the byte that it is in a transfer number (R164; log 9), and each field that R45 gives while open or at times has its presence byte. The start counts with their
targets, and the marks, are one field each: one presence byte, and after it the holders named, lane first; a mark is one yes or no
byte, and the marks are there in CONFIRMING: the model's choice (log 9). -/
def Slot.bytes (x : Slot) : List Byte :=
  let o := x.opened
  [x.generation, x.stateByte, x.lastEnd.byte] ++ optional (fun r => [r.byte]) x.lastEnd.reason
    ++ optional (fun o : Open => [o.kind.byte]) o
    ++ optional (fun o : Open => identsOf o.totes) o
    ++ optional (fun o : Open => [byteOf o.granted]) o
    ++ optional (fun o : Open => o.giver.bytes) o
    ++ optional (fun o : Open => o.taker.bytes) o
    ++ optional (fun o : Open => o.watches.flatMap fun w => [byteOf w.start, byteOf w.target]) o
    ++ optional (fun o : Open => o.watches.map fun w => yesNo w.mark) (o.filter (·.confirming))
    ++ optional (fun o : Open => natBytes o.timer) o
    ++ optional (fun o : Open => [yesNo o.paused]) o
    ++ optional (fun o : Open => [byteOf o.reads]) (o.filter fun o => o.kind == .exitUnload)

def PendingClaim.bytes (p : PendingClaim) : List Byte :=
  match p.claim with
  | .put i => [p.level.byte, Kind.shuttlePut.byte] ++ identBytes i ++ natBytes p.timer
  | .take side => [p.level.byte, Kind.shuttleTake.byte, side.byte] ++ natBytes p.timer

def PlaceReport.bytes (p : PlaceReport) : List Byte :=
  match p with
  | .empty => [1, 1]
  | .running => [0, 1]
  | .seated => [0, 0]

def directedBytes : Option Directed → List Byte
  | none => [0]
  | some (.take l n) => [1, l.byte, byteOf n]
  | some (.drop l) => [2, l.byte]

/-- A lift (R105). A parked request is a presence byte alone, the latest report is sent as R83's four values, the refusal reason
by its code in R171's numbering, and the "none" of the open transfer as an absent number, presence byte 0: the model's choice
(log 9). -/
def LiftView.bytes (v : LiftView) : List Byte :=
  [v.status.byte] ++ identsOf v.contents ++ [byteOf v.reserved]
    ++ optional (fun r : CarriageReport => PlaceReport.bytes r.front ++ PlaceReport.bytes r.back) v.report
    ++ [if v.parkedRequest then 1 else 0] ++ directedBytes v.directed ++ optional (fun c => [Code.byte c]) v.refusal
    ++ [yesNo v.stuck] ++ optional TransferNumber.bytes v.transfer

/-- A record in a queue always has a weight class (R1), so the class carries no presence byte. -/
def EntryRow.bytes (r : EntryRow) : List Byte :=
  identBytes r.ident ++ [r.level.byte] ++ weightBytes (r.weight.getD 0)

/-- A last rejection (R106): its reason is sent by its code in R171's numbering, the model's choice (log 9). -/
def Rejection.bytes (r : Rejection) : List Byte := identBytes r.ident ++ [r.reason.byte, r.weighed.byte]

/-- An entry queue (R115). The "none" of the open ENTRY_LOAD is an absent field, presence byte 0: the model's choice (log 9). -/
def EntryView.bytes (v : EntryView) : List Byte :=
  v.rows.flatMap EntryRow.bytes ++ optional natBytes v.age ++ [yesNo v.isAged, yesNo v.mark]
    ++ optional TransferNumber.bytes v.load ++ optional Rejection.bytes v.rejection

def Pointer.exitBytes : Pointer → List Byte
  | .entry ref => 0 :: ref.bytes
  | .endOfList l => [1, byteOf l.val]
  | .atEnd => [2]

def LoadPointer.bytes : LoadPointer → List Byte
  | .stands (.entry ref) => 0 :: ref.bytes
  | .stands (.endOfList l) => [1, byteOf l.val]
  | .withheld => [2]
  | .stands .atEnd => [3]

def ExitFault.bytes (x : ExitFault) : List Byte := identBytes x.expected ++ identBytes x.read ++ [x.reason.faultByte]

def StationView.bytes (v : StationView) : List Byte :=
  (v.queue.flatMap fun q => byteOf q.list.val :: (natBytes q.opening ++ [closedByte q.closed]))
    ++ v.nextLoad.bytes ++ v.nextExit.exitBytes ++ [yesNo v.stalled, v.mode.byte] ++ optional ExitFault.bytes v.fault
    ++ optional (fun u : Side × Ident => u.1.byte :: identBytes u.2) v.unsolicited

def ListRow.bytes (r : ListRow) : List Byte :=
  [byteOf r.rank] ++ identBytes r.entry.ident ++ [r.entry.level.byte, r.entry.pref.byte] ++ weightBytes r.entry.weight
    ++ [r.entry.state.byte]

def ListView.bytes (v : ListView) : List Byte :=
  [byteOf (v.station.val + 1)] ++ natBytes v.opening ++ [closedByte v.closed, byteOf v.size] ++ v.rows.flatMap ListRow.bytes

/-- A link's status, and the remaining silence time of an UP link (R166). Each link's time stands beside its own status, after a
presence byte: the model's choice (log 9). -/
def LinkStatus.bytes (x : LinkStatus) : List Byte :=
  x.byte :: match x with
    | .up n => 1 :: natBytes n
    | .down => [0]
    | .lost => [0]

/-- The eleven values in number order (R172). -/
def Params.values (p : Params) : List Nat :=
  [p.motionLimitShuttle, p.motionLimitLift, p.confirmWindow, p.exitReadWindow, p.settleTime, p.lossTime,
   p.approvalLimit, p.entryAgeLimit, p.scanLimit, p.streakLimit, p.carriageLimit]

/-- The body of a response (R171). -/
def Body.bytes : Body → List Byte
  | .empty => []
  | .position n => [byteOf n]
  | .mode m => [m.byte]
  | .number t => t.bytes
  | .opened l n => byteOf l.val :: natBytes n
  | .rank n => [byteOf n]
  | .tote v => v.bytes
  | .walked k v => natBytes k ++ v.bytes
  | .corrections t => t.toList.flatMap Correction.bytes
  | .level v => v.bytes
  | .lane v => v.bytes
  | .slot x => x.bytes
  | .approvals n part => byteOf n :: part.flatMap PendingClaim.bytes
  | .lift v => v.bytes
  | .entry v => v.bytes
  | .station v => v.bytes
  | .list v => v.bytes
  | .links v => v.toList.flatMap LinkStatus.bytes
  | .identity part revision => natBytes part ++ [byteOf revision]
  | .params p => p.values.flatMap natBytes
  | .events flags mask => [flags, mask]
  | .summary v => v.toList

/-- The frame of a response (R170). -/
def Response.bytes (r : Response) : List Byte := portFrame r.code.byte r.body.bytes

/-- What a COLLECT shifts out of the buffer: NONE with length 0 when it is empty (R169). -/
def collected (b : Option Response) : List Byte :=
  match b with
  | some r => r.bytes
  | none => portFrame Code.none.byte []

/-! ### The frames that the part sends (R156, R159, R162) -/

def OutFrame.kind : OutFrame → Byte
  | .status _ => 128
  | .grant .. => 129
  | .job .. => 130
  | .idle => 131
  | .wait => 132
  | .refuse _ => 133
  | .ack _ _ => 134
  | .late _ _ => 135
  | .stale _ _ => 136
  | .auditRequest => 137
  | .accept _ _ => 138
  | .reject _ _ => 139
  | .resync _ => 140

def OutFrame.body : OutFrame → List Byte
  | .status stopped => [if stopped then 1 else 0]
  | .grant slot gen kind lane i => [slot, gen, kind.byte, lane.byte] ++ identBytes i
  | .job slot gen kind count stop lane idents =>
    [slot, gen, kind.byte, byteOf count, stopByte stop, (lane.map LaneName.byte).getD 0] ++ identsOf idents
  | .idle => []
  | .wait => []
  | .refuse c => [c.byte]
  | .ack slot gen => [slot, gen]
  | .late slot gen => [slot, gen]
  | .stale slot gen => [slot, gen]
  | .auditRequest => []
  | .accept i n => identBytes i ++ [byteOf n]
  | .reject i c => identBytes i ++ [c.byte]
  | .resync k => [k.byte]

/-- STATUS and RESYNC carry 255, every other frame the node number of its port (R162). -/
def OutFrame.node (p : Port) : OutFrame → Byte
  | .status _ => 255
  | .resync _ => 255
  | .grant .. => p.node
  | .job .. => p.node
  | .idle => p.node
  | .wait => p.node
  | .refuse _ => p.node
  | .ack _ _ => p.node
  | .late _ _ => p.node
  | .stale _ _ => p.node
  | .auditRequest => p.node
  | .accept _ _ => p.node
  | .reject _ _ => p.node

/-- The bytes of a frame as it leaves on a port (R156). -/
def OutFrame.bytes (p : Port) (f : OutFrame) : List Byte := linkFrame (f.node p) f.kind f.body

end Machine

end Sys2Proof
end

