-- ==== Sys2Proof/Machine/ToteTable.lean ====
section
/-! DEFINITION. The tote table's commands (R12 to R17) and the correction of reads (R18). -/

namespace Sys2Proof.Machine

namespace State

/-- A read is passed once through the identity correction table (R18). -/
def correct (s : State) (i : Ident) : Ident :=
  match (List.finRange 8).find? fun k =>
      (nth s.settings.corrections k).enabled && (nth s.settings.corrections k).read == i with
  | some k => (nth s.settings.corrections k).corrected
  | none => i

/-- A record with its position, as READ_TOTE and WALK give it (R12). -/
def viewOf (s : State) (r : Record) : ToteView := { record := r, position := s.positionOf r }

/-- The first two checks of a request that names one tote: identity 0, and no record (R12, R16, R131). -/
def withRecord (s : State) (i : Ident) (go : Record → Answer) : Answer :=
  if i = 0 then .refuse .outOfRange
  else
    match s.lookup i with
    | none => .refuse .noRecord
    | some r => go r

def modSettings (s : State) (f : Settings → Settings) : State := { s with settings := f s.settings }

end State

/-- A record in EXPECTED. -/
def Place.isExpected : Place → Bool
  | .expected => true
  | .entry _ => false
  | .lane _ => false
  | .carriage _ => false
  | .held _ => false

/-- A record in LANE. -/
def Place.isLane : Place → Bool
  | .lane _ => true
  | .expected => false
  | .entry _ => false
  | .carriage _ => false
  | .held _ => false

/-- A record in HELD. -/
def Place.isHeld : Place → Bool
  | .held _ => true
  | .expected => false
  | .entry _ => false
  | .lane _ => false
  | .carriage _ => false

/-- A record in CARRIAGE. -/
def Place.isCarriage : Place → Bool
  | .carriage _ => true
  | .expected => false
  | .entry _ => false
  | .lane _ => false
  | .held _ => false

/-- READ_TOTE (R12). -/
def readTote (ident : Ident) (s : State) : Answer :=
  s.withRecord ident fun r => .reply (.tote (s.viewOf r))

def execReadTote (ident : Ident) (s : State) : Result := request (readTote ident) s

/-- WALK (R13). -/
def walkTable (start : BitVec 16) (s : State) : Answer :=
  if Config.recordSlots < start.toNat then .refuse .outOfRange
  else
    match s.records.find? fun p => decide (start.toNat ≤ p.1) with
    | some p => .reply (.walked p.1 (s.viewOf p.2))
    | none => .refuse .end_

def execWalk (start : BitVec 16) (s : State) : Result := request (walkTable start) s

/-- The record that ANNOUNCE_INBOUND creates (R14). -/
def Record.announced (ident : Ident) (l : Level) : Record :=
  { ident := ident, direction := .inbound, place := .expected, level := l, pref := none, weight := none, entry := none,
    transfer := none }

/-- ANNOUNCE_INBOUND (R14). -/
def announceInbound (ident : Ident) (level : Byte) (s : State) : Answer :=
  match Level.ofByte level with
  | none => .refuse .outOfRange
  | some l =>
    .checked
      [(ident == 0, .outOfRange), ((s.lookup ident).isSome, .duplicate), (s.freeSlots == 0, .tableFull)]
      (.accept (s.create (Record.announced ident l)))

def execAnnounceInbound (ident : Ident) (level : Byte) (s : State) : Result := request (announceInbound ident level) s

/-- A record takes a new level. On a carriage it is a cause of re-evaluation (R15, R101). -/
def State.redirect (s : State) (r : Record) (l : Level) : State :=
  if r.place.isCarriage then (s.modRecord r.ident fun x => { x with level := l }).withCause
  else s.modRecord r.ident fun x => { x with level := l }

/-- RETARGET (R15). A record on a carriage is a cause of re-evaluation (R101). -/
def retarget (ident : Ident) (level : Byte) (s : State) : Answer :=
  match Level.ofByte level with
  | none => .refuse .outOfRange
  | some l =>
    s.withRecord ident fun r =>
      .checked
        [(r.direction == .outbound || r.place.isLane || r.place.isHeld, .wrongState), (r.transfer.isSome, .busy)]
        (.accept (s.redirect r l))

def execRetarget (ident : Ident) (level : Byte) (s : State) : Result := request (retarget ident level) s

/-- CANCEL_RECORD (R16). -/
def cancelRecord (ident : Ident) (s : State) : Answer :=
  s.withRecord ident fun r =>
    .checked
      [(!r.place.isExpected || (r.direction == .outbound && r.entry.isSome), .wrongState), (r.transfer.isSome, .busy)]
      (.accept (s.retire ident))

def execCancelRecord (ident : Ident) (s : State) : Result := request (cancelRecord ident) s

/-- SET_CORRECTION (R17). -/
def setCorrection (entry enabled : Byte) (read corrected : Ident) (s : State) : Answer :=
  match correctionOfByte entry, settingOfByte enabled with
  | some e, some on =>
    .checked
      [(on && (read == 0 || corrected == 0), .outOfRange),
       (on && (List.finRange 8).any fun k =>
          k != e && (nth s.settings.corrections k).enabled && (nth s.settings.corrections k).read == read, .duplicate)]
      (.accept (s.modSettings fun x =>
        { x with corrections := upd x.corrections e fun _ => { enabled := on, read := read, corrected := corrected } }))
  | _, _ => .refuse .outOfRange

def execSetCorrection (entry enabled : Byte) (read corrected : Ident) (s : State) : Result :=
  request (setCorrection entry enabled read corrected) s

/-- READ_CORRECTIONS (R17). -/
def readCorrections (s : State) : Answer := .reply (.corrections s.settings.corrections)

def execReadCorrections (s : State) : Result := request readCorrections s

end Sys2Proof.Machine
end

