-- ==== Sys2Proof/Machine/Levels.lean ====
section
/-! DEFINITION. The commands of levels and lanes: the level map, depths, modes, fences, audits, blocks and reports
(R19 to R44). -/

namespace Sys2Proof.Machine

/-- A request that names a level (R171). -/
def withLevel (level : Byte) (go : Level → Answer) : Answer :=
  match Level.ofByte level with
  | none => .refuse .outOfRange
  | some l => go l

/-- A request that names a level and a lane (R171). -/
def withLane (level lane : Byte) (go : LaneId → Answer) : Answer :=
  match Level.ofByte level, LaneName.ofByte lane with
  | some l, some n => go { level := l, name := n }
  | _, _ => .refuse .outOfRange

/-- The stop field of SET_LEVEL_MAP: 0 is "none" (R171). -/
def stopArg (b : Byte) : Option (Option Stop) := if b = 0 then some none else (Stop.ofByte b).map some

def Condition.isBlocked : Condition → Bool
  | .blocked _ => true
  | .clear => false
  | .settling _ => false
  | .audit => false

def State.forgetReport (s : State) (l : LaneId) : State := s.modLane l fun x => { x with report := none }

/-- SET_LEVEL_MAP's effect: the mapping, the four latest reports absent, and the fence recomputed (R20). -/
def State.remap (s : State) (l : Level) (n : Option Stop) : State :=
  ((lanesOf l).foldl forgetReport
    (s.modSettings fun x => { x with levelMap := upd x.levelMap l fun _ => n })).recomputeFence l

/-- SET_LEVEL_MAP (R20). -/
def setLevelMap (level stop : Byte) (s : State) : Answer :=
  withLevel level fun l =>
    match stopArg stop with
    | none => .refuse .outOfRange
    | some n =>
      .checked
        [((s.level l).mode != .off, .wrongState),
         ((lanesOf l).any (fun k => !(s.lane k).contents.isEmpty) || (s.level l).scan.isSome, .busy),
         ((lanesOf l).any (fun k => (s.lane k).condition.isBlocked), .laneBlocked),
         (n.isSome && (List.finRange 32).any (fun k => k != l && s.stopOf k == n), .duplicate)]
        (.accept (s.remap l n))

def execSetLevelMap (level stop : Byte) (s : State) : Result := request (setLevelMap level stop) s

/-- SET_LANE_DEPTH (R22). -/
def setLaneDepth (level lane depth : Byte) (s : State) : Answer :=
  withLane level lane fun k =>
    .checked
      [(depth.toNat < 1 || 3 < depth.toNat, .outOfRange),
       ((s.level k.level).mode != .off || !(s.lane k).contents.isEmpty, .wrongState)]
      (.accept (s.modSettings fun x => { x with laneDepth := upd x.laneDepth k.ix fun _ => depth.toNat }))

def execSetLaneDepth (level lane depth : Byte) (s : State) : Result := request (setLaneDepth level lane depth) s

/-- SET_LEVEL_MODE (R33): the response carries the mode the level then holds. -/
def setLevelMode (level mode : Byte) (s : State) : Answer :=
  withLevel level fun l =>
    match Mode.ofByte mode with
    | none => .refuse .outOfRange
    | some m =>
      if m ≠ .off ∧ s.stopOf l = none then .refuse .unmapped
      else .acceptWith (s.askMode l m) (.mode ((s.askMode l m).level l).mode)

def execSetLevelMode (level mode : Byte) (s : State) : Result := request (setLevelMode level mode) s

/-- SET_FENCE_ON_LOSS (R37). -/
def setFenceOnLoss (level setting : Byte) (s : State) : Answer :=
  withLevel level fun l =>
    match settingOfByte setting with
    | none => .refuse .outOfRange
    | some on =>
      .accept ((s.modSettings fun x => { x with fenceOnLoss := upd x.fenceOnLoss l fun _ => on }).recomputeFence l)

def execSetFenceOnLoss (level setting : Byte) (s : State) : Result := request (setFenceOnLoss level setting) s

/-! ### Audits (R39 to R42) -/

/-- A lane joins an audit: CLEAR or SETTLING becomes AUDIT, BLOCKED stays (R40). -/
def Condition.audited : Condition → Condition
  | .clear => .audit
  | .settling _ => .audit
  | .audit => .audit
  | .blocked why => .blocked why

def LinkStatus.isUp : LinkStatus → Bool
  | .up _ => true
  | .down => false
  | .lost => false

def State.joinAudit (s : State) (l : LaneId) : State := s.modLane l fun x => { x with condition := x.condition.audited }

/-- An audit starts on a level (R40). -/
def State.beginAudit (s : State) (l : Level) : State :=
  (((lanesOf l).foldl joinAudit s).modLevel l
    fun x => { x with scan := some s.settings.params.scanLimit }).sendLevel l .auditRequest

/-- START_AUDIT (R40). -/
def startAudit (level : Byte) (s : State) : Answer :=
  withLevel level fun l =>
    match s.stopOf l with
    | none => .refuse .unmapped
    | some n =>
      if !(s.link (.stop n)).status.isUp || s.levelTouched l || (s.level l).mode == .draining || (s.level l).scan.isSome
      then .refuse .busy
      else .accept (s.beginAudit l)

def execStartAudit (level : Byte) (s : State) : Result := request (startAudit level) s

/-- A lane of the level is settled by its scan, as corrected (R41). A lane that is neither in AUDIT nor BLOCKED takes no
part in an audit and is left as it is (log 15). -/
def State.settleScan (s : State) (l : LaneId) (scan : List Ident) : State :=
  match (s.lane l).condition with
  | .audit =>
    if scan = (s.lane l).contents then s.modLane l fun x => { x with condition := .clear, discrepancy := none }
    else (s.blockLane l .auditMismatch).modLane l fun x => { x with discrepancy := some scan }
  | .blocked _ =>
    s.modLane l fun x => { x with discrepancy := if scan = (s.lane l).contents then none else some scan }
  | .clear => s
  | .settling _ => s

/-- An audit ends: the scan timer stops, AUDIT_DONE is raised, and parked requests are re-evaluated (R41, R42). -/
def State.endAudit (s : State) (l : Level) : State :=
  ((s.modLevel l fun x => { x with scan := none }).raise (.level l .auditDone)).withCause

/-- The list that a scan gives for a lane. -/
def scannedIn (x : Scan) : LaneName → List Ident
  | .aIn => x.aIn
  | .aOut => x.aOut
  | .bIn => x.bIn
  | .bOut => x.bOut

/-- The scan of a level is taken: with no audit running it is discarded (R41). -/
def State.takeScan (s : State) (l : Level) (scan : Scan) : State :=
  if (s.level l).scan.isNone then s
  else ((lanesOf l).foldl (fun t k => t.settleScan k ((scannedIn scan k.name).map s.correct)) s).endAudit l

/-- AUDIT_SCAN (R41, R159): from a spare stop it is discarded. -/
def execAuditScan (stop : Stop) (scan : Scan) (s : State) : Result :=
  frame (.stop stop) (fun s => match s.levelAt stop with
    | some l => s.takeScan l scan
    | none => s) s

/-- A lane still in AUDIT becomes BLOCKED with SCAN_TIMEOUT (R42). -/
def State.timeOutLane (s : State) (l : LaneId) : State :=
  if (s.lane l).condition = .audit then s.blockLane l .scanTimeout else s

/-- The scan timer of a level expires (R42). -/
def State.timeOutAudit (s : State) (l : Level) : State :=
  if (s.level l).scan.isNone then s else ((lanesOf l).foldl timeOutLane s).endAudit l

/-- SCAN_TIMEOUT (R42). -/
def execScanTimeout (level : Level) (s : State) : Result := event (fun s => s.timeOutAudit level) s

/-! ### Blocks and readings (R43, R44) -/

/-- The latest report is settled and counts what the contents hold (R43 check 3). -/
def State.reportAgrees (s : State) (l : LaneId) : Bool :=
  (s.lane l).report.any fun r => r.settled && r.count.val == (s.lane l).contents.length

/-- CLEAR_LANE_BLOCK (R43). -/
def clearLaneBlock (level lane : Byte) (s : State) : Answer :=
  withLane level lane fun k =>
    .checked
      [(!(s.lane k).condition.isBlocked, .wrongState), (!s.reportAgrees k, .mismatch)]
      (.accept ((s.modLane k fun x =>
        { x with condition := if (s.level k.level).scan.isSome then .audit else .clear, discrepancy := none }).withCause))

def execClearLaneBlock (level lane : Byte) (s : State) : Result := request (clearLaneBlock level lane) s

/-- READ_LEVEL (R44). -/
def readLevel (level : Byte) (s : State) : Answer :=
  withLevel level fun l => .reply (.level
    { stop := s.stopOf l, mode := (s.level l).mode, fenceOnLoss := nth s.settings.fenceOnLoss l,
      fenced := (s.level l).fenced, streak := (s.level l).streak, scan := (s.level l).scan })

def execReadLevel (level : Byte) (s : State) : Result := request (readLevel level) s

/-- READ_LANE (R44). -/
def readLane (level lane : Byte) (s : State) : Answer :=
  withLane level lane fun k => .reply (.lane
    { depth := s.depth k, lane := s.lane k, transfer := (s.slotNaming k).map s.numberOf })

def execReadLane (level lane : Byte) (s : State) : Result := request (readLane level lane) s

/-! ### Reports and the settle time (R28, R31) -/

/-- A report of a lane of the level at a stop; from a spare stop it is discarded (R28). -/
def State.reportFrom (s : State) (stop : Stop) (lane : LaneName) (r : LaneReport) : State :=
  match s.levelAt stop with
  | some l => s.takeLaneReport { level := l, name := lane } r
  | none => s

/-- LANE_STATE (R28). -/
def execLaneState (stop : Stop) (lane : LaneName) (report : LaneReport) (s : State) : Result :=
  frame (.stop stop) (fun s => s.reportFrom stop lane report) s

/-- BEACON of a level node: each of its four reports is one event of its lane (R28, R159). The link's change belongs to
the first of them. -/
def execBeacon (stop : Stop) (aIn aOut bIn bOut : LaneReport) (s : State) : Result :=
  frame (.stop stop) (fun s =>
    let s := (s.reportFrom stop .aIn aIn).closeEvent
    let s := (s.reportFrom stop .aOut aOut).closeEvent
    let s := (s.reportFrom stop .bIn bIn).closeEvent
    s.reportFrom stop .bOut bOut) s

/-- SETTLE_EXPIRY (R31). -/
def execSettleExpiry (lane : LaneId) (s : State) : Result := event (fun s => s.endSettle lane) s

end Sys2Proof.Machine
end

