-- ==== Sys2Proof/Machine/TransferTable.lean ====
section
/-! DEFINITION. The transfer table's commands: DONE, ABORTED, the three expiries and the reading of a slot (R49 to R67). -/

namespace Sys2Proof.Machine

/-- READ_TRANSFER (R67). -/
def readTransfer (slot : Byte) (s : State) : Answer :=
  match slotOfByte slot with
  | none => .refuse .outOfRange
  | some i => .reply (.slot (s.slot i))

def execReadTransfer (slot : Byte) (s : State) : Result := request (readTransfer slot) s

/-- DONE (R50, R64). -/
def execDone (sender : Sender) (slot gen : Byte) (s : State) : Result :=
  frame sender.port (fun s => s.answerParty sender slot gen State.takeDone) s

/-- ABORTED (R51, R64). -/
def execAborted (sender : Sender) (slot gen : Byte) (s : State) : Result :=
  frame sender.port (fun s => s.answerParty sender slot gen State.takeAborted) s

/-- The motion time of a slot's transfer ends: a GRANTED transfer whose timer is not paused fails (R49; log 4). -/
def State.endMotion (s : State) (i : Fin 34) : State :=
  match (s.slot i).opened with
  | none => s
  | some o => if o.confirming || o.paused then s else s.fail i o .motionTimeout

/-- MOTION_TIMEOUT (R49). -/
def execMotionTimeout (slot : Fin 34) (s : State) : Result := event (fun s => s.endMotion slot) s

/-- The confirmation window of a slot's transfer, of any kind but EXIT_UNLOAD, expires while RUNNING (R55; log 4). -/
def State.endWindow (s : State) (i : Fin 34) : State :=
  match (s.slot i).opened with
  | none => s
  | some o =>
    if !o.confirming || o.paused || s.stopped || o.kind = .exitUnload then s else s.fail i o .confirmTimeout

/-- CONFIRM_TIMEOUT (R55). -/
def execConfirmTimeout (slot : Fin 34) (s : State) : Result := event (fun s => s.endWindow slot) s

/-- Every tote still on an unload's list is taken as a missing read, first-out first, and the transfer commits (R57,
R130). -/
def State.missReads (s : State) (i : Fin 34) (o : Open) (lift : Side) : State :=
  (o.totes.foldl (fun s t => s.exitFault lift t 0) s).commit i
    { o with totes := [], reads := o.reads + o.totes.length }

/-- The exit read window of an EXIT_UNLOAD expires while RUNNING: missing reads with the carriage's mark, failure
without it (R57; log 4). -/
def State.endReadWindow (s : State) (i : Fin 34) : State :=
  match (s.slot i).opened with
  | none => s
  | some o =>
    if !o.confirming || o.paused || s.stopped || o.kind ≠ .exitUnload then s
    else
      match carriageNamed o.giver o.taker, o.carriageWatch with
      | some lift, some w => if w.mark then s.missReads i o lift else s.fail i o .confirmTimeout
      | none, _ => s
      | some _, none => s

/-- EXIT_READ_WINDOW_EXPIRY (R57). -/
def execExitReadWindowExpiry (slot : Fin 34) (s : State) : Result := event (fun s => s.endReadWindow slot) s

end Sys2Proof.Machine
end

