-- ==== Sys2Proof/Machine/Claims.lean ====
section
/-! DEFINITION. The shuttle claim unit: claims, grants and the approval list (R68 to R82). -/

namespace Sys2Proof.Machine

namespace State

/-! ### Judging a claim (R70 to R74) -/

/-- The record tests of a put (R71). -/
def putTests (s : State) (l : Level) (i : Ident) : Code ⊕ Record :=
  match s.lookup i with
  | none => .inl .noRecord
  | some r =>
    if r.direction = .inbound || !r.place.isExpected then .inl .wrongState
    else if r.level ≠ l then .inl .wrongLevel
    else if r.transfer.isSome then .inl .busy
    else .inr r

/-- One lane as the only candidate of a put (R72, R73). -/
def onlyLane (s : State) (l : LaneId) : Code ⊕ LaneId :=
  match s.takerTests l with
  | some c => .inl c
  | none => .inr l

/-- The lane chosen for a put, or the reason of the lane that refuses it (R73). -/
def putLane (s : State) (l : Level) (p : Option Pref) : Code ⊕ LaneId :=
  let a : LaneId := { level := l, name := .aOut }
  let b : LaneId := { level := l, name := .bOut }
  match p with
  | some .a => s.onlyLane a
  | some .b => s.onlyLane b
  | some .either =>
    match s.takerTests a, s.takerTests b with
    | none, none => .inr (if s.freePlaces a < s.freePlaces b then b else a)
    | none, some _ => .inr a
    | some _, none => .inr b
    | some c, some _ => .inl c
  | none => .inl .wrongState

/-- A put is judged by its record and lane tests (R71, R73). -/
def judgePut (s : State) (l : Level) (i : Ident) : Code ⊕ Grant :=
  match s.putTests l i with
  | .inl c => .inl c
  | .inr r =>
    match s.putLane l r.pref with
    | .inl c => .inl c
    | .inr lane =>
      .inr { slot := shuttleSlot l, kind := .shuttlePut, totes := [i], giver := .rack l, taker := .lane lane }

/-- A take is judged by its record and lane tests (R74). -/
def judgeTake (s : State) (l : Level) (side : Side) : Code ⊕ Grant :=
  let lane : LaneId := { level := l, name := side.inLane }
  match (s.lane lane).contents with
  | [] => .inl .laneEmpty
  | head :: _ =>
    if (s.lookup head).any fun r => r.direction == .outbound then .inl .wrongState
    else if s.levelOf head ≠ some l then .inl .wrongLevel
    else
      match s.laneTests lane with
      | some c => .inl c
      | none => .inr { slot := shuttleSlot l, kind := .shuttleTake, totes := [head], giver := .lane lane, taker := .shuttle }

/-- Checks 2 to 6 of R70. -/
def judgeClaim (s : State) (l : Level) (c : Claim) : Code ⊕ Grant :=
  match s.levelStanding l with
  | some code => .inl code
  | none =>
    match c with
    | .put i => s.judgePut l i
    | .take side => s.judgeTake l side

/-! ### Grant and approval list (R75, R76) -/

/-- The GRANT frame of a shuttle's transfer (R75). -/
def grantFrame (s : State) (g : Grant) (lane : LaneId) (tote : Ident) : OutFrame :=
  .grant (BitVec.ofNat 8 g.slot.val) (s.slot g.slot).generation g.kind lane.name tote

/-- GRANT goes to the level node (R75). -/
def sendGrant (s : State) (l : Level) (g : Grant) : State :=
  match laneNamed g.giver g.taker, g.totes with
  | some lane, tote :: _ => s.sendLevel l (s.grantFrame g lane tote)
  | some _, [] => s
  | none, _ => s

/-- A level's pending claim leaves the approval list (R75). -/
def unpend (s : State) (l : Level) : State := { s with approvals := s.approvals.filter fun p => p.level ≠ l }

/-- A claim is granted: the pending claim leaves the list, the transfer opens, and GRANT goes to the level node (R75). -/
def grantClaim (s : State) (l : Level) (g : Grant) : State := ((s.unpend l).openTransfer g).sendGrant l g

/-- A pending claim joins the end of the approval list (R76). -/
def pend (s : State) (p : PendingClaim) : State := { s with approvals := s.approvals ++ [p] }

/-- A claim is placed on the approval list (R76). -/
def placeClaim (s : State) (l : Level) (c : Claim) : State :=
  (((s.setClaimState l .awaitingApproval).pend
    { level := l, claim := c, timer := 10 * s.settings.params.approvalLimit }).sendLevel l .wait).raise
      (.level l .approvalWaiting)

/-- A claim of a level's shuttle is answered (R69, R70). -/
def receiveClaim (s : State) (l : Level) (c : Claim) : State :=
  if s.claimState l ≠ .idle then s.sendLevel l (.refuse .busy)
  else if s.stopped then s.sendLevel l (.refuse .stopped)
  else
    match s.judgeClaim l c with
    | .inl code => s.sendLevel l (.refuse code)
    | .inr g => if (s.level l).mode = .manual then s.placeClaim l c else s.grantClaim l g

/-- A claim from a stop; from a spare stop it is refused UNMAPPED (R69). -/
def claimFrom (s : State) (stop : Stop) (c : Claim) : State :=
  match s.levelAt stop with
  | some l => s.receiveClaim l c
  | none => s.send (.stop stop) (.refuse .unmapped)

end State

/-- CLAIM_PUT (R69 to R73). -/
def execClaimPut (stop : Stop) (ident : Ident) (s : State) : Result :=
  frame (.stop stop) (fun s => s.claimFrom stop (.put ident)) s

/-- CLAIM_TAKE (R69, R74). -/
def execClaimTake (stop : Stop) (side : Side) (s : State) : Result :=
  frame (.stop stop) (fun s => s.claimFrom stop (.take side)) s

/-! ### The host's word (R77, R78) -/

/-- The level has a pending claim and it is the one named (R77 check 3). -/
def State.pendingIs (s : State) (l : Level) (c : Claim) : Bool := (s.pendingOf l).any fun p => p.claim == c

/-- The pending claim is judged again at its approval, and granted or refused (R77). -/
def approve (s : State) (l : Level) (c : Claim) : Answer :=
  match s.judgeClaim l c with
  | .inr g =>
    let t := s.grantClaim l g
    .acceptWith t (.number (t.numberOf g.slot))
  | .inl code => .changed (s.endClaim l code) { code := code, body := .empty }

/-- APPROVE_CLAIM (R77). -/
def approveClaim (level kind : Byte) (arg : ClaimArg) (s : State) : Answer :=
  match Level.ofByte level, Claim.ofArg kind arg with
  | some l, some c =>
    .checked [(s.stopped, .stopped), (!s.pendingIs l c, .wrongState)] (approve s l c)
  | _, _ => .refuse .outOfRange

def execApproveClaim (level kind : Byte) (arg : ClaimArg) (s : State) : Result := request (approveClaim level kind arg) s

/-- DENY_CLAIM (R78). -/
def denyClaim (level kind : Byte) (arg : ClaimArg) (s : State) : Answer :=
  match Level.ofByte level, Claim.ofArg kind arg with
  | some l, some c => .checked [(!s.pendingIs l c, .wrongState)] (.accept (s.endClaim l .denied))
  | _, _ => .refuse .outOfRange

def execDenyClaim (level kind : Byte) (arg : ClaimArg) (s : State) : Result := request (denyClaim level kind arg) s

/-- APPROVAL_TIMEOUT (R79): without a pending claim there is no timer and nothing happens (log 4). -/
def execApprovalTimeout (level : Level) (s : State) : Result := event (fun s => s.endClaim level .timeout) s

/-- READ_APPROVALS (R82): up to 16 pending claims from a first position. -/
def readApprovals (first : Byte) (s : State) : Answer :=
  if 31 < first.toNat then .refuse .outOfRange
  else .reply (.approvals s.approvals.length ((s.approvals.drop first.toNat).take 16))

def execReadApprovals (first : Byte) (s : State) : Result := request (readApprovals first) s

end Sys2Proof.Machine
end

