-- ==== Sys2Proof/Machine/Lifts.lean ====
section
/-! DEFINITION. The lifts' commands: directed jobs, enabling, blocks, carriage reports and job requests (R83 to R105). -/

namespace Sys2Proof.Machine

/-- A request that names a lift (R171). -/
def withLift (lift : Byte) (go : Side → Answer) : Answer :=
  match Side.ofByte lift with
  | none => .refuse .outOfRange
  | some side => go side

/-! ### Directed jobs (R91) -/

/-- A directed job is placed; a parked request is re-evaluated (R91, R101). -/
def State.placeDirected (s : State) (side : Side) (d : Directed) : State :=
  if (s.lift side).status = .parked then (s.modLift side fun x => { x with directed := some d }).withCause
  else s.modLift side fun x => { x with directed := some d }

/-- DIRECT_LIFT (R91). -/
def directLift (lift kind level : Byte) (count : Option Byte) (s : State) : Answer :=
  withLift lift fun side =>
    match Directed.ofArg kind level count with
    | none => .refuse .outOfRange
    | some d => .checked [((s.lift side).directed.isSome, .busy)] (.accept (s.placeDirected side d))

def execDirectLift (lift kind level : Byte) (count : Option Byte) (s : State) : Result :=
  request (directLift lift kind level count) s

/-- CANCEL_DIRECTED (R91). -/
def cancelDirected (lift : Byte) (s : State) : Answer :=
  withLift lift fun side =>
    .checked [((s.lift side).directed.isNone, .wrongState)]
      (.accept (s.modLift side fun x => { x with directed := none }))

def execCancelDirected (lift : Byte) (s : State) : Result := request (cancelDirected lift) s

/-! ### Enabling and clearing (R103, R104) -/

/-- The latest carriage report gives a count equal to the length of the contents (R103, R104). -/
def State.carriageAgrees (s : State) (side : Side) : Bool :=
  (s.lift side).report.any fun r => reportCount r == some (s.lift side).contents.length

/-- A lift is made DISABLED: a parked request is refused WRONG_STATE and the stuck mark is cleared (R102, R103). -/
def State.disableLift (s : State) (side : Side) : State :=
  (s.dropParked side .disabled .wrongState).modLift side fun x => { x with stuck := false }

/-- SET_LIFT_ENABLE on (R103). -/
def enableOn (s : State) (side : Side) : Answer :=
  match (s.lift side).status with
  | .disabled =>
    .checked [(!s.carriageAgrees side, .mismatch)] (.accept (s.modLift side fun x => { x with status := .ready }))
  | .ready => .reply .empty
  | .parked => .reply .empty
  | .working => .reply .empty
  | .blocked => .reply .empty

/-- SET_LIFT_ENABLE off (R103). -/
def enableOff (s : State) (side : Side) : Answer :=
  match (s.lift side).status with
  | .working => .refuse .busy
  | .disabled => .reply .empty
  | .ready => .accept (s.disableLift side)
  | .parked => .accept (s.disableLift side)
  | .blocked => .accept (s.disableLift side)

/-- SET_LIFT_ENABLE (R103). -/
def setLiftEnable (lift setting : Byte) (s : State) : Answer :=
  withLift lift fun side =>
    match settingOfByte setting with
    | none => .refuse .outOfRange
    | some on => if on then enableOn s side else enableOff s side

def execSetLiftEnable (lift setting : Byte) (s : State) : Result := request (setLiftEnable lift setting) s

/-- CLEAR_LIFT_BLOCK (R104). -/
def clearLiftBlock (lift : Byte) (s : State) : Answer :=
  withLift lift fun side =>
    .checked [((s.lift side).status != .blocked, .wrongState), (!s.carriageAgrees side, .mismatch)]
      (.accept (s.modLift side fun x => { x with status := .ready }))

def execClearLiftBlock (lift : Byte) (s : State) : Result := request (clearLiftBlock lift) s

/-- READ_LIFT (R105). -/
def readLift (lift : Byte) (s : State) : Answer :=
  withLift lift fun side =>
    let x := s.lift side
    .reply (.lift
      { status := x.status, contents := x.contents, reserved := x.reserved.length, report := x.report,
        parkedRequest := x.status == .parked, directed := x.directed, refusal := x.refusal, stuck := x.stuck,
        transfer := s.openNumber (liftSlot side) })

def execReadLift (lift : Byte) (s : State) : Result := request (readLift lift) s

/-! ### Carriage reports (R87, R88) -/

/-- CARRIAGE_MISMATCH is raised for a lift (R88). -/
def State.raiseMismatch (s : State) (side : Side) : State := s.raise (.lift side .carriageMismatch)

/-- A report disagrees: it is taken while the lift is not WORKING, and gives a count other than the length of the contents as
they stand when it arrives (R88). -/
def State.disputes (s : State) (side : Side) (r : CarriageReport) : Bool :=
  (s.lift side).status != .working && (reportCount r).any fun k => k != (s.lift side).contents.length

/-- A disagreeing report of a lift that is not WORKING, where `before` says that the report it replaced had disagreed too when
it arrived. A DISABLED lift raises the flag unless it had: the report before was absent, in motion or agreeing (R88;
log 7). -/
def State.disagree (s : State) (side : Side) (before : Bool) : State :=
  match (s.lift side).status with
  | .ready => (s.dropParked side .blocked .blocked).raiseMismatch side
  | .parked => (s.dropParked side .blocked .blocked).raiseMismatch side
  | .disabled => if before then s else s.raiseMismatch side
  | .blocked => s
  | .working => s

/-- A carriage report just stored with its verdict is judged by the lift's transfer while WORKING, and otherwise acts when it
disagrees (R87, R88). -/
def State.judgeOrCompare (s : State) (side : Side) (r : CarriageReport) (before : Bool) : State :=
  if (s.lift side).status = .working then s.judgeCarriage (liftSlot side) r
  else if (s.lift side).disputed then s.disagree side before
  else s

/-- A carriage report is one event of the carriage: stored, then judged by the lift's transfer or compared with the
contents (R87, R88). -/
def State.takeCarriageReport (s : State) (side : Side) (r : CarriageReport) : State :=
  (s.modLift side fun x => { x with report := some r, disputed := s.disputes side r }).judgeOrCompare side r
    (s.lift side).disputed

/-- CARRIAGE_STATE (R87). -/
def execCarriageState (side : Side) (report : CarriageReport) (s : State) : Result :=
  frame (.lift side) (fun s => s.takeCarriageReport side report) s

/-- BEACON of a lift controller (R87, R159). -/
def execLiftBeacon (side : Side) (report : CarriageReport) (s : State) : Result :=
  frame (.lift side) (fun s => s.takeCarriageReport side report) s

/-! ### Job requests (R89) -/

/-- A job request is answered by the lift's state (R89). -/
def State.takeJobRequest (s : State) (side : Side) : State :=
  match (s.lift side).status with
  | .disabled => s.send (.lift side) (.refuse .wrongState)
  | .blocked => s.send (.lift side) (.refuse .blocked)
  | .working => s.send (.lift side) (.refuse .busy)
  | .ready => s.selectOrPark side
  | .parked => s.selectOrPark side

/-- JOB_REQUEST (R89). -/
def execJobRequest (side : Side) (s : State) : Result := frame (.lift side) (fun s => s.takeJobRequest side) s

end Sys2Proof.Machine
end

