-- ==== Sys2Proof/Machine/EntryPoint.lean ====
section
/-! DEFINITION. The entry point's commands: arrivals, ageing and the reading of a queue (R106 to R115). -/

namespace Sys2Proof.Machine

/-- The weight byte of an ARRIVAL: a class, OVERWEIGHT, or out of range (R159). -/
def weighedOfByte (b : Byte) : Option Weighed := if b = 255 then some .overweight else (Weight.ofByte b).map .weight

/-- The class that an arrival measured. -/
def Weighed.class : Weighed → Option Weight
  | .weight k => some k
  | .overweight => none

namespace State

/-! ### Arrivals (R108 to R111) -/

/-- Checks 5 to 7 of an arrival, on the record of its identity (R109). -/
def arrivalRecord (s : State) (i : Ident) : Option Code :=
  match s.lookup i with
  | none => some .noRecord
  | some r =>
    match r.direction, r.place with
    | .outbound, _ => some .wrongState
    | .inbound, .held _ => some .wrongState
    | .inbound, .entry _ => some .duplicate
    | .inbound, .carriage _ => some .duplicate
    | .inbound, .lane _ => some .duplicate
    | .inbound, .expected => none

/-- The first check of R109 that an arrival fails; `overhang` says that the position check is OVERHANG. -/
def arrivalRefusal (s : State) (side : Side) (i : Ident) (w : Weighed) (overhang : Bool) : Option Code :=
  match firstRefusal
      [(s.stopped, .stopped), (i == 0, .noRead), (overhang, .overhang), (w == .overweight, .overweight)] with
  | some c => some c
  | none =>
    match s.arrivalRecord i with
    | some c => some c
    | none => if 4 ≤ (s.queue side).contents.length then some .queueFull else none

/-- An arrival is rejected (R110). -/
def rejectArrival (s : State) (side : Side) (i : Ident) (w : Weighed) (why : Code) : State :=
  ((s.send .front (.reject i why)).modQueue side
    fun x => { x with rejection := some { ident := i, reason := why, weighed := w } }).raise (.entry side .rejected)

/-- An arrival is accepted: the record joins the tail of the queue with the class measured (R111). -/
def acceptArrival (s : State) (side : Side) (i : Ident) (w : Weighed) : State :=
  (((s.send .front (.accept i ((s.queue side).contents.length + 1))).modRecord i
    fun r => { r with place := .entry side, weight := w.class }).setQueue side ((s.queue side).contents ++ [i])).withCause

/-- An arrival at a side is judged (R109). -/
def judgeArrival (s : State) (side : Side) (i : Ident) (w : Weighed) (overhang : Bool) : State :=
  match s.arrivalRefusal side i w overhang with
  | some why => s.rejectArrival side i w why
  | none => s.acceptArrival side i w

/-- An ARRIVAL is taken: its read is corrected, and a side or weight out of range is rejected without a trace (R108). -/
def takeArrival (s : State) (side : Byte) (read : Ident) (weight position : Byte) : State :=
  match Side.ofByte side, weighedOfByte weight with
  | some side, some w => s.judgeArrival side (s.correct read) w (position != 0)
  | _, _ => s.send .front (.reject (s.correct read) .outOfRange)

/-! ### Ageing (R113, R114) -/

/-- The head's age has first reached the limit: ENTRY_AGED is raised and the mark is set, once for each head (R114). -/
def testAged (s : State) (side : Side) : State :=
  if s.headAged side && !(s.queue side).aged then
    (s.modQueue side fun x => { x with aged := true }).raise (.entry side .entryAged)
  else s

/-- The head's age stands at the limit or beyond it, as at the tick that brings it there: the part's own time takes
ENTRY_AGED for no other head (R113, R114; log 4). -/
def reachAge (s : State) (side : Side) : State :=
  if (s.queue side).aged then s
  else (s.modQueue side fun x =>
    { x with age := x.age.map fun a => max a (10 * s.settings.params.entryAgeLimit) }).testAged side

end State

/-- ARRIVAL (R108). -/
def execArrival (side : Byte) (ident : Ident) (weight position : Byte) (s : State) : Result :=
  frame .front (fun s => s.takeArrival side ident weight position) s

/-- ENTRY_AGED (R114). -/
def execEntryAged (side : Side) (s : State) : Result := event (fun s => s.reachAge side) s

/-- One record of READ_ENTRY (R115). -/
def State.entryRow (s : State) (i : Ident) : Option EntryRow :=
  (s.lookup i).map fun r => { ident := r.ident, level := r.level, weight := r.weight }

/-- The number of the open ENTRY_LOAD of a side's lift (R115). -/
def State.loadNumber (s : State) (side : Side) : Option TransferNumber :=
  match (s.slot (liftSlot side)).opened with
  | some o => if o.kind = .entryLoad then some (s.numberOf (liftSlot side)) else none
  | none => none

/-- READ_ENTRY (R115). -/
def readEntry (side : Byte) (s : State) : Answer :=
  match Side.ofByte side with
  | none => .refuse .outOfRange
  | some side => .reply (.entry
      { rows := (s.queue side).contents.filterMap s.entryRow, age := (s.queue side).age, isAged := s.headAged side,
        mark := (s.queue side).aged, load := s.loadNumber side, rejection := (s.queue side).rejection })

def execReadEntry (side : Byte) (s : State) : Result := request (readEntry side) s

end Sys2Proof.Machine
end

