-- ==== Sys2Proof/Machine/Lists.lean ====
section
/-! DEFINITION. The sequence unit's commands: release lists, exit reads and stations (R116 to R140). -/

namespace Sys2Proof.Machine

/-- The PENDING entry that a request makes (R133). -/
def NewEntry.entry (e : NewEntry) : Entry :=
  { ident := e.ident, level := e.level, pref := e.pref, weight := e.weight, state := .pending }

/-- The record that a new entry creates (R133). -/
def NewEntry.record (e : NewEntry) (ref : EntryRef) : Record :=
  { ident := e.ident, direction := .outbound, place := .expected, level := e.level, pref := some e.pref,
    weight := some e.weight, entry := some ref, transfer := none }

namespace State

/-! ### The entry checks (R133) -/

/-- An identity appears in an entry of a list in use (R133). -/
def listedAnywhere (s : State) (i : Ident) : Bool :=
  s.lists.toList.any fun x => x.any fun r => r.entries.any fun e => e.ident == i

/-- Check 1 of R133 for one entry of a request. -/
def entryDuplicate (s : State) (all : List NewEntry) (e : NewEntry) : Bool :=
  2 ≤ (all.filter fun x => x.ident == e.ident).length || s.listedAnywhere e.ident
    || (s.lookup e.ident).any fun r => r.entry.isSome

/-- Check 2 of R133. -/
def entryWrongState (s : State) (e : NewEntry) : Bool :=
  (s.lookup e.ident).any fun r => r.direction == .inbound || r.place.isCarriage || r.place.isHeld

/-- Check 3 of R133. -/
def entryWrongLevel (s : State) (e : NewEntry) : Bool := (s.lookup e.ident).any fun r => r.level != e.level

/-- Check 4 of R133. -/
def entryBusy (s : State) (e : NewEntry) : Bool :=
  (s.lookup e.ident).any fun r => r.place.isLane && r.transfer.isSome

end State

/-- Of checks made on every entry in request order, one check after another: the refusal with the position, counted
from 1, of the first entry that fails the first failing check (R133). -/
def firstEntryRefusal (es : List NewEntry) : List ((NewEntry → Bool) × Code) → Option (Code × Nat)
  | [] => none
  | (fails, c) :: rest =>
    match es.findIdx? fails with
    | some k => some (c, k + 1)
    | none => firstEntryRefusal es rest

namespace State

/-- The entry checks of R133. TABLE_FULL concerns the whole request and gives position 1 (log 8). -/
def entryRefusal (s : State) (es : List NewEntry) : Option (Code × Nat) :=
  firstEntryRefusal es
    [(s.entryDuplicate es, .duplicate), (s.entryWrongState, .wrongState), (s.entryWrongLevel, .wrongLevel),
     (s.entryBusy, .busy),
     (fun _ => decide (s.freeSlots < (es.filter fun e => (s.lookup e.ident).isNone).length), .tableFull)]


/-! ### Filling a list (R132 to R134) -/

/-- The record of a new entry: the one that holds its identity gains the entry's reference, preference and class, and
where none does, one is created (R133). -/
def attach (s : State) (e : NewEntry) (ref : EntryRef) : State :=
  match s.lookup e.ident with
  | some _ => s.modRecord e.ident fun y => { y with entry := some ref, pref := some e.pref, weight := some e.weight }
  | none => s.create (e.record ref)

/-- An entry is made PENDING with the next rank of its list: a record is created for it, or the record that holds its
identity is attached (R133). -/
def addEntry (s : State) (l : Fin 16) (e : NewEntry) : State :=
  match s.list l with
  | none => s
  | some r =>
    (s.setList l (some { r with entries := r.entries ++ [e.entry] })).attach e
      { list := l, rank := r.entries.length + 1 }

def addEntries (s : State) (l : Fin 16) (es : List NewEntry) : State := es.foldl (fun s e => s.addEntry l e) s

/-- The lowest-numbered free list slot (R132). -/
def freeList? (s : State) : Option (Fin 16) := (List.finRange 16).find? fun l => (s.list l).isNone

/-- An empty OPEN list takes a slot and the next opening number (R117, R132). -/
def newList (s : State) (n : StationNo) (l : Fin 16) : State :=
  { s.setList l (some { station := n, opening := s.opening + 1, closed := false, entries := [] }) with
    opening := s.opening + 1 }

/-- A list is opened: it takes a slot, the next opening number and the end of its station's queue, and its entries are
made (R132). -/
def openIn (s : State) (n : StationNo) (l : Fin 16) (es : List NewEntry) : State :=
  ((s.newList n l).modStation n fun x => { x with queue := x.queue ++ [l] }).addEntries l es

end State

/-- A refusal by the entry checks carries the position of the failing entry (R171). -/
def refuseEntry (c : Code × Nat) : Answer := .unchanged { code := c.1, body := .position c.2 }

/-- OPEN_LIST (R132). -/
def openList (station : Byte) (entries : List EntryArg) (s : State) : Answer :=
  match StationNo.ofByte station, NewEntry.ofArgs entries with
  | some n, some es =>
    if 16 < entries.length then .refuse .outOfRange
    else
      match s.freeList? with
      | none => .refuse .busy
      | some l =>
        if s.opening = 65535 then .refuse .busy
        else
          match s.entryRefusal es with
          | some c => refuseEntry c
          | none => .acceptWith (s.openIn n l es) (.opened l (s.opening + 1))
  | _, _ => .refuse .outOfRange

def execOpenList (station : Byte) (entries : List EntryArg) (s : State) : Result := request (openList station entries) s

/-- A request that names a list (R171). -/
def withList (list : Byte) (go : Fin 16 → Answer) : Answer :=
  match listOfByte list with
  | none => .refuse .outOfRange
  | some l => go l

/-- A request on a list in use: a free slot is WRONG_STATE. -/
def State.withUsed (s : State) (l : Fin 16) (go : ReleaseList → Answer) : Answer :=
  match s.list l with
  | none => .refuse .wrongState
  | some r => go r

/-- APPEND_ENTRIES (R134). -/
def appendEntries (list : Byte) (entries : List EntryArg) (s : State) : Answer :=
  withList list fun l =>
    match NewEntry.ofArgs entries with
    | none => .refuse .outOfRange
    | some es =>
      if entries = [] ∨ 16 < entries.length then .refuse .outOfRange
      else s.withUsed l fun r =>
        if r.closed then .refuse .wrongState
        else if Config.listEntries < r.entries.length + es.length then .refuse .outOfRange
        else
          match s.entryRefusal es with
          | some c => refuseEntry c
          | none => .acceptWith (s.addEntries l es) (.rank (r.entries.length + 1))

def execAppendEntries (list : Byte) (entries : List EntryArg) (s : State) : Result :=
  request (appendEntries list entries) s

/-- CLOSE_LIST (R135). -/
def closeList (list : Byte) (s : State) : Answer :=
  withList list fun l => s.withUsed l fun r =>
    if r.closed then .refuse .wrongState
    else .accept ((s.setList l (some { r with closed := true })).testComplete l)

def execCloseList (list : Byte) (s : State) : Result := request (closeList list) s

/-! ### Withdrawing (R136, R137) -/

namespace State

/-- A record becomes unsequenced. One in LANE is a cause of re-evaluation (R101, R136, R137). -/
def unsequence (s : State) (r : Record) : State :=
  if r.place.isLane then (s.modRecord r.ident fun x => { x with entry := none }).withCause
  else s.modRecord r.ident fun x => { x with entry := none }

/-- The record of a PENDING entry of an aborted list is retired, or becomes unsequenced (R136). -/
def withdraw (s : State) (i : Ident) : State :=
  match s.lookup i with
  | none => s
  | some r => if r.place.isExpected && r.transfer.isNone then s.retire i else s.unsequence r

/-- A list is withdrawn with its PENDING entries (R136). -/
def abortList (s : State) (l : Fin 16) (r : ReleaseList) : State :=
  ((r.entries.filter fun e => e.state == .pending).foldl (fun s e => s.withdraw e.ident) s).freeList l

/-- The record that holds an identity becomes unsequenced (R137). -/
def unsequenceTote (s : State) (i : Ident) : State :=
  match s.lookup i with
  | some r => s.unsequence r
  | none => s

/-- An entry is taken out of its station's order, and its list is tested for completion (R137). -/
def skip (s : State) (ref : EntryRef) (i : Ident) : State :=
  ((s.setEntryState ref .skipped).unsequenceTote i).testComplete ref.list

end State

/-- An entry that keeps its list from being aborted: CLAIMED, LOADED or EXIT_HELD (R136). -/
def EntryState.underWay : EntryState → Bool
  | .claimed => true
  | .loaded => true
  | .exitHeld => true
  | .pending => false
  | .delivered => false
  | .missing => false
  | .skipped => false

/-- ABORT_LIST (R136). -/
def abortListRequest (list : Byte) (s : State) : Answer :=
  withList list fun l => s.withUsed l fun r =>
    .checked [(r.entries.any fun e => e.state.underWay, .busy)] (.accept (s.abortList l r))

def execAbortList (list : Byte) (s : State) : Result := request (abortListRequest list) s

/-- SKIP_ENTRY (R137). -/
def skipEntry (list rank : Byte) (s : State) : Answer :=
  withList list fun l =>
    if rank.toNat < 1 ∨ Config.listEntries < rank.toNat then .refuse .outOfRange
    else s.withUsed l fun r =>
      match r.entries[rank.toNat - 1]? with
      | none => .refuse .wrongState
      | some e =>
        if e.state = .pending ∨ e.state = .claimed then .accept (s.skip { list := l, rank := rank.toNat } e.ident)
        else .refuse .wrongState

def execSkipEntry (list rank : Byte) (s : State) : Result := request (skipEntry list rank) s

/-! ### The exit (R127 to R131) -/

namespace State

/-- The tote expected at the merge from a side: the first still on the list of the lift's open EXIT_UNLOAD (R127). -/
def expectedAt (s : State) (side : Side) : Option Ident :=
  match (s.slot (liftSlot side)).opened with
  | some o => if o.kind = .exitUnload then o.totes.head? else none
  | none => none

/-- The last unsolicited read is replaced (R116, R127). -/
def keepUnsolicited (s : State) (side : Side) (read : Ident) : State := { s with unsolicited := some (side, read) }

/-- An exit read of a side: unsolicited, a match or a fault (R127 to R129). -/
def takeExitRead (s : State) (side : Side) (read : Ident) : State :=
  match s.expectedAt side with
  | none => (s.keepUnsolicited side read).raise (.aisle .unexpectedTote)
  | some t =>
    if read = t then (s.exitMatch side t).strikeOff (liftSlot side) t
    else (s.exitFault side t read).strikeOff (liftSlot side) t

end State

/-- EXIT_READ (R127): a side other than A and B is discarded. -/
def execExitRead (side : Byte) (ident : Ident) (s : State) : Result :=
  frame .front (fun s => match Side.ofByte side with
    | some side => s.takeExitRead side (s.correct ident)
    | none => s) s

/-- A record held by an exit read (R131). -/
def HoldReason.atExit : HoldReason → Bool
  | .exitMismatch => true
  | .exitNoRead => true
  | .failed _ => false

def Place.heldAtExit : Place → Bool
  | .held h => h.reason.atExit
  | .expected => false
  | .entry _ => false
  | .lane _ => false
  | .carriage _ => false

/-- A record held at the exit is settled: it is retired, its entry becomes final, and the stall and the list are tested
(R131). -/
def State.settleExit (s : State) (r : Record) (e : EntryState) : State :=
  match r.entry with
  | none => s.retire r.ident
  | some ref => (((s.retire r.ident).finishEntry ref e).testStallOf ref).testComplete ref.list

/-- The checks of CONFIRM_EXIT and DECLARE_MISSING, with the entry's final state (R131). -/
def settleRequest (ident : Ident) (e : EntryState) (s : State) : Answer :=
  s.withRecord ident fun r => .checked [(!r.place.heldAtExit, .wrongState)] (.accept (s.settleExit r e))

/-- CONFIRM_EXIT (R131). -/
def execConfirmExit (ident : Ident) (s : State) : Result := request (settleRequest ident .delivered) s

/-- DECLARE_MISSING (R131). -/
def execDeclareMissing (ident : Ident) (s : State) : Result := request (settleRequest ident .missing) s

/-! ### Stations (R139, R140) -/

/-- A request that names a station (R171). -/
def withStation (station : Byte) (go : StationNo → Answer) : Answer :=
  match StationNo.ofByte station with
  | none => .refuse .outOfRange
  | some n => go n

/-- SET_REPORT_MODE (R139). -/
def setReportMode (station mode : Byte) (s : State) : Answer :=
  withStation station fun n =>
    match ReportMode.ofByte mode with
    | none => .refuse .outOfRange
    | some m => .accept (s.modSettings fun x => { x with reportMode := upd x.reportMode n fun _ => m })

def execSetReportMode (station mode : Byte) (s : State) : Result := request (setReportMode station mode) s

/-- One list of a station's queue as READ_STATION gives it (R140). -/
def State.queueRow (s : State) (l : Fin 16) : Option QueueRow :=
  (s.list l).map fun r => { list := l, opening := r.opening, closed := r.closed }

/-- READ_STATION (R140). -/
def readStation (station : Byte) (s : State) : Answer :=
  withStation station fun n =>
    let x := s.station n
    .reply (.station
      { queue := x.queue.filterMap s.queueRow, nextLoad := x.nextLoad, nextExit := x.nextExit, stalled := x.stalled,
        mode := nth s.settings.reportMode n, fault := x.fault, unsolicited := s.unsolicited })

def execReadStation (station : Byte) (s : State) : Result := request (readStation station) s

/-- The entries of a list with their ranks. -/
def ReleaseList.rows (r : ReleaseList) : List ListRow :=
  r.entries.zipIdx.map fun p => { rank := p.2 + 1, entry := p.1 }

/-- READ_LIST (R140): up to 16 entries from a first rank. -/
def readList (list first : Byte) (s : State) : Answer :=
  withList list fun l =>
    if first.toNat < 1 ∨ Config.listEntries < first.toNat then .refuse .outOfRange
    else s.withUsed l fun r => .reply (.list
      { station := r.station, opening := r.opening, closed := r.closed, size := r.entries.length,
        rows := (r.rows.drop (first.toNat - 1)).take 16 })

def execReadList (list first : Byte) (s : State) : Result := request (readList list first) s

end Sys2Proof.Machine
end

