-- ==== Sys2Proof/Machine/Recovery.lean ====
section
/-! DEFINITION. Recovery: the resolution of held records (R144 to R150) and the declaration of totes (R151 to R155). -/

namespace Sys2Proof.Machine

/-! ### RESOLVE_HOLD -/

/-- Where a resolution puts a record (R144): in the rack's EXPECTED, in a lane, a queue or a carriage, at the leaving end
or at the joining end, or out of the table. -/
inductive Placement where
  | expected
  | lane (lane : LaneId) (atHead : Bool)
  | queueHead (side : Side)
  | carriage (lift : Side) (atFront : Bool)
  | stored
  | delivered
  | writtenOff
  deriving DecidableEq, Repr

/-- The table of R144 and R149. -/
def Disposition.place (d : Disposition) (h : Hold) : Placement :=
  match d, h.giver, h.taker with
  | .retire, _, _ => .writtenOff
  | .atGiver, .rack _, _ => .expected
  | .atGiver, .lane l, _ => .lane l true
  | .atGiver, .entry side, _ => .queueHead side
  | .atGiver, .carriage side, _ => .carriage side true
  | .atTaker, _, .lane l => .lane l false
  | .atTaker, _, .carriage side => .carriage side false
  | .atTaker, _, .shuttle => .stored
  | .atTaker, _, .exit => .delivered

namespace State

/-- The weight class of a record; an inbound record that has none counts 0 (log 15). -/
def weightOf (r : Record) : Nat :=
  match r.weight with
  | some w => w.val
  | none => 0

/-- The last three checks of R145 and R153: room, direction and weight on a carriage. -/
def carriageTests (s : State) (side : Side) (d : Direction) (weight : Nat) : List (Bool × Code) :=
  [(decide (2 ≤ (s.lift side).contents.length), .carriageFull),
   ((s.carriageDirection side).any fun x => x != d, .mixedDirection),
   (decide (s.settings.params.carriageLimit < s.weightSum (s.lift side).contents + weight), .weightLimit)]

/-- The lane has no room for one more record (R146, R152). -/
def laneFull (s : State) (l : LaneId) : Bool := decide (s.depth l ≤ (s.lane l).contents.length)

/-- An open ENTRY_LOAD lists records of a side's queue (R115, R147). -/
def loading (s : State) (side : Side) : Bool :=
  (s.slot (liftSlot side)).opened.any fun o => o.kind == .entryLoad

/-- The checks of the holder that a resolution names, and the sequence unit's check of R148 (R145 to R148, R150). -/
def placementChecks (s : State) (r : Record) : Placement → List (Bool × Code)
  | .expected => []
  | .lane l _ => [(s.busy l, .laneBusy), (s.laneFull l, .laneFull)]
  | .queueHead side =>
    [(s.loading side, .busy), (decide (4 ≤ (s.queue side).contents.length), .queueFull)]
  | .carriage side _ =>
    ((s.lift side).status == .working, .busy) :: s.carriageTests side r.direction (weightOf r)
  | .stored => []
  | .delivered =>
    [(r.entry.any fun ref => (s.stationOf ref).any fun n => s.nextExitOf n != .entry ref, .notEligible)]
  | .writtenOff => []

/-- A record's entry becomes final at a resolution, and its list is tested (R138). -/
def finishHeld (s : State) (r : Record) (e : EntryState) : State :=
  match r.entry with
  | none => s.retire r.ident
  | some ref => ((s.retire r.ident).finishEntry ref e).testComplete ref.list

/-- The placement of R145 to R149, with what it does to the record's entry (R138) and to parked requests (R101). -/
def resolve (s : State) (r : Record) : Placement → State
  | .expected => s.setPlace r.ident .expected
  | .lane l atHead =>
    let c := (s.lane l).contents
    ((s.setPlace r.ident (.lane l)).setContents l (if atHead then r.ident :: c else c ++ [r.ident])).withCause
  | .queueHead side =>
    ((s.setPlace r.ident (.entry side)).setQueue side (r.ident :: (s.queue side).contents)).withCause
  | .carriage side true =>
    ((s.setPlace r.ident (.carriage side)).setCarriage side (r.ident :: (s.lift side).contents)).withCause
  | .carriage side false =>
    (((s.loadEntry r.ident).setPlace r.ident (.carriage side)).setCarriage side
      ((s.lift side).contents ++ [r.ident])).withCause
  | .stored => s.retire r.ident
  | .delivered => s.finishHeld r .delivered
  | .writtenOff => s.finishHeld r .missing

end State

/-- RESOLVE_HOLD (R150). -/
def resolveHold (ident : Ident) (disposition : Byte) (s : State) : Answer :=
  match Disposition.ofByte disposition with
  | none => .refuse .outOfRange
  | some d =>
    s.withRecord ident fun r =>
      match r.place with
      | .held h =>
        if h.reason.atExit then .refuse .wrongState
        else .checked (s.placementChecks r (d.place h)) (.accept (s.resolve r (d.place h)))
      | .expected => .refuse .wrongState
      | .entry _ => .refuse .wrongState
      | .lane _ => .refuse .wrongState
      | .carriage _ => .refuse .wrongState

def execResolveHold (ident : Ident) (disposition : Byte) (s : State) : Result := request (resolveHold ident disposition) s

/-! ### DECLARE_TOTE -/

/-- A declaration with its fields in range (R151 check 1). The preference of an inbound tote is disregarded. -/
structure Declaration where
  ident : Ident
  direction : Direction
  level : Level
  weight : Weight
  pref : Option Pref
  location : Location
  deriving DecidableEq, Repr

/-- Check 1 of R151: the declaration, or none when a field is out of range. -/
def Declaration.ofArgs (ident : Ident) (direction level weight pref : Byte) (loc : LocArg) : Option Declaration :=
  match Direction.ofByte direction, Level.ofByte level, Weight.ofByte weight, Location.ofArg loc with
  | some d, some l, some w, some k =>
    if ident = 0 then none
    else
      match d, Pref.ofByte pref with
      | .inbound, _ => some { ident := ident, direction := d, level := l, weight := w, pref := none, location := k }
      | .outbound, some p => some { ident := ident, direction := d, level := l, weight := w, pref := some p, location := k }
      | .outbound, none => none
  | _, _, _, _ => none

/-- The direction that a lane carries (R21, R23). -/
def laneDirection (n : LaneName) : Direction :=
  match n with
  | .aIn => .inbound
  | .aOut => .outbound
  | .bIn => .inbound
  | .bOut => .outbound

/-- The checks of the location (R152 to R154). -/
def State.locationChecks (s : State) (d : Declaration) : List (Bool × Code) :=
  match d.location with
  | .lane l =>
    [((s.stopOf l.level).isNone, .unmapped),
     ((s.level l.level).mode != .off || laneDirection l.name != d.direction, .wrongState),
     (d.direction == .outbound && d.level != l.level, .wrongLevel),
     (s.laneFull l, .laneFull)]
  | .carriage side =>
    ((s.lift side).status != .disabled, .wrongState) :: s.carriageTests side d.direction d.weight.val
  | .entry side =>
    [(d.direction == .outbound, .wrongState), (decide (4 ≤ (s.queue side).contents.length), .queueFull)]

/-- The state and location of a declared record (R155). -/
def Location.place : Location → Place
  | .lane l => .lane l
  | .carriage side => .carriage side
  | .entry side => .entry side

/-- A declared record joins its list at the tail (R152 to R154). -/
def State.joinLocation (s : State) (i : Ident) : Location → State
  | .lane l => s.setContents l ((s.lane l).contents ++ [i])
  | .carriage side => s.setCarriage side ((s.lift side).contents ++ [i])
  | .entry side => s.setQueue side ((s.queue side).contents ++ [i])

/-- The record that a declaration creates (R155). -/
def Declaration.record (d : Declaration) : Record :=
  { ident := d.ident, direction := d.direction, place := d.location.place, level := d.level, pref := d.pref,
    weight := some d.weight, entry := none, transfer := none }

/-- A declaration takes effect (R155). -/
def State.declare (s : State) (d : Declaration) : State :=
  ((s.create d.record).joinLocation d.ident d.location).withCause

/-- DECLARE_TOTE (R151). -/
def declareTote (ident : Ident) (direction level weight pref : Byte) (loc : LocArg) (s : State) : Answer :=
  match Declaration.ofArgs ident direction level weight pref loc with
  | none => .refuse .outOfRange
  | some d =>
    .checked
      (((s.lookup ident).isSome, .duplicate) :: s.locationChecks d ++ [(s.freeSlots == 0, .tableFull)])
      (.accept (s.declare d))

def execDeclareTote (ident : Ident) (direction level weight pref : Byte) (loc : LocArg) (s : State) : Result :=
  request (declareTote ident direction level weight pref loc) s

end Sys2Proof.Machine
end

