-- ==== Sys2Proof/Machine/PortCommands.lean ====
section
/-! DEFINITION. The port's own commands: COLLECT, the checks of a request, IDENTIFY and the parameters (R167 to R174). -/

namespace Sys2Proof.Machine

/-! ### COLLECT (R167, R169) -/

namespace State

/-- A COLLECT that shifts `count` bytes after the status byte: the buffered frame, or NONE when the buffer is empty, then
zeros. Once every byte of the frame has been shifted out the buffer becomes empty and the overrun flag is cleared (R167,
R169). -/
def collect (s : State) (count : Nat) : State :=
  let f := collected s.buffer
  let t := s.shift (s.firstByte :: f.take count)
  if f.length ≤ count then { t with buffer := none, overrun := false } else t

/-- A transaction without a request: the assertion of chip select, a COLLECT, or a status poll, which shifts out the status
byte and zeros and changes nothing (R167, R169; log 14). -/
def takeTransaction (s : State) : PortAct → State
  | .asserts => s.assertSelect
  | .collects count => s.onRelease fun s => s.collect count
  | .polls _ => s.onRelease fun s => s.shift [s.firstByte]

end State

/-- COLLECT and the port's other transactions without a request (R167, R169). -/
def execCollect (act : PortAct) (s : State) : Result := .next (s.takeTransaction act)

/-! ### Requests that reach no owning rule (R170) -/

def PortError.code : PortError → Code
  | .badLength => .badLength
  | .checkError => .checkError
  | .unknownRequest => .unknownRequest

/-- UNKNOWN_REQUEST and the port's other checks: the failing check fills the buffer (R170). -/
def execUnknownRequest (why : PortError) (s : State) : Result := request (fun _ => .refuse (PortError.code why)) s

/-! ### IDENTIFY (R174) -/

def execIdentify (s : State) : Result := request (fun _ => .reply (.identity Config.partCode Config.revision)) s

/-! ### Parameters (R172) -/

/-- Parameter numbers 0 to 10. -/
def paramOfByte (b : Byte) : Option (Fin 11) := if h : b.toNat < 11 then some ⟨b.toNat, h⟩ else none

/-- The range of a parameter, in its unit (R172). -/
def paramRange (n : Fin 11) : Nat × Nat :=
  match n.val with
  | 0 => (20, 255)
  | 1 => (20, 255)
  | 2 => (1, 50)
  | 3 => (5, 100)
  | 4 => (0, 20)
  | 5 => (2, 50)
  | 6 => (1, 255)
  | 7 => (5, 600)
  | 8 => (5, 100)
  | 9 => (1, 7)
  | _ => (4, 8)

/-- A parameter is written (R172). -/
def Params.set (p : Params) (n : Fin 11) (v : Nat) : Params :=
  match n.val with
  | 0 => { p with motionLimitShuttle := v }
  | 1 => { p with motionLimitLift := v }
  | 2 => { p with confirmWindow := v }
  | 3 => { p with exitReadWindow := v }
  | 4 => { p with settleTime := v }
  | 5 => { p with lossTime := v }
  | 6 => { p with approvalLimit := v }
  | 7 => { p with entryAgeLimit := v }
  | 8 => { p with scanLimit := v }
  | 9 => { p with streakLimit := v }
  | _ => { p with carriageLimit := v }

namespace State

/-- The weight classes of a carriage's contents and reserved totes, summed (R86, R172). -/
def carriageWeight (s : State) (side : Side) : Nat :=
  s.weightSum (s.lift side).contents + ((s.lift side).reserved.map fun x => x.weight.val).sum

def setParam (s : State) (n : Fin 11) (v : Nat) : State := s.modSettings fun x => { x with params := x.params.set n v }

/-- A parameter is written; ENTRY_AGE_LIMIT is applied to the running ages in the same event (R114, R172). -/
def writeParam (s : State) (n : Fin 11) (v : Nat) : State :=
  if n = 7 then ((s.setParam n v).testAged .a).testAged .b else s.setParam n v

end State

/-- SET_PARAMETER (R172). -/
def setParameter (number : Byte) (value : BitVec 16) (s : State) : Answer :=
  match paramOfByte number with
  | none => .refuse .outOfRange
  | some n =>
    let v := value.toNat
    .checked
      [(v < (paramRange n).1 || (paramRange n).2 < v, .outOfRange),
       (n == 10 && (v < s.carriageWeight .a || v < s.carriageWeight .b), .busy)]
      (.accept (s.writeParam n v))

def execSetParameter (number : Byte) (value : BitVec 16) (s : State) : Result := request (setParameter number value) s

/-- READ_PARAMETERS (R172). -/
def execReadParameters (s : State) : Result := request (fun s => .reply (.params s.settings.params)) s

end Sys2Proof.Machine
end

