-- ==== Sys2Proof/Machine/Events.lean ====
section
/-! DEFINITION. The event unit's commands (R175 to R179). -/

namespace Sys2Proof.Machine

/-- A request that names an event group (R177). -/
def withGroup (group : Byte) (go : Fin 41 → Answer) : Answer :=
  match groupOfByte group with
  | none => .refuse .outOfRange
  | some g => go g

/-- A group's flags and its mask, as READ_EVENTS and READ_CLEAR_EVENTS return them (R177). -/
def State.eventBody (s : State) (g : Fin 41) : Body := .events (nth s.flags g) (nth s.settings.masks g)

/-- READ_EVENTS (R177). -/
def readEvents (group : Byte) (s : State) : Answer := withGroup group fun g => .reply (s.eventBody g)

def execReadEvents (group : Byte) (s : State) : Result := request (readEvents group) s

/-- A group is cleared; a level's fault streak becomes 0 with its group (R35, R177). -/
def State.clearEvents (s : State) (g : Fin 41) : State :=
  match levelOfGroup g with
  | some l => (s.clearGroup g).clearStreak l
  | none => s.clearGroup g

/-- READ_CLEAR_EVENTS (R177): the flags returned are those cleared. -/
def readClearEvents (group : Byte) (s : State) : Answer :=
  withGroup group fun g => .acceptWith (s.clearEvents g) (s.eventBody g)

def execReadClearEvents (group : Byte) (s : State) : Result := request (readClearEvents group) s

/-- SET_EVENT_MASK (R176). -/
def setEventMask (group mask : Byte) (s : State) : Answer :=
  withGroup group fun g =>
    .checked [(mask &&& ~~~(ownedBits g) != 0, .outOfRange)]
      (.accept (s.modSettings fun x => { x with masks := upd x.masks g fun _ => mask }))

def execSetEventMask (group mask : Byte) (s : State) : Result := request (setEventMask group mask) s

/-- READ_SUMMARY (R178). -/
def execReadSummary (s : State) : Result := request (fun s => .reply (.summary (tab 41 s.summaryByte))) s

/-- SET_SUMMARY_ENABLE (R176). -/
def setSummaryEnable (setting : Byte) (s : State) : Answer :=
  match settingOfByte setting with
  | none => .refuse .outOfRange
  | some on => .accept (s.modSettings fun x => { x with summaryEnable := on })

def execSetSummaryEnable (setting : Byte) (s : State) : Result := request (setSummaryEnable setting) s

end Sys2Proof.Machine
end

