-- ==== Sys2Proof/Machine/Links.lean ====
section
/-! DEFINITION. The link controller's commands (R156 to R166). -/

namespace Sys2Proof.Machine

/-- READ_LINKS (R166). -/
def execReadLinks (s : State) : Result := request (fun s => .reply (.links (s.links.map (·.status)))) s

/-- BEACON of the front controller: it counts for link status only (R159). -/
def execFrontBeacon (s : State) : Result := frame .front (fun s => s) s

/-- Incoming bytes that are no well-framed frame: the receiver discards them, but for those at their end that may still
begin a frame (R156). In hard reset it receives nothing (R160). -/
def State.discard (s : State) (run : Incoming) : State :=
  if s.inReset then s else s.hear run.port (unfinished run.bytes.length run.bytes)

/-- DISCARDED_FRAME: no event of any block, and no sign of life (R156). -/
def execDiscardedFrame (run : Incoming) (s : State) : Result := .next (s.discard run)

/-- WRONG_NODE: the frame is whole, and is an event but no sign of life (R156, R157). -/
def execWrongNode (port : Port) (s : State) : Result := event (fun s => (s.hear port []).raiseWrongNode port) s

/-- FOREIGN_FRAME: discarded after it has counted for link status (R158). -/
def execForeignFrame (port : Port) (s : State) : Result := frame port (fun s => s) s

/-- MALFORMED_FRAME: discarded after it has counted for link status (R158). -/
def execMalformedFrame (port : Port) (s : State) : Result := frame port (fun s => s) s

/-- LINK_LOST (R160): only an UP link has a silence timer. -/
def execLinkLost (port : Port) (s : State) : Result := event (fun s => s.loseLink port) s

/-- The STATUS period ends: STATUS on every link, and the next period begins (R162). -/
def State.endStatusPeriod (s : State) : State := { s.sendStatus with statusPeriod := Config.statusPeriod }

/-- STATUS_PERIOD_END (R162). -/
def execStatusPeriodEnd (s : State) : Result := event State.endStatusPeriod s

/-- FRAME_LEAVES_LINK (R162). -/
def execFrameLeavesLink (port : Port) (s : State) : Result := event (fun s => s.frameGone port) s

end Sys2Proof.Machine
end

