-- ==== Sys2Proof/Machine/Resets.lean ====
section
/-! DEFINITION. Resets and the aisle stop (R66, R141 to R143, R163, R173). -/

namespace Sys2Proof.Machine

/-- HARD_RESET (R66): every block is in its state after a hard reset, and the part stays in hard reset until the line is
released (00_scope.md, Electrical notes). -/
def execHardReset (s : State) : Result := .next (State.inHardReset s.stopLine s.chip s.fresh s.pending)

namespace State

/-- The part leaves hard reset: RESYNC with reset kind 0 is produced on every link, the STATUS period begins, and the
stop status is the line's (R141, R162, R163). -/
def leaveReset (s : State) : State :=
  { s with
    inReset := false
    stopped := s.stopLine
    statusPeriod := Config.statusPeriod
    links := tab 39 fun i => { nth s.links i with order := (nth s.links i).order ++ [.resync .hard] } }

/-- The state after a soft reset (R173): as after a hard reset, but the settings, the generations and what has begun to
leave a link are kept, the latest reset is SOFT and RESYNC with reset kind 1 goes out on every link. -/
def afterSoftReset (s : State) : State :=
  { State.inHardReset s.stopLine .idle (s.fresh + 1) s.pending with
    inReset := false
    resetKind := .soft
    settings := s.settings
    slots := tab 34 fun i => Slot.initial (nth s.slots i).generation
    links := tab 39 fun i => (nth s.links i).softReset (Config.frameBegun s.fresh i.val) }

/-- The stop line and with it the stop status take a level (R141). In hard reset nothing else happens (log 5). -/
def setLine (s : State) (line : Bool) : State := { s with stopLine := line, stopped := line }

/-- The stop line is asserted: STOPPED, STOP_CHANGE, STATUS on every link, timers paused, and every pending claim ended
with REFUSE STOPPED, oldest first (R65, R81, R142, R162; log 11). -/
def assertStop (s : State) : State :=
  s.approvals.foldl (fun t p => t.endClaim p.level .stopped)
    (((s.setLine true).raise (.aisle .stopChange)).sendStatus.pauseTimers)

/-- The stop line is released: RUNNING, STOP_CHANGE, STATUS on every link, timers restarted in full, and parked requests
re-evaluated (R65, R101, R143, R162; log 11). -/
def releaseStop (s : State) : State :=
  (((s.setLine false).raise (.aisle .stopChange)).sendStatus.restartTimers).withCause

end State

/-- RESET_RELEASE (R163): without a hard reset under way there is nothing to leave (log 12). -/
def execResetRelease (s : State) : Result := .next (if s.inReset then s.leaveReset else s)

/-- SOFT_RESET (R173). -/
def execSoftReset (s : State) : Result := request (fun s => .accept s.afterSoftReset) s

/-- STOP_ASSERTED (R142): an assertion is a change of the line's level (R141; log 12). -/
def execStopAsserted (s : State) : Result :=
  .next (if s.stopLine then s else if s.inReset then s.setLine true else s.assertStop.closeEvent)

/-- STOP_RELEASED (R143): a release is a change of the line's level (R141; log 12). -/
def execStopReleased (s : State) : Result :=
  .next (if s.stopLine then (if s.inReset then s.setLine false else s.releaseStop.closeEvent) else s)

end Sys2Proof.Machine
end

