-- ==== Sys2Proof/Machine/Tick.lean ====
section
/-! DEFINITION. The common tick of the part's timers (00_scope.md, Durations; log 2).

At each tick a timer that counts down loses 0.1 s and an entry head age gains 0.1 s. A timer that the tick brings to zero
expires: its expiry is one of the table's own rows, taken as an event by the next steps, before time goes on. Nothing is put
in the queue, so an expiry that an event taken first has undone is never taken. -/

namespace Sys2Proof.Machine

/-- The transfer timer counts unless it is paused (R49, R55, R65). -/
def Open.tick (o : Open) : Open := if o.paused then o else { o with timer := o.timer - 1 }

def Slot.tick (x : Slot) : Slot := { x with opened := x.opened.map Open.tick }

/-- A settle timer counts while SETTLING (R30). -/
def Lane.tick (x : Lane) : Lane :=
  { x with condition := match x.condition with
    | .settling n => .settling (n - 1)
    | .clear => .clear
    | .audit => .audit
    | .blocked why => .blocked why }

/-- A scan timer counts while an audit runs (R39). -/
def LevelState.tick (x : LevelState) : LevelState := { x with scan := x.scan.map (· - 1) }

/-- An approval timer counts while its claim is pending (R76). -/
def PendingClaim.tick (p : PendingClaim) : PendingClaim := { p with timer := p.timer - 1 }

/-- The silence timer counts while UP (R160). -/
def Link.tick (x : Link) : Link :=
  { x with status := match x.status with
    | .up n => .up (n - 1)
    | .down => .down
    | .lost => .lost }

/-- The head age counts up to 999.9 s, where it stays (R106, R113). -/
def EntryQueue.tick (x : EntryQueue) : EntryQueue := { x with age := x.age.map fun a => min Config.ageCap (a + 1) }

namespace State

/-- Every timer takes one step. -/
def count (s : State) : State :=
  { s with
    slots := s.slots.map Slot.tick
    lanes := s.lanes.map Lane.tick
    levels := s.levels.map LevelState.tick
    approvals := s.approvals.map PendingClaim.tick
    links := s.links.map Link.tick
    entries := s.entries.map EntryQueue.tick
    statusPeriod := s.statusPeriod - 1 }

end State

/-- One tick: every timer takes a step. In hard reset no timer runs. -/
def State.tick (s : State) : State := if s.inReset then s else s.count

/-! ### The expiries that are due -/

/-- The expiry of a transfer timer that stands at zero and counts (R49, R55, R57). A confirmation window does not expire while
the aisle is STOPPED. -/
def Slot.due (i : Fin 34) (stopped : Bool) (x : Slot) : List Instr :=
  match x.opened with
  | none => []
  | some o =>
    if o.paused || o.timer != 0 then []
    else if !o.confirming then [.motionTimeout i]
    else if stopped then []
    else if o.kind = .exitUnload then [.exitReadWindowExpiry i]
    else [.confirmTimeout i]

namespace State

def dueSlots (s : State) : List Instr := (List.finRange 34).flatMap fun i => (s.slot i).due i s.stopped

def dueLane (s : State) (l : LaneId) : List Instr :=
  if (s.lane l).condition = .settling 0 then [.settleExpiry l] else []

/-- The expiries of a level: its settle times, its scan and its approval (R31, R42, R79). -/
def dueLevel (s : State) (l : Level) : List Instr :=
  (lanesOf l).flatMap s.dueLane
    ++ (if (s.level l).scan = some 0 then [.scanTimeout l] else [])
    ++ (if (s.pendingOf l).any fun p => p.timer == 0 then [.approvalTimeout l] else [])

end State

/-- Every port, in the order of the links (R166). -/
def allPorts : List Port := (List.finRange 36).map Port.stop ++ [.lift .a, .lift .b, .front]

namespace State

def dueLinks (s : State) : List Instr :=
  (allPorts.filter fun p => (s.link p).status == .up 0).map Instr.linkLost

/-- The head of a queue has reached the limit and is not marked (R114). -/
def dueEntry (s : State) (side : Side) : List Instr :=
  if s.headAged side && !(s.queue side).aged then [.entryAged side] else []

/-- Every expiry that is due, as the timers stand. In hard reset there is none. -/
def due (s : State) : List Instr :=
  if s.inReset then []
  else
    s.dueSlots ++ (List.finRange 32).flatMap s.dueLevel ++ s.dueLinks ++ s.dueEntry .a ++ s.dueEntry .b
      ++ (if s.statusPeriod = 0 then [.statusPeriodEnd] else [])

/-- The expiry that is taken next, with the state it is taken in: of several that are due, which is taken first is a free
value (log 2). -/
def nextExpiry (s : State) : Option (Instr × State) :=
  match s.due with
  | [] => none
  | [c] => some (c, s)
  | c :: d :: rest =>
    some ((c :: d :: rest).getD (Config.expiryPick s.fresh (rest.length + 2) % (rest.length + 2)) c,
      { s with fresh := s.fresh + 1 })

end State

end Sys2Proof.Machine
end

