-- ==== Sys2Proof/Machine/Dispatch.lean ====
section
/-! DEFINITION. Every command with its meaning: one arm per constructor of `Instr`. -/

namespace Sys2Proof.Machine

/-- A command's effect on everything but the queue of commands. -/
def exec (i : Instr) (s : State) : Host.Outcome State Fault Refusal :=
  match i with
  | .hardReset => Sys2Proof.Machine.execHardReset s
  | .resetRelease => Sys2Proof.Machine.execResetRelease s
  | .stopAsserted => Sys2Proof.Machine.execStopAsserted s
  | .stopReleased => Sys2Proof.Machine.execStopReleased s
  | .collect act => Sys2Proof.Machine.execCollect act s
  | .unknownRequest why => Sys2Proof.Machine.execUnknownRequest why s
  | .readTote ident => Sys2Proof.Machine.execReadTote ident s
  | .walk start => Sys2Proof.Machine.execWalk start s
  | .announceInbound ident level => Sys2Proof.Machine.execAnnounceInbound ident level s
  | .retarget ident level => Sys2Proof.Machine.execRetarget ident level s
  | .cancelRecord ident => Sys2Proof.Machine.execCancelRecord ident s
  | .setCorrection entry enabled read corrected => Sys2Proof.Machine.execSetCorrection entry enabled read corrected s
  | .readCorrections => Sys2Proof.Machine.execReadCorrections s
  | .setLevelMap level stop => Sys2Proof.Machine.execSetLevelMap level stop s
  | .setLaneDepth level lane depth => Sys2Proof.Machine.execSetLaneDepth level lane depth s
  | .setLevelMode level mode => Sys2Proof.Machine.execSetLevelMode level mode s
  | .setFenceOnLoss level setting => Sys2Proof.Machine.execSetFenceOnLoss level setting s
  | .startAudit level => Sys2Proof.Machine.execStartAudit level s
  | .clearLaneBlock level lane => Sys2Proof.Machine.execClearLaneBlock level lane s
  | .readLevel level => Sys2Proof.Machine.execReadLevel level s
  | .readLane level lane => Sys2Proof.Machine.execReadLane level lane s
  | .readTransfer slot => Sys2Proof.Machine.execReadTransfer slot s
  | .approveClaim level kind arg => Sys2Proof.Machine.execApproveClaim level kind arg s
  | .denyClaim level kind arg => Sys2Proof.Machine.execDenyClaim level kind arg s
  | .readApprovals first => Sys2Proof.Machine.execReadApprovals first s
  | .directLift lift kind level count => Sys2Proof.Machine.execDirectLift lift kind level count s
  | .cancelDirected lift => Sys2Proof.Machine.execCancelDirected lift s
  | .setLiftEnable lift setting => Sys2Proof.Machine.execSetLiftEnable lift setting s
  | .clearLiftBlock lift => Sys2Proof.Machine.execClearLiftBlock lift s
  | .readLift lift => Sys2Proof.Machine.execReadLift lift s
  | .readEntry side => Sys2Proof.Machine.execReadEntry side s
  | .openList station entries => Sys2Proof.Machine.execOpenList station entries s
  | .appendEntries list entries => Sys2Proof.Machine.execAppendEntries list entries s
  | .closeList list => Sys2Proof.Machine.execCloseList list s
  | .abortList list => Sys2Proof.Machine.execAbortList list s
  | .skipEntry list rank => Sys2Proof.Machine.execSkipEntry list rank s
  | .confirmExit ident => Sys2Proof.Machine.execConfirmExit ident s
  | .declareMissing ident => Sys2Proof.Machine.execDeclareMissing ident s
  | .setReportMode station mode => Sys2Proof.Machine.execSetReportMode station mode s
  | .readStation station => Sys2Proof.Machine.execReadStation station s
  | .readList list first => Sys2Proof.Machine.execReadList list first s
  | .resolveHold ident disposition => Sys2Proof.Machine.execResolveHold ident disposition s
  | .declareTote ident direction level weight pref loc => Sys2Proof.Machine.execDeclareTote ident direction level weight pref loc s
  | .readLinks => Sys2Proof.Machine.execReadLinks s
  | .softReset => Sys2Proof.Machine.execSoftReset s
  | .identify => Sys2Proof.Machine.execIdentify s
  | .setParameter number value => Sys2Proof.Machine.execSetParameter number value s
  | .readParameters => Sys2Proof.Machine.execReadParameters s
  | .readEvents group => Sys2Proof.Machine.execReadEvents group s
  | .readClearEvents group => Sys2Proof.Machine.execReadClearEvents group s
  | .setEventMask group mask => Sys2Proof.Machine.execSetEventMask group mask s
  | .readSummary => Sys2Proof.Machine.execReadSummary s
  | .setSummaryEnable setting => Sys2Proof.Machine.execSetSummaryEnable setting s
  | .beacon stop aIn aOut bIn bOut => Sys2Proof.Machine.execBeacon stop aIn aOut bIn bOut s
  | .laneState stop lane report => Sys2Proof.Machine.execLaneState stop lane report s
  | .claimPut stop ident => Sys2Proof.Machine.execClaimPut stop ident s
  | .claimTake stop side => Sys2Proof.Machine.execClaimTake stop side s
  | .done sender slot gen => Sys2Proof.Machine.execDone sender slot gen s
  | .aborted sender slot gen => Sys2Proof.Machine.execAborted sender slot gen s
  | .auditScan stop scan => Sys2Proof.Machine.execAuditScan stop scan s
  | .liftBeacon side report => Sys2Proof.Machine.execLiftBeacon side report s
  | .carriageState side report => Sys2Proof.Machine.execCarriageState side report s
  | .jobRequest side => Sys2Proof.Machine.execJobRequest side s
  | .frontBeacon => Sys2Proof.Machine.execFrontBeacon s
  | .arrival side ident weight position => Sys2Proof.Machine.execArrival side ident weight position s
  | .exitRead side ident => Sys2Proof.Machine.execExitRead side ident s
  | .discardedFrame run => Sys2Proof.Machine.execDiscardedFrame run s
  | .wrongNode port => Sys2Proof.Machine.execWrongNode port s
  | .foreignFrame port => Sys2Proof.Machine.execForeignFrame port s
  | .malformedFrame port => Sys2Proof.Machine.execMalformedFrame port s
  | .motionTimeout slot => Sys2Proof.Machine.execMotionTimeout slot s
  | .confirmTimeout slot => Sys2Proof.Machine.execConfirmTimeout slot s
  | .exitReadWindowExpiry slot => Sys2Proof.Machine.execExitReadWindowExpiry slot s
  | .settleExpiry lane => Sys2Proof.Machine.execSettleExpiry lane s
  | .scanTimeout level => Sys2Proof.Machine.execScanTimeout level s
  | .approvalTimeout level => Sys2Proof.Machine.execApprovalTimeout level s
  | .linkLost port => Sys2Proof.Machine.execLinkLost port s
  | .entryAged side => Sys2Proof.Machine.execEntryAged side s
  | .statusPeriodEnd => Sys2Proof.Machine.execStatusPeriodEnd s
  | .frameLeavesLink port => Sys2Proof.Machine.execFrameLeavesLink port s

end Sys2Proof.Machine
end

