-- ==== Sys2Proof/WellFormed.lean ====
section
/-! DEFINITION. The well-formed commands: those whose fields a frame can carry as R159 and R171 lay it out.

A value out of a field's range is well formed: it travels, and the owning rule refuses it (R171). What is ill formed is
a command that no frame spells. -/

namespace Sys2Proof

/-- A scan gives at most three identities for a lane (R41, R159). -/
def Scan.wf (x : Scan) : Bool :=
  decide (x.aIn.length ≤ 3) && decide (x.aOut.length ≤ 3) && decide (x.bIn.length ≤ 3) && decide (x.bOut.length ≤ 3)

/-- A put names an identity and a take a side (R77, R171). -/
def ClaimArg.wf (kind : Byte) : ClaimArg → Bool
  | .identity _ => kind != 1
  | .side _ => kind != 0

/-- A LIFT_TAKE carries a count and a LIFT_DROP does not (R91). -/
def countWf (kind : Byte) : Option Byte → Bool
  | none => kind != 4
  | some _ => kind != 3

/-- A form byte that R151's list of forms does not have (R171). -/
def LocArg.wf : LocArg → Bool
  | .noForm f => f != 0 && f != 1 && f != 2
  | .lane _ _ => true
  | .carriage _ => true
  | .entry _ => true

/-- A body has at most 250 bytes: one for the station or list and seven for each entry (R170, R171). -/
def entriesWf (es : List EntryArg) : Bool := decide (es.length ≤ 35)

/-- The well-formed commands. -/
def Instr.wf : Instr → Bool
  | .auditScan _ x => x.wf
  | .approveClaim _ kind a => a.wf kind
  | .denyClaim _ kind a => a.wf kind
  | .directLift _ kind _ n => countWf kind n
  | .declareTote _ _ _ _ _ a => a.wf
  | .openList _ es => entriesWf es
  | .appendEntries _ es => entriesWf es
  | .hardReset => true
  | .resetRelease => true
  | .stopAsserted => true
  | .stopReleased => true
  | .collect _ => true
  | .unknownRequest _ => true
  | .readTote _ => true
  | .walk _ => true
  | .announceInbound _ _ => true
  | .retarget _ _ => true
  | .cancelRecord _ => true
  | .setCorrection _ _ _ _ => true
  | .readCorrections => true
  | .setLevelMap _ _ => true
  | .setLaneDepth _ _ _ => true
  | .setLevelMode _ _ => true
  | .setFenceOnLoss _ _ => true
  | .startAudit _ => true
  | .clearLaneBlock _ _ => true
  | .readLevel _ => true
  | .readLane _ _ => true
  | .readTransfer _ => true
  | .readApprovals _ => true
  | .cancelDirected _ => true
  | .setLiftEnable _ _ => true
  | .clearLiftBlock _ => true
  | .readLift _ => true
  | .readEntry _ => true
  | .closeList _ => true
  | .abortList _ => true
  | .skipEntry _ _ => true
  | .confirmExit _ => true
  | .declareMissing _ => true
  | .setReportMode _ _ => true
  | .readStation _ => true
  | .readList _ _ => true
  | .resolveHold _ _ => true
  | .readLinks => true
  | .softReset => true
  | .identify => true
  | .setParameter _ _ => true
  | .readParameters => true
  | .readEvents _ => true
  | .readClearEvents _ => true
  | .setEventMask _ _ => true
  | .readSummary => true
  | .setSummaryEnable _ => true
  | .beacon _ _ _ _ _ => true
  | .laneState _ _ _ => true
  | .claimPut _ _ => true
  | .claimTake _ _ => true
  | .done _ _ _ => true
  | .aborted _ _ _ => true
  | .liftBeacon _ _ => true
  | .carriageState _ _ => true
  | .jobRequest _ => true
  | .frontBeacon => true
  | .arrival _ _ _ _ => true
  | .exitRead _ _ => true
  | .discardedFrame _ => true
  | .wrongNode _ => true
  | .foreignFrame _ => true
  | .malformedFrame _ => true
  | .motionTimeout _ => true
  | .confirmTimeout _ => true
  | .exitReadWindowExpiry _ => true
  | .settleExpiry _ => true
  | .scanTimeout _ => true
  | .approvalTimeout _ => true
  | .linkLost _ => true
  | .entryAged _ => true
  | .statusPeriodEnd => true
  | .frameLeavesLink _ => true

end Sys2Proof
end

