-- ==== Sys2Proof/Safety.lean ====
section
/-! DEFINITION. What is said of a state: when it takes a request, how an answered request leaves it, what an event of the
part never writes, and the laws that every step keeps. -/

namespace Sys2Proof.Machine

/-! ### Requests -/

namespace State

/-- A transaction that ends now takes effect: the part is out of reset, and no hard reset has abandoned it (R167). -/
abbrev hearsPort (s : State) : Prop := s.inReset = false ∧ s.chip ≠ .abandoned

/-- The next REQUEST is judged and executed: it takes effect, and the response buffer is empty (R167, R169). -/
abbrev ready (s : State) : Prop := s.hearsPort ∧ s.buffer = none

/-- The state after a request that changed nothing but the buffer and the port's output. -/
def told (s : State) (c : Code) (b : Body) : State :=
  { s.shift [s.firstByte] with buffer := some { code := c, body := b } }

/-- The state after a request whose own effect is `t`: the event is closed and the response, of this code, fills the
buffer. -/
def answeredBy (s t : State) (c : Code) (b : Body) : State :=
  { t.closeEvent.shift [s.firstByte] with buffer := some { code := c, body := b } }

/-- The state after an accepted request whose own effect is `t`. -/
def doneWith (s t : State) (b : Body) : State := s.answeredBy t .ok b

end State

/-! ### What no event of the part writes -/

/-- The fields that no event writes but a reset, a change of the stop line, a setting, the tick or the port itself. -/
structure Kept where
  inReset : Bool
  resetKind : ResetKind
  stopLine : Bool
  stopped : Bool
  settings : Settings
  statusPeriod : Nat
  buffer : Option Response
  overrun : Bool
  chip : ChipSelect
  portOut : List Byte
  pending : List Instr
  deriving DecidableEq, Repr

def State.kept (s : State) : Kept :=
  { inReset := s.inReset, resetKind := s.resetKind, stopLine := s.stopLine, stopped := s.stopped, settings := s.settings,
    statusPeriod := s.statusPeriod, buffer := s.buffer, overrun := s.overrun, chip := s.chip, portOut := s.portOut,
    pending := s.pending }

/-! ### Laws that every step keeps -/

namespace State

/-- Both pointers of every station and the attention line stand at the values that R120, R121 and R179 define, and no
cause of re-evaluation is outstanding (R101, R116, R179). -/
def current (s : State) : Prop :=
  (∀ n, s.station n = s.stationNow n) ∧ s.attention = s.attentionValue ∧ s.cause = false

/-- Every level is fenced exactly while it is mapped, its stop's link is LOST and its fence-on-loss setting is on (R38). -/
def fencesCurrent (s : State) : Prop :=
  ∀ l, (s.level l).fenced = true ↔
    ∃ n, s.stopOf l = some n ∧ (s.link (.stop n)).status = .lost ∧ nth s.settings.fenceOnLoss l = true

/-- The party of a slot is at work exactly while the slot holds an open transfer: the lift is WORKING (R83), the level's
shuttle claim state is WORKING (R68). -/
def partyEngaged (s : State) (i : Fin 34) : Prop :=
  match slotOwner i with
  | .inl l => s.claimState l = .working ↔ (s.slot i).opened.isSome
  | .inr side => (s.lift side).status = .working ↔ (s.slot i).opened.isSome

/-- R83, and R68 for the shuttles: WORKING exactly while a transfer is open in the slot, AWAITING_APPROVAL exactly while the
level has a pending claim, and at most one pending claim for a level. -/
def engaged (s : State) : Prop :=
  (∀ i, s.partyEngaged i) ∧ (∀ l, s.claimState l = .awaitingApproval ↔ (s.pendingOf l).isSome) ∧
    (s.approvals.map (·.level)).Nodup

end State

/-- The ranges of R172. -/
def Params.legal (p : Params) : Prop :=
  (20 ≤ p.motionLimitShuttle ∧ p.motionLimitShuttle ≤ 255) ∧ (20 ≤ p.motionLimitLift ∧ p.motionLimitLift ≤ 255) ∧
  (1 ≤ p.confirmWindow ∧ p.confirmWindow ≤ 50) ∧ (5 ≤ p.exitReadWindow ∧ p.exitReadWindow ≤ 100) ∧
  p.settleTime ≤ 20 ∧ (2 ≤ p.lossTime ∧ p.lossTime ≤ 50) ∧ (1 ≤ p.approvalLimit ∧ p.approvalLimit ≤ 255) ∧
  (5 ≤ p.entryAgeLimit ∧ p.entryAgeLimit ≤ 600) ∧ (5 ≤ p.scanLimit ∧ p.scanLimit ≤ 100) ∧
  (1 ≤ p.streakLimit ∧ p.streakLimit ≤ 7) ∧ (4 ≤ p.carriageLimit ∧ p.carriageLimit ≤ 8)

/-- The settings are legal: no two levels map to one stop (R20), no two enabled corrections have one read value and none has
a value of 0 (R17), every depth is 1 to 3 (R21), every mask is within its group's flags (R176), and every parameter is in
its range (R172). -/
def Settings.legal (x : Settings) : Prop :=
  (∀ a b, a ≠ b → (nth x.levelMap a).isSome → nth x.levelMap a ≠ nth x.levelMap b) ∧
  (∀ a, (nth x.corrections a).enabled = true → (nth x.corrections a).read ≠ 0 ∧ (nth x.corrections a).corrected ≠ 0) ∧
  (∀ a b, a ≠ b → (nth x.corrections a).enabled = true → (nth x.corrections b).enabled = true →
    (nth x.corrections a).read ≠ (nth x.corrections b).read) ∧
  (∀ k, 1 ≤ nth x.laneDepth k ∧ nth x.laneDepth k ≤ 3) ∧
  (∀ g, nth x.masks g &&& ~~~(ownedBits g) = 0) ∧ x.params.legal

namespace State

/-- The tote table is in its form: slots of 0 to 511 strictly rising, so at most 512 records, no two of one identity, and
none of identity 0 (R6, R7, R11). -/
def tableLegal (s : State) : Prop :=
  (s.records.map (·.1)).Pairwise (· < ·) ∧ (∀ p ∈ s.records, p.1 < Config.recordSlots) ∧
  s.records.length ≤ Config.recordSlots ∧ (s.records.map (·.2.ident)).Nodup ∧ ∀ p ∈ s.records, p.2.ident ≠ 0

end State

/-- `after` is `before` with one record more, in the lowest-numbered free slot (R6). -/
def CreatedIn (before after : List (Nat × Record)) (r : Record) : Prop :=
  ∃ k, (∀ p ∈ before, p.1 ≠ k) ∧ (∀ j < k, ∃ p ∈ before, p.1 = j) ∧ (after.map (·.1)).Pairwise (· < ·) ∧
    ∀ p, p ∈ after ↔ p = (k, r) ∨ p ∈ before

/-- A release list without the states of its entries. -/
def ReleaseList.stateless (r : ReleaseList) : ReleaseList :=
  { r with entries := r.entries.map fun e => { e with state := .pending } }

/-- The bytes of a request's entry are in range and name this new entry (R132 check 1, R171). -/
def NewEntry.namedBy (e : NewEntry) (a : EntryArg) : Prop :=
  a.ident = e.ident ∧ e.ident ≠ 0 ∧ a.level.toNat = e.level.val + 1 ∧ a.weight.toNat = e.weight.val ∧
    a.pref.toNat = match e.pref with | .a => 0 | .b => 1 | .either => 2

end Sys2Proof.Machine
end

