-- ==== Sys2Proof/Certificates/Slice0/Obligations.lean ====
section
/-! DEFINITION. The statements for the provers, each about what the rules of spec/ say a command or the part does.

A request's statement is about a part that is `ready`; a refused one leaves `State.told`, an accepted one
`State.doneWith`, whose first state is the request's own effect before the event is closed. A frame's or an expiry's
statement gives the state that the event's own effect leaves, and `closeEvent` of it; `ClosingAnEvent` says what closing
does. -/

open Sys2Proof Sys2Proof.Machine


/-! ### The block: its step, its tick, its resets -/

/-- step with a command at the front of the queue is exec of it with the queue's rest. -/
def Obligations.StepTakesTheFrontCommand : Prop :=
  ∀ (c : Instr) (s : State), step { s with pending := c :: s.pending } = exec c s

/-- Every command has a next state in every state, and leaves the queue alone. -/
def Obligations.EveryCommandCompletes : Prop :=
  ∀ (c : Instr) (s : State), ∃ t, exec c s = .next t ∧ t.pending = s.pending

/-- On an empty queue time passes (log 2). An expiry is due while its timer stands at zero and counts; one that is due is taken, which of
several being left open; with none due every timer that runs takes one step of 0.1 s and nothing else moves. In hard reset nothing
happens. -/
def Obligations.EmptyQueueTicks : Prop :=
  (∀ s : State, s.pending = [] → s.inReset = true → step s = .next s) ∧
  (∀ s : State, s.pending = [] → s.due ≠ [] →
     ∃ c n, c ∈ s.due ∧ step s = exec c { s with fresh := n } ∧ (s.due.length = 1 → n = s.fresh)) ∧
  (∀ s : State, s.inReset = false → ∀ c, c ∈ s.due ↔
     (∃ i o, c = .motionTimeout i ∧ (s.slot i).opened = some o ∧ o.paused = false ∧ o.timer = 0 ∧ o.confirming = false) ∨
     (∃ i o, c = .confirmTimeout i ∧ (s.slot i).opened = some o ∧ o.paused = false ∧ o.timer = 0 ∧
       o.confirming = true ∧ s.stopped = false ∧ o.kind ≠ .exitUnload) ∨
     (∃ i o, c = .exitReadWindowExpiry i ∧ (s.slot i).opened = some o ∧ o.paused = false ∧ o.timer = 0 ∧
       o.confirming = true ∧ s.stopped = false ∧ o.kind = .exitUnload) ∨
     (∃ k, c = .settleExpiry k ∧ (s.lane k).condition = .settling 0) ∨
     (∃ l, c = .scanTimeout l ∧ (s.level l).scan = some 0) ∨
     (∃ l p, c = .approvalTimeout l ∧ s.pendingOf l = some p ∧ p.timer = 0) ∨
     (∃ p, c = .linkLost p ∧ (s.link p).status = .up 0) ∨
     (∃ x a, c = .entryAged x ∧ (s.queue x).age = some a ∧ 10 * s.settings.params.entryAgeLimit ≤ a ∧
       (s.queue x).aged = false) ∨
     (c = .statusPeriodEnd ∧ s.statusPeriod = 0)) ∧
  (∀ s : State, s.pending = [] → s.inReset = false → s.due = [] → ∃ t, step s = .next t ∧
     t = { s with
       slots := t.slots, lanes := t.lanes, levels := t.levels, approvals := t.approvals, links := t.links
       entries := t.entries, statusPeriod := s.statusPeriod - 1 } ∧
     (∀ i, t.slot i = { s.slot i with
       opened := (s.slot i).opened.map fun o => if o.paused then o else { o with timer := o.timer - 1 } }) ∧
     (∀ k n, (s.lane k).condition = .settling n → t.lane k = { s.lane k with condition := .settling (n - 1) }) ∧
     (∀ k, (∀ n, (s.lane k).condition ≠ .settling n) → t.lane k = s.lane k) ∧
     (∀ l, t.level l = { s.level l with scan := (s.level l).scan.map fun n => n - 1 }) ∧
     t.approvals = s.approvals.map (fun p => { p with timer := p.timer - 1 }) ∧
     (∀ p n, (s.link p).status = .up n → t.link p = { s.link p with status := .up (n - 1) }) ∧
     (∀ p, (∀ n, (s.link p).status ≠ .up n) → t.link p = s.link p) ∧
     (∀ x, t.queue x = { s.queue x with age := (s.queue x).age.map fun a => min 9999 (a + 1) }))

/-- The state after reset, value by value, and how it comes about: HARD_RESET and then RESET_RELEASE (log 5). -/
def Obligations.ResetValues : Prop :=
  (∀ s : State, s.stopLine = false → s.chip = .idle → s.fresh = 0 → s.pending = [] →
    ∃ t, exec .hardReset s = .next t ∧ t.inReset = true ∧ exec .resetRelease t = .next State.reset) ∧
  (State.reset.inReset = false ∧ State.reset.resetKind = .hard ∧ State.reset.stopped = false ∧ State.reset.records = [] ∧
    State.reset.approvals = [] ∧ State.reset.opening = 0 ∧ State.reset.unsolicited = none ∧ State.reset.buffer = none ∧
    State.reset.overrun = false ∧ State.reset.chip = .idle ∧ State.reset.attention = false ∧ State.reset.statusPeriod = 2) ∧
  (∀ k, State.reset.lane k = { contents := [], reserved := 0, condition := .clear, report := none, discrepancy := none }) ∧
  (∀ k, State.reset.depth k = 2) ∧
  (∀ l, State.reset.level l = { mode := .off, fenced := false, streak := 0, scan := none } ∧
    (State.reset.stopOf l).map Fin.val = some l.val ∧ nth State.reset.settings.fenceOnLoss l = true ∧
    State.reset.claimState l = .idle) ∧
  (∀ i, State.reset.slot i = { generation := 0, lastEnd := .none, opened := none }) ∧
  (∀ x, State.reset.lift x =
      { status := .disabled, contents := [], reserved := [], report := none, disputed := false, directed := none
        refusal := none, stuck := false } ∧
    State.reset.queue x = { contents := [], age := none, aged := false, rejection := none }) ∧
  (∀ n, State.reset.station n =
      { queue := [], nextLoad := .stands .atEnd, nextExit := .atEnd, stalled := false, fault := none } ∧
    nth State.reset.settings.reportMode n = .list) ∧
  (∀ l, State.reset.list l = none) ∧
  (∀ p, State.reset.link p = { status := .down, heard := [], order := [.resync .hard], begun := false }) ∧
  (∀ g, nth State.reset.flags g = (if g = 0 then 1 else 0) ∧ nth State.reset.settings.masks g = 0) ∧
  State.reset.settings.summaryEnable = false ∧
  (∀ e, nth State.reset.settings.corrections e = { enabled := false, read := 0, corrected := 0 }) ∧
  State.reset.settings.params =
    { motionLimitShuttle := 80, motionLimitLift := 120, confirmWindow := 15, exitReadWindow := 30, settleTime := 3
      lossTime := 10, approvalLimit := 30, entryAgeLimit := 60, scanLimit := 30, streakLimit := 3, carriageLimit := 6 }

/-- The laws that the next four statements say are kept hold right after reset. -/
def Obligations.LawsHoldAtReset : Prop :=
  State.reset.current ∧ State.reset.engaged ∧ State.reset.settings.legal ∧ State.reset.fencesCurrent ∧ State.reset.tableLegal

/-- After every step the station pointers and the attention line stand at their values, if they did before. -/
def Obligations.StepKeepsPointersAndAttentionCurrent : Prop :=
  ∀ s t : State, s.current → step s = .next t → t.current

/-- After every step a party is at work exactly while its slot holds an open transfer, and a level awaits approval exactly
while it has a pending claim, if that was so before. -/
def Obligations.StepKeepsPartiesEngaged : Prop :=
  ∀ s t : State, s.engaged → step s = .next t → t.engaged

/-- Every step keeps the settings in their ranges, and with them every level fenced exactly while it is mapped, its stop's link is
LOST and its fence-on-loss setting is on, if that was so before (R38). -/
def Obligations.StepKeepsSettingsLegalAndFencesCurrent : Prop :=
  ∀ s t : State, s.settings.legal → step s = .next t →
    t.settings.legal ∧ (s.fencesCurrent → t.fencesCurrent)

/-- Every step keeps the tote table in its form: at most 512 records, in rising slots, no two of one identity. -/
def Obligations.StepKeepsTableLegal : Prop :=
  ∀ s t : State, s.tableLegal → step s = .next t → t.tableLegal

/-- What the close of an event does and what it keeps: it brings the pointers and the attention line to their values, a move of a
pointer being a cause of re-evaluation. With a cause outstanding while RUNNING every parked request is re-evaluated by a selection for
its lift, A before B, a lift staying PARKED when its selection finds no job, until no cause is left. Without a parked request, or while
STOPPED, the close does no more (R101, R116, R122, R179; log 6). -/
def Obligations.ClosingAnEvent : Prop :=
  (∀ s : State, let r := s.refreshPointers
    (∀ n, r.station n = { s.station n with nextLoad := s.nextLoadOf n, nextExit := s.nextExitOf n }) ∧
    r = { s with stations := r.stations, cause := r.cause } ∧
    (r.cause = true ↔
      s.cause = true ∨ ∃ n, (s.station n).nextLoad ≠ s.nextLoadOf n ∨ (s.station n).nextExit ≠ s.nextExitOf n) ∧
    (r.cause = false → s.closeEvent = { r with attention := s.attentionValue }) ∧
    (r.cause = true → s.stopped = false →
      let u : State := { r with cause := false }
      let v : State := if (u.lift .a).status = .parked then (u.select .a).1 else u
      let w : State := if (v.lift .b).status = .parked then (v.select .b).1 else v
      s.closeEvent = w.closeEvent) ∧
    (∀ x, (s.lift x).status = .parked →
      ((s.select x).2 = true → ((s.select x).1.lift x).status = .working) ∧
      ((s.select x).2 = false → ((s.select x).1.lift x).status = .parked))) ∧
  ∀ s : State, s.closeEvent.current ∧ s.closeEvent.kept = s.kept ∧
    ((∀ x, (s.lift x).status ≠ .parked) ∨ s.stopped = true → ∃ u : Vector Station 4,
      (∀ n, nth u n = { s.station n with nextLoad := s.nextLoadOf n, nextExit := s.nextExitOf n }) ∧
      s.closeEvent = { s with stations := u, cause := false, attention := s.attentionValue }) ∧
    s.closeEvent = { s.closeEvent with
      levels := s.levels, claims := s.claims, approvals := s.approvals
      entries := s.entries, opening := s.opening, unsolicited := s.unsolicited, fresh := s.fresh } ∧
    (∀ k, s.closeEvent.lane k = { s.lane k with reserved := (s.closeEvent.lane k).reserved }) ∧
    (∀ l, s.closeEvent.slot (shuttleSlot l) = s.slot (shuttleSlot l)) ∧
    (∀ x, (s.lift x).status ≠ .parked → s.closeEvent.lift x = s.lift x ∧ s.closeEvent.slot (liftSlot x) = s.slot (liftSlot x)) ∧
    (∀ x, (s.closeEvent.lift x).contents = (s.lift x).contents ∧ (s.closeEvent.lift x).report = (s.lift x).report ∧
      (s.closeEvent.lift x).disputed = (s.lift x).disputed) ∧
    (∀ i, (s.closeEvent.lookup i).map (fun r => { r with transfer := none }) =
      (s.lookup i).map (fun r => { r with transfer := none })) ∧
    (∀ n, s.closeEvent.link (.stop n) = s.link (.stop n)) ∧ s.closeEvent.link .front = s.link .front ∧
    (∀ x, (s.closeEvent.link (.lift x)).status = (s.link (.lift x)).status ∧
      (s.closeEvent.link (.lift x)).heard = (s.link (.lift x)).heard)

/-- The request port. Every transaction shifts out the status byte as it stood when chip select was asserted, bit by bit R168's, so that
an event taken in between shows only in the next; a COLLECT then the buffered frame; and after that zeros. A REQUEST takes effect at the
release of chip select: with a response in the buffer, whatever it asks, it is discarded and the overrun flag is set. COLLECT of the
whole frame empties the buffer and clears the flag, a shorter one and a status poll change nothing, and the port's own checks fill the
buffer with their code. A transaction that a hard reset abandoned ends without effect (R167 to R170; log 14). -/
def Obligations.PortBufferAndOverrun : Prop :=
  (∀ (c : Instr) (s : State), ((requestParts c).isSome ∨ ∃ why, c = .unknownRequest why) → s.hearsPort →
    s.buffer.isSome → exec c s = .next { s with portOut := [s.firstByte], chip := .idle, overrun := true }) ∧
  (∀ (n : Nat) (s : State), s.hearsPort →
    ((collected s.buffer).length ≤ n → exec (.collect (.collects n)) s = .next { s with
      buffer := none, overrun := false, chip := .idle, portOut := s.firstByte :: collected s.buffer }) ∧
    (n < (collected s.buffer).length → exec (.collect (.collects n)) s = .next { s with
      chip := .idle, portOut := s.firstByte :: (collected s.buffer).take n }) ∧
    exec (.collect (.polls n)) s = .next { s with chip := .idle, portOut := [s.firstByte] }) ∧
  (∀ s : State, s.inReset = false → s.chip = .idle →
    exec (.collect .asserts) s = .next { s with chip := .asserted s.statusByte } ∧ s.firstByte = s.statusByte) ∧
  (∀ (s : State) (b : Byte), s.chip = .asserted b → s.firstByte = b ∧ exec (.collect .asserts) s = .next s) ∧
  (∀ (c : Instr) (s : State),
    ((requestParts c).isSome ∨ (∃ why, c = .unknownRequest why) ∨ ∃ n, c = .collect (.collects n) ∨ c = .collect (.polls n)) →
    s.chip = .abandoned → exec c s = .next { s with chip := .idle }) ∧
  (∀ (s : State) (n : Nat), s.shiftedOut n = if h : n < s.portOut.length then s.portOut[n] else 0) ∧
  (∀ (s : State) (b : Nat), s.statusByte.getLsbD b = match b with
    | 0 => s.attention
    | 1 => s.buffer.isSome
    | 2 => s.overrun
    | 3 => s.stopped
    | 4 => (nth s.flags 0).getLsbD 0
    | 5 => true
    | 6 => false
    | 7 => true
    | _ => false) ∧
  (∀ s : State, s.ready →
    exec (.unknownRequest .badLength) s = .next (s.told .badLength .empty) ∧
    exec (.unknownRequest .checkError) s = .next (s.told .checkError .empty) ∧
    exec (.unknownRequest .unknownRequest) s = .next (s.told .unknownRequest .empty)) ∧
  (∀ s : State, s.buffer = none → collected s.buffer = [1, 0, crc8 [1, 0]])

/-- Every request reads back from its bytes behind the selector of a REQUEST, whatever bytes follow its check byte; the selector of a
COLLECT and any other spell no request (R167, R170, R171; logs 9, 10 and 14). -/
def Obligations.RequestsReadBack : Prop :=
  (∀ (c : Instr) (bytes more : List Byte), c.wf = true → requestBytes c = some bytes →
    requestOfBytes (bytes ++ more) = c ∧ transactionOf (1 :: (bytes ++ more)) = c) ∧
  (∀ rest : List Byte, transactionOf (2 :: rest) = .collect (.collects rest.length)) ∧
  (∀ (selector : Byte) (rest : List Byte), selector ≠ 1 → selector ≠ 2 →
    transactionOf (selector :: rest) = .collect (.polls rest.length))

/-- Every frame that a partner sends reads back from its bytes on its port, alone and once, and leaves nothing partly received; of a
frame not yet whole nothing is read, and the receiver holds what has come (R156 to R159, R164, R165). -/
def Obligations.FramesReadBack : Prop :=
  ∀ (c : Instr) (p : Port) (kind : Byte) (body : List Byte), c.wf = true → frameParts c = some (p, kind, body) →
    ∃ bytes, frameBytes c = some bytes ∧ receive p bytes.length bytes = [c] ∧ unfinished bytes.length bytes = [] ∧
      ∀ n < bytes.length, receive p n (bytes.take n) = [] ∧ unfinished n (bytes.take n) = bytes.take n


/-! ### The tote table -/

/-- READ_TOTE: the two refusals, and the record with its position otherwise. WALK gives the first occupied slot at or above its
start, END where there is none and always from 512, and refuses a start above 512. Nothing changes (R12, R13). -/
def Obligations.ReadToteAndWalk : Prop :=
  (∀ (s : State) (i : Ident), s.ready →
     (i = 0 → exec (.readTote i) s = .next (s.told .outOfRange .empty)) ∧
     (i ≠ 0 → (∀ p ∈ s.records, p.2.ident ≠ i) → exec (.readTote i) s = .next (s.told .noRecord .empty)) ∧
     (i ≠ 0 → ∀ k r, s.tableLegal → (k, r) ∈ s.records → r.ident = i →
       ∃ n, exec (.readTote i) s = .next (s.told .ok (.tote { record := r, position := n })) ∧
         (∀ x, r.place = .entry x → n = ((s.queue x).contents.idxOf? i).map fun m => m + 1) ∧
         (∀ l, r.place = .lane l → n = ((s.lane l).contents.idxOf? i).map fun m => m + 1) ∧
         (∀ x, r.place = .carriage x → n = ((s.lift x).contents.idxOf? i).map fun m => m + 1) ∧
         (r.place = .expected → n = none) ∧ (∀ h, r.place = .held h → n = none))) ∧
  (∀ (s : State) (start : BitVec 16), s.ready → s.tableLegal →
     (512 < start.toNat → exec (.walk start) s = .next (s.told .outOfRange .empty)) ∧
     (start.toNat ≤ 512 → (∀ p ∈ s.records, p.1 < start.toNat) → exec (.walk start) s = .next (s.told .end_ .empty)) ∧
     (start.toNat = 512 → exec (.walk start) s = .next (s.told .end_ .empty)) ∧
     (∀ k r, start.toNat ≤ k → (k, r) ∈ s.records → (∀ p ∈ s.records, start.toNat ≤ p.1 → k ≤ p.1) →
       ∃ n, exec (.walk start) s = .next (s.told .ok (.walked k { record := r, position := n })) ∧
         (r.ident ≠ 0 → exec (.readTote r.ident) s = .next (s.told .ok (.tote { record := r, position := n })))))

/-- ANNOUNCE_INBOUND: its three checks in order, and the record it creates in the lowest free slot (R6, R7, R14). -/
def Obligations.AnnounceInboundCreatesOneRecord : Prop :=
  ∀ (s : State) (i : Ident) (b : Byte), s.ready →
    (i = 0 ∨ b.toNat < 1 ∨ 32 < b.toNat → exec (.announceInbound i b) s = .next (s.told .outOfRange .empty)) ∧
    (∀ l : Level, i ≠ 0 → b.toNat = l.val + 1 →
      ((s.lookup i).isSome → exec (.announceInbound i b) s = .next (s.told .duplicate .empty)) ∧
      (s.lookup i = none → 512 ≤ s.records.length → exec (.announceInbound i b) s = .next (s.told .tableFull .empty)) ∧
      (s.lookup i = none → s.records.length < 512 → s.tableLegal → ∃ rs,
        CreatedIn s.records rs { ident := i, direction := .inbound, place := .expected, level := l, pref := none,
                                 weight := none, entry := none, transfer := none } ∧
        exec (.announceInbound i b) s = .next (s.doneWith { s with records := rs } .empty)))

/-- RETARGET writes the level of an inbound record that is EXPECTED, in a queue or on a carriage and that no transfer moves,
and CANCEL_RECORD retires an EXPECTED record; each refuses in its order, and neither touches anything else (R15, R16). -/
def Obligations.RetargetAndCancelRecord : Prop :=
  (∀ (s : State) (i : Ident) (b : Byte), s.ready →
    (i = 0 ∨ b.toNat < 1 ∨ 32 < b.toNat → exec (.retarget i b) s = .next (s.told .outOfRange .empty)) ∧
    (∀ l : Level, i ≠ 0 → b.toNat = l.val + 1 →
      (s.lookup i = none → exec (.retarget i b) s = .next (s.told .noRecord .empty)) ∧
      (∀ r, s.lookup i = some r →
        ((r.direction = .outbound ∨ r.place.isLane ∨ r.place.isHeld) →
          exec (.retarget i b) s = .next (s.told .wrongState .empty)) ∧
        (r.direction = .inbound → r.place.isLane = false → r.place.isHeld = false →
          (r.transfer.isSome → exec (.retarget i b) s = .next (s.told .busy .empty)) ∧
          (r.transfer = none → exec (.retarget i b) s = .next (s.doneWith { s with
            records := s.records.map fun p => if p.2.ident = i then (p.1, { p.2 with level := l }) else p
            cause := s.cause || r.place.isCarriage } .empty)))))) ∧
  (∀ (s : State) (i : Ident), s.ready →
    (i = 0 → exec (.cancelRecord i) s = .next (s.told .outOfRange .empty)) ∧
    (i ≠ 0 → s.lookup i = none → exec (.cancelRecord i) s = .next (s.told .noRecord .empty)) ∧
    (i ≠ 0 → ∀ r, s.lookup i = some r →
      (r.place ≠ .expected ∨ (r.direction = .outbound ∧ r.entry.isSome) →
        exec (.cancelRecord i) s = .next (s.told .wrongState .empty)) ∧
      (r.place = .expected → (r.direction = .inbound ∨ r.entry = none) →
        (r.transfer.isSome → exec (.cancelRecord i) s = .next (s.told .busy .empty)) ∧
        (r.transfer = none → exec (.cancelRecord i) s =
          .next (s.doneWith { s with records := s.records.filter fun p => p.2.ident ≠ i } .empty)))))

/-- SET_CORRECTION: its two checks in order, and the entry it writes (R17; the coding of the setting is log 10's). -/
def Obligations.SetCorrectionWritesOneEntry : Prop :=
  ∀ (s : State) (eb on : Byte) (read corrected : Ident), s.ready →
    (7 < eb.toNat ∨ 1 < on.toNat → exec (.setCorrection eb on read corrected) s = .next (s.told .outOfRange .empty)) ∧
    (∀ e : Fin 8, eb.toNat = e.val →
      (on = 0 → read = 0 ∨ corrected = 0 →
        exec (.setCorrection eb on read corrected) s = .next (s.told .outOfRange .empty)) ∧
      (on = 0 → read ≠ 0 → corrected ≠ 0 →
        (∃ k, k ≠ e ∧ (nth s.settings.corrections k).enabled = true ∧ (nth s.settings.corrections k).read = read) →
        exec (.setCorrection eb on read corrected) s = .next (s.told .duplicate .empty)) ∧
      (on = 0 → read ≠ 0 → corrected ≠ 0 →
        (∀ k, k ≠ e → (nth s.settings.corrections k).enabled = true → (nth s.settings.corrections k).read ≠ read) →
        exec (.setCorrection eb on read corrected) s = .next (s.doneWith { s with
          settings := { s.settings with
            corrections := s.settings.corrections.set e.val { enabled := true, read := read, corrected := corrected } } }
          .empty)) ∧
      (on = 1 → exec (.setCorrection eb on read corrected) s = .next (s.doneWith { s with
        settings := { s.settings with
          corrections := s.settings.corrections.set e.val { enabled := false, read := read, corrected := corrected } } }
        .empty)))

/-- A read from the front or of a scan is corrected once, by the enabled entry whose read value it is, and nothing that
follows sees the raw read (R18). -/
def Obligations.ReadsAreCorrectedOnce : Prop :=
  (∀ (s : State) (i : Ident) (k : Fin 8), s.settings.legal → (nth s.settings.corrections k).enabled = true →
    (nth s.settings.corrections k).read = i → s.correct i = (nth s.settings.corrections k).corrected) ∧
  (∀ (s : State) (i : Ident), (∀ k, (nth s.settings.corrections k).enabled = true → (nth s.settings.corrections k).read ≠ i) →
    s.correct i = i) ∧
  (∀ s : State, s.settings.legal → s.correct 0 = 0) ∧
  (∀ (s : State) (i j : Ident) (x w p : Byte), s.correct i = s.correct j →
    exec (.arrival x i w p) s = exec (.arrival x j w p) s ∧ exec (.exitRead x i) s = exec (.exitRead x j) s) ∧
  (∀ (s : State) (n : Stop) (x y : Scan), x.aIn.map s.correct = y.aIn.map s.correct →
    x.aOut.map s.correct = y.aOut.map s.correct → x.bIn.map s.correct = y.bIn.map s.correct →
    x.bOut.map s.correct = y.bOut.map s.correct → exec (.auditScan n x) s = exec (.auditScan n y) s)


/-! ### Levels and lanes -/

/-- A level's fence follows its three causes: it is fenced exactly while mapped, its stop's link LOST and its setting on. A
change is a cause of re-evaluation, and a level that becomes fenced loses its pending claim with LEVEL_FENCED (R38, R80). -/
def Obligations.FenceFollowsItsCauses : Prop :=
  ∀ (s : State) (l : Level),
    (((s.recomputeFence l).level l).fenced = true ↔
      ∃ n, s.stopOf l = some n ∧ (s.link (.stop n)).status = .lost ∧ nth s.settings.fenceOnLoss l = true) ∧
    (∀ k, (s.recomputeFence l).level k = { s.level k with fenced := ((s.recomputeFence l).level k).fenced }) ∧
    (∀ k, k ≠ l → (s.recomputeFence l).level k = s.level k) ∧
    (((s.recomputeFence l).level l).fenced = (s.level l).fenced → s.recomputeFence l = s) ∧
    (((s.recomputeFence l).level l).fenced ≠ (s.level l).fenced → (s.recomputeFence l).cause = true ∧
      s.recomputeFence l = { s with
        levels := (s.recomputeFence l).levels, claims := (s.recomputeFence l).claims, links := (s.recomputeFence l).links
        approvals := (s.recomputeFence l).approvals, cause := true } ∧
      ((s.level l).fenced = true ∨ s.pendingOf l = none →
        (s.recomputeFence l).claims = s.claims ∧ (s.recomputeFence l).approvals = s.approvals ∧
        (s.recomputeFence l).links = s.links) ∧
      (∀ n, (s.level l).fenced = false → s.stopOf l = some n → (s.pendingOf l).isSome →
        (s.recomputeFence l).claimState l = .idle ∧
        (s.recomputeFence l).approvals = s.approvals.filter (fun p => p.level ≠ l) ∧
        (s.recomputeFence l).link (.stop n) =
          { s.link (.stop n) with order := (s.link (.stop n)).order ++ [.refuse .levelFenced] }))

/-- SET_LEVEL_MAP: its five checks in order; then the level takes the stop or none, its four latest reports are absent and
its fence is recomputed (R20). -/
def Obligations.SetLevelMapRemapsAnEmptyOffLevel : Prop :=
  ∀ (s : State) (b nb : Byte), s.ready →
    (b.toNat < 1 ∨ 32 < b.toNat ∨ 36 < nb.toNat → exec (.setLevelMap b nb) s = .next (s.told .outOfRange .empty)) ∧
    (∀ (l : Level) (n : Option Stop), b.toNat = l.val + 1 → (n = none ∧ nb = 0 ∨ ∃ m, n = some m ∧ nb.toNat = m.val + 1) →
      ((s.level l).mode ≠ .off → exec (.setLevelMap b nb) s = .next (s.told .wrongState .empty)) ∧
      ((s.level l).mode = .off →
        ((∃ x, (s.lane { level := l, name := x }).contents ≠ []) ∨ (s.level l).scan.isSome →
          exec (.setLevelMap b nb) s = .next (s.told .busy .empty)) ∧
        ((∀ x, (s.lane { level := l, name := x }).contents = []) → (s.level l).scan = none →
          ((∃ x, (s.lane { level := l, name := x }).condition.isBlocked) →
            exec (.setLevelMap b nb) s = .next (s.told .laneBlocked .empty)) ∧
          ((∀ x, (s.lane { level := l, name := x }).condition.isBlocked = false) →
            ((∃ k, k ≠ l ∧ n.isSome ∧ s.stopOf k = n) → exec (.setLevelMap b nb) s = .next (s.told .duplicate .empty)) ∧
            (¬ (∃ k, k ≠ l ∧ n.isSome ∧ s.stopOf k = n) → ∃ u : State,
              exec (.setLevelMap b nb) s = .next (s.doneWith (u.recomputeFence l) .empty) ∧
              u = { s with
                lanes := u.lanes
                settings := { s.settings with levelMap := s.settings.levelMap.set l.val n } } ∧
              ∀ k : LaneId, u.lane k = if k.level = l then { s.lane k with report := none } else s.lane k)))))

/-- SET_LANE_DEPTH and SET_FENCE_ON_LOSS: their checks, and the one setting each writes (R22, R37; log 10 for the coding of
on and off and for the width of a depth). -/
def Obligations.LaneDepthAndFenceSettings : Prop :=
  (∀ (s : State) (b nb d : Byte), s.ready →
    (b.toNat < 1 ∨ 32 < b.toNat ∨ 3 < nb.toNat ∨ d.toNat < 1 ∨ 3 < d.toNat →
      exec (.setLaneDepth b nb d) s = .next (s.told .outOfRange .empty)) ∧
    (∀ k : LaneId, b.toNat = k.level.val + 1 → nb.toNat = k.name.ix.val → 1 ≤ d.toNat → d.toNat ≤ 3 →
      ((s.level k.level).mode ≠ .off ∨ (s.lane k).contents ≠ [] →
        exec (.setLaneDepth b nb d) s = .next (s.told .wrongState .empty)) ∧
      ((s.level k.level).mode = .off → (s.lane k).contents = [] →
        exec (.setLaneDepth b nb d) s = .next (s.doneWith { s with
          settings := { s.settings with laneDepth := s.settings.laneDepth.set k.ix.val d.toNat } } .empty)))) ∧
  (∀ (s : State) (b x : Byte), s.ready →
    (b.toNat < 1 ∨ 32 < b.toNat ∨ 1 < x.toNat → exec (.setFenceOnLoss b x) s = .next (s.told .outOfRange .empty)) ∧
    (∀ l : Level, b.toNat = l.val + 1 → x.toNat ≤ 1 →
      exec (.setFenceOnLoss b x) s = .next (s.doneWith
        (({ s with settings := { s.settings with
            fenceOnLoss := s.settings.fenceOnLoss.set l.val (decide (x = 0)) } } : State).recomputeFence l) .empty)))

/-- SET_LEVEL_MODE: its two checks, the mode of R33's table, which the response carries, and what a change of mode does:
settle times cut short when the level leaves AUTO, its pending claim ended when it leaves MANUAL (R31 to R33, R80). -/
def Obligations.SetLevelModeFollowsTheModeTable : Prop :=
  ∀ (s : State) (b mb : Byte), s.ready →
    (b.toNat < 1 ∨ 32 < b.toNat ∨ 2 < mb.toNat → exec (.setLevelMode b mb) s = .next (s.told .outOfRange .empty)) ∧
    (∀ l : Level, b.toNat = l.val + 1 →
      (1 ≤ mb.toNat → mb.toNat ≤ 2 → s.stopOf l = none →
        exec (.setLevelMode b mb) s = .next (s.told .unmapped .empty)) ∧
      (∀ m : Mode, (mb = 0 ∧ m = s.modeAskedOff l) ∨ (mb = 1 ∧ m = .manual ∧ s.stopOf l ≠ none) ∨
          (mb = 2 ∧ m = .auto ∧ s.stopOf l ≠ none) →
        ∃ u : State, exec (.setLevelMode b mb) s = .next (s.doneWith u (.mode m)) ∧
          (m = (s.level l).mode → u = s) ∧
          u = { s with
            levels := u.levels, lanes := u.lanes, claims := u.claims, approvals := u.approvals, links := u.links
            flags := u.flags, cause := u.cause } ∧
          u.level l = { s.level l with mode := m } ∧ (∀ k, k ≠ l → u.level k = s.level k) ∧
          (∀ k : LaneId, u.lane k =
            if k.level = l ∧ (s.level l).mode = .auto ∧ m ≠ .auto then (s.endSettle k).lane k else s.lane k) ∧
          (m ≠ (s.level l).mode → u.cause = true ∧
            ((s.level l).mode = .manual → u.pendingOf l = none ∧ ((s.pendingOf l).isSome → u.claimState l = .idle) ∧
              ∀ n, s.stopOf l = some n → (s.pendingOf l).isSome → u.link (.stop n) =
                { s.link (.stop n) with order := (s.link (.stop n)).order ++ [.refuse (State.overtakenBy m)] })) ∧
          ((s.level l).mode ≠ .manual → u.claims = s.claims ∧ u.approvals = s.approvals ∧ u.links = s.links) ∧
          (∀ g, g ≠ levelGroup l → nth u.flags g = nth s.flags g))) ∧
    (∀ l : Level, s.modeAskedOff l = match (s.level l).mode with
      | .off => .off
      | .draining => .draining
      | .manual => if s.levelTouched l then .draining else .off
      | .auto => if s.levelTouched l then .draining else .off) ∧
    State.overtakenBy .off = .levelOff ∧ State.overtakenBy .draining = .levelDraining ∧
    State.overtakenBy .auto = .wrongState

/-- START_AUDIT: its checks in order; then every lane of the level that is not BLOCKED is in AUDIT, the scan timer is at
SCAN_LIMIT and AUDIT_REQUEST goes out on the level's stop. An audit ends by its scan or by its time: the lanes are settled by
R41's table or blocked SCAN_TIMEOUT, the scan timer stops, AUDIT_DONE is raised and parked requests are re-evaluated (R40 to R42).
SCAN_TIMEOUT acts whatever scan time is left, and without an audit neither does anything: the model's choice (log 4). -/
def Obligations.AuditsStartAndEnd : Prop :=
  (∀ (s : State) (b : Byte), s.ready →
     (b.toNat < 1 ∨ 32 < b.toNat → exec (.startAudit b) s = .next (s.told .outOfRange .empty)) ∧
     (∀ l : Level, b.toNat = l.val + 1 →
       (s.stopOf l = none → exec (.startAudit b) s = .next (s.told .unmapped .empty)) ∧
       (∀ n, s.stopOf l = some n →
         ((∀ m, (s.link (.stop n)).status ≠ .up m) ∨ s.levelTouched l ∨ (s.level l).mode = .draining ∨
             (s.level l).scan.isSome → exec (.startAudit b) s = .next (s.told .busy .empty)) ∧
         ((∃ m, (s.link (.stop n)).status = .up m) → s.levelTouched l = false → (s.level l).mode ≠ .draining →
           (s.level l).scan = none → ∃ u : State,
             exec (.startAudit b) s = .next (s.doneWith u .empty) ∧
             u = { s with lanes := u.lanes, levels := u.levels, links := u.links } ∧
             (∀ k : LaneId, k.level ≠ l → u.lane k = s.lane k) ∧
             (∀ k : LaneId, k.level = l → (s.lane k).condition.isBlocked → u.lane k = s.lane k) ∧
             (∀ k : LaneId, k.level = l → (s.lane k).condition.isBlocked = false →
               u.lane k = { s.lane k with condition := .audit }) ∧
             u.level l = { s.level l with scan := some s.settings.params.scanLimit } ∧
             (∀ k, k ≠ l → u.level k = s.level k) ∧
             u.link (.stop n) = { s.link (.stop n) with order := (s.link (.stop n)).order ++ [.auditRequest] } ∧
             (∀ p, p ≠ .stop n → u.link p = s.link p))))) ∧
  ((∀ (s : State) (l : Level) (x : Scan), (s.level l).scan = none → s.takeScan l x = s ∧ s.timeOutAudit l = s) ∧
   (∀ (s : State) (n : Stop) (x : Scan), s.inReset = false →
     (s.levelAt n = none → exec (.auditScan n x) s = .next (s.takeValid (.stop n)).closeEvent) ∧
     (∀ l, s.levelAt n = some l → exec (.auditScan n x) s = .next ((s.takeValid (.stop n)).takeScan l x).closeEvent)) ∧
   (∀ (s : State) (l : Level), s.inReset = false → exec (.scanTimeout l) s = .next (s.timeOutAudit l).closeEvent) ∧
   (∀ (s u : State) (l : Level) (x : Scan), (s.level l).scan.isSome → (u = s.takeScan l x ∨ u = s.timeOutAudit l) →
     u = { s with lanes := u.lanes, levels := u.levels, flags := u.flags, cause := true } ∧
     u.level l = { s.level l with scan := none } ∧ (∀ k, k ≠ l → u.level k = s.level k) ∧
     u.raised (.level l .auditDone) = true ∧ (∀ g, g ≠ levelGroup l → nth u.flags g = nth s.flags g) ∧
     (∀ k : LaneId, k.level ≠ l → u.lane k = s.lane k)) ∧
   (∀ (s : State) (k : LaneId) (x : Scan), (s.level k.level).scan.isSome →
     let scan := (match k.name with | .aIn => x.aIn | .aOut => x.aOut | .bIn => x.bIn | .bOut => x.bOut).map s.correct
     let u := s.takeScan k.level x
     ((s.lane k).condition = .audit → scan = (s.lane k).contents →
       u.lane k = { s.lane k with condition := .clear, discrepancy := none }) ∧
     ((s.lane k).condition = .audit → scan ≠ (s.lane k).contents →
       u.lane k = { s.lane k with condition := .blocked .auditMismatch, discrepancy := some scan } ∧
       u.raised (.level k.level .laneBlocked) = true) ∧
     ((s.lane k).condition.isBlocked → u.lane k =
       { s.lane k with discrepancy := if scan = (s.lane k).contents then none else some scan })) ∧
   (∀ (s : State) (k : LaneId), (s.level k.level).scan.isSome →
     ((s.lane k).condition = .audit → (s.timeOutAudit k.level).lane k =
       { s.lane k with condition := .blocked .scanTimeout } ∧
       (s.timeOutAudit k.level).raised (.level k.level .laneBlocked) = true) ∧
     ((s.lane k).condition ≠ .audit → (s.timeOutAudit k.level).lane k = s.lane k)))

/-- CLEAR_LANE_BLOCK: its checks in order; then the block and the discrepancy are gone (R43). -/
def Obligations.ClearLaneBlockNeedsAnAgreeingReport : Prop :=
  ∀ (s : State) (b nb : Byte), s.ready →
    (b.toNat < 1 ∨ 32 < b.toNat ∨ 3 < nb.toNat → exec (.clearLaneBlock b nb) s = .next (s.told .outOfRange .empty)) ∧
    (∀ k : LaneId, b.toNat = k.level.val + 1 → nb.toNat = k.name.ix.val →
      ((s.lane k).condition.isBlocked = false → exec (.clearLaneBlock b nb) s = .next (s.told .wrongState .empty)) ∧
      ((s.lane k).condition.isBlocked →
        ((∀ r, (s.lane k).report = some r → r.settled = false ∨ r.count.val ≠ (s.lane k).contents.length) →
          exec (.clearLaneBlock b nb) s = .next (s.told .mismatch .empty)) ∧
        (∀ r, (s.lane k).report = some r → r.settled = true → r.count.val = (s.lane k).contents.length →
          exec (.clearLaneBlock b nb) s = .next (s.doneWith { s with
            lanes := s.lanes.set k.ix.val { s.lane k with
              condition := if (s.level k.level).scan.isSome then .audit else .clear
              discrepancy := none }
            cause := true } .empty))))

/-- A lane report is stored whatever the lane's condition, and then judged: by the transfer that names the lane, or against the
contents when it is settled and the lane is neither busy nor SETTLING, a difference blocking the lane UNEXPECTED_CHANGE; a lane
that is blocked already keeps its reason. A BEACON is four such reports, each closed as an event of its own. At the end of a settle
time the lane is CLEAR and its latest report is compared; without a settle timer nothing happens (R27 to R29, R31; log 4). -/
def Obligations.LaneReportsAndSettleTimes : Prop :=
  ((∀ (s : State) (n : Stop) (x : LaneName) (r : LaneReport), s.inReset = false →
     exec (.laneState n x r) s = .next ((s.takeValid (.stop n)).reportFrom n x r).closeEvent) ∧
   (∀ (s : State) (n : Stop) (a b c d : LaneReport), s.inReset = false →
     exec (.beacon n a b c d) s = .next ((((((((s.takeValid (.stop n)).reportFrom n .aIn a).closeEvent).reportFrom n .aOut
       b).closeEvent).reportFrom n .bIn c).closeEvent).reportFrom n .bOut d).closeEvent) ∧
   (∀ (s : State) (n : Stop) (x : LaneName) (r : LaneReport), s.levelAt n = none → s.reportFrom n x r = s) ∧
   (∀ (s : State) (n : Stop) (l : Level) (x : LaneName) (r : LaneReport), s.levelAt n = some l →
     let k : LaneId := { level := l, name := x }
     let t : State := { s with lanes := s.lanes.set k.ix.val { s.lane k with report := some r } }
     (∀ i, s.slotNaming k = some i → s.reportFrom n x r = t.judgeLane i r) ∧
     (s.slotNaming k = none →
       (r.settled = false ∨ (∃ m, (s.lane k).condition = .settling m) ∨ r.count.val = (s.lane k).contents.length ∨
         (s.lane k).condition.isBlocked → s.reportFrom n x r = t) ∧
       (r.settled = true → (s.lane k).condition = .clear ∨ (s.lane k).condition = .audit →
         r.count.val ≠ (s.lane k).contents.length →
         s.reportFrom n x r = ({ s with
           lanes := s.lanes.set k.ix.val
             { s.lane k with report := some r, condition := .blocked .unexpectedChange } } : State).raise
               (.level l .laneBlocked))))) ∧
  (∀ (s : State) (k : LaneId), s.inReset = false →
     exec (.settleExpiry k) s = .next (s.endSettle k).closeEvent ∧
     ((∀ m, (s.lane k).condition ≠ .settling m) → s.endSettle k = s) ∧
     (∀ m, (s.lane k).condition = .settling m →
       (s.busy k ∨ (∀ r, (s.lane k).report = some r → r.settled = false ∨ r.count.val = (s.lane k).contents.length) →
         s.endSettle k = { s with
           lanes := s.lanes.set k.ix.val { s.lane k with condition := .clear }, cause := true }) ∧
       (∀ r, s.busy k = false → (s.lane k).report = some r → r.settled = true →
         r.count.val ≠ (s.lane k).contents.length →
         s.endSettle k = ({ s with
           lanes := s.lanes.set k.ix.val { s.lane k with condition := .blocked .unexpectedChange }
           cause := true } : State).raise (.level k.level .laneBlocked))))

/-- READ_LEVEL and READ_LANE (R44). -/
def Obligations.ReadLevelAndReadLane : Prop :=
  ∀ (s : State) (b nb : Byte), s.ready →
    (b.toNat < 1 ∨ 32 < b.toNat → exec (.readLevel b) s = .next (s.told .outOfRange .empty)) ∧
    (b.toNat < 1 ∨ 32 < b.toNat ∨ 3 < nb.toNat → exec (.readLane b nb) s = .next (s.told .outOfRange .empty)) ∧
    (∀ l : Level, b.toNat = l.val + 1 → exec (.readLevel b) s = .next (s.told .ok (.level
      { stop := s.stopOf l, mode := (s.level l).mode, fenceOnLoss := nth s.settings.fenceOnLoss l
        fenced := (s.level l).fenced, streak := (s.level l).streak, scan := (s.level l).scan }))) ∧
    (∀ k : LaneId, b.toNat = k.level.val + 1 → nb.toNat = k.name.ix.val →
      ∃ t, exec (.readLane b nb) s = .next (s.told .ok (.lane { depth := s.depth k, lane := s.lane k, transfer := t })) ∧
        ((∀ i, (s.slot i).namesLane k = false) → t = none) ∧
        (∀ i, (s.slot i).namesLane k = true → (∀ j, (s.slot j).namesLane k = true → j = i) →
          t = some { slot := i, gen := (s.slot i).generation }))


/-! ### The transfer table -/

/-- A grant: the slot's generation advances, its fields are written from the grant with start counts and targets, the
motion time of the kind is set, the taker's reservation is taken, each listed record gains the number and the party is at
work; nothing else changes (R25, R46 to R49, R86, R94). -/
def Obligations.GrantOpensATransfer : Prop :=
  ∀ (s : State) (g : Grant), let t := s.openTransfer g
    (∃ o, t.slot g.slot = { s.slot g.slot with generation := (s.slot g.slot).generation + 1, opened := some o } ∧
      o.kind = g.kind ∧ o.totes = g.totes ∧ o.granted = g.totes.length ∧ o.giver = g.giver ∧ o.taker = g.taker ∧
      o.confirming = false ∧ o.paused = false ∧ o.reads = 0 ∧
      o.timer = (if g.kind = .shuttlePut ∨ g.kind = .shuttleTake then s.settings.params.motionLimitShuttle
        else s.settings.params.motionLimitLift) ∧
      (∀ l, g.giver = .lane l → g.taker.isLane = false → o.laneWatch = some
        { start := (s.lane l).contents.length, target := (s.lane l).contents.length - g.totes.length, mark := false }) ∧
      (∀ l, (∀ k, g.giver ≠ .lane k) → g.taker = .lane l → o.laneWatch = some
        { start := (s.lane l).contents.length, target := (s.lane l).contents.length + g.totes.length, mark := false }) ∧
      ((∀ k, g.giver ≠ .lane k) → g.taker.isLane = false → o.laneWatch = none) ∧
      (∀ x, g.giver = .carriage x → g.taker.isCarriage = false → o.carriageWatch = some
        { start := (s.lift x).contents.length, target := (s.lift x).contents.length - g.totes.length, mark := false }) ∧
      (∀ x, (∀ y, g.giver ≠ .carriage y) → g.taker = .carriage x → o.carriageWatch = some
        { start := (s.lift x).contents.length, target := (s.lift x).contents.length + g.totes.length, mark := false }) ∧
      ((∀ y, g.giver ≠ .carriage y) → g.taker.isCarriage = false → o.carriageWatch = none)) ∧
    (∀ i, i ≠ g.slot → t.slot i = s.slot i) ∧
    t.records = s.records.map (fun p => if p.2.ident ∈ g.totes then
      (p.1, { p.2 with transfer := some { slot := g.slot, gen := (s.slot g.slot).generation + 1 } }) else p) ∧
    (∀ i r, s.lookup i = some r → t.lookup i = some (if i ∈ g.totes then
      { r with transfer := some { slot := g.slot, gen := (s.slot g.slot).generation + 1 } } else r)) ∧
    (∀ k, t.lane k = { s.lane k with
      reserved := (s.lane k).reserved + if g.taker = .lane k then g.totes.length else 0 }) ∧
    (∀ l, t.claimState l = if slotOwner g.slot = .inl l then .working else s.claimState l) ∧
    (∀ x, t.lift x = { s.lift x with
        status := if slotOwner g.slot = .inr x then .working else (s.lift x).status
        stuck := if slotOwner g.slot = .inr x then false else (s.lift x).stuck
        reserved := if g.taker = .carriage x then g.totes.filterMap fun i => (s.lookup i).map fun r =>
            { direction := r.direction, weight := r.weight.getD 0 }
          else (s.lift x).reserved } ∧
      (g.taker = .carriage x → (∀ i ∈ g.totes, (s.lookup i).isSome) → (t.lift x).reserved.length = g.totes.length)) ∧
    t = { s with records := t.records, lanes := t.lanes, slots := t.slots, claims := t.claims, lifts := t.lifts }

/-- A commit: each listed record moves from its giver's list to its taker and loses its reference, the reservation is
released, the lane named settles, streaks of the levels touched are 0, a LIFT_TAKE's entries are LOADED, and the slot, the party
and any drain come to their end; nothing else changes (R30, R34, R35, R58, R63, R85, R94, R107, R113, R124). -/
def Obligations.CommitMovesTheRecords : Prop :=
  ∀ (s : State) (i : Fin 34) (o : Open), (s.slot i).opened = some o → let t := s.commit i o
    let drained (l : Level) : Prop := s.touches i l = true ∧ (s.level l).mode = .draining ∧ t.levelTouched l = false
    (∀ x, x ∉ o.totes → t.lookup x = s.lookup x) ∧
    (∀ x r, x ∈ o.totes → s.lookup x = some r → t.lookup x = match o.taker with
      | .lane l => some { r with place := .lane l, transfer := none }
      | .carriage y => some { r with place := .carriage y, transfer := none }
      | .shuttle => none
      | .exit => some { r with transfer := none }) ∧
    (o.taker ≠ .shuttle → t.records.map (fun p => (p.1, p.2.ident)) = s.records.map fun p => (p.1, p.2.ident)) ∧
    (o.taker = .shuttle → t.records.map (fun p => (p.1, p.2.ident)) =
      (s.records.filter fun p => p.2.ident ∉ o.totes).map fun p => (p.1, p.2.ident)) ∧
    (∀ k, (t.lane k).contents = (if o.giver = .lane k then (s.lane k).contents.filter (fun x => x ∉ o.totes)
        else (s.lane k).contents) ++ (if o.taker = .lane k then o.totes else []) ∧
      (t.lane k).reserved = (s.lane k).reserved - (if o.taker = .lane k then o.granted else 0) ∧
      (t.lane k).condition = (if laneNamed o.giver o.taker = some k ∧ s.settings.params.settleTime ≠ 0
        then .settling s.settings.params.settleTime else (s.lane k).condition) ∧
      (t.lane k).report = (s.lane k).report ∧ (t.lane k).discrepancy = (s.lane k).discrepancy) ∧
    (∀ y, t.lift y = { s.lift y with
        status := if slotOwner i = .inr y then .ready else (s.lift y).status
        contents := (t.lift y).contents, stuck := (t.lift y).stuck
        reserved := if o.taker = .carriage y then [] else (s.lift y).reserved } ∧
      (t.lift y).contents = (if o.giver = .carriage y then (s.lift y).contents.filter (fun x => x ∉ o.totes)
        else (s.lift y).contents) ++ (if o.taker = .carriage y then o.totes else []) ∧
      (o.giver ≠ .carriage y ∨ o.taker ≠ .carriage y → (t.lift y).stuck =
        if (t.lift y).contents = (s.lift y).contents then (s.lift y).stuck else false)) ∧
    (∀ y, (o.giver ≠ .entry y → t.queue y = s.queue y) ∧
      (o.giver = .entry y → let c := (s.queue y).contents.filter fun x => x ∉ o.totes
        (c.head? = (s.queue y).contents.head? → t.queue y = { s.queue y with contents := c }) ∧
        (c.head? ≠ (s.queue y).contents.head? → t.queue y = { s.queue y with
          contents := c, age := if c = [] then none else some 0, aged := false }))) ∧
    (∀ l, t.claimState l = (if slotOwner i = .inl l then .idle else s.claimState l) ∧
      (t.level l).streak = (if s.touches i l then 0 else (s.level l).streak) ∧
      (drained l → (t.level l).mode = .off ∧ nth t.flags (levelGroup l) = nth s.flags (levelGroup l) ||| 0x08) ∧
      (¬ drained l → (t.level l).mode = (s.level l).mode) ∧
      (t.level l).fenced = (s.level l).fenced ∧ (t.level l).scan = (s.level l).scan) ∧
    (∀ g, (∀ l, drained l → g ≠ levelGroup l) → nth t.flags g = nth s.flags g) ∧
    (o.kind = .liftTake → ∀ x r ref, x ∈ o.totes → s.lookup x = some r → r.entry = some ref →
      t.entryState ref = (s.entryState ref).map fun _ => .loaded) ∧
    (o.kind = .liftTake → ∀ ref, (∀ x r e, x ∈ o.totes → s.lookup x = some r → r.entry = some e →
      e.list ≠ ref.list ∨ e.rank - 1 ≠ ref.rank - 1) → t.entryState ref = s.entryState ref) ∧
    (∀ l, (t.list l).map ReleaseList.stateless = (s.list l).map ReleaseList.stateless) ∧
    (o.kind ≠ .liftTake → t.lists = s.lists) ∧
    t.slot i = { s.slot i with lastEnd := .committed, opened := none } ∧ (∀ j, j ≠ i → t.slot j = s.slot j) ∧
    t = { s with
      records := t.records, lanes := t.lanes, lifts := t.lifts, entries := t.entries, lists := t.lists
      levels := t.levels, slots := t.slots, claims := t.claims, flags := t.flags, cause := true }

/-- A failure: each tote still listed leaves its list and is HELD with the reason, giver and taker, the reservation is
released, the lane named is BLOCKED, streaks of the levels touched rise, the switch-off test is made after the transfer has
ended, and the flags of R62 are raised. A level that it switches off from AUTO has its settle times cut short, and one from MANUAL its
pending claim refused. Nothing else changes (R10, R27, R29, R31, R34 to R36, R61 to R63, R80, R94, R107, R113). -/
def Obligations.FailureHoldsTheTotes : Prop :=
  ∀ (s : State) (i : Fin 34) (o : Open) (why : FailReason), (s.slot i).opened = some o → let t := s.fail i o why
    let off (l : Level) (m : Mode) : Prop := s.touches i l = true ∧ (s.level l).mode = m ∧
      s.settings.params.streakLimit ≤ min 7 ((s.level l).streak + 1)
    let drained (l : Level) : Prop := s.touches i l = true ∧ (s.level l).mode = .draining ∧ t.levelTouched l = false
    (∀ x, x ∉ o.totes → t.lookup x = s.lookup x) ∧
    (∀ x r, x ∈ o.totes → s.lookup x = some r → t.lookup x = some { r with
      place := .held { reason := .failed why, giver := o.giver, taker := o.taker }, transfer := none }) ∧
    t.records.map (fun p => (p.1, p.2.ident)) = s.records.map (fun p => (p.1, p.2.ident)) ∧
    (∀ k, (t.lane k).contents = (if o.giver = .lane k then (s.lane k).contents.filter (fun x => x ∉ o.totes)
        else (s.lane k).contents) ∧
      (t.lane k).reserved = (s.lane k).reserved - (if o.taker = .lane k then o.granted else 0) ∧
      (t.lane k).report = (s.lane k).report ∧ (t.lane k).discrepancy = (s.lane k).discrepancy ∧
      (laneNamed o.giver o.taker = some k → (t.lane k).condition =
        if (s.lane k).condition.isBlocked then (s.lane k).condition else .blocked .confirmFail) ∧
      (laneNamed o.giver o.taker ≠ some k →
        (∀ m, off k.level .auto → (s.lane k).condition = .settling m → (t.lane k).condition =
          if (s.lane k).report.any fun r => r.settled && !t.busy k && r.count.val != (t.lane k).contents.length
          then .blocked .unexpectedChange else .clear) ∧
        (¬ off k.level .auto ∨ (∀ m, (s.lane k).condition ≠ .settling m) →
          (t.lane k).condition = (s.lane k).condition))) ∧
    (∀ y, t.lift y = { s.lift y with
        status := if slotOwner i = .inr y then .blocked else (s.lift y).status
        contents := (t.lift y).contents
        stuck := if (t.lift y).contents = (s.lift y).contents then (s.lift y).stuck else false
        reserved := if o.taker = .carriage y then [] else (s.lift y).reserved } ∧
      (t.lift y).contents = if o.giver = .carriage y then (s.lift y).contents.filter (fun x => x ∉ o.totes)
        else (s.lift y).contents) ∧
    (∀ y, (o.giver ≠ .entry y → t.queue y = s.queue y) ∧
      (o.giver = .entry y → let c := (s.queue y).contents.filter fun x => x ∉ o.totes
        (c.head? = (s.queue y).contents.head? → t.queue y = { s.queue y with contents := c }) ∧
        (c.head? ≠ (s.queue y).contents.head? → t.queue y = { s.queue y with
          contents := c, age := if c = [] then none else some 0, aged := false }))) ∧
    (∀ l, (slotOwner i = .inl l ∨ (off l .manual ∧ (s.pendingOf l).isSome) → t.claimState l = .idle) ∧
      (slotOwner i ≠ .inl l → (off l .manual → s.pendingOf l = none) → t.claimState l = s.claimState l) ∧
      (t.level l).fenced = (s.level l).fenced ∧ (t.level l).scan = (s.level l).scan ∧
      (t.level l).streak = (if s.touches i l then min 7 ((s.level l).streak + 1) else (s.level l).streak) ∧
      (off l .auto ∨ off l .manual → (t.level l).mode = if t.levelTouched l then .draining else .off) ∧
      (drained l → (t.level l).mode = .off) ∧
      (¬ off l .auto → ¬ off l .manual → ¬ drained l → (t.level l).mode = (s.level l).mode)) ∧
    (∀ p, p ∈ t.approvals ↔ p ∈ s.approvals ∧ ¬ off p.level .manual) ∧ t.approvals.Sublist s.approvals ∧
    (∀ p, (∀ l n, off l .manual → (s.pendingOf l).isSome → s.stopOf l = some n → p ≠ .stop n) → t.link p = s.link p) ∧
    (∀ l n, off l .manual → (s.pendingOf l).isSome → s.stopOf l = some n → (∀ k, k ≠ l → s.stopOf k ≠ some n) →
      t.link (.stop n) = { s.link (.stop n) with
        order := (s.link (.stop n)).order ++ [.refuse (if t.levelTouched l then .levelDraining else .levelOff)] }) ∧
    (∀ f, t.raised f = true ↔ s.raised f = true ∨ (f = .aisle .holdRaised ∧ o.totes ≠ []) ∨
      (∃ k, f = .level k.level .laneBlocked ∧ (t.lane k).condition.isBlocked = true ∧ (s.lane k).condition.isBlocked = false) ∨
      (∃ y, f = .lift y .transferFailed ∧ slotOwner i = .inr y) ∨
      (∃ l, f = .level l .transferFailed ∧ (slotOwner i = .inl l ∨
        (laneNamed o.giver o.taker).map (·.level) = some l ∧ ∀ k, slotOwner i ≠ .inl k)) ∨
      (∃ l, f = .level l .autoOff ∧ (off l .auto ∨ off l .manual)) ∨ ∃ l, f = .level l .modeChange ∧ drained l) ∧
    t.slot i = { s.slot i with lastEnd := .failed why, opened := none } ∧ (∀ j, j ≠ i → t.slot j = s.slot j) ∧
    t = { s with
      records := t.records, lanes := t.lanes, lifts := t.lifts, entries := t.entries, levels := t.levels
      slots := t.slots, claims := t.claims, approvals := t.approvals, links := t.links, flags := t.flags, cause := true }

/-- A report that gives a count is judged by R53's table against the holder's start count and target; the unsettled report
of a lane counts only toward the mark of a LIFT_TAKE's giver lane, and a carriage in motion is judged no further (R52, R53,
R54). -/
def Obligations.ReportsAreJudgedByTheTable : Prop :=
  (∀ (s : State) (i : Fin 34) (o : Open) (w : Watch) (r : LaneReport), (s.slot i).opened = some o →
    o.laneWatch = some w →
    (r.settled = true → (r.count.val < min w.start w.target ∨ max w.start w.target < r.count.val) →
      s.judgeLane i r = s.fail i o .confirmContrary) ∧
    (r.settled = true → min w.start w.target ≤ r.count.val → r.count.val ≤ max w.start w.target →
      r.count.val ≠ w.target →
      s.judgeLane i r = if o.confirming && w.mark then s.fail i o .confirmContrary else s) ∧
    (r.count.val = w.target → (r.settled = true ∨ o.kind = .liftTake) → o.confirming = true → w.mark = false →
      let p : Open := { o with laneWatch := some { w with mark := true } }
      let t : State := { s with slots := s.slots.set i.val { s.slot i with opened := some p } }
      s.judgeLane i r = if p.complete then t.commit i p else t) ∧
    (r.count.val = w.target → o.confirming = false ∨ w.mark = true → s.judgeLane i r = s) ∧
    (r.settled = false → o.kind ≠ .liftTake ∨ r.count.val ≠ w.target → s.judgeLane i r = s)) ∧
  (∀ (s : State) (i : Fin 34) (o : Open) (w : Watch) (r : CarriageReport), (s.slot i).opened = some o →
    o.carriageWatch = some w →
    (reportCount r = none → s.judgeCarriage i r = s) ∧
    (∀ n, reportCount r = some n →
      ((n < min w.start w.target ∨ max w.start w.target < n) → s.judgeCarriage i r = s.fail i o .confirmContrary) ∧
      (min w.start w.target ≤ n → n ≤ max w.start w.target → n ≠ w.target →
        s.judgeCarriage i r = if o.confirming && w.mark then s.fail i o .confirmContrary else s) ∧
      (n = w.target → o.confirming = true → w.mark = false →
        let p : Open := { o with carriageWatch := some { w with mark := true } }
        let t : State := { s with slots := s.slots.set i.val { s.slot i with opened := some p } }
        s.judgeCarriage i r = if p.complete then t.commit i p else t) ∧
      (n = w.target → o.confirming = false ∨ w.mark = true → s.judgeCarriage i r = s))) ∧
  (∀ r : CarriageReport, reportCount r = match r.front, r.back with
    | .empty, .empty => some 0
    | .seated, .empty => some 1
    | .seated, .seated => some 2
    | _, _ => none) ∧
  (∀ o : Open, o.complete = true ↔ o.confirming = true ∧ (∀ w, o.laneWatch = some w → w.mark = true) ∧
    (∀ w, o.carriageWatch = some w → w.mark = true) ∧ (o.kind = .exitUnload → o.totes = []))

/-- DONE and ABORTED are answered by R64's table, ACK, LATE or STALE, and act only with an ACK: DONE brings a GRANTED transfer
to CONFIRMING with its window, paused while STOPPED, and judges the latest reports; ABORTED ends it by abort, or fails it in
CONFIRMING or after an exit read. The latest reports are those held of the lane and then of the carriage that the transfer names (R50,
R51, R54, R64). -/
def Obligations.DoneAndAbortedAreAnswered : Prop :=
  (∀ (s : State) (x : Sender) (slot gen : Byte), s.inReset = false → let t := s.takeValid x.port
    ((∀ i, t.senderSlot x = some i → slot.toNat ≠ i.val ∨ gen ≠ (t.slot i).generation) →
      exec (.done x slot gen) s = .next (t.send x.port (.stale slot gen)).closeEvent ∧
      exec (.aborted x slot gen) s = .next (t.send x.port (.stale slot gen)).closeEvent) ∧
    (∀ i, t.senderSlot x = some i → slot.toNat = i.val → gen = (t.slot i).generation →
      ((t.slot i).opened.isSome →
        exec (.done x slot gen) s = .next ((t.send x.port (.ack slot gen)).takeDone i).closeEvent ∧
        exec (.aborted x slot gen) s = .next ((t.send x.port (.ack slot gen)).takeAborted i).closeEvent) ∧
      (∀ why, (t.slot i).opened = none → (t.slot i).lastEnd = .failed why →
        exec (.done x slot gen) s = .next (t.send x.port (.late slot gen)).closeEvent ∧
        exec (.aborted x slot gen) s = .next (t.send x.port (.late slot gen)).closeEvent) ∧
      ((t.slot i).opened = none → (∀ why, (t.slot i).lastEnd ≠ .failed why) →
        exec (.done x slot gen) s = .next (t.send x.port (.stale slot gen)).closeEvent ∧
        exec (.aborted x slot gen) s = .next (t.send x.port (.stale slot gen)).closeEvent))) ∧
  (∀ (s : State) (i : Fin 34) (o : Open),
    let u : State := match (laneNamed o.giver o.taker).bind fun k => (s.lane k).report with
      | some r => s.judgeLane i r
      | none => s
    s.judgeLatest i o = match (carriageNamed o.giver o.taker).bind fun y => (s.lift y).report with
      | some r => u.judgeCarriage i r
      | none => u) ∧
  (∀ (s : State) (i : Fin 34) (o : Open), (s.slot i).opened = some o →
    (o.confirming = true → s.takeDone i = s) ∧
    (o.confirming = false →
      let p : Open := { o with
        confirming := true, paused := s.stopped
        timer := if o.kind = .exitUnload then s.settings.params.exitReadWindow else s.settings.params.confirmWindow }
      let t : State := { s with slots := s.slots.set i.val { s.slot i with opened := some p } }
      (p.complete = true → s.takeDone i = t.commit i p) ∧
      (p.complete = false → s.takeDone i = t.judgeLatest i p) ∧
      (p.complete = false → (∀ k, laneNamed o.giver o.taker = some k → (s.lane k).report = none) →
        (∀ y, carriageNamed o.giver o.taker = some y → (s.lift y).report = none) → s.takeDone i = t)) ∧
    (o.confirming = true ∨ (o.kind = .exitUnload ∧ 0 < o.reads) →
      s.takeAborted i = s.fail i o .confirmContrary) ∧
    (o.confirming = false → (o.kind ≠ .exitUnload ∨ o.reads = 0) →
      s.takeAborted i = s.abort i o ∧ let t := s.abort i o
      (∀ x, t.lookup x = (s.lookup x).map fun r => if x ∈ o.totes then { r with transfer := none } else r) ∧
      (∀ k, t.lane k = { s.lane k with
        reserved := (s.lane k).reserved - if o.taker = .lane k then o.granted else 0 }) ∧
      (∀ y, (t.lift y).contents = (s.lift y).contents ∧ (o.taker = .carriage y → (t.lift y).reserved = []) ∧
        (slotOwner i = .inr y → (t.lift y).status = .ready)) ∧
      (∀ l, t.claimState l = (if slotOwner i = .inl l then .idle else s.claimState l) ∧
        (t.level l).streak = (s.level l).streak) ∧
      t.slot i = { s.slot i with lastEnd := .aborted, opened := none } ∧
      t = { s with
        records := t.records, lanes := t.lanes, lifts := t.lifts, levels := t.levels, slots := t.slots
        claims := t.claims, flags := t.flags, cause := true }))

/-- The expiries of a transfer's timer: MOTION_TIMEOUT fails a GRANTED transfer; in CONFIRMING, while RUNNING,
CONFIRM_TIMEOUT fails one of any kind but EXIT_UNLOAD, and the end of an unload's window fails it without the carriage's mark
and otherwise takes every tote still listed as a missing read and commits. A paused timer, or none, has no expiry (R49, R55,
R57, R65, R130; log 4). -/
def Obligations.TransferTimersExpire : Prop :=
  ∀ (s : State) (i : Fin 34), s.inReset = false →
    ((s.slot i).opened = none → exec (.motionTimeout i) s = .next s.closeEvent ∧
      exec (.confirmTimeout i) s = .next s.closeEvent ∧ exec (.exitReadWindowExpiry i) s = .next s.closeEvent) ∧
    (∀ o, (s.slot i).opened = some o →
      (o.confirming = false → o.paused = false →
        exec (.motionTimeout i) s = .next (s.fail i o .motionTimeout).closeEvent) ∧
      (o.confirming = true ∨ o.paused = true → exec (.motionTimeout i) s = .next s.closeEvent) ∧
      (o.confirming = true → o.paused = false → s.stopped = false → o.kind ≠ .exitUnload →
        exec (.confirmTimeout i) s = .next (s.fail i o .confirmTimeout).closeEvent) ∧
      (o.confirming = false ∨ o.paused = true ∨ s.stopped = true ∨ o.kind = .exitUnload →
        exec (.confirmTimeout i) s = .next s.closeEvent) ∧
      (∀ x w, o.confirming = true → o.paused = false → s.stopped = false → o.kind = .exitUnload →
        o.giver = .carriage x → o.carriageWatch = some w →
        (w.mark = false → exec (.exitReadWindowExpiry i) s = .next (s.fail i o .confirmTimeout).closeEvent) ∧
        (w.mark = true → exec (.exitReadWindowExpiry i) s = .next
          ((o.totes.foldl (fun t y => t.exitFault x y 0) s).commit i
            { o with totes := [], reads := o.reads + o.totes.length }).closeEvent)) ∧
      (o.confirming = false ∨ o.paused = true ∨ s.stopped = true ∨ o.kind ≠ .exitUnload →
        exec (.exitReadWindowExpiry i) s = .next s.closeEvent))

/-- READ_TRANSFER and READ_APPROVALS (R67, R82). -/
def Obligations.ReadTransferAndReadApprovals : Prop :=
  ∀ (s : State) (b : Byte), s.ready →
    (33 < b.toNat → exec (.readTransfer b) s = .next (s.told .outOfRange .empty)) ∧
    (∀ i : Fin 34, b.toNat = i.val → exec (.readTransfer b) s = .next (s.told .ok (.slot (s.slot i)))) ∧
    (31 < b.toNat → exec (.readApprovals b) s = .next (s.told .outOfRange .empty)) ∧
    (b.toNat ≤ 31 → ∃ part, exec (.readApprovals b) s = .next (s.told .ok (.approvals s.approvals.length part)) ∧
      part.length = min 16 (s.approvals.length - b.toNat) ∧
      ∀ n < part.length, part[n]? = s.approvals[b.toNat + n]?)


/-! ### Shuttle claims -/

/-- The checks of a claim in their order: the level's standing, the record tests of its kind and the lane tests of R72, with
the lane of a put chosen by R73 (R70 to R74). -/
def Obligations.ClaimChecksInOrder : Prop :=
  (∀ (s : State) (l : Level) (c : Claim),
    ((s.level l).mode = .off → s.judgeClaim l c = .inl .levelOff) ∧
    ((s.level l).mode = .draining → s.judgeClaim l c = .inl .levelDraining) ∧
    ((s.level l).mode = .manual ∨ (s.level l).mode = .auto → (s.level l).fenced = true →
      s.judgeClaim l c = .inl .levelFenced)) ∧
  (∀ (s : State) (k : LaneId),
    ((s.lane k).condition.isBlocked → s.takerTests k = some .laneBlocked ∧ s.laneTests k = some .laneBlocked) ∧
    ((s.lane k).condition = .audit → s.takerTests k = some .audit ∧ s.laneTests k = some .audit) ∧
    ((∃ m, (s.lane k).condition = .settling m) → s.takerTests k = some .settling ∧ s.laneTests k = some .settling) ∧
    ((s.lane k).condition = .clear →
      (s.busy k = true → s.takerTests k = some .laneBusy ∧ s.laneTests k = some .laneBusy) ∧
      (s.busy k = false → s.laneTests k = none ∧
        s.takerTests k = if (s.lane k).contents.length + (s.lane k).reserved < s.depth k then none else some .laneFull))) ∧
  (∀ (s : State) (l : Level) (i : Ident), (s.level l).mode = .manual ∨ (s.level l).mode = .auto →
    (s.level l).fenced = false →
    let a : LaneId := { level := l, name := .aOut }
    let b : LaneId := { level := l, name := .bOut }
    let put (k : LaneId) : Code ⊕ Grant :=
      .inr { slot := shuttleSlot l, kind := .shuttlePut, totes := [i], giver := .rack l, taker := .lane k }
    (s.lookup i = none → s.judgeClaim l (.put i) = .inl .noRecord) ∧
    (∀ r, s.lookup i = some r →
      (r.direction = .inbound ∨ r.place ≠ .expected → s.judgeClaim l (.put i) = .inl .wrongState) ∧
      (r.direction = .outbound → r.place = .expected →
        (r.level ≠ l → s.judgeClaim l (.put i) = .inl .wrongLevel) ∧
        (r.level = l → r.transfer.isSome → s.judgeClaim l (.put i) = .inl .busy) ∧
        (r.level = l → r.transfer = none →
          (r.pref = some .a → s.judgeClaim l (.put i) = match s.takerTests a with | some c => .inl c | none => put a) ∧
          (r.pref = some .b → s.judgeClaim l (.put i) = match s.takerTests b with | some c => .inl c | none => put b) ∧
          (r.pref = some .either → s.judgeClaim l (.put i) = match s.takerTests a, s.takerTests b with
            | some c, some _ => .inl c
            | some _, none => put b
            | none, some _ => put a
            | none, none => if s.freePlaces a < s.freePlaces b then put b else put a))))) ∧
  (∀ (s : State) (l : Level) (x : Side), (s.level l).mode = .manual ∨ (s.level l).mode = .auto →
    (s.level l).fenced = false →
    let k : LaneId := { level := l, name := x.inLane }
    ((s.lane k).contents = [] → s.judgeClaim l (.take x) = .inl .laneEmpty) ∧
    (∀ head rest r, (s.lane k).contents = head :: rest → s.lookup head = some r →
      (r.direction = .outbound → s.judgeClaim l (.take x) = .inl .wrongState) ∧
      (r.direction = .inbound → r.level ≠ l → s.judgeClaim l (.take x) = .inl .wrongLevel) ∧
      (r.direction = .inbound → r.level = l → s.judgeClaim l (.take x) = match s.laneTests k with
        | some c => .inl c
        | none => .inr { slot := shuttleSlot l, kind := .shuttleTake, totes := [head], giver := .lane k, taker := .shuttle })))

/-- Every claim is answered at once: UNMAPPED from a spare stop, BUSY while the level's claim state is not IDLE, STOPPED, the
first check that fails, GRANT with the transfer it opens on an AUTO level, or WAIT with a pending claim at the end of the
approval list on a MANUAL level (R69, R70, R75, R76). -/
def Obligations.ClaimsAreAnsweredAtOnce : Prop :=
  ∀ (s : State) (n : Stop) (c : Claim) (cmd : Instr), s.inReset = false →
    ((∃ i, c = .put i ∧ cmd = .claimPut n i) ∨ (∃ x, c = .take x ∧ cmd = .claimTake n x)) →
    let t := s.takeValid (.stop n)
    (t.levelAt n = none → exec cmd s = .next (t.send (.stop n) (.refuse .unmapped)).closeEvent) ∧
    (∀ l, t.levelAt n = some l →
      (t.claimState l ≠ .idle → exec cmd s = .next (t.send (.stop n) (.refuse .busy)).closeEvent) ∧
      (t.claimState l = .idle → t.stopped = true →
        exec cmd s = .next (t.send (.stop n) (.refuse .stopped)).closeEvent) ∧
      (t.claimState l = .idle → t.stopped = false →
        (∀ code, t.judgeClaim l c = .inl code → exec cmd s = .next (t.send (.stop n) (.refuse code)).closeEvent) ∧
        (∀ g, t.judgeClaim l c = .inr g → (t.level l).mode ≠ .manual → ∃ k tote gen,
          laneNamed g.giver g.taker = some k ∧ g.totes = [tote] ∧ gen = (t.slot g.slot).generation + 1 ∧
          exec cmd s = .next (((({ t with approvals := t.approvals.filter fun p => p.level ≠ l } : State).openTransfer
            g).send (.stop n) (.grant (BitVec.ofNat 8 g.slot.val) gen g.kind k.name tote)).closeEvent)) ∧
        (∀ g, t.judgeClaim l c = .inr g → (t.level l).mode = .manual →
          exec cmd s = .next (((({ t with
            claims := t.claims.set l.val .awaitingApproval
            approvals := t.approvals ++
              [{ level := l, claim := c, timer := 10 * t.settings.params.approvalLimit }] } : State).send (.stop n)
                .wait).raise (.level l .approvalWaiting)).closeEvent))))

/-- A pending claim is ended by APPROVE_CLAIM, which judges it again, by DENY_CLAIM, or by its time: it leaves the list, the
claim state is IDLE unless it was granted, and the level node is sent one GRANT or REFUSE; the two requests refuse in their
order (R76 to R79; log 10 for lengths of a kind out of range). -/
def Obligations.PendingClaimsEnd : Prop :=
  (∀ (s : State) (b kind : Byte) (arg : ClaimArg), s.ready →
    (b.toNat < 1 ∨ 32 < b.toNat ∨ 1 < kind.toNat ∨ arg = .identity 0 ∨ (∃ x, arg = .side x ∧ 1 < x.toNat) →
      exec (.approveClaim b kind arg) s = .next (s.told .outOfRange .empty) ∧
      exec (.denyClaim b kind arg) s = .next (s.told .outOfRange .empty)) ∧
    (∀ (l : Level) (c : Claim), b.toNat = l.val + 1 →
      ((∃ i, kind = 0 ∧ arg = .identity i ∧ i ≠ 0 ∧ c = .put i) ∨
        (∃ x : Side, kind = 1 ∧ arg = .side (BitVec.ofNat 8 x.ix.val) ∧ c = .take x)) →
      (s.stopped = true → exec (.approveClaim b kind arg) s = .next (s.told .stopped .empty)) ∧
      ((∀ p, s.pendingOf l = some p → p.claim ≠ c) →
        exec (.denyClaim b kind arg) s = .next (s.told .wrongState .empty) ∧
        (s.stopped = false → exec (.approveClaim b kind arg) s = .next (s.told .wrongState .empty))) ∧
      (∀ p, s.pendingOf l = some p → p.claim = c →
        exec (.denyClaim b kind arg) s = .next (s.doneWith (s.endClaim l .denied) .empty) ∧
        (s.stopped = false →
          (∀ code, s.judgeClaim l c = .inl code →
            exec (.approveClaim b kind arg) s = .next (s.answeredBy (s.endClaim l code) code .empty)) ∧
          (∀ g, s.judgeClaim l c = .inr g → ∃ k tote gen,
            laneNamed g.giver g.taker = some k ∧ g.totes = [tote] ∧ gen = (s.slot g.slot).generation + 1 ∧
            exec (.approveClaim b kind arg) s = .next (s.doneWith
              ((({ s with approvals := s.approvals.filter fun p => p.level ≠ l } : State).openTransfer g).sendLevel l
                (.grant (BitVec.ofNat 8 g.slot.val) gen g.kind k.name tote))
              (.number { slot := g.slot, gen := gen }))))))) ∧
  (∀ (s : State) (l : Level), s.inReset = false →
    exec (.approvalTimeout l) s = .next (s.endClaim l .timeout).closeEvent) ∧
  (∀ (s : State) (l : Level) (why : Code),
    (s.pendingOf l = none → s.endClaim l why = s) ∧
    (∀ p n, s.pendingOf l = some p → s.stopOf l = some n → s.endClaim l why = ({ s with
      claims := s.claims.set l.val .idle
      approvals := s.approvals.filter fun p => p.level ≠ l } : State).send (.stop n) (.refuse why)))


/-! ### Lifts -/

/-- DIRECT_LIFT and CANCEL_DIRECTED: their checks in order and the slot they write; placing a job for a PARKED lift is a cause
of re-evaluation (R91). -/
def Obligations.DirectedJobsArePlacedAndCancelled : Prop :=
  (∀ (s : State) (xb kind b : Byte) (n : Option Byte), s.ready →
    (1 < xb.toNat ∨ (kind ≠ 3 ∧ kind ≠ 4) ∨ b.toNat < 1 ∨ 32 < b.toNat ∨
        (∃ c, kind = 4 ∧ n = some c ∧ c ≠ 1 ∧ c ≠ 2) →
      exec (.directLift xb kind b n) s = .next (s.told .outOfRange .empty)) ∧
    (∀ (x : Side) (l : Level) (d : Directed), xb.toNat = x.ix.val → b.toNat = l.val + 1 →
      (kind = 3 ∧ n = none ∧ d = .drop l ∨ ∃ c : Byte, kind = 4 ∧ n = some c ∧ (c = 1 ∨ c = 2) ∧ d = .take l c.toNat) →
      ((s.lift x).directed.isSome → exec (.directLift xb kind b n) s = .next (s.told .busy .empty)) ∧
      ((s.lift x).directed = none → exec (.directLift xb kind b n) s = .next (s.doneWith { s with
        lifts := s.lifts.set x.ix.val { s.lift x with directed := some d }
        cause := s.cause || (s.lift x).status == .parked } .empty)))) ∧
  (∀ (s : State) (xb : Byte), s.ready →
    (1 < xb.toNat → exec (.cancelDirected xb) s = .next (s.told .outOfRange .empty)) ∧
    (∀ x : Side, xb.toNat = x.ix.val →
      ((s.lift x).directed = none → exec (.cancelDirected xb) s = .next (s.told .wrongState .empty)) ∧
      ((s.lift x).directed.isSome → exec (.cancelDirected xb) s = .next (s.doneWith { s with
        lifts := s.lifts.set x.ix.val { s.lift x with directed := none } } .empty))))

/-- SET_LIFT_ENABLE and CLEAR_LIFT_BLOCK: a lift becomes READY only when its latest carriage report gives the count of its
contents; off makes a READY, PARKED or BLOCKED lift DISABLED with its stuck mark clear and a parked request refused
WRONG_STATE, and a WORKING lift refuses it (R102 to R104; log 10 for the coding of on and off). -/
def Obligations.LiftsAreEnabledAndUnblocked : Prop :=
  (∀ (s : State) (xb on : Byte), s.ready →
    (1 < xb.toNat ∨ 1 < on.toNat → exec (.setLiftEnable xb on) s = .next (s.told .outOfRange .empty)) ∧
    (∀ x : Side, xb.toNat = x.ix.val →
      (on = 0 → (s.lift x).status ≠ .disabled → exec (.setLiftEnable xb on) s = .next (s.told .ok .empty)) ∧
      (on = 0 → (s.lift x).status = .disabled →
        ((s.lift x).report.bind reportCount ≠ some (s.lift x).contents.length →
          exec (.setLiftEnable xb on) s = .next (s.told .mismatch .empty)) ∧
        ((s.lift x).report.bind reportCount = some (s.lift x).contents.length →
          exec (.setLiftEnable xb on) s = .next (s.doneWith { s with
            lifts := s.lifts.set x.ix.val { s.lift x with status := .ready } } .empty))) ∧
      (on = 1 → (s.lift x).status = .working → exec (.setLiftEnable xb on) s = .next (s.told .busy .empty)) ∧
      (on = 1 → (s.lift x).status = .disabled → exec (.setLiftEnable xb on) s = .next (s.told .ok .empty)) ∧
      (on = 1 → (s.lift x).status = .ready ∨ (s.lift x).status = .blocked →
        exec (.setLiftEnable xb on) s = .next (s.doneWith { s with
          lifts := s.lifts.set x.ix.val { s.lift x with status := .disabled, stuck := false } } .empty)) ∧
      (on = 1 → (s.lift x).status = .parked →
        exec (.setLiftEnable xb on) s = .next (s.doneWith (({ s with
          lifts := s.lifts.set x.ix.val { s.lift x with status := .disabled, stuck := false } } : State).send (.lift x)
            (.refuse .wrongState)) .empty)))) ∧
  (∀ (s : State) (xb : Byte), s.ready →
    (1 < xb.toNat → exec (.clearLiftBlock xb) s = .next (s.told .outOfRange .empty)) ∧
    (∀ x : Side, xb.toNat = x.ix.val →
      ((s.lift x).status ≠ .blocked → exec (.clearLiftBlock xb) s = .next (s.told .wrongState .empty)) ∧
      ((s.lift x).status = .blocked →
        ((s.lift x).report.bind reportCount ≠ some (s.lift x).contents.length →
          exec (.clearLiftBlock xb) s = .next (s.told .mismatch .empty)) ∧
        ((s.lift x).report.bind reportCount = some (s.lift x).contents.length →
          exec (.clearLiftBlock xb) s = .next (s.doneWith { s with
            lifts := s.lifts.set x.ix.val { s.lift x with status := .ready } } .empty)))))

/-- A carriage report, from CARRIAGE_STATE or a lift's BEACON, is stored whatever the lift's state; a WORKING lift's transfer
judges it, and otherwise it is compared with the contents as they stand when it arrives, and the verdict is kept with it. A count that
differs blocks a READY or PARKED lift and is flagged, for a DISABLED lift only when the report before it was absent, in motion or agreeing
(R87, R88, R102; log 7 for a report before it that a transfer judged). -/
def Obligations.CarriageReportsAreStoredAndCompared : Prop :=
  ∀ (s : State) (x : Side) (r : CarriageReport), s.inReset = false → let t := s.takeValid (.lift x)
    let stored (disputed : Bool) (to_ : LiftStatus) : State := { t with
      lifts := t.lifts.set x.ix.val { t.lift x with report := some r, disputed := disputed, status := to_ } }
    exec (.carriageState x r) s = .next (t.takeCarriageReport x r).closeEvent ∧
    exec (.liftBeacon x r) s = .next (t.takeCarriageReport x r).closeEvent ∧
    ((t.lift x).status = .working →
      t.takeCarriageReport x r = (stored false .working).judgeCarriage (liftSlot x) r) ∧
    ((t.lift x).status ≠ .working →
      (reportCount r = none ∨ reportCount r = some (t.lift x).contents.length →
        t.takeCarriageReport x r = stored false (t.lift x).status) ∧
      (∀ n, reportCount r = some n → n ≠ (t.lift x).contents.length →
        ((t.lift x).status = .blocked → t.takeCarriageReport x r = stored true .blocked) ∧
        ((t.lift x).status = .ready →
          t.takeCarriageReport x r = (stored true .blocked).raise (.lift x .carriageMismatch)) ∧
        ((t.lift x).status = .parked → t.takeCarriageReport x r =
          ((stored true .blocked).send (.lift x) (.refuse .blocked)).raise (.lift x .carriageMismatch)) ∧
        ((t.lift x).status = .disabled →
          ((t.lift x).disputed = false →
            t.takeCarriageReport x r = (stored true .disabled).raise (.lift x .carriageMismatch)) ∧
          ((t.lift x).disputed = true → t.takeCarriageReport x r = stored true .disabled))))

/-- A JOB_REQUEST is answered by the lift's state: REFUSE with WRONG_STATE, BLOCKED or BUSY; and for a READY or PARKED lift IDLE
and parking while STOPPED or when the selection finds no job, and the granted job otherwise (R89, R90, R100). A granted job opens its
transfer, makes the PENDING entries of a LIFT_TAKE CLAIMED, and sends JOB with the new number, the kind, the identities and, for a
drop or a take, the lane and its stop (R48, R99, R124, R159). -/
def Obligations.JobRequestsAndGrantedJobs : Prop :=
  (∀ (s : State) (x : Side), s.inReset = false → let t := s.takeValid (.lift x)
     ((t.lift x).status = .disabled → exec (.jobRequest x) s = .next (t.send (.lift x) (.refuse .wrongState)).closeEvent) ∧
     ((t.lift x).status = .blocked → exec (.jobRequest x) s = .next (t.send (.lift x) (.refuse .blocked)).closeEvent) ∧
     ((t.lift x).status = .working → exec (.jobRequest x) s = .next (t.send (.lift x) (.refuse .busy)).closeEvent) ∧
     ((t.lift x).status = .ready ∨ (t.lift x).status = .parked →
       (t.stopped = true → exec (.jobRequest x) s = .next (({ t with
         lifts := t.lifts.set x.ix.val { t.lift x with status := .parked } } : State).send (.lift x) .idle).closeEvent) ∧
       (t.stopped = false → (t.select x).2 = true → exec (.jobRequest x) s = .next (t.select x).1.closeEvent) ∧
       (t.stopped = false → (t.select x).2 = false → let u := (t.select x).1
         exec (.jobRequest x) s = .next (({ u with
           lifts := u.lifts.set x.ix.val { u.lift x with status := .parked } } : State).send (.lift x) .idle).closeEvent))) ∧
  (∀ (s : State) (x : Side) (g : Grant), let t := s.grantJob x g
     (t.slot g.slot).generation = (s.slot g.slot).generation + 1 ∧ (t.slot g.slot).opened = ((s.openTransfer g).slot g.slot).opened ∧
     (∀ k, laneNamed g.giver g.taker = some k → t.link (.lift x) = { s.link (.lift x) with order := (s.link (.lift x)).order ++
       [.job (BitVec.ofNat 8 g.slot.val) ((s.slot g.slot).generation + 1) g.kind g.totes.length (s.stopOf k.level)
         (some k.name) g.totes] }) ∧
     (laneNamed g.giver g.taker = none → t.link (.lift x) = { s.link (.lift x) with order := (s.link (.lift x)).order ++
       [.job (BitVec.ofNat 8 g.slot.val) ((s.slot g.slot).generation + 1) g.kind g.totes.length none none g.totes] }) ∧
     (∀ p, p ≠ .lift x → t.link p = s.link p) ∧
     (g.kind ≠ .liftTake → t.lists = s.lists) ∧
     (∀ l, (t.list l).map ReleaseList.stateless = (s.list l).map ReleaseList.stateless) ∧
     (g.kind = .liftTake → ∀ ref, (∀ i r e, i ∈ g.totes → s.lookup i = some r → r.entry = some e →
       e.list ≠ ref.list ∨ e.rank - 1 ≠ ref.rank - 1) → t.entryState ref = s.entryState ref) ∧
     (g.kind = .liftTake → ∀ i r ref, i ∈ g.totes → s.lookup i = some r → r.entry = some ref →
       s.entryState ref = some .pending → t.entryState ref = some .claimed) ∧
     (g.kind = .liftTake → ∀ ref, s.entryState ref ≠ some .pending → t.entryState ref = s.entryState ref) ∧
     t = { s.openTransfer g with links := t.links, lists := t.lists })

/-- The selection: a directed job is judged first, by the checks of its kind in their order, and granted or discarded with its reason;
then a carriage with inbound totes seeks a drop and raises LIFT_STUCK once without one, one with outbound totes an unload, and an empty
one an aged head's load, a take, or any load. What each job lists, and what an aged head and a weight sum are (R72, R86, R90, R92 to R96,
R114). -/
def Obligations.SelectionWalksInOrder : Prop :=
  ((∀ (s : State) (x : Side) (d : Directed), (s.lift x).directed = some d →
     (∀ g, s.judgeDirected x d = .inr g → s.select x =
       (({ s with lifts := s.lifts.set x.ix.val { s.lift x with directed := none } } : State).grantJob x g, true)) ∧
     (∀ why, s.judgeDirected x d = .inl why → s.select x = (({ s with
       lifts := s.lifts.set x.ix.val { s.lift x with directed := none, refusal := some why } } : State).raise
         (.lift x .directedRefused)).selectOn x)) ∧
   (∀ (s : State) (x : Side), (s.lift x).directed = none → s.select x = s.selectOn x) ∧
   (∀ (s : State) (x : Side) (l : Level),
     let k : LaneId := { level := l, name := x.inLane }
     let no (c : Code) : Prop := s.judgeDirected x (.drop l) = .inl c
     ((s.lift x).contents = [] → no .wrongState) ∧
     (∀ front rest r, (s.lift x).contents = front :: rest → s.lookup front = some r →
       (r.direction = .outbound → no .mixedDirection) ∧
       (r.direction = .inbound →
         (r.level ≠ l → no .wrongLevel) ∧
         (r.level = l →
           ((s.level l).mode = .off → no .levelOff) ∧ ((s.level l).mode = .draining → no .levelDraining) ∧
           ((s.level l).mode = .manual ∨ (s.level l).mode = .auto →
             ((s.level l).fenced = true → no .levelFenced) ∧
             ((s.level l).fenced = false →
               (∀ c, s.takerTests k = some c → no c) ∧
               (s.takerTests k = none → s.judgeDirected x (.drop l) = .inr
                 { slot := liftSlot x, kind := .liftDrop, totes := s.dropTotes x k, giver := .carriage x
                   taker := .lane k }))))))) ∧
   (∀ (s : State) (x : Side) (l : Level) (n : Nat), n = 1 ∨ n = 2 →
     let k : LaneId := { level := l, name := x.outLane }
     let totes := (s.lane k).contents.take n
     let no (c : Code) : Prop := s.judgeDirected x (.take l n) = .inl c
     let fit : Prop :=
       (∀ head, totes = [head] → ∃ h, s.lookup head = some h ∧ s.eligible h = true) ∧
       (∀ head second, totes = [head, second] → ∃ h r, s.lookup head = some h ∧ s.lookup second = some r ∧
         s.eligible h = true ∧ s.eligibleBehind h r (liftSlot x) = true)
     ((s.lift x).contents ≠ [] → no .carriageFull) ∧
     ((s.lift x).contents = [] →
       ((s.level l).mode = .off → no .levelOff) ∧ ((s.level l).mode = .draining → no .levelDraining) ∧
       ((s.level l).mode = .manual ∨ (s.level l).mode = .auto →
         ((s.level l).fenced = true → no .levelFenced) ∧
         ((s.level l).fenced = false →
           (∀ c, s.laneTests k = some c → no c) ∧
           (s.laneTests k = none →
             ((s.lane k).contents.length < n → no .laneEmpty) ∧
             (n ≤ (s.lane k).contents.length →
               ((∃ i ∈ totes, ∃ r, s.lookup i = some r ∧ r.direction = .inbound) → no .wrongState) ∧
               ((∀ i ∈ totes, ∀ r, s.lookup i = some r → r.direction = .outbound) →
                 (¬ fit → no .notEligible) ∧
                 (fit → s.settings.params.carriageLimit < s.weightSum totes → no .weightLimit) ∧
                 (fit → s.weightSum totes ≤ s.settings.params.carriageLimit → s.judgeDirected x (.take l n) = .inr
                   { slot := liftSlot x, kind := .liftTake, totes := totes, giver := .lane k
                     taker := .carriage x })))))))) ∧
   (∀ (s : State) (x : Side) (k : LaneId),
     (∀ front, (s.lift x).contents = [front] → s.dropTotes x k = [front]) ∧
     (∀ front back rest r, (s.lift x).contents = front :: back :: rest → s.lookup back = some r →
       s.dropTotes x k = if r.level = k.level ∧ 2 ≤ s.depth k - ((s.lane k).contents.length + (s.lane k).reserved)
         then [front, back] else [front])) ∧
   (∀ (s : State) (x : Side), s.headAged x = true ↔
     ∃ a, (s.queue x).age = some a ∧ 10 * s.settings.params.entryAgeLimit ≤ a) ∧
   (∀ s : State, s.weightSum [] = 0 ∧ ∀ i rest r w, s.lookup i = some r → r.weight = some w →
     s.weightSum (i :: rest) = w.val + s.weightSum rest) ∧
   (∀ (s : State) (x : Side), ((s.lift x).contents = [] → s.carriageDirection x = none) ∧
     ∀ front rest, (s.lift x).contents = front :: rest → s.carriageDirection x = (s.lookup front).map (·.direction))) ∧
  (∀ (s : State) (x : Side),
    (∀ g, s.walk x = .job g → s.selectOn x = (s.grantJob x g, true)) ∧
    (s.walk x = .nothing → s.selectOn x = (s, false)) ∧
    (s.walk x = .stuck → (s.lift x).stuck = true → s.selectOn x = (s, false)) ∧
    (s.walk x = .stuck → (s.lift x).stuck = false → s.selectOn x = (({ s with
      lifts := s.lifts.set x.ix.val { s.lift x with stuck := true } } : State).raise (.lift x .liftStuck), false))) ∧
  (∀ (s : State) (x : Side) (front : Ident) (rest : List Ident), (s.lift x).contents = front :: rest →
    (s.carriageDirection x = some .inbound → s.walk x = match s.findDrop x front with | some g => .job g | none => .stuck) ∧
    (s.carriageDirection x ≠ some .inbound →
      s.walk x = match s.findUnload x front rest with | some g => .job g | none => .nothing)) ∧
  (∀ (s : State) (x : Side), (s.lift x).contents = [] →
    (s.headAged x = true → s.walk x = match s.findLoad x with | some g => .job g | none => .nothing) ∧
    (s.headAged x = false → s.walk x = match s.findTake x, s.findLoad x with
      | some g, _ => .job g
      | none, some g => .job g
      | none, none => .nothing)) ∧
  (∀ (s : State) (x : Side) (front : Ident) (r : Record), s.lookup front = some r →
    let k : LaneId := { level := r.level, name := x.inLane }
    ((s.findDrop x front).isSome ↔ (s.level r.level).mode = .auto ∧ (s.level r.level).fenced = false ∧
      s.takerTests k = none) ∧
    (∀ g, s.findDrop x front = some g → g.kind = .liftDrop ∧ g.giver = .carriage x ∧ g.taker = .lane k ∧
      g.slot = liftSlot x ∧ g.totes = s.dropTotes x k)) ∧
  (∀ (s : State) (x : Side),
    (∀ head, (s.queue x).contents = [head] → s.findLoad x = some
      { slot := liftSlot x, kind := .entryLoad, totes := [head], giver := .entry x, taker := .carriage x }) ∧
    (∀ head second rest, (s.queue x).contents = head :: second :: rest → s.findLoad x = some
      { slot := liftSlot x, kind := .entryLoad, giver := .entry x, taker := .carriage x
        totes := if s.weightSum [head, second] ≤ s.settings.params.carriageLimit then [head, second] else [head] }) ∧
    ((s.queue x).contents = [] → s.findLoad x = none))

/-- The automatic LIFT_TAKE: a candidate is the head of an OUT lane of the side that is CLEAR and not busy, on an AUTO level not fenced, in
class (a), (b) or (c), and it is one in just these cases. The take starts from a candidate than which none goes before, (a) before (b)
before (c), then by opening number and rank, or by level; there is none only where no lane of the side has a candidate (R97, R98). -/
def Obligations.TakesStartFromTheFirstCandidate : Prop :=
  ∀ (s : State) (x : Side),
    (s.chosenLevel x = none ↔ ∀ l, s.candidateAt x l = none) ∧
    (∀ l, s.chosenLevel x = some l → ∃ key, s.candidateAt x l = some key ∧
      ∀ m other, s.candidateAt x m = some other →
        key.1 < other.1 ∨ (key.1 = other.1 ∧ (key.2.1 < other.2.1 ∨ (key.2.1 = other.2.1 ∧ key.2.2 ≤ other.2.2)))) ∧
    (s.chosenLevel x = none → s.findTake x = none) ∧
    (∀ l, s.chosenLevel x = some l → let k : LaneId := { level := l, name := x.outLane }
      s.findTake x = some { slot := liftSlot x, kind := .liftTake, totes := s.takeTotes x (s.lane k).contents
                            giver := .lane k, taker := .carriage x }) ∧
    (∀ l key, s.candidateAt x l = some key → ∃ head rest r,
      (s.lane { level := l, name := x.outLane }).contents = head :: rest ∧ s.lookup head = some r ∧
      (s.level l).mode = .auto ∧ (s.level l).fenced = false ∧
      (s.lane { level := l, name := x.outLane }).condition = .clear ∧
      s.busy { level := l, name := x.outLane } = false ∧
      (r.entry = none → key = (2, l.val, 0)) ∧
      (∀ ref, r.entry = some ref → ∃ list, s.list ref.list = some list ∧
        (s.entryState ref = some .claimed → key = (0, list.opening, ref.rank)) ∧
        (s.entryState ref ≠ some .claimed → key = (1, list.opening, ref.rank) ∧
          s.nextLoadOf list.station = .stands (.entry ref)))) ∧
    (∀ l head rest r, (s.lane { level := l, name := x.outLane }).contents = head :: rest → s.lookup head = some r →
      (s.level l).mode = .auto → (s.level l).fenced = false →
      (s.lane { level := l, name := x.outLane }).condition = .clear →
      s.busy { level := l, name := x.outLane } = false →
      (r.entry = none → s.candidateAt x l = some (2, l.val, 0)) ∧
      (∀ ref list, r.entry = some ref → s.list ref.list = some list →
        (s.entryState ref = some .claimed → s.candidateAt x l = some (0, list.opening, ref.rank)) ∧
        (s.entryState ref ≠ some .claimed → s.nextLoadOf list.station = .stands (.entry ref) →
          s.candidateAt x l = some (1, list.opening, ref.rank)) ∧
        (s.entryState ref ≠ some .claimed → s.nextLoadOf list.station ≠ .stands (.entry ref) →
          s.candidateAt x l = none)))


/-! ### The entry point -/

/-- An ARRIVAL, with its read corrected, is rejected with the first check of R109 that fails, the last rejection and REJECTED
kept for its side, or accepted at the tail of its queue with the class measured; one that names no side or no class is
rejected OUT_OF_RANGE without a trace (R108 to R111, R113). ENTRY_AGED: the head's age stands at the limit at least, ENTRY_AGED is
raised and the aged mark set, once for each head (R114; log 4). -/
def Obligations.ArrivalsAndAgedHeads : Prop :=
  (∀ (s : State) (xb w p : Byte) (read : Ident), s.inReset = false → let t := s.takeValid .front
     let i := t.correct read
     (1 < xb.toNat ∨ (4 < w.toNat ∧ w ≠ 255) →
       exec (.arrival xb read w p) s = .next (t.send .front (.reject i .outOfRange)).closeEvent) ∧
     (∀ (x : Side) (m : Weighed), xb.toNat = x.ix.val →
       ((w = 255 ∧ m = .overweight) ∨ ∃ k : Weight, w.toNat = k.val ∧ m = .weight k) →
       (∀ why, t.arrivalRefusal x i m (p != 0) = some why → exec (.arrival xb read w p) s = .next
         ((({ t with
           entries := t.entries.set x.ix.val
             { t.queue x with rejection := some { ident := i, reason := why, weighed := m } } } : State).send .front
               (.reject i why)).raise (.entry x .rejected)).closeEvent) ∧
       (t.arrivalRefusal x i m (p != 0) = none → ∃ k, m = .weight k ∧
         exec (.arrival xb read w p) s = .next (({ t with
           records := t.records.map fun q =>
             if q.2.ident = i then (q.1, { q.2 with place := .entry x, weight := some k }) else q
           entries := t.entries.set x.ix.val { t.queue x with
             contents := (t.queue x).contents ++ [i]
             age := if (t.queue x).contents = [] then some 0 else (t.queue x).age
             aged := if (t.queue x).contents = [] then false else (t.queue x).aged }
           cause := true } : State).send .front (.accept i ((t.queue x).contents.length + 1))).closeEvent)) ∧
     (∀ (x : Side) (m : Weighed),
       (t.stopped = true → t.arrivalRefusal x i m (p != 0) = some .stopped) ∧
       (t.stopped = false →
         (i = 0 → t.arrivalRefusal x i m (p != 0) = some .noRead) ∧
         (i ≠ 0 → p ≠ 0 → t.arrivalRefusal x i m (p != 0) = some .overhang) ∧
         (i ≠ 0 → p = 0 →
           (m = .overweight → t.arrivalRefusal x i m (p != 0) = some .overweight) ∧
           (m ≠ .overweight →
             (t.lookup i = none → t.arrivalRefusal x i m (p != 0) = some .noRecord) ∧
             (∀ r, t.lookup i = some r →
               (r.direction = .inbound → r.place ≠ .expected → r.place.isHeld = false →
                 t.arrivalRefusal x i m (p != 0) = some .duplicate) ∧
               (r.direction = .outbound ∨ r.place.isHeld = true →
                 t.arrivalRefusal x i m (p != 0) = some .wrongState) ∧
               (r.direction = .inbound → r.place = .expected → t.arrivalRefusal x i m (p != 0) =
                 if (t.queue x).contents.length < 4 then none else some .queueFull))))))) ∧
  (∀ (s : State) (x : Side), s.inReset = false →
     ((s.queue x).aged = true ∨ (s.queue x).age = none → exec (.entryAged x) s = .next s.closeEvent) ∧
     (∀ a, (s.queue x).aged = false → (s.queue x).age = some a →
       exec (.entryAged x) s = .next (({ s with
         entries := s.entries.set x.ix.val { s.queue x with
           age := some (max a (10 * s.settings.params.entryAgeLimit)), aged := true } } : State).raise
             (.entry x .entryAged)).closeEvent))

/-- READ_LIFT and READ_ENTRY (R105, R115). -/
def Obligations.ReadLiftAndReadEntry : Prop :=
  ∀ (s : State) (b : Byte), s.ready →
    (1 < b.toNat → exec (.readLift b) s = .next (s.told .outOfRange .empty) ∧
      exec (.readEntry b) s = .next (s.told .outOfRange .empty)) ∧
    (∀ x : Side, b.toNat = x.ix.val →
      exec (.readLift b) s = .next (s.told .ok (.lift
        { status := (s.lift x).status, contents := (s.lift x).contents, reserved := (s.lift x).reserved.length
          report := (s.lift x).report, parkedRequest := decide ((s.lift x).status = .parked)
          directed := (s.lift x).directed, refusal := (s.lift x).refusal, stuck := (s.lift x).stuck
          transfer := (s.slot (liftSlot x)).opened.map fun _ =>
            ({ slot := liftSlot x, gen := (s.slot (liftSlot x)).generation } : TransferNumber) })) ∧
      ∃ (rows : List EntryRow) (load : Option TransferNumber), exec (.readEntry b) s = .next (s.told .ok (.entry
        { rows := rows, age := (s.queue x).age, mark := (s.queue x).aged, load := load
          isAged := (s.queue x).age.any fun a => decide (10 * s.settings.params.entryAgeLimit ≤ a)
          rejection := (s.queue x).rejection })) ∧
        ((∀ i ∈ (s.queue x).contents, (s.lookup i).isSome) → rows.length = (s.queue x).contents.length ∧
          ∀ (n : Nat) (i : Ident), (s.queue x).contents[n]? = some i → ∃ r, s.lookup i = some r ∧
            rows[n]? = some ({ ident := i, level := r.level, weight := r.weight } : EntryRow)) ∧
        (load.isSome ↔ ∃ o, (s.slot (liftSlot x)).opened = some o ∧ o.kind = .entryLoad) ∧
        (∀ n, load = some n → n = { slot := liftSlot x, gen := (s.slot (liftSlot x)).generation }))


/-! ### Release lists and stations -/

/-- Next-to-exit names the earliest entry not passed and next-to-load the earliest PENDING one, each standing at the end of an OPEN
list with none; next-to-load is withheld while the station is stalled or has a CLAIMED entry whose record carries no transfer
reference (R119 to R121). The two gates read them: eligibility to load and admission to the exit, what an EXIT_UNLOAD lists, and when
an automatic LIFT_TAKE lists two totes: the second is judged with the head's entry taken as CLAIMED and the head as listed (R95, R98,
R123, R125). -/
def Obligations.PointersAndGates : Prop :=
  ((∀ (s : State) (want : EntryState → Bool) (queue : List (Fin 16)),
     let spent (l : Fin 16) : Prop := ∀ r, s.list l = some r → r.closed = true ∧ ∀ e ∈ r.entries, want e.state = false
     (∀ ref, s.firstEntry want queue = .entry ref → ∃ pre post r e, queue = pre ++ ref.list :: post ∧
       (∀ l ∈ pre, spent l) ∧ s.list ref.list = some r ∧ 1 ≤ ref.rank ∧ r.entries[ref.rank - 1]? = some e ∧
       want e.state = true ∧ ∀ d ∈ r.entries.take (ref.rank - 1), want d.state = false) ∧
     (∀ l, s.firstEntry want queue = .endOfList l → ∃ pre post r, queue = pre ++ l :: post ∧ (∀ k ∈ pre, spent k) ∧
       s.list l = some r ∧ r.closed = false ∧ ∀ e ∈ r.entries, want e.state = false) ∧
     (s.firstEntry want queue = .atEnd → ∀ l ∈ queue, spent l)) ∧
   (∀ (s : State) (n : StationNo), ∃ want : EntryState → Bool,
     (∀ e, want e = false ↔ e = .delivered ∨ e = .exitHeld ∨ e = .missing ∨ e = .skipped) ∧
     s.nextExitOf n = s.firstEntry want (s.station n).queue) ∧
   (∀ (s : State) (n : StationNo),
     (s.nextLoadOf n = .withheld ↔ (s.station n).stalled = true ∨ ∃ l r e, l ∈ (s.station n).queue ∧ s.list l = some r ∧
       e ∈ r.entries ∧ e.state = .claimed ∧ ∀ x, s.lookup e.ident = some x → x.transfer = none) ∧
     (s.nextLoadOf n ≠ .withheld → ∃ want : EntryState → Bool, (∀ e, want e = true ↔ e = .pending) ∧
       s.nextLoadOf n = .stands (s.firstEntry want (s.station n).queue)))) ∧
  ((∀ (s : State) (r : Record),
     (r.entry = none → s.eligible r = true ∧ s.admissible r = true) ∧
     (∀ ref n, r.entry = some ref → s.stationOf ref = some n →
       (s.eligible r = true ↔ (s.entryState ref = some .claimed ∧ r.transfer = none) ∨
         s.nextLoadOf n = .stands (.entry ref)) ∧
       (s.admissible r = true ↔ (s.station n).stalled = false ∧ s.nextExitOf n = .entry ref))) ∧
   (∀ (s : State) (x : Side) (front : Ident) (rest : List Ident) (r : Record), s.lookup front = some r → r.ident = front →
     (s.admissible r = false → s.findUnload x front rest = none) ∧
     (s.admissible r = true → s.findUnload x front rest = some
       { slot := liftSlot x, kind := .exitUnload, giver := .carriage x, taker := .exit
         totes := match rest with
           | [] => [front]
           | back :: _ => if (s.lookup back).any (s.admissibleBehind r) then [front, back] else [front] })) ∧
   (∀ (s : State) (front back : Record),
     (front.entry = none → s.admissibleBehind front back = s.admissible back) ∧
     (∀ ref, front.entry = some ref → s.admissibleBehind front back = (s.setEntryState ref .delivered).admissible back)) ∧
   (∀ (s : State) (head second : Record) (i : Fin 34),
     (head.entry = none → s.eligibleBehind head second i = s.eligible second) ∧
     (∀ ref, head.entry = some ref → s.eligibleBehind head second i =
       ({ s.setEntryState ref .claimed with records := s.records.map fun p => if p.2.ident = head.ident
           then (p.1, { p.2 with transfer := some { slot := i, gen := (s.slot i).generation } }) else p } : State).eligible
         second)) ∧
   (∀ (s : State) (ref : EntryRef) (e : EntryState),
     (s.setEntryState ref e).entryState ref = (s.entryState ref).map (fun _ => e) ∧
     (∀ other : EntryRef, other.list ≠ ref.list ∨ other.rank - 1 ≠ ref.rank - 1 →
       (s.setEntryState ref e).entryState other = s.entryState other) ∧
     (∀ l, ((s.setEntryState ref e).list l).map ReleaseList.stateless = (s.list l).map ReleaseList.stateless) ∧
     s.setEntryState ref e = { s with lists := (s.setEntryState ref e).lists }) ∧
   (∀ (s : State) (x : Side) (head : Ident), s.takeTotes x [head] = [head]) ∧
   (∀ (s : State) (x : Side) (head second : Ident) (rest : List Ident) (h r : Record), s.lookup head = some h →
     s.lookup second = some r →
     (s.takeTotes x (head :: second :: rest) = [head, second] ↔ s.eligibleBehind h r (liftSlot x) = true ∧
       s.weightSum [head, second] ≤ s.settings.params.carriageLimit ∧ r.transfer = none) ∧
     (s.takeTotes x (head :: second :: rest) = [head, second] ∨ s.takeTotes x (head :: second :: rest) = [head])))

/-- The entry checks of OPEN_LIST and APPEND_ENTRIES: each is made on every entry before the next, and the first entry that fails
gives the refusal with its position (R133; log 8 for two entries of one identity and for TABLE_FULL). -/
def Obligations.EntryChecksInOrder : Prop :=
  ∀ (s : State) (es : List NewEntry),
    let dup (e : NewEntry) : Prop := (∃ j k : Nat, j ≠ k ∧ (es[j]?).map (·.ident) = some e.ident ∧
        (es[k]?).map (·.ident) = some e.ident) ∨
      (∃ l r d, s.list l = some r ∧ d ∈ r.entries ∧ d.ident = e.ident) ∨ ∃ r, s.lookup e.ident = some r ∧ r.entry.isSome
    let state (e : NewEntry) : Prop := ∃ r, s.lookup e.ident = some r ∧
      (r.direction = .inbound ∨ r.place.isCarriage ∨ r.place.isHeld)
    let level (e : NewEntry) : Prop := ∃ r, s.lookup e.ident = some r ∧ r.level ≠ e.level
    let busy (e : NewEntry) : Prop := ∃ r, s.lookup e.ident = some r ∧ r.place.isLane ∧ r.transfer.isSome
    let first (P : NewEntry → Prop) (k : Nat) : Prop :=
      (∃ e, es[k]? = some e ∧ P e) ∧ ∀ j < k, ∀ d, es[j]? = some d → ¬ P d
    let missing : Nat := (es.filter fun e => (s.lookup e.ident).isNone).length
    (∀ k, first dup k → s.entryRefusal es = some (.duplicate, k + 1)) ∧
    ((∀ e ∈ es, ¬ dup e) →
      (∀ k, first state k → s.entryRefusal es = some (.wrongState, k + 1)) ∧
      ((∀ e ∈ es, ¬ state e) →
        (∀ k, first level k → s.entryRefusal es = some (.wrongLevel, k + 1)) ∧
        ((∀ e ∈ es, ¬ level e) →
          (∀ k, first busy k → s.entryRefusal es = some (.busy, k + 1)) ∧
          ((∀ e ∈ es, ¬ busy e) →
            (512 - s.records.length < missing → s.entryRefusal es = some (.tableFull, 1)) ∧
            (missing ≤ 512 - s.records.length → s.entryRefusal es = none)))))

/-- OPEN_LIST: its checks in order; then the lowest free slot takes an OPEN list with the next opening number at the end of its
station's queue, its entries are PENDING with ranks from 1, and each has its record, created or attached (R132, R133). -/
def Obligations.OpenListMakesAListAndItsRecords : Prop :=
  ∀ (s : State) (b : Byte) (args : List EntryArg), s.ready →
    (b.toNat < 1 ∨ 4 < b.toNat ∨ 16 < args.length ∨ (∃ a ∈ args, ∀ e : NewEntry, ¬ e.namedBy a) →
      exec (.openList b args) s = .next (s.told .outOfRange .empty)) ∧
    (∀ (n : StationNo) (es : List NewEntry), b.toNat = n.val + 1 → args.length ≤ 16 →
      List.Forall₂ NewEntry.namedBy es args →
      ((∀ l, s.list l ≠ none) ∨ s.opening = 65535 → exec (.openList b args) s = .next (s.told .busy .empty)) ∧
      (∀ l, s.list l = none → (∀ k, k < l → s.list k ≠ none) → s.opening ≠ 65535 →
        (∀ c k, s.entryRefusal es = some (c, k) → exec (.openList b args) s = .next (s.told c (.position k))) ∧
        (s.entryRefusal es = none → ∃ u : State,
          exec (.openList b args) s = .next (s.doneWith u (.opened l (s.opening + 1))) ∧
          u = { s with records := u.records, lists := u.lists, stations := u.stations, opening := s.opening + 1 } ∧
          u.list l = some
            { station := n, opening := s.opening + 1, closed := false, entries := es.map fun e =>
                { ident := e.ident, level := e.level, pref := e.pref, weight := e.weight, state := .pending } } ∧
          (∀ k, k ≠ l → u.list k = s.list k) ∧
          u.station n = { s.station n with queue := (s.station n).queue ++ [l] } ∧
          (∀ m, m ≠ n → u.station m = s.station m) ∧
          (∀ i, (∀ e ∈ es, e.ident ≠ i) → u.lookup i = s.lookup i) ∧
          (∀ (k : Nat) (e : NewEntry), es[k]? = some e → u.lookup e.ident = some (match s.lookup e.ident with
            | some r => { r with entry := some ⟨l, k + 1⟩, pref := some e.pref, weight := some e.weight }
            | none => { ident := e.ident, direction := .outbound, place := .expected, level := e.level
                        pref := some e.pref, weight := some e.weight, entry := some ⟨l, k + 1⟩, transfer := none })))))

/-- APPEND_ENTRIES adds PENDING entries with the next ranks to an OPEN list, and CLOSE_LIST closes one and tests it for
completion; each refuses in its order. A list is complete when it is CLOSED and every entry is final: it leaves its queue, its slot
is freed and LIST_COMPLETE is raised, and with the last slot in use the opening counter returns to 0 (R117, R134, R135). -/
def Obligations.ListsAreExtendedClosedAndCompleted : Prop :=
  (∀ (s : State) (b : Byte) (args : List EntryArg), s.ready →
    (15 < b.toNat ∨ args = [] ∨ 16 < args.length ∨ (∃ a ∈ args, ∀ e : NewEntry, ¬ e.namedBy a) →
      exec (.appendEntries b args) s = .next (s.told .outOfRange .empty)) ∧
    (∀ (l : Fin 16) (es : List NewEntry), b.toNat = l.val → args ≠ [] → args.length ≤ 16 →
      List.Forall₂ NewEntry.namedBy es args →
      (s.list l = none → exec (.appendEntries b args) s = .next (s.told .wrongState .empty)) ∧
      (∀ r, s.list l = some r →
        (r.closed = true → exec (.appendEntries b args) s = .next (s.told .wrongState .empty)) ∧
        (r.closed = false → 64 < r.entries.length + es.length →
          exec (.appendEntries b args) s = .next (s.told .outOfRange .empty)) ∧
        (r.closed = false → r.entries.length + es.length ≤ 64 →
          (∀ c k, s.entryRefusal es = some (c, k) → exec (.appendEntries b args) s = .next (s.told c (.position k))) ∧
          (s.entryRefusal es = none → ∃ u : State,
            exec (.appendEntries b args) s = .next (s.doneWith u (.rank (r.entries.length + 1))) ∧
            u = { s with records := u.records, lists := u.lists } ∧
            u.list l = some { r with entries := r.entries ++ es.map fun e =>
              { ident := e.ident, level := e.level, pref := e.pref, weight := e.weight, state := .pending } } ∧
            (∀ k, k ≠ l → u.list k = s.list k) ∧
            (∀ i, (∀ e ∈ es, e.ident ≠ i) → u.lookup i = s.lookup i) ∧
            (∀ (k : Nat) (e : NewEntry), es[k]? = some e → (u.lookup e.ident).bind (·.entry) =
              some ⟨l, r.entries.length + k + 1⟩)))))) ∧
  (∀ (s : State) (b : Byte), s.ready →
    (15 < b.toNat → exec (.closeList b) s = .next (s.told .outOfRange .empty)) ∧
    (∀ l : Fin 16, b.toNat = l.val →
      (s.list l = none ∨ (∃ r, s.list l = some r ∧ r.closed = true) →
        exec (.closeList b) s = .next (s.told .wrongState .empty)) ∧
      (∀ r, s.list l = some r → r.closed = false → exec (.closeList b) s = .next (s.doneWith
        (({ s with lists := s.lists.set l.val (some { r with closed := true }) } : State).testComplete l) .empty)))) ∧
  (∀ (s : State) (l : Fin 16),
    (s.list l = none ∨ (∃ r, s.list l = some r ∧ (r.closed = false ∨ ∃ e ∈ r.entries, e.state.final = false)) →
      s.testComplete l = s) ∧
    (∀ r, s.list l = some r → r.closed = true → (∀ e ∈ r.entries, e.state.final = true) →
      s.testComplete l = ({ s with
        lists := s.lists.set l.val none
        stations := s.stations.set r.station.val
          { s.station r.station with queue := (s.station r.station).queue.filter fun k => k ≠ l }
        opening := if ∀ k, k ≠ l → s.list k = none then 0 else s.opening } : State).raise
          (.station r.station .listComplete)))

/-- ABORT_LIST withdraws a list with its PENDING entries, whose records are retired or become unsequenced, and raises nothing;
SKIP_ENTRY makes a PENDING or CLAIMED entry SKIPPED and its record unsequenced; each refuses in its order (R3, R136, R137). -/
def Obligations.EntriesAreWithdrawn : Prop :=
  (∀ (s : State) (b : Byte), s.ready →
    (15 < b.toNat → exec (.abortList b) s = .next (s.told .outOfRange .empty)) ∧
    (∀ l : Fin 16, b.toNat = l.val →
      (s.list l = none → exec (.abortList b) s = .next (s.told .wrongState .empty)) ∧
      (∀ r, s.list l = some r →
        ((∃ e ∈ r.entries, e.state = .claimed ∨ e.state = .loaded ∨ e.state = .exitHeld) →
          exec (.abortList b) s = .next (s.told .busy .empty)) ∧
        ((∀ e ∈ r.entries, e.state ≠ .claimed ∧ e.state ≠ .loaded ∧ e.state ≠ .exitHeld) → ∃ u : State,
          exec (.abortList b) s = .next (s.doneWith u .empty) ∧
          u = { s with
            records := u.records, cause := u.cause
            lists := s.lists.set l.val none
            stations := s.stations.set r.station.val
              { s.station r.station with queue := (s.station r.station).queue.filter fun k => k ≠ l }
            opening := if ∀ k, k ≠ l → s.list k = none then 0 else s.opening } ∧
          (∀ i, (∀ e ∈ r.entries, e.state = .pending → e.ident ≠ i) → u.lookup i = s.lookup i) ∧
          (∀ e x, e ∈ r.entries → e.state = .pending → s.lookup e.ident = some x →
            (x.place = .expected → x.transfer = none → u.lookup e.ident = none) ∧
            (x.place ≠ .expected ∨ x.transfer.isSome → u.lookup e.ident = some { x with entry := none } ∧
              (x.place.isLane → u.cause = true))))))) ∧
  (∀ (s : State) (b k : Byte), s.ready →
    (15 < b.toNat ∨ k.toNat < 1 ∨ 64 < k.toNat → exec (.skipEntry b k) s = .next (s.told .outOfRange .empty)) ∧
    (∀ l : Fin 16, b.toNat = l.val → 1 ≤ k.toNat → k.toNat ≤ 64 →
      ((∀ r e, s.list l = some r → r.entries[k.toNat - 1]? = some e → e.state ≠ .pending ∧ e.state ≠ .claimed) →
        exec (.skipEntry b k) s = .next (s.told .wrongState .empty)) ∧
      (∀ r e, s.list l = some r → r.entries[k.toNat - 1]? = some e → e.state = .pending ∨ e.state = .claimed →
        exec (.skipEntry b k) s = .next (s.doneWith (({ s with
          lists := s.lists.set l.val (some { r with
            entries := r.entries.set (k.toNat - 1) { e with state := .skipped } })
          records := s.records.map fun p => if p.2.ident = e.ident then (p.1, { p.2 with entry := none }) else p
          cause := s.cause || (s.lookup e.ident).any fun x => x.place.isLane } : State).testComplete l) .empty))))

/-- An EXIT_READ with its identity corrected: one of no side is discarded; one with no expected tote is kept as the last
unsolicited read and flagged; one that matches retires the tote and makes its entry DELIVERED; any other holds it, makes its entry
EXIT_HELD and stalls its station. The tote is struck off its unload, which commits when it is complete (R56, R127 to R129). -/
def Obligations.ExitReadsAreMatched : Prop :=
  (∀ (s : State) (xb : Byte) (read : Ident), s.inReset = false → let t := s.takeValid .front
    let i := t.correct read
    (1 < xb.toNat → exec (.exitRead xb read) s = .next t.closeEvent) ∧
    (∀ x : Side, xb.toNat = x.ix.val →
      ((∀ o, (t.slot (liftSlot x)).opened = some o → o.kind ≠ .exitUnload ∨ o.totes = []) →
        exec (.exitRead xb read) s = .next
          (({ t with unsolicited := some (x, i) } : State).raise (.aisle .unexpectedTote)).closeEvent) ∧
      (∀ o y rest, (t.slot (liftSlot x)).opened = some o → o.kind = .exitUnload → o.totes = y :: rest →
        exec (.exitRead xb read) s = .next
          (((if i = y then t.exitMatch x y else t.exitFault x y i).strikeOff (liftSlot x) y)).closeEvent))) ∧
  (∀ (s : State) (i : Fin 34) (o : Open) (y : Ident), (s.slot i).opened = some o →
    let p : Open := { o with totes := o.totes.filter fun z => z ≠ y, reads := o.reads + 1 }
    let t : State := { s with slots := s.slots.set i.val { s.slot i with opened := some p } }
    s.strikeOff i y = if p.complete then t.commit i p else t) ∧
  (∀ (s : State) (x : Side) (y : Ident) (r : Record), s.lookup y = some r → let t := s.exitMatch x y
    t.lookup y = none ∧ (∀ z, z ≠ y → t.lookup z = s.lookup z) ∧
    (t.lift x).contents = (s.lift x).contents.filter (fun z => z ≠ y) ∧
    (r.entry = none → t = { s with records := t.records, lifts := t.lifts }) ∧
    (∀ ref n, r.entry = some ref → s.stationOf ref = some n → ∃ u : State, t = u.testComplete ref.list ∧
      u = { s with records := t.records, lifts := t.lifts, lists := u.lists, flags := u.flags } ∧
      u.entryState ref = (s.entryState ref).map (fun _ => .delivered) ∧
      (nth s.settings.reportMode n = .each → u.raised (.station n .delivered) = true) ∧
      (nth s.settings.reportMode n = .list → u.flags = s.flags))) ∧
  (∀ (s : State) (x : Side) (y read : Ident) (r : Record), s.lookup y = some r → let t := s.exitFault x y read
    let why : HoldReason := if read = 0 then .exitNoRead else .exitMismatch
    t.lookup y = some { r with place := .held { reason := why, giver := .carriage x, taker := .exit }, transfer := none } ∧
    (∀ z, z ≠ y → t.lookup z = s.lookup z) ∧
    (t.lift x).contents = (s.lift x).contents.filter (fun z => z ≠ y) ∧ t.raised (.aisle .holdRaised) = true ∧
    (r.entry = none → t = { s with records := t.records, lifts := t.lifts, flags := t.flags }) ∧
    (∀ ref n, r.entry = some ref → s.stationOf ref = some n →
      t.entryState ref = (s.entryState ref).map (fun _ => .exitHeld) ∧
      t.station n = { s.station n with
        stalled := true, fault := some { expected := y, read := read, reason := why } } ∧
      t.raised (.station n .exitFault) = true ∧
      t = { s with
        records := t.records, lifts := t.lifts, flags := t.flags, lists := t.lists, stations := t.stations }))

/-- CONFIRM_EXIT and DECLARE_MISSING settle a record held by an exit read: it is retired, its entry becomes DELIVERED or MISSING,
and its station's stall and its list's completion are tested; each refuses in its order (R126, R131, R139). -/
def Obligations.RecordsHeldAtTheExitAreSettled : Prop :=
  (∀ (s : State) (i : Ident) (cmd : Instr) (e : EntryState), s.ready →
    (cmd = .confirmExit i ∧ e = .delivered ∨ cmd = .declareMissing i ∧ e = .missing) →
    (i = 0 → exec cmd s = .next (s.told .outOfRange .empty)) ∧
    (i ≠ 0 → s.lookup i = none → exec cmd s = .next (s.told .noRecord .empty)) ∧
    (∀ r, i ≠ 0 → s.lookup i = some r →
      ((∀ h, r.place = .held h → h.reason ≠ .exitMismatch ∧ h.reason ≠ .exitNoRead) →
        exec cmd s = .next (s.told .wrongState .empty)) ∧
      (∀ h, r.place = .held h → h.reason = .exitMismatch ∨ h.reason = .exitNoRead →
        (r.entry = none → exec cmd s = .next (s.doneWith
          { s with records := s.records.filter fun p => p.2.ident ≠ i } .empty)) ∧
        (∀ ref n, r.entry = some ref → s.stationOf ref = some n → ∃ u : State,
          exec cmd s = .next (s.doneWith ((u.testStall n).testComplete ref.list) .empty) ∧
          u = { s with
            records := s.records.filter fun p => p.2.ident ≠ i
            lists := u.lists, flags := u.flags } ∧
          u.entryState ref = (s.entryState ref).map (fun _ => e) ∧
          (e = .delivered → nth s.settings.reportMode n = .each → u.raised (.station n .delivered) = true) ∧
          (e = .missing ∨ nth s.settings.reportMode n = .list → u.flags = s.flags))))) ∧
  (∀ (s : State) (n : StationNo),
    ((s.station n).stalled = false ∨ (∃ l r e, l ∈ (s.station n).queue ∧ s.list l = some r ∧ e ∈ r.entries ∧
        e.state = .exitHeld) → s.testStall n = s) ∧
    ((s.station n).stalled = true → (∀ l r e, l ∈ (s.station n).queue → s.list l = some r → e ∈ r.entries →
        e.state ≠ .exitHeld) →
      s.testStall n = ({ s with
        stations := s.stations.set n.val { s.station n with stalled := false }
        cause := true } : State).raise (.station n .stallCleared)))

/-- READ_STATION and READ_LIST (R140); and SET_REPORT_MODE, which writes the one mode it names or refuses OUT_OF_RANGE (R139). -/
def Obligations.StationsAreReadAndTheirModeSet : Prop :=
  (∀ (s : State) (b f : Byte), s.ready →
     (b.toNat < 1 ∨ 4 < b.toNat → exec (.readStation b) s = .next (s.told .outOfRange .empty)) ∧
     (∀ n : StationNo, b.toNat = n.val + 1 → ∃ rows : List QueueRow,
       exec (.readStation b) s = .next (s.told .ok (.station
         { queue := rows, nextLoad := (s.station n).nextLoad, nextExit := (s.station n).nextExit
           stalled := (s.station n).stalled, mode := nth s.settings.reportMode n, fault := (s.station n).fault
           unsolicited := s.unsolicited })) ∧
       ((∀ l ∈ (s.station n).queue, s.list l ≠ none) → rows.length = (s.station n).queue.length ∧
         ∀ (k : Nat) (l : Fin 16) (r : ReleaseList), (s.station n).queue[k]? = some l → s.list l = some r →
           rows[k]? = some ({ list := l, opening := r.opening, closed := r.closed } : QueueRow))) ∧
     (15 < b.toNat ∨ f.toNat < 1 ∨ 64 < f.toNat → exec (.readList b f) s = .next (s.told .outOfRange .empty)) ∧
     (∀ l : Fin 16, b.toNat = l.val → 1 ≤ f.toNat → f.toNat ≤ 64 →
       (s.list l = none → exec (.readList b f) s = .next (s.told .wrongState .empty)) ∧
       (∀ r, s.list l = some r → ∃ rows : List ListRow,
         exec (.readList b f) s = .next (s.told .ok (.list
           { station := r.station, opening := r.opening, closed := r.closed, size := r.entries.length, rows := rows })) ∧
         rows.length = min 16 (r.entries.length - (f.toNat - 1)) ∧
         ∀ (k : Nat) (e : Entry), k < rows.length → r.entries[f.toNat - 1 + k]? = some e →
           rows[k]? = some ({ rank := f.toNat + k, entry := e } : ListRow)))) ∧
  (∀ (s : State) (b mb : Byte), s.ready →
     (b.toNat < 1 ∨ 4 < b.toNat ∨ 1 < mb.toNat → exec (.setReportMode b mb) s = .next (s.told .outOfRange .empty)) ∧
     (∀ (n : StationNo) (m : ReportMode), b.toNat = n.val + 1 → (mb = 0 ∧ m = .each ∨ mb = 1 ∧ m = .list) →
       exec (.setReportMode b mb) s = .next (s.doneWith { s with
         settings := { s.settings with reportMode := s.settings.reportMode.set n.val m } } .empty)))


/-! ### Recovery -/

/-- RESOLVE_HOLD: its checks in order, the checks of the holder that the disposition names, and the placement of R144's table, with
what it does to the record's entry (R138, R144 to R150). -/
def Obligations.ResolveHoldPlacesTheRecord : Prop :=
  ∀ (s : State) (i : Ident) (d : Byte), s.ready →
    let no (c : Code) : Prop := exec (.resolveHold i d) s = .next (s.told c .empty)
    let moved (p : Place) : List (Nat × Record) :=
      s.records.map fun q => if q.2.ident = i then (q.1, { q.2 with place := p }) else q
    (i = 0 ∨ 2 < d.toNat → no .outOfRange) ∧
    (i ≠ 0 → d.toNat ≤ 2 → s.lookup i = none → no .noRecord) ∧
    (∀ r, i ≠ 0 → d.toNat ≤ 2 → s.lookup i = some r →
      ((∀ h why, r.place = .held h → h.reason ≠ .failed why) → no .wrongState) ∧
      (∀ h why, r.place = .held h → h.reason = .failed why →
        (∀ l, d = 0 → h.giver = .rack l →
          exec (.resolveHold i d) s = .next (s.doneWith { s with records := moved .expected } .empty)) ∧
        (∀ l, (d = 0 ∧ h.giver = .lane l) ∨ (d = 1 ∧ h.taker = .lane l) →
          (s.busy l = true → no .laneBusy) ∧
          (s.busy l = false → s.depth l ≤ (s.lane l).contents.length → no .laneFull) ∧
          (s.busy l = false → (s.lane l).contents.length < s.depth l →
            exec (.resolveHold i d) s = .next (s.doneWith { s with
              records := moved (.lane l)
              lanes := s.lanes.set l.ix.val { s.lane l with
                contents := if d = 0 then i :: (s.lane l).contents else (s.lane l).contents ++ [i] }
              cause := true } .empty))) ∧
        (∀ x, d = 0 → h.giver = .entry x →
          ((∃ o, (s.slot (liftSlot x)).opened = some o ∧ o.kind = .entryLoad) → no .busy) ∧
          ((∀ o, (s.slot (liftSlot x)).opened = some o → o.kind ≠ .entryLoad) →
            (4 ≤ (s.queue x).contents.length → no .queueFull) ∧
            ((s.queue x).contents.length < 4 → i ∉ (s.queue x).contents →
              exec (.resolveHold i d) s = .next (s.doneWith { s with
                records := moved (.entry x)
                entries := s.entries.set x.ix.val { s.queue x with
                  contents := i :: (s.queue x).contents, age := some 0, aged := false }
                cause := true } .empty)))) ∧
        (∀ x, (d = 0 ∧ h.giver = .carriage x) ∨ (d = 1 ∧ h.taker = .carriage x) →
          ((s.lift x).status = .working → no .busy) ∧
          ((s.lift x).status ≠ .working →
            (2 ≤ (s.lift x).contents.length → no .carriageFull) ∧
            ((s.lift x).contents.length < 2 →
              ((∃ e, s.carriageDirection x = some e ∧ e ≠ r.direction) → no .mixedDirection) ∧
              ((∀ e, s.carriageDirection x = some e → e = r.direction) →
                let heavy : Prop := s.settings.params.carriageLimit <
                  s.weightSum (s.lift x).contents + (r.weight.map Fin.val).getD 0
                (heavy → no .weightLimit) ∧
                (¬ heavy → ∃ u : State, exec (.resolveHold i d) s = .next (s.doneWith u .empty) ∧
                  u = { s with
                    records := moved (.carriage x)
                    lifts := s.lifts.set x.ix.val { s.lift x with
                      contents := if d = 0 then i :: (s.lift x).contents else (s.lift x).contents ++ [i], stuck := false }
                    lists := u.lists
                    cause := true } ∧
                  (d = 0 ∨ r.entry = none → u.lists = s.lists) ∧
                  (∀ ref, d = 1 → r.entry = some ref →
                    u.entryState ref = (s.entryState ref).map fun _ => .loaded)))))) ∧
        (d = 1 → h.taker = .shuttle → exec (.resolveHold i d) s = .next
          (s.doneWith { s with records := s.records.filter fun q => q.2.ident ≠ i } .empty)) ∧
        (∀ ref n, d = 1 → h.taker = .exit → r.entry = some ref → s.stationOf ref = some n →
          s.nextExitOf n ≠ .entry ref → no .notEligible) ∧
        (r.entry = none → d = 2 ∨ (d = 1 ∧ h.taker = .exit) → exec (.resolveHold i d) s = .next
          (s.doneWith { s with records := s.records.filter fun q => q.2.ident ≠ i } .empty)) ∧
        (∀ ref n, r.entry = some ref → s.stationOf ref = some n →
          d = 2 ∨ (d = 1 ∧ h.taker = .exit ∧ s.nextExitOf n = .entry ref) → ∃ u : State,
          exec (.resolveHold i d) s = .next (s.doneWith (u.testComplete ref.list) .empty) ∧
          u = { s with
            records := s.records.filter fun q => q.2.ident ≠ i
            lists := u.lists, flags := u.flags } ∧
          u.entryState ref = (s.entryState ref).map (fun _ => if d = 2 then .missing else .delivered) ∧
          (d = 1 → nth s.settings.reportMode n = .each → u.raised (.station n .delivered) = true) ∧
          (d = 2 ∨ nth s.settings.reportMode n = .list → u.flags = s.flags))))

/-- DECLARE_TOTE: its checks in order, those of its location among them, and the record it creates at the tail of that location
(R151 to R155; log 9 and log 10 for the forms and lengths of the location). -/
def Obligations.DeclareToteCreatesTheRecordInPlace : Prop :=
  ∀ (s : State) (i : Ident) (db lb wb pb : Byte) (loc : LocArg), s.ready →
    let no (c : Code) : Prop := exec (.declareTote i db lb wb pb loc) s = .next (s.told c .empty)
    (i = 0 ∨ 1 < db.toNat ∨ lb.toNat < 1 ∨ 32 < lb.toNat ∨ 4 < wb.toNat ∨ (db = 1 ∧ 2 < pb.toNat) ∨
        (∃ a b, loc = .lane a b ∧ (a.toNat < 1 ∨ 32 < a.toNat ∨ 3 < b.toNat)) ∨
        (∃ a, loc = .carriage a ∧ 1 < a.toNat) ∨ (∃ a, loc = .entry a ∧ 1 < a.toNat) ∨ (∃ a, loc = .noForm a) →
      no .outOfRange) ∧
    (∀ (d : Direction) (l : Level) (w : Weight) (p : Option Pref), i ≠ 0 → lb.toNat = l.val + 1 → wb.toNat = w.val →
      ((db = 0 ∧ d = .inbound ∧ p = none) ∨ (db = 1 ∧ d = .outbound ∧
        ((pb = 0 ∧ p = some .a) ∨ (pb = 1 ∧ p = some .b) ∨ (pb = 2 ∧ p = some .either)))) →
      let made (place : Place) : Record := { ident := i, direction := d, place := place, level := l, pref := p,
                                             weight := some w, entry := none, transfer := none }
      let full : Prop := 512 ≤ s.records.length
      (∀ k : LaneId, loc = .lane (BitVec.ofNat 8 (k.level.val + 1)) (BitVec.ofNat 8 k.name.ix.val) →
        let ok1 : Prop := s.stopOf k.level ≠ none
        let ok2 : Prop := (s.level k.level).mode = .off ∧ laneDirection k.name = d
        let ok3 : Prop := d = .outbound → l = k.level
        let ok4 : Prop := (s.lane k).contents.length < s.depth k
        ((s.lookup i).isSome → no .duplicate) ∧
        (s.lookup i = none → (¬ ok1 → no .unmapped) ∧ (ok1 → ¬ ok2 → no .wrongState) ∧
          (ok1 → ok2 → ¬ ok3 → no .wrongLevel) ∧ (ok1 → ok2 → ok3 → ¬ ok4 → no .laneFull) ∧
          (ok1 → ok2 → ok3 → ok4 → full → no .tableFull) ∧
          (ok1 → ok2 → ok3 → ok4 → ¬ full → s.tableLegal → ∃ rs, CreatedIn s.records rs (made (.lane k)) ∧
            exec (.declareTote i db lb wb pb loc) s = .next (s.doneWith { s with
              records := rs
              lanes := s.lanes.set k.ix.val { s.lane k with contents := (s.lane k).contents ++ [i] }
              cause := true } .empty)))) ∧
      (∀ x : Side, loc = .carriage (BitVec.ofNat 8 x.ix.val) →
        let ok1 : Prop := (s.lift x).status = .disabled
        let ok2 : Prop := (s.lift x).contents.length < 2
        let ok3 : Prop := ∀ e, s.carriageDirection x = some e → e = d
        let ok4 : Prop := s.weightSum (s.lift x).contents + w.val ≤ s.settings.params.carriageLimit
        ((s.lookup i).isSome → no .duplicate) ∧
        (s.lookup i = none → (¬ ok1 → no .wrongState) ∧ (ok1 → ¬ ok2 → no .carriageFull) ∧
          (ok1 → ok2 → ¬ ok3 → no .mixedDirection) ∧ (ok1 → ok2 → ok3 → ¬ ok4 → no .weightLimit) ∧
          (ok1 → ok2 → ok3 → ok4 → full → no .tableFull) ∧
          (ok1 → ok2 → ok3 → ok4 → ¬ full → s.tableLegal → ∃ rs, CreatedIn s.records rs (made (.carriage x)) ∧
            exec (.declareTote i db lb wb pb loc) s = .next (s.doneWith { s with
              records := rs
              lifts := s.lifts.set x.ix.val { s.lift x with contents := (s.lift x).contents ++ [i], stuck := false }
              cause := true } .empty)))) ∧
      (∀ x : Side, loc = .entry (BitVec.ofNat 8 x.ix.val) →
        ((s.lookup i).isSome → no .duplicate) ∧
        (s.lookup i = none → (d = .outbound → no .wrongState) ∧
          (d = .inbound → 4 ≤ (s.queue x).contents.length → no .queueFull) ∧
          (d = .inbound → (s.queue x).contents.length < 4 → full → no .tableFull) ∧
          (d = .inbound → (s.queue x).contents.length < 4 → ¬ full → s.tableLegal → ∃ rs,
            CreatedIn s.records rs (made (.entry x)) ∧
            exec (.declareTote i db lb wb pb loc) s = .next (s.doneWith { s with
              records := rs
              entries := s.entries.set x.ix.val { s.queue x with
                contents := (s.queue x).contents ++ [i]
                age := if (s.queue x).contents = [] then some 0 else (s.queue x).age
                aged := if (s.queue x).contents = [] then false else (s.queue x).aged }
              cause := true } .empty)))))


/-! ### Links -/

/-- A valid frame makes its link UP with the silence time set, tells of a change, and sends RESYNC to a link that was DOWN, before
the frame is handed on; the end of the silence time makes it LOST and unparks its lift. Frames that are foreign or malformed, and
the front's BEACON, do no more; a wrong-node frame only raises its event; a frame that is whole leaves nothing partly received, and
bytes that are no well-framed frame leave what may yet become one (R102, R156 to R161). The end of a STATUS period produces STATUS on
every link, in the place of one that still waits there; a frame that leaves makes room for the next (R162; log 3 for a STATUS at the
head, which may have begun to leave). LINK_LOST acts on an UP link whatever silence time is left and
on no other, and STATUS_PERIOD_END whatever is left of the period: the model's choice (log 4). -/
def Obligations.LinkStatusAndOrder : Prop :=
  ((∀ (s : State) (p : Port), s.inReset = false →
     exec .frontBeacon s = .next (s.takeValid .front).closeEvent ∧
     exec (.foreignFrame p) s = .next (s.takeValid p).closeEvent ∧
     exec (.malformedFrame p) s = .next (s.takeValid p).closeEvent ∧
     (∀ n, (s.link p).status = .up n → exec (.linkLost p) s = .next (((({ s with
       links := s.links.set p.ix.val { s.link p with status := .lost } } : State).linkChanged p).unpark p).closeEvent)) ∧
     ((∀ n, (s.link p).status ≠ .up n) → exec (.linkLost p) s = .next s.closeEvent)) ∧
   (∀ (s : State) (run : Incoming), s.inReset = false → exec (.discardedFrame run) s = .next { s with
     links := s.links.set run.port.ix.val { s.link run.port with heard := unfinished run.bytes.length run.bytes } }) ∧
   (∀ bytes : List Byte, unfinished bytes.length bytes <:+ bytes ∧
     ∀ b rest, unfinished bytes.length bytes = b :: rest → b = 0xC3) ∧
   (∀ (s : State) (p : Port),
     let w : State := { s with
       links := s.links.set p.ix.val { s.link p with status := .up s.settings.params.lossTime, heard := [] } }
     (∀ n, (s.link p).status = .up n → s.takeValid p = w) ∧
     ((s.link p).status = .lost → s.takeValid p = w.linkChanged p) ∧
     ((s.link p).status = .down → s.takeValid p = (w.linkChanged p).send p (.resync s.resetKind))) ∧
   (∀ (s : State) (n : Stop),
     (∀ l, s.levelAt n = some l → s.linkChanged (.stop n) = (s.raise (.level l .linkChange)).recomputeFence l) ∧
     (s.levelAt n = none → s.linkChanged (.stop n) = s.raise (.aisle .spareLink)) ∧ s.unpark (.stop n) = s) ∧
   (∀ (s : State) (x : Side), s.linkChanged (.lift x) = s.raise (.lift x .linkChange) ∧
     ((s.lift x).status ≠ .parked → s.unpark (.lift x) = s) ∧
     ((s.lift x).status = .parked → s.unpark (.lift x) =
       { s with lifts := s.lifts.set x.ix.val { s.lift x with status := .ready } })) ∧
   (∀ s : State, s.linkChanged .front = s.raise (.aisle .frontLinkChange) ∧ s.unpark .front = s) ∧
   (∀ s : State, s.inReset = false →
     let whole (p : Port) : State := { s with links := s.links.set p.ix.val { s.link p with heard := [] } }
     (∀ n l, s.levelAt n = some l →
       exec (.wrongNode (.stop n)) s = .next ((whole (.stop n)).raise (.level l .wrongNode)).closeEvent) ∧
     (∀ n, s.levelAt n = none →
       exec (.wrongNode (.stop n)) s = .next ((whole (.stop n)).raise (.aisle .spareLink)).closeEvent) ∧
     (∀ x, exec (.wrongNode (.lift x)) s = .next ((whole (.lift x)).raise (.aisle .wrongNode)).closeEvent) ∧
     exec (.wrongNode .front) s = .next ((whole .front).raise (.aisle .wrongNode)).closeEvent)) ∧
  ((∀ s : State, s.inReset = false → ∃ t : State, exec .statusPeriodEnd s = .next t.closeEvent ∧
     t = { s with links := t.links, statusPeriod := 2, fresh := t.fresh } ∧
     ∀ p, (t.link p).status = (s.link p).status ∧ (t.link p).heard = (s.link p).heard ∧
       (t.link p).order.filter (fun f => !f.isStatus) = (s.link p).order.filter (fun f => !f.isStatus) ∧
       ((s.link p).order.any OutFrame.isStatus = false → (t.link p).order = (s.link p).order ++ [.status s.stopped]) ∧
       (∀ h rest, (s.link p).order = h :: rest → rest.any OutFrame.isStatus = true →
         (t.link p).order = h :: rest.map fun f => if f.isStatus then .status s.stopped else f) ∧
       (∀ b rest, (s.link p).order = .status b :: rest → rest.any OutFrame.isStatus = false →
         ((t.link p).order = .status s.stopped :: rest ∨ (t.link p).order = .status b :: (rest ++ [.status s.stopped])) ∧
         ((s.link p).begun = true → (t.link p).order = .status b :: (rest ++ [.status s.stopped])))) ∧
   (∀ (s : State) (p : Port), s.inReset = false → exec (.frameLeavesLink p) s = .next ({ s with
     links := s.links.set p.ix.val { s.link p with order := (s.link p).order.tail, begun := false } } : State).closeEvent))


/-! ### Resets and the aisle stop -/

/-- HARD_RESET and SOFT_RESET bring every block to its reset values, the hard one holding the part in reset until RESET_RELEASE;
the soft one keeps the settings and the generations, and answers OK. Frames partly received are discarded, and a hard reset abandons
the port's transaction. Both send RESYNC with their kind (R66, R141, R160, R162, R163, R167, R173; log 5 for what acts in hard reset,
log 3 for the frame that may have begun to leave, log 12). -/
def Obligations.ResetsBringEveryBlockToItsResetValues : Prop :=
  (∀ s : State, exec .hardReset s = .next { State.reset with
    inReset := true, stopLine := s.stopLine, stopped := s.stopLine, fresh := s.fresh, pending := s.pending
    chip := if s.chip = .idle then .idle else .abandoned
    links := Vector.replicate 39 { status := .down, heard := [], order := [], begun := false } }) ∧
  (∀ s : State, s.inReset = true →
    (∃ t : State, exec .resetRelease s = .next t ∧
      t = { s with inReset := false, stopped := s.stopLine, statusPeriod := 2, links := t.links } ∧
      ∀ p, t.link p = { s.link p with order := (s.link p).order ++ [.resync .hard] }) ∧
    (∀ c : Instr, c ≠ .hardReset → c ≠ .resetRelease → c ≠ .stopAsserted → c ≠ .stopReleased →
      requestParts c = none → (∀ why, c ≠ .unknownRequest why) → (∀ act, c ≠ .collect act) → exec c s = .next s) ∧
    (∀ c : Instr, ((requestParts c).isSome ∨ (∃ why, c = .unknownRequest why) ∨
        ∃ n, c = .collect (.collects n) ∨ c = .collect (.polls n)) → exec c s = .next { s with chip := .idle }) ∧
    exec (.collect .asserts) s = .next { s with chip := if s.chip = .idle then .abandoned else s.chip }) ∧
  (∀ s : State, s.inReset = false → exec .resetRelease s = .next s) ∧
  (∀ s : State, s.ready → ∃ u : State, exec .softReset s = .next (s.doneWith u .empty) ∧
    u = { State.reset with
      resetKind := .soft, stopLine := s.stopLine, stopped := s.stopLine, settings := s.settings, slots := u.slots
      links := u.links, fresh := u.fresh, pending := s.pending } ∧
    (∀ i, u.slot i = { generation := (s.slot i).generation, lastEnd := .none, opened := none }) ∧
    (∀ p, (u.link p).status = .down ∧ (u.link p).heard = [] ∧
      ((s.link p).order = [] → (u.link p).order = [.resync .soft]) ∧
      (∀ h rest, (s.link p).order = h :: rest →
        ((u.link p).order = [.resync .soft] ∨ (u.link p).order = [h, .resync .soft]) ∧
        ((s.link p).begun = true → (u.link p).order = [h, .resync .soft]))))

/-- The aisle stop: an assertion makes the part STOPPED, pauses every transfer timer and ends every pending claim with REFUSE
STOPPED; a release makes it RUNNING, restarts every timer in full and re-evaluates parked requests; both raise STOP_CHANGE. No
record, lane, lift or list changes by them but through that re-evaluation, every link keeps its status, and the frames waiting on it stay,
STATUS aside (R65, R81, R141 to R143; logs 5, 11 and 12). -/
def Obligations.TheAisleStopPausesAndRestarts : Prop :=
  (∀ s : State, s.stopLine = false →
    (s.inReset = true → exec .stopAsserted s = .next { s with stopLine := true, stopped := true }) ∧
    (s.inReset = false → ∃ u : State, exec .stopAsserted s = .next u.closeEvent ∧
      u = { s with
        stopLine := true, stopped := true, slots := u.slots, approvals := [], claims := u.claims, links := u.links
        flags := u.flags, fresh := u.fresh } ∧
      u.raised (.aisle .stopChange) = true ∧ (∀ g, g ≠ 0 → nth u.flags g = nth s.flags g) ∧
      (∀ i, u.slot i = { s.slot i with opened := (s.slot i).opened.map fun o => { o with paused := true } }) ∧
      (∀ l, u.claimState l = if (s.pendingOf l).isSome then .idle else s.claimState l) ∧
      (∀ n l, s.stopOf l = some n → (s.pendingOf l).isSome → (∀ k, k ≠ l → s.stopOf k ≠ some n) →
        ∃ before, (u.link (.stop n)).order = before ++ [.refuse .stopped] ∧
          before.filter (fun f => !f.isStatus) = (s.link (.stop n)).order.filter fun f => !f.isStatus) ∧
      (∀ p, (∀ n l, s.stopOf l = some n → (s.pendingOf l).isSome → p ≠ .stop n) →
        (u.link p).order.filter (fun f => !f.isStatus) = (s.link p).order.filter fun f => !f.isStatus) ∧
      (∀ p, .status true ∈ (u.link p).order ∧ (u.link p).status = (s.link p).status ∧
        (u.link p).heard = (s.link p).heard))) ∧
  (∀ s : State, s.stopLine = true → exec .stopAsserted s = .next s ∧
    (s.inReset = true → exec .stopReleased s = .next { s with stopLine := false, stopped := false }) ∧
    (s.inReset = false → ∃ u : State, exec .stopReleased s = .next u.closeEvent ∧
      u = { s with
        stopLine := false, stopped := false, slots := u.slots, links := u.links, flags := u.flags, fresh := u.fresh
        cause := true } ∧
      u.raised (.aisle .stopChange) = true ∧ (∀ g, g ≠ 0 → nth u.flags g = nth s.flags g) ∧
      (∀ i, (s.slot i).opened = none → u.slot i = s.slot i) ∧
      (∀ i o, (s.slot i).opened = some o → u.slot i = { s.slot i with opened := some { o with
        paused := false
        timer :=
          if o.confirming then
            (if o.kind = .exitUnload then s.settings.params.exitReadWindow else s.settings.params.confirmWindow)
          else if o.kind = .shuttlePut ∨ o.kind = .shuttleTake then s.settings.params.motionLimitShuttle
          else s.settings.params.motionLimitLift } }) ∧
      (∀ p, .status false ∈ (u.link p).order ∧ (u.link p).status = (s.link p).status ∧
        (u.link p).heard = (s.link p).heard ∧
        (u.link p).order.filter (fun f => !f.isStatus) = (s.link p).order.filter fun f => !f.isStatus))) ∧
  (∀ s : State, s.stopLine = false → exec .stopReleased s = .next s)


/-! ### Parameters, events and the plain reads -/

/-- SET_PARAMETER: OUT_OF_RANGE outside the table of R172, BUSY for a CARRIAGE_LIMIT below what a carriage holds and reserves, and
otherwise the one value it writes; ENTRY_AGE_LIMIT is compared with the running ages in the same event (R86, R114, R172). -/
def Obligations.SetParameterWritesOneValue : Prop :=
  ∀ (s : State) (nb : Byte) (v : BitVec 16), s.ready →
    let sum (x : Side) : Nat := s.weightSum (s.lift x).contents + ((s.lift x).reserved.map fun y => y.weight.val).sum
    (10 < nb.toNat → exec (.setParameter nb v) s = .next (s.told .outOfRange .empty)) ∧
    (∀ n lo hi : Nat, (n, lo, hi) ∈ [(0, 20, 255), (1, 20, 255), (2, 1, 50), (3, 5, 100), (4, 0, 20), (5, 2, 50),
        (6, 1, 255), (7, 5, 600), (8, 5, 100), (9, 1, 7), (10, 4, 8)] → nb.toNat = n →
      (v.toNat < lo ∨ hi < v.toNat → exec (.setParameter nb v) s = .next (s.told .outOfRange .empty)) ∧
      (lo ≤ v.toNat → v.toNat ≤ hi →
        (n = 10 → v.toNat < sum .a ∨ v.toNat < sum .b → exec (.setParameter nb v) s = .next (s.told .busy .empty)) ∧
        (n ≠ 10 ∨ (sum .a ≤ v.toNat ∧ sum .b ≤ v.toNat) → ∃ u : State,
          exec (.setParameter nb v) s = .next (s.doneWith u .empty) ∧
          u.settings.params.values = s.settings.params.values.set n v.toNat ∧
          u = { s with
            settings := { s.settings with params := u.settings.params }, entries := u.entries, flags := u.flags } ∧
          (n ≠ 7 → u.entries = s.entries ∧ u.flags = s.flags) ∧
          (n = 7 → ∀ x,
            (((s.queue x).aged = true ∨ ∀ a, (s.queue x).age = some a → a < 10 * v.toNat) → u.queue x = s.queue x) ∧
            (∀ a, (s.queue x).aged = false → (s.queue x).age = some a → 10 * v.toNat ≤ a →
              u.queue x = { s.queue x with aged := true } ∧ u.raised (.entry x .entryAged) = true)))))

/-- READ_CLEAR_EVENTS returns exactly the flags it clears and makes a level's fault streak 0, SET_EVENT_MASK writes a mask within
its group's flags, SET_SUMMARY_ENABLE the one setting; the attention line follows in the event's close (R35, R175 to R177, R179; log
10 for the coding of on and off and for the width of a group number). -/
def Obligations.EventsAreClearedAndMasked : Prop :=
  ∀ (s : State) (b m : Byte), s.ready →
    (40 < b.toNat → exec (.readEvents b) s = .next (s.told .outOfRange .empty) ∧
      exec (.readClearEvents b) s = .next (s.told .outOfRange .empty) ∧
      exec (.setEventMask b m) s = .next (s.told .outOfRange .empty)) ∧
    (∀ g : Fin 41, b.toNat = g.val →
      exec (.readEvents b) s = .next (s.told .ok (.events (nth s.flags g) (nth s.settings.masks g))) ∧
      (∀ l, g = levelGroup l → exec (.readClearEvents b) s = .next (s.doneWith { s with
          flags := s.flags.set g.val 0
          levels := s.levels.set l.val { s.level l with streak := 0 } }
        (.events (nth s.flags g) (nth s.settings.masks g)))) ∧
      ((∀ l, g ≠ levelGroup l) → exec (.readClearEvents b) s = .next (s.doneWith { s with flags := s.flags.set g.val 0 }
        (.events (nth s.flags g) (nth s.settings.masks g)))) ∧
      let owned : Byte := if g.val = 0 then 0x7F else if g.val ≤ 32 then 0xFF else if g.val ≤ 34 then 0x1F
        else if g.val ≤ 38 then 0x0F else 0x03
      (m &&& ~~~owned ≠ 0 → exec (.setEventMask b m) s = .next (s.told .outOfRange .empty)) ∧
      (m &&& ~~~owned = 0 → exec (.setEventMask b m) s = .next (s.doneWith { s with
        settings := { s.settings with masks := s.settings.masks.set g.val m } } .empty))) ∧
    (1 < m.toNat → exec (.setSummaryEnable m) s = .next (s.told .outOfRange .empty)) ∧
    (m = 0 → exec (.setSummaryEnable m) s = .next (s.doneWith { s with
      settings := { s.settings with summaryEnable := true } } .empty)) ∧
    (m = 1 → exec (.setSummaryEnable m) s = .next (s.doneWith { s with
      settings := { s.settings with summaryEnable := false } } .empty)) ∧
    (s.attentionValue = true ↔ s.settings.summaryEnable = true ∧ ∃ g, nth s.flags g &&& nth s.settings.masks g ≠ 0)

/-- READ_LINKS, IDENTIFY and READ_SUMMARY, with READ_PARAMETERS and READ_CORRECTIONS (R166, R174, R178). -/
def Obligations.PlainReadsReturnTheStateAsItStands : Prop :=
  ∀ s : State, s.ready →
    (∃ v : Vector LinkStatus 39, exec .readLinks s = .next (s.told .ok (.links v)) ∧
      (∀ n : Stop, v[n.val]'(by omega) = (s.link (.stop n)).status) ∧ v[36] = (s.link (.lift .a)).status ∧
      v[37] = (s.link (.lift .b)).status ∧ v[38] = (s.link .front).status) ∧
    (∃ b, exec .identify s = .next (s.told .ok b) ∧ b.bytes = [0x0A, 0x36, 3]) ∧
    (∃ v : Vector Byte 41, exec .readSummary s = .next (s.told .ok (.summary v)) ∧
      ∀ g : Fin 41, ((nth v g).getLsbD 0 = true ↔ nth s.flags g ≠ 0) ∧
        ((nth v g).getLsbD 1 = true ↔ nth s.flags g &&& nth s.settings.masks g ≠ 0) ∧ nth v g &&& 0xFC = 0) ∧
    exec .readParameters s = .next (s.told .ok (.params s.settings.params)) ∧
    (∃ b, exec .readParameters s = .next (s.told .ok b) ∧ b.bytes.length = 22) ∧
    exec .readCorrections s = .next (s.told .ok (.corrections s.settings.corrections))
end

