-- ==== Sys2Proof/Laws/State.lean ====
section
/-! SUPPORT. One lemma per field per update of the state, each true by computation, so that no proof unfolds a record
update. -/

namespace Sys2Proof.Machine.State

/-! #### modLane -/

@[simp] theorem modLane_inReset (s : State) (l : LaneId) (f : Lane → Lane) : (s.modLane l f).inReset = s.inReset := rfl
@[simp] theorem modLane_resetKind (s : State) (l : LaneId) (f : Lane → Lane) : (s.modLane l f).resetKind = s.resetKind := rfl
@[simp] theorem modLane_stopLine (s : State) (l : LaneId) (f : Lane → Lane) : (s.modLane l f).stopLine = s.stopLine := rfl
@[simp] theorem modLane_stopped (s : State) (l : LaneId) (f : Lane → Lane) : (s.modLane l f).stopped = s.stopped := rfl
@[simp] theorem modLane_settings (s : State) (l : LaneId) (f : Lane → Lane) : (s.modLane l f).settings = s.settings := rfl
@[simp] theorem modLane_records (s : State) (l : LaneId) (f : Lane → Lane) : (s.modLane l f).records = s.records := rfl
@[simp] theorem modLane_levels (s : State) (l : LaneId) (f : Lane → Lane) : (s.modLane l f).levels = s.levels := rfl
@[simp] theorem modLane_slots (s : State) (l : LaneId) (f : Lane → Lane) : (s.modLane l f).slots = s.slots := rfl
@[simp] theorem modLane_claims (s : State) (l : LaneId) (f : Lane → Lane) : (s.modLane l f).claims = s.claims := rfl
@[simp] theorem modLane_approvals (s : State) (l : LaneId) (f : Lane → Lane) : (s.modLane l f).approvals = s.approvals := rfl
@[simp] theorem modLane_lifts (s : State) (l : LaneId) (f : Lane → Lane) : (s.modLane l f).lifts = s.lifts := rfl
@[simp] theorem modLane_entries (s : State) (l : LaneId) (f : Lane → Lane) : (s.modLane l f).entries = s.entries := rfl
@[simp] theorem modLane_stations (s : State) (l : LaneId) (f : Lane → Lane) : (s.modLane l f).stations = s.stations := rfl
@[simp] theorem modLane_lists (s : State) (l : LaneId) (f : Lane → Lane) : (s.modLane l f).lists = s.lists := rfl
@[simp] theorem modLane_opening (s : State) (l : LaneId) (f : Lane → Lane) : (s.modLane l f).opening = s.opening := rfl
@[simp] theorem modLane_unsolicited (s : State) (l : LaneId) (f : Lane → Lane) : (s.modLane l f).unsolicited = s.unsolicited := rfl
@[simp] theorem modLane_links (s : State) (l : LaneId) (f : Lane → Lane) : (s.modLane l f).links = s.links := rfl
@[simp] theorem modLane_statusPeriod (s : State) (l : LaneId) (f : Lane → Lane) : (s.modLane l f).statusPeriod = s.statusPeriod := rfl
@[simp] theorem modLane_buffer (s : State) (l : LaneId) (f : Lane → Lane) : (s.modLane l f).buffer = s.buffer := rfl
@[simp] theorem modLane_overrun (s : State) (l : LaneId) (f : Lane → Lane) : (s.modLane l f).overrun = s.overrun := rfl
@[simp] theorem modLane_chip (s : State) (l : LaneId) (f : Lane → Lane) : (s.modLane l f).chip = s.chip := rfl
@[simp] theorem modLane_portOut (s : State) (l : LaneId) (f : Lane → Lane) : (s.modLane l f).portOut = s.portOut := rfl
@[simp] theorem modLane_flags (s : State) (l : LaneId) (f : Lane → Lane) : (s.modLane l f).flags = s.flags := rfl
@[simp] theorem modLane_attention (s : State) (l : LaneId) (f : Lane → Lane) : (s.modLane l f).attention = s.attention := rfl
@[simp] theorem modLane_cause (s : State) (l : LaneId) (f : Lane → Lane) : (s.modLane l f).cause = s.cause := rfl
@[simp] theorem modLane_fresh (s : State) (l : LaneId) (f : Lane → Lane) : (s.modLane l f).fresh = s.fresh := rfl
@[simp] theorem modLane_pending (s : State) (l : LaneId) (f : Lane → Lane) : (s.modLane l f).pending = s.pending := rfl

/-! #### modLevel -/

@[simp] theorem modLevel_inReset (s : State) (l : Level) (f : LevelState → LevelState) : (s.modLevel l f).inReset = s.inReset := rfl
@[simp] theorem modLevel_resetKind (s : State) (l : Level) (f : LevelState → LevelState) : (s.modLevel l f).resetKind = s.resetKind := rfl
@[simp] theorem modLevel_stopLine (s : State) (l : Level) (f : LevelState → LevelState) : (s.modLevel l f).stopLine = s.stopLine := rfl
@[simp] theorem modLevel_stopped (s : State) (l : Level) (f : LevelState → LevelState) : (s.modLevel l f).stopped = s.stopped := rfl
@[simp] theorem modLevel_settings (s : State) (l : Level) (f : LevelState → LevelState) : (s.modLevel l f).settings = s.settings := rfl
@[simp] theorem modLevel_records (s : State) (l : Level) (f : LevelState → LevelState) : (s.modLevel l f).records = s.records := rfl
@[simp] theorem modLevel_lanes (s : State) (l : Level) (f : LevelState → LevelState) : (s.modLevel l f).lanes = s.lanes := rfl
@[simp] theorem modLevel_slots (s : State) (l : Level) (f : LevelState → LevelState) : (s.modLevel l f).slots = s.slots := rfl
@[simp] theorem modLevel_claims (s : State) (l : Level) (f : LevelState → LevelState) : (s.modLevel l f).claims = s.claims := rfl
@[simp] theorem modLevel_approvals (s : State) (l : Level) (f : LevelState → LevelState) : (s.modLevel l f).approvals = s.approvals := rfl
@[simp] theorem modLevel_lifts (s : State) (l : Level) (f : LevelState → LevelState) : (s.modLevel l f).lifts = s.lifts := rfl
@[simp] theorem modLevel_entries (s : State) (l : Level) (f : LevelState → LevelState) : (s.modLevel l f).entries = s.entries := rfl
@[simp] theorem modLevel_stations (s : State) (l : Level) (f : LevelState → LevelState) : (s.modLevel l f).stations = s.stations := rfl
@[simp] theorem modLevel_lists (s : State) (l : Level) (f : LevelState → LevelState) : (s.modLevel l f).lists = s.lists := rfl
@[simp] theorem modLevel_opening (s : State) (l : Level) (f : LevelState → LevelState) : (s.modLevel l f).opening = s.opening := rfl
@[simp] theorem modLevel_unsolicited (s : State) (l : Level) (f : LevelState → LevelState) : (s.modLevel l f).unsolicited = s.unsolicited := rfl
@[simp] theorem modLevel_links (s : State) (l : Level) (f : LevelState → LevelState) : (s.modLevel l f).links = s.links := rfl
@[simp] theorem modLevel_statusPeriod (s : State) (l : Level) (f : LevelState → LevelState) : (s.modLevel l f).statusPeriod = s.statusPeriod := rfl
@[simp] theorem modLevel_buffer (s : State) (l : Level) (f : LevelState → LevelState) : (s.modLevel l f).buffer = s.buffer := rfl
@[simp] theorem modLevel_overrun (s : State) (l : Level) (f : LevelState → LevelState) : (s.modLevel l f).overrun = s.overrun := rfl
@[simp] theorem modLevel_chip (s : State) (l : Level) (f : LevelState → LevelState) : (s.modLevel l f).chip = s.chip := rfl
@[simp] theorem modLevel_portOut (s : State) (l : Level) (f : LevelState → LevelState) : (s.modLevel l f).portOut = s.portOut := rfl
@[simp] theorem modLevel_flags (s : State) (l : Level) (f : LevelState → LevelState) : (s.modLevel l f).flags = s.flags := rfl
@[simp] theorem modLevel_attention (s : State) (l : Level) (f : LevelState → LevelState) : (s.modLevel l f).attention = s.attention := rfl
@[simp] theorem modLevel_cause (s : State) (l : Level) (f : LevelState → LevelState) : (s.modLevel l f).cause = s.cause := rfl
@[simp] theorem modLevel_fresh (s : State) (l : Level) (f : LevelState → LevelState) : (s.modLevel l f).fresh = s.fresh := rfl
@[simp] theorem modLevel_pending (s : State) (l : Level) (f : LevelState → LevelState) : (s.modLevel l f).pending = s.pending := rfl

/-! #### modSlot -/

@[simp] theorem modSlot_inReset (s : State) (i : Fin 34) (f : Slot → Slot) : (s.modSlot i f).inReset = s.inReset := rfl
@[simp] theorem modSlot_resetKind (s : State) (i : Fin 34) (f : Slot → Slot) : (s.modSlot i f).resetKind = s.resetKind := rfl
@[simp] theorem modSlot_stopLine (s : State) (i : Fin 34) (f : Slot → Slot) : (s.modSlot i f).stopLine = s.stopLine := rfl
@[simp] theorem modSlot_stopped (s : State) (i : Fin 34) (f : Slot → Slot) : (s.modSlot i f).stopped = s.stopped := rfl
@[simp] theorem modSlot_settings (s : State) (i : Fin 34) (f : Slot → Slot) : (s.modSlot i f).settings = s.settings := rfl
@[simp] theorem modSlot_records (s : State) (i : Fin 34) (f : Slot → Slot) : (s.modSlot i f).records = s.records := rfl
@[simp] theorem modSlot_lanes (s : State) (i : Fin 34) (f : Slot → Slot) : (s.modSlot i f).lanes = s.lanes := rfl
@[simp] theorem modSlot_levels (s : State) (i : Fin 34) (f : Slot → Slot) : (s.modSlot i f).levels = s.levels := rfl
@[simp] theorem modSlot_claims (s : State) (i : Fin 34) (f : Slot → Slot) : (s.modSlot i f).claims = s.claims := rfl
@[simp] theorem modSlot_approvals (s : State) (i : Fin 34) (f : Slot → Slot) : (s.modSlot i f).approvals = s.approvals := rfl
@[simp] theorem modSlot_lifts (s : State) (i : Fin 34) (f : Slot → Slot) : (s.modSlot i f).lifts = s.lifts := rfl
@[simp] theorem modSlot_entries (s : State) (i : Fin 34) (f : Slot → Slot) : (s.modSlot i f).entries = s.entries := rfl
@[simp] theorem modSlot_stations (s : State) (i : Fin 34) (f : Slot → Slot) : (s.modSlot i f).stations = s.stations := rfl
@[simp] theorem modSlot_lists (s : State) (i : Fin 34) (f : Slot → Slot) : (s.modSlot i f).lists = s.lists := rfl
@[simp] theorem modSlot_opening (s : State) (i : Fin 34) (f : Slot → Slot) : (s.modSlot i f).opening = s.opening := rfl
@[simp] theorem modSlot_unsolicited (s : State) (i : Fin 34) (f : Slot → Slot) : (s.modSlot i f).unsolicited = s.unsolicited := rfl
@[simp] theorem modSlot_links (s : State) (i : Fin 34) (f : Slot → Slot) : (s.modSlot i f).links = s.links := rfl
@[simp] theorem modSlot_statusPeriod (s : State) (i : Fin 34) (f : Slot → Slot) : (s.modSlot i f).statusPeriod = s.statusPeriod := rfl
@[simp] theorem modSlot_buffer (s : State) (i : Fin 34) (f : Slot → Slot) : (s.modSlot i f).buffer = s.buffer := rfl
@[simp] theorem modSlot_overrun (s : State) (i : Fin 34) (f : Slot → Slot) : (s.modSlot i f).overrun = s.overrun := rfl
@[simp] theorem modSlot_chip (s : State) (i : Fin 34) (f : Slot → Slot) : (s.modSlot i f).chip = s.chip := rfl
@[simp] theorem modSlot_portOut (s : State) (i : Fin 34) (f : Slot → Slot) : (s.modSlot i f).portOut = s.portOut := rfl
@[simp] theorem modSlot_flags (s : State) (i : Fin 34) (f : Slot → Slot) : (s.modSlot i f).flags = s.flags := rfl
@[simp] theorem modSlot_attention (s : State) (i : Fin 34) (f : Slot → Slot) : (s.modSlot i f).attention = s.attention := rfl
@[simp] theorem modSlot_cause (s : State) (i : Fin 34) (f : Slot → Slot) : (s.modSlot i f).cause = s.cause := rfl
@[simp] theorem modSlot_fresh (s : State) (i : Fin 34) (f : Slot → Slot) : (s.modSlot i f).fresh = s.fresh := rfl
@[simp] theorem modSlot_pending (s : State) (i : Fin 34) (f : Slot → Slot) : (s.modSlot i f).pending = s.pending := rfl

/-! #### setClaimState -/

@[simp] theorem setClaimState_inReset (s : State) (l : Level) (c : ClaimState) : (s.setClaimState l c).inReset = s.inReset := rfl
@[simp] theorem setClaimState_resetKind (s : State) (l : Level) (c : ClaimState) : (s.setClaimState l c).resetKind = s.resetKind := rfl
@[simp] theorem setClaimState_stopLine (s : State) (l : Level) (c : ClaimState) : (s.setClaimState l c).stopLine = s.stopLine := rfl
@[simp] theorem setClaimState_stopped (s : State) (l : Level) (c : ClaimState) : (s.setClaimState l c).stopped = s.stopped := rfl
@[simp] theorem setClaimState_settings (s : State) (l : Level) (c : ClaimState) : (s.setClaimState l c).settings = s.settings := rfl
@[simp] theorem setClaimState_records (s : State) (l : Level) (c : ClaimState) : (s.setClaimState l c).records = s.records := rfl
@[simp] theorem setClaimState_lanes (s : State) (l : Level) (c : ClaimState) : (s.setClaimState l c).lanes = s.lanes := rfl
@[simp] theorem setClaimState_levels (s : State) (l : Level) (c : ClaimState) : (s.setClaimState l c).levels = s.levels := rfl
@[simp] theorem setClaimState_slots (s : State) (l : Level) (c : ClaimState) : (s.setClaimState l c).slots = s.slots := rfl
@[simp] theorem setClaimState_approvals (s : State) (l : Level) (c : ClaimState) : (s.setClaimState l c).approvals = s.approvals := rfl
@[simp] theorem setClaimState_lifts (s : State) (l : Level) (c : ClaimState) : (s.setClaimState l c).lifts = s.lifts := rfl
@[simp] theorem setClaimState_entries (s : State) (l : Level) (c : ClaimState) : (s.setClaimState l c).entries = s.entries := rfl
@[simp] theorem setClaimState_stations (s : State) (l : Level) (c : ClaimState) : (s.setClaimState l c).stations = s.stations := rfl
@[simp] theorem setClaimState_lists (s : State) (l : Level) (c : ClaimState) : (s.setClaimState l c).lists = s.lists := rfl
@[simp] theorem setClaimState_opening (s : State) (l : Level) (c : ClaimState) : (s.setClaimState l c).opening = s.opening := rfl
@[simp] theorem setClaimState_unsolicited (s : State) (l : Level) (c : ClaimState) : (s.setClaimState l c).unsolicited = s.unsolicited := rfl
@[simp] theorem setClaimState_links (s : State) (l : Level) (c : ClaimState) : (s.setClaimState l c).links = s.links := rfl
@[simp] theorem setClaimState_statusPeriod (s : State) (l : Level) (c : ClaimState) : (s.setClaimState l c).statusPeriod = s.statusPeriod := rfl
@[simp] theorem setClaimState_buffer (s : State) (l : Level) (c : ClaimState) : (s.setClaimState l c).buffer = s.buffer := rfl
@[simp] theorem setClaimState_overrun (s : State) (l : Level) (c : ClaimState) : (s.setClaimState l c).overrun = s.overrun := rfl
@[simp] theorem setClaimState_chip (s : State) (l : Level) (c : ClaimState) : (s.setClaimState l c).chip = s.chip := rfl
@[simp] theorem setClaimState_portOut (s : State) (l : Level) (c : ClaimState) : (s.setClaimState l c).portOut = s.portOut := rfl
@[simp] theorem setClaimState_flags (s : State) (l : Level) (c : ClaimState) : (s.setClaimState l c).flags = s.flags := rfl
@[simp] theorem setClaimState_attention (s : State) (l : Level) (c : ClaimState) : (s.setClaimState l c).attention = s.attention := rfl
@[simp] theorem setClaimState_cause (s : State) (l : Level) (c : ClaimState) : (s.setClaimState l c).cause = s.cause := rfl
@[simp] theorem setClaimState_fresh (s : State) (l : Level) (c : ClaimState) : (s.setClaimState l c).fresh = s.fresh := rfl
@[simp] theorem setClaimState_pending (s : State) (l : Level) (c : ClaimState) : (s.setClaimState l c).pending = s.pending := rfl

/-! #### modLift -/

@[simp] theorem modLift_inReset (s : State) (x : Side) (f : Lift → Lift) : (s.modLift x f).inReset = s.inReset := rfl
@[simp] theorem modLift_resetKind (s : State) (x : Side) (f : Lift → Lift) : (s.modLift x f).resetKind = s.resetKind := rfl
@[simp] theorem modLift_stopLine (s : State) (x : Side) (f : Lift → Lift) : (s.modLift x f).stopLine = s.stopLine := rfl
@[simp] theorem modLift_stopped (s : State) (x : Side) (f : Lift → Lift) : (s.modLift x f).stopped = s.stopped := rfl
@[simp] theorem modLift_settings (s : State) (x : Side) (f : Lift → Lift) : (s.modLift x f).settings = s.settings := rfl
@[simp] theorem modLift_records (s : State) (x : Side) (f : Lift → Lift) : (s.modLift x f).records = s.records := rfl
@[simp] theorem modLift_lanes (s : State) (x : Side) (f : Lift → Lift) : (s.modLift x f).lanes = s.lanes := rfl
@[simp] theorem modLift_levels (s : State) (x : Side) (f : Lift → Lift) : (s.modLift x f).levels = s.levels := rfl
@[simp] theorem modLift_slots (s : State) (x : Side) (f : Lift → Lift) : (s.modLift x f).slots = s.slots := rfl
@[simp] theorem modLift_claims (s : State) (x : Side) (f : Lift → Lift) : (s.modLift x f).claims = s.claims := rfl
@[simp] theorem modLift_approvals (s : State) (x : Side) (f : Lift → Lift) : (s.modLift x f).approvals = s.approvals := rfl
@[simp] theorem modLift_entries (s : State) (x : Side) (f : Lift → Lift) : (s.modLift x f).entries = s.entries := rfl
@[simp] theorem modLift_stations (s : State) (x : Side) (f : Lift → Lift) : (s.modLift x f).stations = s.stations := rfl
@[simp] theorem modLift_lists (s : State) (x : Side) (f : Lift → Lift) : (s.modLift x f).lists = s.lists := rfl
@[simp] theorem modLift_opening (s : State) (x : Side) (f : Lift → Lift) : (s.modLift x f).opening = s.opening := rfl
@[simp] theorem modLift_unsolicited (s : State) (x : Side) (f : Lift → Lift) : (s.modLift x f).unsolicited = s.unsolicited := rfl
@[simp] theorem modLift_links (s : State) (x : Side) (f : Lift → Lift) : (s.modLift x f).links = s.links := rfl
@[simp] theorem modLift_statusPeriod (s : State) (x : Side) (f : Lift → Lift) : (s.modLift x f).statusPeriod = s.statusPeriod := rfl
@[simp] theorem modLift_buffer (s : State) (x : Side) (f : Lift → Lift) : (s.modLift x f).buffer = s.buffer := rfl
@[simp] theorem modLift_overrun (s : State) (x : Side) (f : Lift → Lift) : (s.modLift x f).overrun = s.overrun := rfl
@[simp] theorem modLift_chip (s : State) (x : Side) (f : Lift → Lift) : (s.modLift x f).chip = s.chip := rfl
@[simp] theorem modLift_portOut (s : State) (x : Side) (f : Lift → Lift) : (s.modLift x f).portOut = s.portOut := rfl
@[simp] theorem modLift_flags (s : State) (x : Side) (f : Lift → Lift) : (s.modLift x f).flags = s.flags := rfl
@[simp] theorem modLift_attention (s : State) (x : Side) (f : Lift → Lift) : (s.modLift x f).attention = s.attention := rfl
@[simp] theorem modLift_cause (s : State) (x : Side) (f : Lift → Lift) : (s.modLift x f).cause = s.cause := rfl
@[simp] theorem modLift_fresh (s : State) (x : Side) (f : Lift → Lift) : (s.modLift x f).fresh = s.fresh := rfl
@[simp] theorem modLift_pending (s : State) (x : Side) (f : Lift → Lift) : (s.modLift x f).pending = s.pending := rfl

/-! #### modQueue -/

@[simp] theorem modQueue_inReset (s : State) (x : Side) (f : EntryQueue → EntryQueue) : (s.modQueue x f).inReset = s.inReset := rfl
@[simp] theorem modQueue_resetKind (s : State) (x : Side) (f : EntryQueue → EntryQueue) : (s.modQueue x f).resetKind = s.resetKind := rfl
@[simp] theorem modQueue_stopLine (s : State) (x : Side) (f : EntryQueue → EntryQueue) : (s.modQueue x f).stopLine = s.stopLine := rfl
@[simp] theorem modQueue_stopped (s : State) (x : Side) (f : EntryQueue → EntryQueue) : (s.modQueue x f).stopped = s.stopped := rfl
@[simp] theorem modQueue_settings (s : State) (x : Side) (f : EntryQueue → EntryQueue) : (s.modQueue x f).settings = s.settings := rfl
@[simp] theorem modQueue_records (s : State) (x : Side) (f : EntryQueue → EntryQueue) : (s.modQueue x f).records = s.records := rfl
@[simp] theorem modQueue_lanes (s : State) (x : Side) (f : EntryQueue → EntryQueue) : (s.modQueue x f).lanes = s.lanes := rfl
@[simp] theorem modQueue_levels (s : State) (x : Side) (f : EntryQueue → EntryQueue) : (s.modQueue x f).levels = s.levels := rfl
@[simp] theorem modQueue_slots (s : State) (x : Side) (f : EntryQueue → EntryQueue) : (s.modQueue x f).slots = s.slots := rfl
@[simp] theorem modQueue_claims (s : State) (x : Side) (f : EntryQueue → EntryQueue) : (s.modQueue x f).claims = s.claims := rfl
@[simp] theorem modQueue_approvals (s : State) (x : Side) (f : EntryQueue → EntryQueue) : (s.modQueue x f).approvals = s.approvals := rfl
@[simp] theorem modQueue_lifts (s : State) (x : Side) (f : EntryQueue → EntryQueue) : (s.modQueue x f).lifts = s.lifts := rfl
@[simp] theorem modQueue_stations (s : State) (x : Side) (f : EntryQueue → EntryQueue) : (s.modQueue x f).stations = s.stations := rfl
@[simp] theorem modQueue_lists (s : State) (x : Side) (f : EntryQueue → EntryQueue) : (s.modQueue x f).lists = s.lists := rfl
@[simp] theorem modQueue_opening (s : State) (x : Side) (f : EntryQueue → EntryQueue) : (s.modQueue x f).opening = s.opening := rfl
@[simp] theorem modQueue_unsolicited (s : State) (x : Side) (f : EntryQueue → EntryQueue) : (s.modQueue x f).unsolicited = s.unsolicited := rfl
@[simp] theorem modQueue_links (s : State) (x : Side) (f : EntryQueue → EntryQueue) : (s.modQueue x f).links = s.links := rfl
@[simp] theorem modQueue_statusPeriod (s : State) (x : Side) (f : EntryQueue → EntryQueue) : (s.modQueue x f).statusPeriod = s.statusPeriod := rfl
@[simp] theorem modQueue_buffer (s : State) (x : Side) (f : EntryQueue → EntryQueue) : (s.modQueue x f).buffer = s.buffer := rfl
@[simp] theorem modQueue_overrun (s : State) (x : Side) (f : EntryQueue → EntryQueue) : (s.modQueue x f).overrun = s.overrun := rfl
@[simp] theorem modQueue_chip (s : State) (x : Side) (f : EntryQueue → EntryQueue) : (s.modQueue x f).chip = s.chip := rfl
@[simp] theorem modQueue_portOut (s : State) (x : Side) (f : EntryQueue → EntryQueue) : (s.modQueue x f).portOut = s.portOut := rfl
@[simp] theorem modQueue_flags (s : State) (x : Side) (f : EntryQueue → EntryQueue) : (s.modQueue x f).flags = s.flags := rfl
@[simp] theorem modQueue_attention (s : State) (x : Side) (f : EntryQueue → EntryQueue) : (s.modQueue x f).attention = s.attention := rfl
@[simp] theorem modQueue_cause (s : State) (x : Side) (f : EntryQueue → EntryQueue) : (s.modQueue x f).cause = s.cause := rfl
@[simp] theorem modQueue_fresh (s : State) (x : Side) (f : EntryQueue → EntryQueue) : (s.modQueue x f).fresh = s.fresh := rfl
@[simp] theorem modQueue_pending (s : State) (x : Side) (f : EntryQueue → EntryQueue) : (s.modQueue x f).pending = s.pending := rfl

/-! #### modStation -/

@[simp] theorem modStation_inReset (s : State) (n : StationNo) (f : Station → Station) : (s.modStation n f).inReset = s.inReset := rfl
@[simp] theorem modStation_resetKind (s : State) (n : StationNo) (f : Station → Station) : (s.modStation n f).resetKind = s.resetKind := rfl
@[simp] theorem modStation_stopLine (s : State) (n : StationNo) (f : Station → Station) : (s.modStation n f).stopLine = s.stopLine := rfl
@[simp] theorem modStation_stopped (s : State) (n : StationNo) (f : Station → Station) : (s.modStation n f).stopped = s.stopped := rfl
@[simp] theorem modStation_settings (s : State) (n : StationNo) (f : Station → Station) : (s.modStation n f).settings = s.settings := rfl
@[simp] theorem modStation_records (s : State) (n : StationNo) (f : Station → Station) : (s.modStation n f).records = s.records := rfl
@[simp] theorem modStation_lanes (s : State) (n : StationNo) (f : Station → Station) : (s.modStation n f).lanes = s.lanes := rfl
@[simp] theorem modStation_levels (s : State) (n : StationNo) (f : Station → Station) : (s.modStation n f).levels = s.levels := rfl
@[simp] theorem modStation_slots (s : State) (n : StationNo) (f : Station → Station) : (s.modStation n f).slots = s.slots := rfl
@[simp] theorem modStation_claims (s : State) (n : StationNo) (f : Station → Station) : (s.modStation n f).claims = s.claims := rfl
@[simp] theorem modStation_approvals (s : State) (n : StationNo) (f : Station → Station) : (s.modStation n f).approvals = s.approvals := rfl
@[simp] theorem modStation_lifts (s : State) (n : StationNo) (f : Station → Station) : (s.modStation n f).lifts = s.lifts := rfl
@[simp] theorem modStation_entries (s : State) (n : StationNo) (f : Station → Station) : (s.modStation n f).entries = s.entries := rfl
@[simp] theorem modStation_lists (s : State) (n : StationNo) (f : Station → Station) : (s.modStation n f).lists = s.lists := rfl
@[simp] theorem modStation_opening (s : State) (n : StationNo) (f : Station → Station) : (s.modStation n f).opening = s.opening := rfl
@[simp] theorem modStation_unsolicited (s : State) (n : StationNo) (f : Station → Station) : (s.modStation n f).unsolicited = s.unsolicited := rfl
@[simp] theorem modStation_links (s : State) (n : StationNo) (f : Station → Station) : (s.modStation n f).links = s.links := rfl
@[simp] theorem modStation_statusPeriod (s : State) (n : StationNo) (f : Station → Station) : (s.modStation n f).statusPeriod = s.statusPeriod := rfl
@[simp] theorem modStation_buffer (s : State) (n : StationNo) (f : Station → Station) : (s.modStation n f).buffer = s.buffer := rfl
@[simp] theorem modStation_overrun (s : State) (n : StationNo) (f : Station → Station) : (s.modStation n f).overrun = s.overrun := rfl
@[simp] theorem modStation_chip (s : State) (n : StationNo) (f : Station → Station) : (s.modStation n f).chip = s.chip := rfl
@[simp] theorem modStation_portOut (s : State) (n : StationNo) (f : Station → Station) : (s.modStation n f).portOut = s.portOut := rfl
@[simp] theorem modStation_flags (s : State) (n : StationNo) (f : Station → Station) : (s.modStation n f).flags = s.flags := rfl
@[simp] theorem modStation_attention (s : State) (n : StationNo) (f : Station → Station) : (s.modStation n f).attention = s.attention := rfl
@[simp] theorem modStation_cause (s : State) (n : StationNo) (f : Station → Station) : (s.modStation n f).cause = s.cause := rfl
@[simp] theorem modStation_fresh (s : State) (n : StationNo) (f : Station → Station) : (s.modStation n f).fresh = s.fresh := rfl
@[simp] theorem modStation_pending (s : State) (n : StationNo) (f : Station → Station) : (s.modStation n f).pending = s.pending := rfl

/-! #### setList -/

@[simp] theorem setList_inReset (s : State) (l : Fin 16) (r : Option ReleaseList) : (s.setList l r).inReset = s.inReset := rfl
@[simp] theorem setList_resetKind (s : State) (l : Fin 16) (r : Option ReleaseList) : (s.setList l r).resetKind = s.resetKind := rfl
@[simp] theorem setList_stopLine (s : State) (l : Fin 16) (r : Option ReleaseList) : (s.setList l r).stopLine = s.stopLine := rfl
@[simp] theorem setList_stopped (s : State) (l : Fin 16) (r : Option ReleaseList) : (s.setList l r).stopped = s.stopped := rfl
@[simp] theorem setList_settings (s : State) (l : Fin 16) (r : Option ReleaseList) : (s.setList l r).settings = s.settings := rfl
@[simp] theorem setList_records (s : State) (l : Fin 16) (r : Option ReleaseList) : (s.setList l r).records = s.records := rfl
@[simp] theorem setList_lanes (s : State) (l : Fin 16) (r : Option ReleaseList) : (s.setList l r).lanes = s.lanes := rfl
@[simp] theorem setList_levels (s : State) (l : Fin 16) (r : Option ReleaseList) : (s.setList l r).levels = s.levels := rfl
@[simp] theorem setList_slots (s : State) (l : Fin 16) (r : Option ReleaseList) : (s.setList l r).slots = s.slots := rfl
@[simp] theorem setList_claims (s : State) (l : Fin 16) (r : Option ReleaseList) : (s.setList l r).claims = s.claims := rfl
@[simp] theorem setList_approvals (s : State) (l : Fin 16) (r : Option ReleaseList) : (s.setList l r).approvals = s.approvals := rfl
@[simp] theorem setList_lifts (s : State) (l : Fin 16) (r : Option ReleaseList) : (s.setList l r).lifts = s.lifts := rfl
@[simp] theorem setList_entries (s : State) (l : Fin 16) (r : Option ReleaseList) : (s.setList l r).entries = s.entries := rfl
@[simp] theorem setList_stations (s : State) (l : Fin 16) (r : Option ReleaseList) : (s.setList l r).stations = s.stations := rfl
@[simp] theorem setList_opening (s : State) (l : Fin 16) (r : Option ReleaseList) : (s.setList l r).opening = s.opening := rfl
@[simp] theorem setList_unsolicited (s : State) (l : Fin 16) (r : Option ReleaseList) : (s.setList l r).unsolicited = s.unsolicited := rfl
@[simp] theorem setList_links (s : State) (l : Fin 16) (r : Option ReleaseList) : (s.setList l r).links = s.links := rfl
@[simp] theorem setList_statusPeriod (s : State) (l : Fin 16) (r : Option ReleaseList) : (s.setList l r).statusPeriod = s.statusPeriod := rfl
@[simp] theorem setList_buffer (s : State) (l : Fin 16) (r : Option ReleaseList) : (s.setList l r).buffer = s.buffer := rfl
@[simp] theorem setList_overrun (s : State) (l : Fin 16) (r : Option ReleaseList) : (s.setList l r).overrun = s.overrun := rfl
@[simp] theorem setList_chip (s : State) (l : Fin 16) (r : Option ReleaseList) : (s.setList l r).chip = s.chip := rfl
@[simp] theorem setList_portOut (s : State) (l : Fin 16) (r : Option ReleaseList) : (s.setList l r).portOut = s.portOut := rfl
@[simp] theorem setList_flags (s : State) (l : Fin 16) (r : Option ReleaseList) : (s.setList l r).flags = s.flags := rfl
@[simp] theorem setList_attention (s : State) (l : Fin 16) (r : Option ReleaseList) : (s.setList l r).attention = s.attention := rfl
@[simp] theorem setList_cause (s : State) (l : Fin 16) (r : Option ReleaseList) : (s.setList l r).cause = s.cause := rfl
@[simp] theorem setList_fresh (s : State) (l : Fin 16) (r : Option ReleaseList) : (s.setList l r).fresh = s.fresh := rfl
@[simp] theorem setList_pending (s : State) (l : Fin 16) (r : Option ReleaseList) : (s.setList l r).pending = s.pending := rfl

/-! #### modLink -/

@[simp] theorem modLink_inReset (s : State) (p : Port) (f : Link → Link) : (s.modLink p f).inReset = s.inReset := rfl
@[simp] theorem modLink_resetKind (s : State) (p : Port) (f : Link → Link) : (s.modLink p f).resetKind = s.resetKind := rfl
@[simp] theorem modLink_stopLine (s : State) (p : Port) (f : Link → Link) : (s.modLink p f).stopLine = s.stopLine := rfl
@[simp] theorem modLink_stopped (s : State) (p : Port) (f : Link → Link) : (s.modLink p f).stopped = s.stopped := rfl
@[simp] theorem modLink_settings (s : State) (p : Port) (f : Link → Link) : (s.modLink p f).settings = s.settings := rfl
@[simp] theorem modLink_records (s : State) (p : Port) (f : Link → Link) : (s.modLink p f).records = s.records := rfl
@[simp] theorem modLink_lanes (s : State) (p : Port) (f : Link → Link) : (s.modLink p f).lanes = s.lanes := rfl
@[simp] theorem modLink_levels (s : State) (p : Port) (f : Link → Link) : (s.modLink p f).levels = s.levels := rfl
@[simp] theorem modLink_slots (s : State) (p : Port) (f : Link → Link) : (s.modLink p f).slots = s.slots := rfl
@[simp] theorem modLink_claims (s : State) (p : Port) (f : Link → Link) : (s.modLink p f).claims = s.claims := rfl
@[simp] theorem modLink_approvals (s : State) (p : Port) (f : Link → Link) : (s.modLink p f).approvals = s.approvals := rfl
@[simp] theorem modLink_lifts (s : State) (p : Port) (f : Link → Link) : (s.modLink p f).lifts = s.lifts := rfl
@[simp] theorem modLink_entries (s : State) (p : Port) (f : Link → Link) : (s.modLink p f).entries = s.entries := rfl
@[simp] theorem modLink_stations (s : State) (p : Port) (f : Link → Link) : (s.modLink p f).stations = s.stations := rfl
@[simp] theorem modLink_lists (s : State) (p : Port) (f : Link → Link) : (s.modLink p f).lists = s.lists := rfl
@[simp] theorem modLink_opening (s : State) (p : Port) (f : Link → Link) : (s.modLink p f).opening = s.opening := rfl
@[simp] theorem modLink_unsolicited (s : State) (p : Port) (f : Link → Link) : (s.modLink p f).unsolicited = s.unsolicited := rfl
@[simp] theorem modLink_statusPeriod (s : State) (p : Port) (f : Link → Link) : (s.modLink p f).statusPeriod = s.statusPeriod := rfl
@[simp] theorem modLink_buffer (s : State) (p : Port) (f : Link → Link) : (s.modLink p f).buffer = s.buffer := rfl
@[simp] theorem modLink_overrun (s : State) (p : Port) (f : Link → Link) : (s.modLink p f).overrun = s.overrun := rfl
@[simp] theorem modLink_chip (s : State) (p : Port) (f : Link → Link) : (s.modLink p f).chip = s.chip := rfl
@[simp] theorem modLink_portOut (s : State) (p : Port) (f : Link → Link) : (s.modLink p f).portOut = s.portOut := rfl
@[simp] theorem modLink_flags (s : State) (p : Port) (f : Link → Link) : (s.modLink p f).flags = s.flags := rfl
@[simp] theorem modLink_attention (s : State) (p : Port) (f : Link → Link) : (s.modLink p f).attention = s.attention := rfl
@[simp] theorem modLink_cause (s : State) (p : Port) (f : Link → Link) : (s.modLink p f).cause = s.cause := rfl
@[simp] theorem modLink_fresh (s : State) (p : Port) (f : Link → Link) : (s.modLink p f).fresh = s.fresh := rfl
@[simp] theorem modLink_pending (s : State) (p : Port) (f : Link → Link) : (s.modLink p f).pending = s.pending := rfl

/-! #### modRecord -/

@[simp] theorem modRecord_inReset (s : State) (i : Ident) (f : Record → Record) : (s.modRecord i f).inReset = s.inReset := rfl
@[simp] theorem modRecord_resetKind (s : State) (i : Ident) (f : Record → Record) : (s.modRecord i f).resetKind = s.resetKind := rfl
@[simp] theorem modRecord_stopLine (s : State) (i : Ident) (f : Record → Record) : (s.modRecord i f).stopLine = s.stopLine := rfl
@[simp] theorem modRecord_stopped (s : State) (i : Ident) (f : Record → Record) : (s.modRecord i f).stopped = s.stopped := rfl
@[simp] theorem modRecord_settings (s : State) (i : Ident) (f : Record → Record) : (s.modRecord i f).settings = s.settings := rfl
@[simp] theorem modRecord_lanes (s : State) (i : Ident) (f : Record → Record) : (s.modRecord i f).lanes = s.lanes := rfl
@[simp] theorem modRecord_levels (s : State) (i : Ident) (f : Record → Record) : (s.modRecord i f).levels = s.levels := rfl
@[simp] theorem modRecord_slots (s : State) (i : Ident) (f : Record → Record) : (s.modRecord i f).slots = s.slots := rfl
@[simp] theorem modRecord_claims (s : State) (i : Ident) (f : Record → Record) : (s.modRecord i f).claims = s.claims := rfl
@[simp] theorem modRecord_approvals (s : State) (i : Ident) (f : Record → Record) : (s.modRecord i f).approvals = s.approvals := rfl
@[simp] theorem modRecord_lifts (s : State) (i : Ident) (f : Record → Record) : (s.modRecord i f).lifts = s.lifts := rfl
@[simp] theorem modRecord_entries (s : State) (i : Ident) (f : Record → Record) : (s.modRecord i f).entries = s.entries := rfl
@[simp] theorem modRecord_stations (s : State) (i : Ident) (f : Record → Record) : (s.modRecord i f).stations = s.stations := rfl
@[simp] theorem modRecord_lists (s : State) (i : Ident) (f : Record → Record) : (s.modRecord i f).lists = s.lists := rfl
@[simp] theorem modRecord_opening (s : State) (i : Ident) (f : Record → Record) : (s.modRecord i f).opening = s.opening := rfl
@[simp] theorem modRecord_unsolicited (s : State) (i : Ident) (f : Record → Record) : (s.modRecord i f).unsolicited = s.unsolicited := rfl
@[simp] theorem modRecord_links (s : State) (i : Ident) (f : Record → Record) : (s.modRecord i f).links = s.links := rfl
@[simp] theorem modRecord_statusPeriod (s : State) (i : Ident) (f : Record → Record) : (s.modRecord i f).statusPeriod = s.statusPeriod := rfl
@[simp] theorem modRecord_buffer (s : State) (i : Ident) (f : Record → Record) : (s.modRecord i f).buffer = s.buffer := rfl
@[simp] theorem modRecord_overrun (s : State) (i : Ident) (f : Record → Record) : (s.modRecord i f).overrun = s.overrun := rfl
@[simp] theorem modRecord_chip (s : State) (i : Ident) (f : Record → Record) : (s.modRecord i f).chip = s.chip := rfl
@[simp] theorem modRecord_portOut (s : State) (i : Ident) (f : Record → Record) : (s.modRecord i f).portOut = s.portOut := rfl
@[simp] theorem modRecord_flags (s : State) (i : Ident) (f : Record → Record) : (s.modRecord i f).flags = s.flags := rfl
@[simp] theorem modRecord_attention (s : State) (i : Ident) (f : Record → Record) : (s.modRecord i f).attention = s.attention := rfl
@[simp] theorem modRecord_cause (s : State) (i : Ident) (f : Record → Record) : (s.modRecord i f).cause = s.cause := rfl
@[simp] theorem modRecord_fresh (s : State) (i : Ident) (f : Record → Record) : (s.modRecord i f).fresh = s.fresh := rfl
@[simp] theorem modRecord_pending (s : State) (i : Ident) (f : Record → Record) : (s.modRecord i f).pending = s.pending := rfl

/-! #### modSettings -/

@[simp] theorem modSettings_inReset (s : State) (f : Settings → Settings) : (s.modSettings f).inReset = s.inReset := rfl
@[simp] theorem modSettings_resetKind (s : State) (f : Settings → Settings) : (s.modSettings f).resetKind = s.resetKind := rfl
@[simp] theorem modSettings_stopLine (s : State) (f : Settings → Settings) : (s.modSettings f).stopLine = s.stopLine := rfl
@[simp] theorem modSettings_stopped (s : State) (f : Settings → Settings) : (s.modSettings f).stopped = s.stopped := rfl
@[simp] theorem modSettings_records (s : State) (f : Settings → Settings) : (s.modSettings f).records = s.records := rfl
@[simp] theorem modSettings_lanes (s : State) (f : Settings → Settings) : (s.modSettings f).lanes = s.lanes := rfl
@[simp] theorem modSettings_levels (s : State) (f : Settings → Settings) : (s.modSettings f).levels = s.levels := rfl
@[simp] theorem modSettings_slots (s : State) (f : Settings → Settings) : (s.modSettings f).slots = s.slots := rfl
@[simp] theorem modSettings_claims (s : State) (f : Settings → Settings) : (s.modSettings f).claims = s.claims := rfl
@[simp] theorem modSettings_approvals (s : State) (f : Settings → Settings) : (s.modSettings f).approvals = s.approvals := rfl
@[simp] theorem modSettings_lifts (s : State) (f : Settings → Settings) : (s.modSettings f).lifts = s.lifts := rfl
@[simp] theorem modSettings_entries (s : State) (f : Settings → Settings) : (s.modSettings f).entries = s.entries := rfl
@[simp] theorem modSettings_stations (s : State) (f : Settings → Settings) : (s.modSettings f).stations = s.stations := rfl
@[simp] theorem modSettings_lists (s : State) (f : Settings → Settings) : (s.modSettings f).lists = s.lists := rfl
@[simp] theorem modSettings_opening (s : State) (f : Settings → Settings) : (s.modSettings f).opening = s.opening := rfl
@[simp] theorem modSettings_unsolicited (s : State) (f : Settings → Settings) : (s.modSettings f).unsolicited = s.unsolicited := rfl
@[simp] theorem modSettings_links (s : State) (f : Settings → Settings) : (s.modSettings f).links = s.links := rfl
@[simp] theorem modSettings_statusPeriod (s : State) (f : Settings → Settings) : (s.modSettings f).statusPeriod = s.statusPeriod := rfl
@[simp] theorem modSettings_buffer (s : State) (f : Settings → Settings) : (s.modSettings f).buffer = s.buffer := rfl
@[simp] theorem modSettings_overrun (s : State) (f : Settings → Settings) : (s.modSettings f).overrun = s.overrun := rfl
@[simp] theorem modSettings_chip (s : State) (f : Settings → Settings) : (s.modSettings f).chip = s.chip := rfl
@[simp] theorem modSettings_portOut (s : State) (f : Settings → Settings) : (s.modSettings f).portOut = s.portOut := rfl
@[simp] theorem modSettings_flags (s : State) (f : Settings → Settings) : (s.modSettings f).flags = s.flags := rfl
@[simp] theorem modSettings_attention (s : State) (f : Settings → Settings) : (s.modSettings f).attention = s.attention := rfl
@[simp] theorem modSettings_cause (s : State) (f : Settings → Settings) : (s.modSettings f).cause = s.cause := rfl
@[simp] theorem modSettings_fresh (s : State) (f : Settings → Settings) : (s.modSettings f).fresh = s.fresh := rfl
@[simp] theorem modSettings_pending (s : State) (f : Settings → Settings) : (s.modSettings f).pending = s.pending := rfl

/-! #### retire -/

@[simp] theorem retire_inReset (s : State) (i : Ident) : (s.retire i).inReset = s.inReset := rfl
@[simp] theorem retire_resetKind (s : State) (i : Ident) : (s.retire i).resetKind = s.resetKind := rfl
@[simp] theorem retire_stopLine (s : State) (i : Ident) : (s.retire i).stopLine = s.stopLine := rfl
@[simp] theorem retire_stopped (s : State) (i : Ident) : (s.retire i).stopped = s.stopped := rfl
@[simp] theorem retire_settings (s : State) (i : Ident) : (s.retire i).settings = s.settings := rfl
@[simp] theorem retire_lanes (s : State) (i : Ident) : (s.retire i).lanes = s.lanes := rfl
@[simp] theorem retire_levels (s : State) (i : Ident) : (s.retire i).levels = s.levels := rfl
@[simp] theorem retire_slots (s : State) (i : Ident) : (s.retire i).slots = s.slots := rfl
@[simp] theorem retire_claims (s : State) (i : Ident) : (s.retire i).claims = s.claims := rfl
@[simp] theorem retire_approvals (s : State) (i : Ident) : (s.retire i).approvals = s.approvals := rfl
@[simp] theorem retire_lifts (s : State) (i : Ident) : (s.retire i).lifts = s.lifts := rfl
@[simp] theorem retire_entries (s : State) (i : Ident) : (s.retire i).entries = s.entries := rfl
@[simp] theorem retire_stations (s : State) (i : Ident) : (s.retire i).stations = s.stations := rfl
@[simp] theorem retire_lists (s : State) (i : Ident) : (s.retire i).lists = s.lists := rfl
@[simp] theorem retire_opening (s : State) (i : Ident) : (s.retire i).opening = s.opening := rfl
@[simp] theorem retire_unsolicited (s : State) (i : Ident) : (s.retire i).unsolicited = s.unsolicited := rfl
@[simp] theorem retire_links (s : State) (i : Ident) : (s.retire i).links = s.links := rfl
@[simp] theorem retire_statusPeriod (s : State) (i : Ident) : (s.retire i).statusPeriod = s.statusPeriod := rfl
@[simp] theorem retire_buffer (s : State) (i : Ident) : (s.retire i).buffer = s.buffer := rfl
@[simp] theorem retire_overrun (s : State) (i : Ident) : (s.retire i).overrun = s.overrun := rfl
@[simp] theorem retire_chip (s : State) (i : Ident) : (s.retire i).chip = s.chip := rfl
@[simp] theorem retire_portOut (s : State) (i : Ident) : (s.retire i).portOut = s.portOut := rfl
@[simp] theorem retire_flags (s : State) (i : Ident) : (s.retire i).flags = s.flags := rfl
@[simp] theorem retire_attention (s : State) (i : Ident) : (s.retire i).attention = s.attention := rfl
@[simp] theorem retire_cause (s : State) (i : Ident) : (s.retire i).cause = s.cause := rfl
@[simp] theorem retire_fresh (s : State) (i : Ident) : (s.retire i).fresh = s.fresh := rfl
@[simp] theorem retire_pending (s : State) (i : Ident) : (s.retire i).pending = s.pending := rfl

/-! #### create -/

@[simp] theorem create_inReset (s : State) (r : Record) : (s.create r).inReset = s.inReset := rfl
@[simp] theorem create_resetKind (s : State) (r : Record) : (s.create r).resetKind = s.resetKind := rfl
@[simp] theorem create_stopLine (s : State) (r : Record) : (s.create r).stopLine = s.stopLine := rfl
@[simp] theorem create_stopped (s : State) (r : Record) : (s.create r).stopped = s.stopped := rfl
@[simp] theorem create_settings (s : State) (r : Record) : (s.create r).settings = s.settings := rfl
@[simp] theorem create_lanes (s : State) (r : Record) : (s.create r).lanes = s.lanes := rfl
@[simp] theorem create_levels (s : State) (r : Record) : (s.create r).levels = s.levels := rfl
@[simp] theorem create_slots (s : State) (r : Record) : (s.create r).slots = s.slots := rfl
@[simp] theorem create_claims (s : State) (r : Record) : (s.create r).claims = s.claims := rfl
@[simp] theorem create_approvals (s : State) (r : Record) : (s.create r).approvals = s.approvals := rfl
@[simp] theorem create_lifts (s : State) (r : Record) : (s.create r).lifts = s.lifts := rfl
@[simp] theorem create_entries (s : State) (r : Record) : (s.create r).entries = s.entries := rfl
@[simp] theorem create_stations (s : State) (r : Record) : (s.create r).stations = s.stations := rfl
@[simp] theorem create_lists (s : State) (r : Record) : (s.create r).lists = s.lists := rfl
@[simp] theorem create_opening (s : State) (r : Record) : (s.create r).opening = s.opening := rfl
@[simp] theorem create_unsolicited (s : State) (r : Record) : (s.create r).unsolicited = s.unsolicited := rfl
@[simp] theorem create_links (s : State) (r : Record) : (s.create r).links = s.links := rfl
@[simp] theorem create_statusPeriod (s : State) (r : Record) : (s.create r).statusPeriod = s.statusPeriod := rfl
@[simp] theorem create_buffer (s : State) (r : Record) : (s.create r).buffer = s.buffer := rfl
@[simp] theorem create_overrun (s : State) (r : Record) : (s.create r).overrun = s.overrun := rfl
@[simp] theorem create_chip (s : State) (r : Record) : (s.create r).chip = s.chip := rfl
@[simp] theorem create_portOut (s : State) (r : Record) : (s.create r).portOut = s.portOut := rfl
@[simp] theorem create_flags (s : State) (r : Record) : (s.create r).flags = s.flags := rfl
@[simp] theorem create_attention (s : State) (r : Record) : (s.create r).attention = s.attention := rfl
@[simp] theorem create_cause (s : State) (r : Record) : (s.create r).cause = s.cause := rfl
@[simp] theorem create_fresh (s : State) (r : Record) : (s.create r).fresh = s.fresh := rfl
@[simp] theorem create_pending (s : State) (r : Record) : (s.create r).pending = s.pending := rfl

/-! #### raise -/

@[simp] theorem raise_inReset (s : State) (f : Flag) : (s.raise f).inReset = s.inReset := rfl
@[simp] theorem raise_resetKind (s : State) (f : Flag) : (s.raise f).resetKind = s.resetKind := rfl
@[simp] theorem raise_stopLine (s : State) (f : Flag) : (s.raise f).stopLine = s.stopLine := rfl
@[simp] theorem raise_stopped (s : State) (f : Flag) : (s.raise f).stopped = s.stopped := rfl
@[simp] theorem raise_settings (s : State) (f : Flag) : (s.raise f).settings = s.settings := rfl
@[simp] theorem raise_records (s : State) (f : Flag) : (s.raise f).records = s.records := rfl
@[simp] theorem raise_lanes (s : State) (f : Flag) : (s.raise f).lanes = s.lanes := rfl
@[simp] theorem raise_levels (s : State) (f : Flag) : (s.raise f).levels = s.levels := rfl
@[simp] theorem raise_slots (s : State) (f : Flag) : (s.raise f).slots = s.slots := rfl
@[simp] theorem raise_claims (s : State) (f : Flag) : (s.raise f).claims = s.claims := rfl
@[simp] theorem raise_approvals (s : State) (f : Flag) : (s.raise f).approvals = s.approvals := rfl
@[simp] theorem raise_lifts (s : State) (f : Flag) : (s.raise f).lifts = s.lifts := rfl
@[simp] theorem raise_entries (s : State) (f : Flag) : (s.raise f).entries = s.entries := rfl
@[simp] theorem raise_stations (s : State) (f : Flag) : (s.raise f).stations = s.stations := rfl
@[simp] theorem raise_lists (s : State) (f : Flag) : (s.raise f).lists = s.lists := rfl
@[simp] theorem raise_opening (s : State) (f : Flag) : (s.raise f).opening = s.opening := rfl
@[simp] theorem raise_unsolicited (s : State) (f : Flag) : (s.raise f).unsolicited = s.unsolicited := rfl
@[simp] theorem raise_links (s : State) (f : Flag) : (s.raise f).links = s.links := rfl
@[simp] theorem raise_statusPeriod (s : State) (f : Flag) : (s.raise f).statusPeriod = s.statusPeriod := rfl
@[simp] theorem raise_buffer (s : State) (f : Flag) : (s.raise f).buffer = s.buffer := rfl
@[simp] theorem raise_overrun (s : State) (f : Flag) : (s.raise f).overrun = s.overrun := rfl
@[simp] theorem raise_chip (s : State) (f : Flag) : (s.raise f).chip = s.chip := rfl
@[simp] theorem raise_portOut (s : State) (f : Flag) : (s.raise f).portOut = s.portOut := rfl
@[simp] theorem raise_attention (s : State) (f : Flag) : (s.raise f).attention = s.attention := rfl
@[simp] theorem raise_cause (s : State) (f : Flag) : (s.raise f).cause = s.cause := rfl
@[simp] theorem raise_fresh (s : State) (f : Flag) : (s.raise f).fresh = s.fresh := rfl
@[simp] theorem raise_pending (s : State) (f : Flag) : (s.raise f).pending = s.pending := rfl

/-! #### clearGroup -/

@[simp] theorem clearGroup_inReset (s : State) (g : Fin 41) : (s.clearGroup g).inReset = s.inReset := rfl
@[simp] theorem clearGroup_resetKind (s : State) (g : Fin 41) : (s.clearGroup g).resetKind = s.resetKind := rfl
@[simp] theorem clearGroup_stopLine (s : State) (g : Fin 41) : (s.clearGroup g).stopLine = s.stopLine := rfl
@[simp] theorem clearGroup_stopped (s : State) (g : Fin 41) : (s.clearGroup g).stopped = s.stopped := rfl
@[simp] theorem clearGroup_settings (s : State) (g : Fin 41) : (s.clearGroup g).settings = s.settings := rfl
@[simp] theorem clearGroup_records (s : State) (g : Fin 41) : (s.clearGroup g).records = s.records := rfl
@[simp] theorem clearGroup_lanes (s : State) (g : Fin 41) : (s.clearGroup g).lanes = s.lanes := rfl
@[simp] theorem clearGroup_levels (s : State) (g : Fin 41) : (s.clearGroup g).levels = s.levels := rfl
@[simp] theorem clearGroup_slots (s : State) (g : Fin 41) : (s.clearGroup g).slots = s.slots := rfl
@[simp] theorem clearGroup_claims (s : State) (g : Fin 41) : (s.clearGroup g).claims = s.claims := rfl
@[simp] theorem clearGroup_approvals (s : State) (g : Fin 41) : (s.clearGroup g).approvals = s.approvals := rfl
@[simp] theorem clearGroup_lifts (s : State) (g : Fin 41) : (s.clearGroup g).lifts = s.lifts := rfl
@[simp] theorem clearGroup_entries (s : State) (g : Fin 41) : (s.clearGroup g).entries = s.entries := rfl
@[simp] theorem clearGroup_stations (s : State) (g : Fin 41) : (s.clearGroup g).stations = s.stations := rfl
@[simp] theorem clearGroup_lists (s : State) (g : Fin 41) : (s.clearGroup g).lists = s.lists := rfl
@[simp] theorem clearGroup_opening (s : State) (g : Fin 41) : (s.clearGroup g).opening = s.opening := rfl
@[simp] theorem clearGroup_unsolicited (s : State) (g : Fin 41) : (s.clearGroup g).unsolicited = s.unsolicited := rfl
@[simp] theorem clearGroup_links (s : State) (g : Fin 41) : (s.clearGroup g).links = s.links := rfl
@[simp] theorem clearGroup_statusPeriod (s : State) (g : Fin 41) : (s.clearGroup g).statusPeriod = s.statusPeriod := rfl
@[simp] theorem clearGroup_buffer (s : State) (g : Fin 41) : (s.clearGroup g).buffer = s.buffer := rfl
@[simp] theorem clearGroup_overrun (s : State) (g : Fin 41) : (s.clearGroup g).overrun = s.overrun := rfl
@[simp] theorem clearGroup_chip (s : State) (g : Fin 41) : (s.clearGroup g).chip = s.chip := rfl
@[simp] theorem clearGroup_portOut (s : State) (g : Fin 41) : (s.clearGroup g).portOut = s.portOut := rfl
@[simp] theorem clearGroup_attention (s : State) (g : Fin 41) : (s.clearGroup g).attention = s.attention := rfl
@[simp] theorem clearGroup_cause (s : State) (g : Fin 41) : (s.clearGroup g).cause = s.cause := rfl
@[simp] theorem clearGroup_fresh (s : State) (g : Fin 41) : (s.clearGroup g).fresh = s.fresh := rfl
@[simp] theorem clearGroup_pending (s : State) (g : Fin 41) : (s.clearGroup g).pending = s.pending := rfl

/-! #### withCause -/

@[simp] theorem withCause_inReset (s : State) : (s.withCause).inReset = s.inReset := rfl
@[simp] theorem withCause_resetKind (s : State) : (s.withCause).resetKind = s.resetKind := rfl
@[simp] theorem withCause_stopLine (s : State) : (s.withCause).stopLine = s.stopLine := rfl
@[simp] theorem withCause_stopped (s : State) : (s.withCause).stopped = s.stopped := rfl
@[simp] theorem withCause_settings (s : State) : (s.withCause).settings = s.settings := rfl
@[simp] theorem withCause_records (s : State) : (s.withCause).records = s.records := rfl
@[simp] theorem withCause_lanes (s : State) : (s.withCause).lanes = s.lanes := rfl
@[simp] theorem withCause_levels (s : State) : (s.withCause).levels = s.levels := rfl
@[simp] theorem withCause_slots (s : State) : (s.withCause).slots = s.slots := rfl
@[simp] theorem withCause_claims (s : State) : (s.withCause).claims = s.claims := rfl
@[simp] theorem withCause_approvals (s : State) : (s.withCause).approvals = s.approvals := rfl
@[simp] theorem withCause_lifts (s : State) : (s.withCause).lifts = s.lifts := rfl
@[simp] theorem withCause_entries (s : State) : (s.withCause).entries = s.entries := rfl
@[simp] theorem withCause_stations (s : State) : (s.withCause).stations = s.stations := rfl
@[simp] theorem withCause_lists (s : State) : (s.withCause).lists = s.lists := rfl
@[simp] theorem withCause_opening (s : State) : (s.withCause).opening = s.opening := rfl
@[simp] theorem withCause_unsolicited (s : State) : (s.withCause).unsolicited = s.unsolicited := rfl
@[simp] theorem withCause_links (s : State) : (s.withCause).links = s.links := rfl
@[simp] theorem withCause_statusPeriod (s : State) : (s.withCause).statusPeriod = s.statusPeriod := rfl
@[simp] theorem withCause_buffer (s : State) : (s.withCause).buffer = s.buffer := rfl
@[simp] theorem withCause_overrun (s : State) : (s.withCause).overrun = s.overrun := rfl
@[simp] theorem withCause_chip (s : State) : (s.withCause).chip = s.chip := rfl
@[simp] theorem withCause_portOut (s : State) : (s.withCause).portOut = s.portOut := rfl
@[simp] theorem withCause_flags (s : State) : (s.withCause).flags = s.flags := rfl
@[simp] theorem withCause_attention (s : State) : (s.withCause).attention = s.attention := rfl
@[simp] theorem withCause_fresh (s : State) : (s.withCause).fresh = s.fresh := rfl
@[simp] theorem withCause_pending (s : State) : (s.withCause).pending = s.pending := rfl

/-! #### recomputeAttention -/

@[simp] theorem recomputeAttention_inReset (s : State) : (s.recomputeAttention).inReset = s.inReset := rfl
@[simp] theorem recomputeAttention_resetKind (s : State) : (s.recomputeAttention).resetKind = s.resetKind := rfl
@[simp] theorem recomputeAttention_stopLine (s : State) : (s.recomputeAttention).stopLine = s.stopLine := rfl
@[simp] theorem recomputeAttention_stopped (s : State) : (s.recomputeAttention).stopped = s.stopped := rfl
@[simp] theorem recomputeAttention_settings (s : State) : (s.recomputeAttention).settings = s.settings := rfl
@[simp] theorem recomputeAttention_records (s : State) : (s.recomputeAttention).records = s.records := rfl
@[simp] theorem recomputeAttention_lanes (s : State) : (s.recomputeAttention).lanes = s.lanes := rfl
@[simp] theorem recomputeAttention_levels (s : State) : (s.recomputeAttention).levels = s.levels := rfl
@[simp] theorem recomputeAttention_slots (s : State) : (s.recomputeAttention).slots = s.slots := rfl
@[simp] theorem recomputeAttention_claims (s : State) : (s.recomputeAttention).claims = s.claims := rfl
@[simp] theorem recomputeAttention_approvals (s : State) : (s.recomputeAttention).approvals = s.approvals := rfl
@[simp] theorem recomputeAttention_lifts (s : State) : (s.recomputeAttention).lifts = s.lifts := rfl
@[simp] theorem recomputeAttention_entries (s : State) : (s.recomputeAttention).entries = s.entries := rfl
@[simp] theorem recomputeAttention_stations (s : State) : (s.recomputeAttention).stations = s.stations := rfl
@[simp] theorem recomputeAttention_lists (s : State) : (s.recomputeAttention).lists = s.lists := rfl
@[simp] theorem recomputeAttention_opening (s : State) : (s.recomputeAttention).opening = s.opening := rfl
@[simp] theorem recomputeAttention_unsolicited (s : State) : (s.recomputeAttention).unsolicited = s.unsolicited := rfl
@[simp] theorem recomputeAttention_links (s : State) : (s.recomputeAttention).links = s.links := rfl
@[simp] theorem recomputeAttention_statusPeriod (s : State) : (s.recomputeAttention).statusPeriod = s.statusPeriod := rfl
@[simp] theorem recomputeAttention_buffer (s : State) : (s.recomputeAttention).buffer = s.buffer := rfl
@[simp] theorem recomputeAttention_overrun (s : State) : (s.recomputeAttention).overrun = s.overrun := rfl
@[simp] theorem recomputeAttention_chip (s : State) : (s.recomputeAttention).chip = s.chip := rfl
@[simp] theorem recomputeAttention_portOut (s : State) : (s.recomputeAttention).portOut = s.portOut := rfl
@[simp] theorem recomputeAttention_flags (s : State) : (s.recomputeAttention).flags = s.flags := rfl
@[simp] theorem recomputeAttention_cause (s : State) : (s.recomputeAttention).cause = s.cause := rfl
@[simp] theorem recomputeAttention_fresh (s : State) : (s.recomputeAttention).fresh = s.fresh := rfl
@[simp] theorem recomputeAttention_pending (s : State) : (s.recomputeAttention).pending = s.pending := rfl

/-! #### setTransfer -/

@[simp] theorem setTransfer_inReset (s : State) (i : Ident) (t : Option TransferNumber) : (s.setTransfer i t).inReset = s.inReset := rfl
@[simp] theorem setTransfer_resetKind (s : State) (i : Ident) (t : Option TransferNumber) : (s.setTransfer i t).resetKind = s.resetKind := rfl
@[simp] theorem setTransfer_stopLine (s : State) (i : Ident) (t : Option TransferNumber) : (s.setTransfer i t).stopLine = s.stopLine := rfl
@[simp] theorem setTransfer_stopped (s : State) (i : Ident) (t : Option TransferNumber) : (s.setTransfer i t).stopped = s.stopped := rfl
@[simp] theorem setTransfer_settings (s : State) (i : Ident) (t : Option TransferNumber) : (s.setTransfer i t).settings = s.settings := rfl
@[simp] theorem setTransfer_lanes (s : State) (i : Ident) (t : Option TransferNumber) : (s.setTransfer i t).lanes = s.lanes := rfl
@[simp] theorem setTransfer_levels (s : State) (i : Ident) (t : Option TransferNumber) : (s.setTransfer i t).levels = s.levels := rfl
@[simp] theorem setTransfer_slots (s : State) (i : Ident) (t : Option TransferNumber) : (s.setTransfer i t).slots = s.slots := rfl
@[simp] theorem setTransfer_claims (s : State) (i : Ident) (t : Option TransferNumber) : (s.setTransfer i t).claims = s.claims := rfl
@[simp] theorem setTransfer_approvals (s : State) (i : Ident) (t : Option TransferNumber) : (s.setTransfer i t).approvals = s.approvals := rfl
@[simp] theorem setTransfer_lifts (s : State) (i : Ident) (t : Option TransferNumber) : (s.setTransfer i t).lifts = s.lifts := rfl
@[simp] theorem setTransfer_entries (s : State) (i : Ident) (t : Option TransferNumber) : (s.setTransfer i t).entries = s.entries := rfl
@[simp] theorem setTransfer_stations (s : State) (i : Ident) (t : Option TransferNumber) : (s.setTransfer i t).stations = s.stations := rfl
@[simp] theorem setTransfer_lists (s : State) (i : Ident) (t : Option TransferNumber) : (s.setTransfer i t).lists = s.lists := rfl
@[simp] theorem setTransfer_opening (s : State) (i : Ident) (t : Option TransferNumber) : (s.setTransfer i t).opening = s.opening := rfl
@[simp] theorem setTransfer_unsolicited (s : State) (i : Ident) (t : Option TransferNumber) : (s.setTransfer i t).unsolicited = s.unsolicited := rfl
@[simp] theorem setTransfer_links (s : State) (i : Ident) (t : Option TransferNumber) : (s.setTransfer i t).links = s.links := rfl
@[simp] theorem setTransfer_statusPeriod (s : State) (i : Ident) (t : Option TransferNumber) : (s.setTransfer i t).statusPeriod = s.statusPeriod := rfl
@[simp] theorem setTransfer_buffer (s : State) (i : Ident) (t : Option TransferNumber) : (s.setTransfer i t).buffer = s.buffer := rfl
@[simp] theorem setTransfer_overrun (s : State) (i : Ident) (t : Option TransferNumber) : (s.setTransfer i t).overrun = s.overrun := rfl
@[simp] theorem setTransfer_chip (s : State) (i : Ident) (t : Option TransferNumber) : (s.setTransfer i t).chip = s.chip := rfl
@[simp] theorem setTransfer_portOut (s : State) (i : Ident) (t : Option TransferNumber) : (s.setTransfer i t).portOut = s.portOut := rfl
@[simp] theorem setTransfer_flags (s : State) (i : Ident) (t : Option TransferNumber) : (s.setTransfer i t).flags = s.flags := rfl
@[simp] theorem setTransfer_attention (s : State) (i : Ident) (t : Option TransferNumber) : (s.setTransfer i t).attention = s.attention := rfl
@[simp] theorem setTransfer_cause (s : State) (i : Ident) (t : Option TransferNumber) : (s.setTransfer i t).cause = s.cause := rfl
@[simp] theorem setTransfer_fresh (s : State) (i : Ident) (t : Option TransferNumber) : (s.setTransfer i t).fresh = s.fresh := rfl
@[simp] theorem setTransfer_pending (s : State) (i : Ident) (t : Option TransferNumber) : (s.setTransfer i t).pending = s.pending := rfl

/-! #### setPlace -/

@[simp] theorem setPlace_inReset (s : State) (i : Ident) (p : Place) : (s.setPlace i p).inReset = s.inReset := rfl
@[simp] theorem setPlace_resetKind (s : State) (i : Ident) (p : Place) : (s.setPlace i p).resetKind = s.resetKind := rfl
@[simp] theorem setPlace_stopLine (s : State) (i : Ident) (p : Place) : (s.setPlace i p).stopLine = s.stopLine := rfl
@[simp] theorem setPlace_stopped (s : State) (i : Ident) (p : Place) : (s.setPlace i p).stopped = s.stopped := rfl
@[simp] theorem setPlace_settings (s : State) (i : Ident) (p : Place) : (s.setPlace i p).settings = s.settings := rfl
@[simp] theorem setPlace_lanes (s : State) (i : Ident) (p : Place) : (s.setPlace i p).lanes = s.lanes := rfl
@[simp] theorem setPlace_levels (s : State) (i : Ident) (p : Place) : (s.setPlace i p).levels = s.levels := rfl
@[simp] theorem setPlace_slots (s : State) (i : Ident) (p : Place) : (s.setPlace i p).slots = s.slots := rfl
@[simp] theorem setPlace_claims (s : State) (i : Ident) (p : Place) : (s.setPlace i p).claims = s.claims := rfl
@[simp] theorem setPlace_approvals (s : State) (i : Ident) (p : Place) : (s.setPlace i p).approvals = s.approvals := rfl
@[simp] theorem setPlace_lifts (s : State) (i : Ident) (p : Place) : (s.setPlace i p).lifts = s.lifts := rfl
@[simp] theorem setPlace_entries (s : State) (i : Ident) (p : Place) : (s.setPlace i p).entries = s.entries := rfl
@[simp] theorem setPlace_stations (s : State) (i : Ident) (p : Place) : (s.setPlace i p).stations = s.stations := rfl
@[simp] theorem setPlace_lists (s : State) (i : Ident) (p : Place) : (s.setPlace i p).lists = s.lists := rfl
@[simp] theorem setPlace_opening (s : State) (i : Ident) (p : Place) : (s.setPlace i p).opening = s.opening := rfl
@[simp] theorem setPlace_unsolicited (s : State) (i : Ident) (p : Place) : (s.setPlace i p).unsolicited = s.unsolicited := rfl
@[simp] theorem setPlace_links (s : State) (i : Ident) (p : Place) : (s.setPlace i p).links = s.links := rfl
@[simp] theorem setPlace_statusPeriod (s : State) (i : Ident) (p : Place) : (s.setPlace i p).statusPeriod = s.statusPeriod := rfl
@[simp] theorem setPlace_buffer (s : State) (i : Ident) (p : Place) : (s.setPlace i p).buffer = s.buffer := rfl
@[simp] theorem setPlace_overrun (s : State) (i : Ident) (p : Place) : (s.setPlace i p).overrun = s.overrun := rfl
@[simp] theorem setPlace_chip (s : State) (i : Ident) (p : Place) : (s.setPlace i p).chip = s.chip := rfl
@[simp] theorem setPlace_portOut (s : State) (i : Ident) (p : Place) : (s.setPlace i p).portOut = s.portOut := rfl
@[simp] theorem setPlace_flags (s : State) (i : Ident) (p : Place) : (s.setPlace i p).flags = s.flags := rfl
@[simp] theorem setPlace_attention (s : State) (i : Ident) (p : Place) : (s.setPlace i p).attention = s.attention := rfl
@[simp] theorem setPlace_cause (s : State) (i : Ident) (p : Place) : (s.setPlace i p).cause = s.cause := rfl
@[simp] theorem setPlace_fresh (s : State) (i : Ident) (p : Place) : (s.setPlace i p).fresh = s.fresh := rfl
@[simp] theorem setPlace_pending (s : State) (i : Ident) (p : Place) : (s.setPlace i p).pending = s.pending := rfl

/-! #### setContents -/

@[simp] theorem setContents_inReset (s : State) (l : LaneId) (c : List Ident) : (s.setContents l c).inReset = s.inReset := rfl
@[simp] theorem setContents_resetKind (s : State) (l : LaneId) (c : List Ident) : (s.setContents l c).resetKind = s.resetKind := rfl
@[simp] theorem setContents_stopLine (s : State) (l : LaneId) (c : List Ident) : (s.setContents l c).stopLine = s.stopLine := rfl
@[simp] theorem setContents_stopped (s : State) (l : LaneId) (c : List Ident) : (s.setContents l c).stopped = s.stopped := rfl
@[simp] theorem setContents_settings (s : State) (l : LaneId) (c : List Ident) : (s.setContents l c).settings = s.settings := rfl
@[simp] theorem setContents_records (s : State) (l : LaneId) (c : List Ident) : (s.setContents l c).records = s.records := rfl
@[simp] theorem setContents_levels (s : State) (l : LaneId) (c : List Ident) : (s.setContents l c).levels = s.levels := rfl
@[simp] theorem setContents_slots (s : State) (l : LaneId) (c : List Ident) : (s.setContents l c).slots = s.slots := rfl
@[simp] theorem setContents_claims (s : State) (l : LaneId) (c : List Ident) : (s.setContents l c).claims = s.claims := rfl
@[simp] theorem setContents_approvals (s : State) (l : LaneId) (c : List Ident) : (s.setContents l c).approvals = s.approvals := rfl
@[simp] theorem setContents_lifts (s : State) (l : LaneId) (c : List Ident) : (s.setContents l c).lifts = s.lifts := rfl
@[simp] theorem setContents_entries (s : State) (l : LaneId) (c : List Ident) : (s.setContents l c).entries = s.entries := rfl
@[simp] theorem setContents_stations (s : State) (l : LaneId) (c : List Ident) : (s.setContents l c).stations = s.stations := rfl
@[simp] theorem setContents_lists (s : State) (l : LaneId) (c : List Ident) : (s.setContents l c).lists = s.lists := rfl
@[simp] theorem setContents_opening (s : State) (l : LaneId) (c : List Ident) : (s.setContents l c).opening = s.opening := rfl
@[simp] theorem setContents_unsolicited (s : State) (l : LaneId) (c : List Ident) : (s.setContents l c).unsolicited = s.unsolicited := rfl
@[simp] theorem setContents_links (s : State) (l : LaneId) (c : List Ident) : (s.setContents l c).links = s.links := rfl
@[simp] theorem setContents_statusPeriod (s : State) (l : LaneId) (c : List Ident) : (s.setContents l c).statusPeriod = s.statusPeriod := rfl
@[simp] theorem setContents_buffer (s : State) (l : LaneId) (c : List Ident) : (s.setContents l c).buffer = s.buffer := rfl
@[simp] theorem setContents_overrun (s : State) (l : LaneId) (c : List Ident) : (s.setContents l c).overrun = s.overrun := rfl
@[simp] theorem setContents_chip (s : State) (l : LaneId) (c : List Ident) : (s.setContents l c).chip = s.chip := rfl
@[simp] theorem setContents_portOut (s : State) (l : LaneId) (c : List Ident) : (s.setContents l c).portOut = s.portOut := rfl
@[simp] theorem setContents_flags (s : State) (l : LaneId) (c : List Ident) : (s.setContents l c).flags = s.flags := rfl
@[simp] theorem setContents_attention (s : State) (l : LaneId) (c : List Ident) : (s.setContents l c).attention = s.attention := rfl
@[simp] theorem setContents_cause (s : State) (l : LaneId) (c : List Ident) : (s.setContents l c).cause = s.cause := rfl
@[simp] theorem setContents_fresh (s : State) (l : LaneId) (c : List Ident) : (s.setContents l c).fresh = s.fresh := rfl
@[simp] theorem setContents_pending (s : State) (l : LaneId) (c : List Ident) : (s.setContents l c).pending = s.pending := rfl

/-! #### setCarriage -/

@[simp] theorem setCarriage_inReset (s : State) (x : Side) (c : List Ident) : (s.setCarriage x c).inReset = s.inReset := rfl
@[simp] theorem setCarriage_resetKind (s : State) (x : Side) (c : List Ident) : (s.setCarriage x c).resetKind = s.resetKind := rfl
@[simp] theorem setCarriage_stopLine (s : State) (x : Side) (c : List Ident) : (s.setCarriage x c).stopLine = s.stopLine := rfl
@[simp] theorem setCarriage_stopped (s : State) (x : Side) (c : List Ident) : (s.setCarriage x c).stopped = s.stopped := rfl
@[simp] theorem setCarriage_settings (s : State) (x : Side) (c : List Ident) : (s.setCarriage x c).settings = s.settings := rfl
@[simp] theorem setCarriage_records (s : State) (x : Side) (c : List Ident) : (s.setCarriage x c).records = s.records := rfl
@[simp] theorem setCarriage_lanes (s : State) (x : Side) (c : List Ident) : (s.setCarriage x c).lanes = s.lanes := rfl
@[simp] theorem setCarriage_levels (s : State) (x : Side) (c : List Ident) : (s.setCarriage x c).levels = s.levels := rfl
@[simp] theorem setCarriage_slots (s : State) (x : Side) (c : List Ident) : (s.setCarriage x c).slots = s.slots := rfl
@[simp] theorem setCarriage_claims (s : State) (x : Side) (c : List Ident) : (s.setCarriage x c).claims = s.claims := rfl
@[simp] theorem setCarriage_approvals (s : State) (x : Side) (c : List Ident) : (s.setCarriage x c).approvals = s.approvals := rfl
@[simp] theorem setCarriage_entries (s : State) (x : Side) (c : List Ident) : (s.setCarriage x c).entries = s.entries := rfl
@[simp] theorem setCarriage_stations (s : State) (x : Side) (c : List Ident) : (s.setCarriage x c).stations = s.stations := rfl
@[simp] theorem setCarriage_lists (s : State) (x : Side) (c : List Ident) : (s.setCarriage x c).lists = s.lists := rfl
@[simp] theorem setCarriage_opening (s : State) (x : Side) (c : List Ident) : (s.setCarriage x c).opening = s.opening := rfl
@[simp] theorem setCarriage_unsolicited (s : State) (x : Side) (c : List Ident) : (s.setCarriage x c).unsolicited = s.unsolicited := rfl
@[simp] theorem setCarriage_links (s : State) (x : Side) (c : List Ident) : (s.setCarriage x c).links = s.links := rfl
@[simp] theorem setCarriage_statusPeriod (s : State) (x : Side) (c : List Ident) : (s.setCarriage x c).statusPeriod = s.statusPeriod := rfl
@[simp] theorem setCarriage_buffer (s : State) (x : Side) (c : List Ident) : (s.setCarriage x c).buffer = s.buffer := rfl
@[simp] theorem setCarriage_overrun (s : State) (x : Side) (c : List Ident) : (s.setCarriage x c).overrun = s.overrun := rfl
@[simp] theorem setCarriage_chip (s : State) (x : Side) (c : List Ident) : (s.setCarriage x c).chip = s.chip := rfl
@[simp] theorem setCarriage_portOut (s : State) (x : Side) (c : List Ident) : (s.setCarriage x c).portOut = s.portOut := rfl
@[simp] theorem setCarriage_flags (s : State) (x : Side) (c : List Ident) : (s.setCarriage x c).flags = s.flags := rfl
@[simp] theorem setCarriage_attention (s : State) (x : Side) (c : List Ident) : (s.setCarriage x c).attention = s.attention := rfl
@[simp] theorem setCarriage_cause (s : State) (x : Side) (c : List Ident) : (s.setCarriage x c).cause = s.cause := rfl
@[simp] theorem setCarriage_fresh (s : State) (x : Side) (c : List Ident) : (s.setCarriage x c).fresh = s.fresh := rfl
@[simp] theorem setCarriage_pending (s : State) (x : Side) (c : List Ident) : (s.setCarriage x c).pending = s.pending := rfl

/-! #### setQueue -/

@[simp] theorem setQueue_inReset (s : State) (x : Side) (c : List Ident) : (s.setQueue x c).inReset = s.inReset := rfl
@[simp] theorem setQueue_resetKind (s : State) (x : Side) (c : List Ident) : (s.setQueue x c).resetKind = s.resetKind := rfl
@[simp] theorem setQueue_stopLine (s : State) (x : Side) (c : List Ident) : (s.setQueue x c).stopLine = s.stopLine := rfl
@[simp] theorem setQueue_stopped (s : State) (x : Side) (c : List Ident) : (s.setQueue x c).stopped = s.stopped := rfl
@[simp] theorem setQueue_settings (s : State) (x : Side) (c : List Ident) : (s.setQueue x c).settings = s.settings := rfl
@[simp] theorem setQueue_records (s : State) (x : Side) (c : List Ident) : (s.setQueue x c).records = s.records := rfl
@[simp] theorem setQueue_lanes (s : State) (x : Side) (c : List Ident) : (s.setQueue x c).lanes = s.lanes := rfl
@[simp] theorem setQueue_levels (s : State) (x : Side) (c : List Ident) : (s.setQueue x c).levels = s.levels := rfl
@[simp] theorem setQueue_slots (s : State) (x : Side) (c : List Ident) : (s.setQueue x c).slots = s.slots := rfl
@[simp] theorem setQueue_claims (s : State) (x : Side) (c : List Ident) : (s.setQueue x c).claims = s.claims := rfl
@[simp] theorem setQueue_approvals (s : State) (x : Side) (c : List Ident) : (s.setQueue x c).approvals = s.approvals := rfl
@[simp] theorem setQueue_lifts (s : State) (x : Side) (c : List Ident) : (s.setQueue x c).lifts = s.lifts := rfl
@[simp] theorem setQueue_stations (s : State) (x : Side) (c : List Ident) : (s.setQueue x c).stations = s.stations := rfl
@[simp] theorem setQueue_lists (s : State) (x : Side) (c : List Ident) : (s.setQueue x c).lists = s.lists := rfl
@[simp] theorem setQueue_opening (s : State) (x : Side) (c : List Ident) : (s.setQueue x c).opening = s.opening := rfl
@[simp] theorem setQueue_unsolicited (s : State) (x : Side) (c : List Ident) : (s.setQueue x c).unsolicited = s.unsolicited := rfl
@[simp] theorem setQueue_links (s : State) (x : Side) (c : List Ident) : (s.setQueue x c).links = s.links := rfl
@[simp] theorem setQueue_statusPeriod (s : State) (x : Side) (c : List Ident) : (s.setQueue x c).statusPeriod = s.statusPeriod := rfl
@[simp] theorem setQueue_buffer (s : State) (x : Side) (c : List Ident) : (s.setQueue x c).buffer = s.buffer := rfl
@[simp] theorem setQueue_overrun (s : State) (x : Side) (c : List Ident) : (s.setQueue x c).overrun = s.overrun := rfl
@[simp] theorem setQueue_chip (s : State) (x : Side) (c : List Ident) : (s.setQueue x c).chip = s.chip := rfl
@[simp] theorem setQueue_portOut (s : State) (x : Side) (c : List Ident) : (s.setQueue x c).portOut = s.portOut := rfl
@[simp] theorem setQueue_flags (s : State) (x : Side) (c : List Ident) : (s.setQueue x c).flags = s.flags := rfl
@[simp] theorem setQueue_attention (s : State) (x : Side) (c : List Ident) : (s.setQueue x c).attention = s.attention := rfl
@[simp] theorem setQueue_cause (s : State) (x : Side) (c : List Ident) : (s.setQueue x c).cause = s.cause := rfl
@[simp] theorem setQueue_fresh (s : State) (x : Side) (c : List Ident) : (s.setQueue x c).fresh = s.fresh := rfl
@[simp] theorem setQueue_pending (s : State) (x : Side) (c : List Ident) : (s.setQueue x c).pending = s.pending := rfl

/-! #### send -/

@[simp] theorem send_inReset (s : State) (p : Port) (f : OutFrame) : (s.send p f).inReset = s.inReset := rfl
@[simp] theorem send_resetKind (s : State) (p : Port) (f : OutFrame) : (s.send p f).resetKind = s.resetKind := rfl
@[simp] theorem send_stopLine (s : State) (p : Port) (f : OutFrame) : (s.send p f).stopLine = s.stopLine := rfl
@[simp] theorem send_stopped (s : State) (p : Port) (f : OutFrame) : (s.send p f).stopped = s.stopped := rfl
@[simp] theorem send_settings (s : State) (p : Port) (f : OutFrame) : (s.send p f).settings = s.settings := rfl
@[simp] theorem send_records (s : State) (p : Port) (f : OutFrame) : (s.send p f).records = s.records := rfl
@[simp] theorem send_lanes (s : State) (p : Port) (f : OutFrame) : (s.send p f).lanes = s.lanes := rfl
@[simp] theorem send_levels (s : State) (p : Port) (f : OutFrame) : (s.send p f).levels = s.levels := rfl
@[simp] theorem send_slots (s : State) (p : Port) (f : OutFrame) : (s.send p f).slots = s.slots := rfl
@[simp] theorem send_claims (s : State) (p : Port) (f : OutFrame) : (s.send p f).claims = s.claims := rfl
@[simp] theorem send_approvals (s : State) (p : Port) (f : OutFrame) : (s.send p f).approvals = s.approvals := rfl
@[simp] theorem send_lifts (s : State) (p : Port) (f : OutFrame) : (s.send p f).lifts = s.lifts := rfl
@[simp] theorem send_entries (s : State) (p : Port) (f : OutFrame) : (s.send p f).entries = s.entries := rfl
@[simp] theorem send_stations (s : State) (p : Port) (f : OutFrame) : (s.send p f).stations = s.stations := rfl
@[simp] theorem send_lists (s : State) (p : Port) (f : OutFrame) : (s.send p f).lists = s.lists := rfl
@[simp] theorem send_opening (s : State) (p : Port) (f : OutFrame) : (s.send p f).opening = s.opening := rfl
@[simp] theorem send_unsolicited (s : State) (p : Port) (f : OutFrame) : (s.send p f).unsolicited = s.unsolicited := rfl
@[simp] theorem send_statusPeriod (s : State) (p : Port) (f : OutFrame) : (s.send p f).statusPeriod = s.statusPeriod := rfl
@[simp] theorem send_buffer (s : State) (p : Port) (f : OutFrame) : (s.send p f).buffer = s.buffer := rfl
@[simp] theorem send_overrun (s : State) (p : Port) (f : OutFrame) : (s.send p f).overrun = s.overrun := rfl
@[simp] theorem send_chip (s : State) (p : Port) (f : OutFrame) : (s.send p f).chip = s.chip := rfl
@[simp] theorem send_portOut (s : State) (p : Port) (f : OutFrame) : (s.send p f).portOut = s.portOut := rfl
@[simp] theorem send_flags (s : State) (p : Port) (f : OutFrame) : (s.send p f).flags = s.flags := rfl
@[simp] theorem send_attention (s : State) (p : Port) (f : OutFrame) : (s.send p f).attention = s.attention := rfl
@[simp] theorem send_cause (s : State) (p : Port) (f : OutFrame) : (s.send p f).cause = s.cause := rfl
@[simp] theorem send_fresh (s : State) (p : Port) (f : OutFrame) : (s.send p f).fresh = s.fresh := rfl
@[simp] theorem send_pending (s : State) (p : Port) (f : OutFrame) : (s.send p f).pending = s.pending := rfl

end Sys2Proof.Machine.State
end

