-- ==== Sys2Proof/Laws/Kept.lean ====
section
/-! SUPPORT. Every shared operation keeps what no event of the part writes: one lemma per operation. -/

namespace Sys2Proof.Machine.State

theorem kept_foldl {α : Type} (f : State → α → State) (h : ∀ s a, (f s a).kept = s.kept) (l : List α) (s : State) :
    (l.foldl f s).kept = s.kept := by
  induction l generalizing s with
  | nil => rfl
  | cons a l ih => rw [List.foldl_cons, ih, h]

@[simp] theorem kept_modLane (s : State) (l : LaneId) (f : Lane → Lane) : (s.modLane l f).kept = s.kept := rfl
@[simp] theorem kept_modLevel (s : State) (l : Level) (f : LevelState → LevelState) : (s.modLevel l f).kept = s.kept := rfl
@[simp] theorem kept_modSlot (s : State) (i : Fin 34) (f : Slot → Slot) : (s.modSlot i f).kept = s.kept := rfl
@[simp] theorem kept_setClaimState (s : State) (l : Level) (c : ClaimState) : (s.setClaimState l c).kept = s.kept := rfl
@[simp] theorem kept_modLift (s : State) (x : Side) (f : Lift → Lift) : (s.modLift x f).kept = s.kept := rfl
@[simp] theorem kept_modQueue (s : State) (x : Side) (f : EntryQueue → EntryQueue) : (s.modQueue x f).kept = s.kept := rfl
@[simp] theorem kept_modStation (s : State) (n : StationNo) (f : Station → Station) : (s.modStation n f).kept = s.kept := rfl
@[simp] theorem kept_setList (s : State) (l : Fin 16) (r : Option ReleaseList) : (s.setList l r).kept = s.kept := rfl
@[simp] theorem kept_modLink (s : State) (p : Port) (f : Link → Link) : (s.modLink p f).kept = s.kept := rfl
@[simp] theorem kept_modRecord (s : State) (i : Ident) (f : Record → Record) : (s.modRecord i f).kept = s.kept := rfl
@[simp] theorem kept_retire (s : State) (i : Ident) : (s.retire i).kept = s.kept := rfl
@[simp] theorem kept_create (s : State) (r : Record) : (s.create r).kept = s.kept := rfl
@[simp] theorem kept_raise (s : State) (f : Flag) : (s.raise f).kept = s.kept := rfl
@[simp] theorem kept_clearGroup (s : State) (g : Fin 41) : (s.clearGroup g).kept = s.kept := rfl
@[simp] theorem kept_withCause (s : State) : (s.withCause).kept = s.kept := rfl
@[simp] theorem kept_recomputeAttention (s : State) : (s.recomputeAttention).kept = s.kept := rfl
@[simp] theorem kept_setTransfer (s : State) (i : Ident) (t : Option TransferNumber) : (s.setTransfer i t).kept = s.kept := rfl
@[simp] theorem kept_setPlace (s : State) (i : Ident) (p : Place) : (s.setPlace i p).kept = s.kept := rfl
@[simp] theorem kept_setContents (s : State) (l : LaneId) (c : List Ident) : (s.setContents l c).kept = s.kept := rfl
@[simp] theorem kept_setCarriage (s : State) (x : Side) (c : List Ident) : (s.setCarriage x c).kept = s.kept := rfl
@[simp] theorem kept_setQueue (s : State) (x : Side) (c : List Ident) : (s.setQueue x c).kept = s.kept := rfl
@[simp] theorem kept_send (s : State) (p : Port) (f : OutFrame) : (s.send p f).kept = s.kept := rfl
@[simp] theorem kept_hear (s : State) (p : Port) (b : List Byte) : (s.hear p b).kept = s.kept := rfl
@[simp] theorem kept_sendStatus (s : State) : (s.sendStatus).kept = s.kept := rfl
@[simp] theorem kept_frameGone (s : State) (p : Port) : (s.frameGone p).kept = s.kept := rfl
@[simp] theorem kept_refreshPointers (s : State) : (s.refreshPointers).kept = s.kept := rfl
@[simp] theorem kept_dropClaim (s : State) (l : Level) : (s.dropClaim l).kept = s.kept := rfl
@[simp] theorem kept_freeSlot (s : State) (i : Fin 34) (e : LastEnd) : (s.freeSlot i e).kept = s.kept := rfl
@[simp] theorem kept_clearStreak (s : State) (l : Level) : (s.clearStreak l).kept = s.kept := rfl
@[simp] theorem kept_raiseStreak (s : State) (l : Level) : (s.raiseStreak l).kept = s.kept := rfl
@[simp] theorem kept_pauseTimers (s : State) : (s.pauseTimers).kept = s.kept := rfl
@[simp] theorem kept_restartTimers (s : State) : (s.restartTimers).kept = s.kept := rfl
@[simp] theorem kept_park (s : State) (x : Side) : (s.park x).kept = s.kept := rfl
@[simp] theorem kept_discardDirected (s : State) (x : Side) (c : Code) : (s.discardDirected x c).kept = s.kept := rfl
@[simp] theorem kept_endAudit (s : State) (l : Level) : (s.endAudit l).kept = s.kept := rfl
@[simp] theorem kept_unpend (s : State) (l : Level) : (s.unpend l).kept = s.kept := rfl
@[simp] theorem kept_pend (s : State) (p : PendingClaim) : (s.pend p).kept = s.kept := rfl
@[simp] theorem kept_newList (s : State) (n : StationNo) (l : Fin 16) : (s.newList n l).kept = s.kept := rfl
@[simp] theorem kept_keepUnsolicited (s : State) (x : Side) (i : Ident) : (s.keepUnsolicited x i).kept = s.kept := rfl
@[simp] theorem kept_joinAudit (s : State) (l : LaneId) : (s.joinAudit l).kept = s.kept := rfl
@[simp] theorem kept_forgetReport (s : State) (l : LaneId) : (s.forgetReport l).kept = s.kept := rfl

@[simp] theorem kept_sendLevel (s : State) (l : Level) (f : OutFrame) : (s.sendLevel l f).kept = s.kept := by
  unfold sendLevel; split <;> simp

@[simp] theorem kept_leaveGiver (s : State) (g : Giver) (t : List Ident) : (s.leaveGiver g t).kept = s.kept := by
  unfold leaveGiver; split <;> simp

@[simp] theorem kept_modEntry (s : State) (r : EntryRef) (f : Entry → Entry) : (s.modEntry r f).kept = s.kept := by
  unfold modEntry; split <;> simp

@[simp] theorem kept_setEntryState (s : State) (r : EntryRef) (e : EntryState) : (s.setEntryState r e).kept = s.kept := by
  unfold setEntryState; simp

@[simp] theorem kept_claimEntry (s : State) (i : Ident) : (s.claimEntry i).kept = s.kept := by
  unfold claimEntry; repeat' split
  all_goals simp

@[simp] theorem kept_loadEntry (s : State) (i : Ident) : (s.loadEntry i).kept = s.kept := by
  unfold loadEntry; split <;> simp

@[simp] theorem kept_testOpening (s : State) : (s.testOpening).kept = s.kept := by
  unfold testOpening; split <;> rfl

@[simp] theorem kept_freeList (s : State) (l : Fin 16) : (s.freeList l).kept = s.kept := by
  unfold freeList; split <;> simp

@[simp] theorem kept_testComplete (s : State) (l : Fin 16) : (s.testComplete l).kept = s.kept := by
  unfold testComplete; repeat' split
  all_goals simp

@[simp] theorem kept_raiseDelivered (s : State) (n : StationNo) : (s.raiseDelivered n).kept = s.kept := by
  unfold raiseDelivered; split <;> simp

@[simp] theorem kept_testStall (s : State) (n : StationNo) : (s.testStall n).kept = s.kept := by
  unfold testStall; split <;> simp

@[simp] theorem kept_reportDelivery (s : State) (r : EntryRef) (e : EntryState) : (s.reportDelivery r e).kept = s.kept := by
  unfold reportDelivery; repeat' split
  all_goals simp

@[simp] theorem kept_testStallOf (s : State) (r : EntryRef) : (s.testStallOf r).kept = s.kept := by
  unfold testStallOf; split <;> simp

@[simp] theorem kept_finishEntry (s : State) (r : EntryRef) (e : EntryState) : (s.finishEntry r e).kept = s.kept := by
  unfold finishEntry; simp

@[simp] theorem kept_hold (s : State) (i : Ident) (h : Hold) : (s.hold i h).kept = s.kept := by
  unfold hold; simp

@[simp] theorem kept_stall (s : State) (n : StationNo) (x : ExitFault) : (s.stall n x).kept = s.kept := by
  unfold stall; simp

@[simp] theorem kept_stallOf (s : State) (r : EntryRef) (x : ExitFault) : (s.stallOf r x).kept = s.kept := by
  unfold stallOf; split <;> simp

@[simp] theorem kept_faultEntry (s : State) (r : Option EntryRef) (x : ExitFault) : (s.faultEntry r x).kept = s.kept := by
  unfold faultEntry; split <;> simp

@[simp] theorem kept_exitFault (s : State) (x : Side) (i r : Ident) : (s.exitFault x i r).kept = s.kept := by
  unfold exitFault; simp

@[simp] theorem kept_exitMatch (s : State) (x : Side) (i : Ident) : (s.exitMatch x i).kept = s.kept := by
  unfold exitMatch; split <;> simp

@[simp] theorem kept_endClaim (s : State) (l : Level) (c : Code) : (s.endClaim l c).kept = s.kept := by
  unfold endClaim; split <;> simp

@[simp] theorem kept_blockLane (s : State) (l : LaneId) (w : BlockReason) : (s.blockLane l w).kept = s.kept := by
  unfold blockLane; split <;> simp

@[simp] theorem kept_compareLane (s : State) (l : LaneId) : (s.compareLane l).kept = s.kept := by
  unfold compareLane; repeat' split
  all_goals simp

@[simp] theorem kept_endSettle (s : State) (l : LaneId) : (s.endSettle l).kept = s.kept := by
  unfold endSettle; split <;> simp

@[simp] theorem kept_startSettle (s : State) (l : LaneId) : (s.startSettle l).kept = s.kept := by
  unfold startSettle; split <;> simp

@[simp] theorem kept_cutSettles (s : State) (l : Level) (m : Mode) : (s.cutSettles l m).kept = s.kept := by
  unfold cutSettles; split
  · rw [kept_foldl]; intros; simp
  · rfl

@[simp] theorem kept_overtake (s : State) (l : Level) (m n : Mode) : (s.overtake l m n).kept = s.kept := by
  unfold overtake; split <;> simp

@[simp] theorem kept_changeMode (s : State) (l : Level) (m : Mode) : (s.changeMode l m).kept = s.kept := by
  unfold changeMode; split <;> simp

@[simp] theorem kept_askMode (s : State) (l : Level) (m : Mode) : (s.askMode l m).kept = s.kept := by
  unfold askMode; simp

@[simp] theorem kept_testDrain (s : State) (l : Level) : (s.testDrain l).kept = s.kept := by
  unfold testDrain; split <;> simp

@[simp] theorem kept_testStreak (s : State) (l : Level) : (s.testStreak l).kept = s.kept := by
  unfold testStreak; split <;> simp

@[simp] theorem kept_recomputeFence (s : State) (l : Level) : (s.recomputeFence l).kept = s.kept := by
  unfold recomputeFence; repeat' split
  all_goals simp

@[simp] theorem kept_reserve (s : State) (t : Taker) (c : List Ident) : (s.reserve t c).kept = s.kept := by
  unfold reserve; split <;> simp

@[simp] theorem kept_release (s : State) (t : Taker) (n : Nat) : (s.release t n).kept = s.kept := by
  unfold release; split <;> simp

@[simp] theorem kept_partyWorks (s : State) (i : Fin 34) : (s.partyWorks i).kept = s.kept := by
  unfold partyWorks; split <;> simp

@[simp] theorem kept_openSlot (s : State) (i : Fin 34) (o : Open) : (s.openSlot i o).kept = s.kept := by
  unfold openSlot; simp

@[simp] theorem kept_enlist (s : State) (i : Fin 34) (t : List Ident) : (s.enlist i t).kept = s.kept := by
  unfold enlist; rw [kept_foldl]; intros; simp

@[simp] theorem kept_openTransfer (s : State) (g : Grant) : (s.openTransfer g).kept = s.kept := by
  unfold openTransfer; simp

@[simp] theorem kept_partyFree (s : State) (i : Fin 34) (b : Bool) : (s.partyFree i b).kept = s.kept := by
  unfold partyFree; split <;> simp

@[simp] theorem kept_afterEnd (s : State) (l : List Level) : (s.afterEnd l).kept = s.kept := by
  unfold afterEnd; simp; rw [kept_foldl]; intros; simp

@[simp] theorem kept_unlist (s : State) (l : List Ident) : (s.unlist l).kept = s.kept := by
  unfold unlist; rw [kept_foldl]; intros; simp

@[simp] theorem kept_joinTaker (s : State) (t : Taker) (c : List Ident) : (s.joinTaker t c).kept = s.kept := by
  unfold joinTaker; split
  all_goals try rfl
  all_goals rw [kept_foldl] <;> intros <;> simp

@[simp] theorem kept_clearStreaks (s : State) (l : List Level) : (s.clearStreaks l).kept = s.kept := by
  unfold clearStreaks; rw [kept_foldl]; intros; simp

@[simp] theorem kept_loadTaken (s : State) (o : Open) : (s.loadTaken o).kept = s.kept := by
  unfold loadTaken; split
  · rw [kept_foldl]; intros; simp
  · rfl

@[simp] theorem kept_settleNamed (s : State) (o : Open) : (s.settleNamed o).kept = s.kept := by
  unfold settleNamed; split <;> simp

@[simp] theorem kept_commit (s : State) (i : Fin 34) (o : Open) : (s.commit i o).kept = s.kept := by
  unfold commit; simp

@[simp] theorem kept_abort (s : State) (i : Fin 34) (o : Open) : (s.abort i o).kept = s.kept := by
  unfold abort; simp

@[simp] theorem kept_raiseFailed (s : State) (i : Fin 34) (o : Open) : (s.raiseFailed i o).kept = s.kept := by
  unfold raiseFailed; repeat' split
  all_goals simp

@[simp] theorem kept_raiseStreaks (s : State) (l : List Level) : (s.raiseStreaks l).kept = s.kept := by
  unfold raiseStreaks; rw [kept_foldl]; intros; simp

@[simp] theorem kept_testStreaks (s : State) (l : List Level) : (s.testStreaks l).kept = s.kept := by
  unfold testStreaks; rw [kept_foldl]; intros; simp

@[simp] theorem kept_holdTotes (s : State) (o : Open) (w : FailReason) : (s.holdTotes o w).kept = s.kept := by
  unfold holdTotes; rw [kept_foldl]; intros; simp

@[simp] theorem kept_blockNamed (s : State) (o : Open) : (s.blockNamed o).kept = s.kept := by
  unfold blockNamed; split <;> simp

@[simp] theorem kept_fail (s : State) (i : Fin 34) (o : Open) (w : FailReason) : (s.fail i o w).kept = s.kept := by
  unfold fail; simp

@[simp] theorem kept_putOpen (s : State) (i : Fin 34) (o : Open) : (s.putOpen i o).kept = s.kept := by
  unfold putOpen; simp

@[simp] theorem kept_advance (s : State) (i : Fin 34) (o : Open) : (s.advance i o).kept = s.kept := by
  unfold advance; split <;> simp

@[simp] theorem kept_judgeLane (s : State) (i : Fin 34) (r : LaneReport) : (s.judgeLane i r).kept = s.kept := by
  unfold judgeLane; repeat' split
  all_goals simp

@[simp] theorem kept_judgeCarriage (s : State) (i : Fin 34) (r : CarriageReport) : (s.judgeCarriage i r).kept = s.kept := by
  unfold judgeCarriage; repeat' split
  all_goals simp

@[simp] theorem kept_judgeReport (s : State) (l : LaneId) (r : LaneReport) : (s.judgeReport l r).kept = s.kept := by
  unfold judgeReport; split <;> simp

@[simp] theorem kept_takeLaneReport (s : State) (l : LaneId) (r : LaneReport) : (s.takeLaneReport l r).kept = s.kept := by
  unfold takeLaneReport; simp

@[simp] theorem kept_judgeLatestLane (s : State) (i : Fin 34) (l : Option LaneId) : (s.judgeLatestLane i l).kept = s.kept := by
  unfold judgeLatestLane; split <;> simp

@[simp] theorem kept_judgeLatestCarriage (s : State) (i : Fin 34) (x : Option Side) : (s.judgeLatestCarriage i x).kept = s.kept := by
  unfold judgeLatestCarriage; split <;> simp

@[simp] theorem kept_judgeLatest (s : State) (i : Fin 34) (o : Open) : (s.judgeLatest i o).kept = s.kept := by
  unfold judgeLatest; simp

@[simp] theorem kept_takeDone (s : State) (i : Fin 34) : (s.takeDone i).kept = s.kept := by
  unfold takeDone; repeat' split
  all_goals simp

@[simp] theorem kept_takeAborted (s : State) (i : Fin 34) : (s.takeAborted i).kept = s.kept := by
  unfold takeAborted; repeat' split
  all_goals simp

@[simp] theorem kept_strikeOff (s : State) (i : Fin 34) (t : Ident) : (s.strikeOff i t).kept = s.kept := by
  unfold strikeOff; split <;> simp

@[simp] theorem kept_claimTaken (s : State) (g : Grant) : (s.claimTaken g).kept = s.kept := by
  unfold claimTaken; split
  · rw [kept_foldl]; intros; simp
  · rfl

@[simp] theorem kept_sendJob (s : State) (x : Side) (g : Grant) : (s.sendJob x g).kept = s.kept := by
  unfold sendJob; simp

@[simp] theorem kept_grantJob (s : State) (x : Side) (g : Grant) : (s.grantJob x g).kept = s.kept := by
  unfold grantJob; simp

@[simp] theorem kept_markStuck (s : State) (x : Side) : (s.markStuck x).kept = s.kept := by
  unfold markStuck; split <;> simp

@[simp] theorem kept_selectOn (s : State) (x : Side) : (s.selectOn x).1.kept = s.kept := by
  unfold selectOn; split <;> simp

@[simp] theorem kept_select (s : State) (x : Side) : (s.select x).1.kept = s.kept := by
  unfold select; split
  · simp
  · split <;> simp

@[simp] theorem kept_selectOrPark (s : State) (x : Side) : (s.selectOrPark x).kept = s.kept := by
  unfold selectOrPark; repeat' split
  all_goals simp

@[simp] theorem kept_reevaluateLift (s : State) (x : Side) : (s.reevaluateLift x).kept = s.kept := by
  unfold reevaluateLift; split <;> simp

@[simp] theorem kept_reevaluate (s : State) : (s.reevaluate).kept = s.kept := by
  unfold reevaluate; simp

@[simp] theorem kept_drainCause (s : State) (n : Nat) : (s.drainCause n).kept = s.kept := by
  induction n generalizing s with
  | zero => rfl
  | succ n ih =>
    unfold drainCause; split
    · rw [ih]; exact (kept_reevaluate _).trans rfl
    · rfl

@[simp] theorem kept_closeEvent (s : State) : (s.closeEvent).kept = s.kept := by
  unfold closeEvent; simp

@[simp] theorem kept_setLift (s : State) (x : Side) (t : LiftStatus) : (s.setLift x t).kept = s.kept := by
  unfold setLift; simp

@[simp] theorem kept_dropParked (s : State) (x : Side) (t : LiftStatus) (w : Code) : (s.dropParked x t w).kept = s.kept := by
  unfold dropParked; split <;> simp

@[simp] theorem kept_linkChanged (s : State) (p : Port) : (s.linkChanged p).kept = s.kept := by
  unfold linkChanged; repeat' split
  all_goals simp

@[simp] theorem kept_setLink (s : State) (p : Port) (x : LinkStatus) : (s.setLink p x).kept = s.kept := by
  unfold setLink; simp

@[simp] theorem kept_bringUp (s : State) (p : Port) : (s.bringUp p).kept = s.kept := by
  unfold bringUp; split <;> simp

@[simp] theorem kept_takeValid (s : State) (p : Port) : (s.takeValid p).kept = s.kept := by
  unfold takeValid; simp

@[simp] theorem kept_unpark (s : State) (p : Port) : (s.unpark p).kept = s.kept := by
  unfold unpark; repeat' split
  all_goals simp

@[simp] theorem kept_loseLink (s : State) (p : Port) : (s.loseLink p).kept = s.kept := by
  unfold loseLink; split <;> simp

@[simp] theorem kept_raiseWrongNode (s : State) (p : Port) : (s.raiseWrongNode p).kept = s.kept := by
  unfold raiseWrongNode; repeat' split
  all_goals simp

@[simp] theorem kept_beginAudit (s : State) (l : Level) : (s.beginAudit l).kept = s.kept := by
  unfold beginAudit; simp; rw [kept_foldl]; intros; simp

@[simp] theorem kept_settleScan (s : State) (l : LaneId) (c : List Ident) : (s.settleScan l c).kept = s.kept := by
  unfold settleScan; repeat' split
  all_goals simp

@[simp] theorem kept_takeScan (s : State) (l : Level) (x : Scan) : (s.takeScan l x).kept = s.kept := by
  unfold takeScan; split
  · rfl
  · simp; rw [kept_foldl]; intros; simp

@[simp] theorem kept_timeOutLane (s : State) (l : LaneId) : (s.timeOutLane l).kept = s.kept := by
  unfold timeOutLane; split <;> simp

@[simp] theorem kept_timeOutAudit (s : State) (l : Level) : (s.timeOutAudit l).kept = s.kept := by
  unfold timeOutAudit; split
  · rfl
  · simp; rw [kept_foldl]; intros; simp

@[simp] theorem kept_reportFrom (s : State) (n : Stop) (k : LaneName) (r : LaneReport) : (s.reportFrom n k r).kept = s.kept := by
  unfold reportFrom; split <;> simp

@[simp] theorem kept_endMotion (s : State) (i : Fin 34) : (s.endMotion i).kept = s.kept := by
  unfold endMotion; repeat' split
  all_goals simp

@[simp] theorem kept_endWindow (s : State) (i : Fin 34) : (s.endWindow i).kept = s.kept := by
  unfold endWindow; repeat' split
  all_goals simp

@[simp] theorem kept_missReads (s : State) (i : Fin 34) (o : Open) (x : Side) : (s.missReads i o x).kept = s.kept := by
  unfold missReads; simp; rw [kept_foldl]; intros; simp

@[simp] theorem kept_endReadWindow (s : State) (i : Fin 34) : (s.endReadWindow i).kept = s.kept := by
  unfold endReadWindow; repeat' split
  all_goals simp

@[simp] theorem kept_sendGrant (s : State) (l : Level) (g : Grant) : (s.sendGrant l g).kept = s.kept := by
  unfold sendGrant; split <;> simp

@[simp] theorem kept_grantClaim (s : State) (l : Level) (g : Grant) : (s.grantClaim l g).kept = s.kept := by
  unfold grantClaim; simp

@[simp] theorem kept_placeClaim (s : State) (l : Level) (c : Claim) : (s.placeClaim l c).kept = s.kept := by
  unfold placeClaim; simp

@[simp] theorem kept_receiveClaim (s : State) (l : Level) (c : Claim) : (s.receiveClaim l c).kept = s.kept := by
  unfold receiveClaim; repeat' split
  all_goals simp

@[simp] theorem kept_claimFrom (s : State) (n : Stop) (c : Claim) : (s.claimFrom n c).kept = s.kept := by
  unfold claimFrom; split <;> simp

@[simp] theorem kept_placeDirected (s : State) (x : Side) (d : Directed) : (s.placeDirected x d).kept = s.kept := by
  unfold placeDirected; split <;> simp

@[simp] theorem kept_disableLift (s : State) (x : Side) : (s.disableLift x).kept = s.kept := by
  unfold disableLift; simp

@[simp] theorem kept_raiseMismatch (s : State) (x : Side) : (s.raiseMismatch x).kept = s.kept := by
  unfold raiseMismatch; simp

@[simp] theorem kept_disagree (s : State) (x : Side) (b : Bool) : (s.disagree x b).kept = s.kept := by
  unfold disagree; repeat' split
  all_goals simp

@[simp] theorem kept_judgeOrCompare (s : State) (x : Side) (r : CarriageReport) (b : Bool) :
    (s.judgeOrCompare x r b).kept = s.kept := by
  unfold judgeOrCompare; repeat' split
  all_goals simp

@[simp] theorem kept_takeCarriageReport (s : State) (x : Side) (r : CarriageReport) : (s.takeCarriageReport x r).kept = s.kept := by
  unfold takeCarriageReport; simp

@[simp] theorem kept_takeJobRequest (s : State) (x : Side) : (s.takeJobRequest x).kept = s.kept := by
  unfold takeJobRequest; split <;> simp

@[simp] theorem kept_rejectArrival (s : State) (x : Side) (i : Ident) (w : Weighed) (c : Code) : (s.rejectArrival x i w c).kept = s.kept := by
  unfold rejectArrival; simp

@[simp] theorem kept_acceptArrival (s : State) (x : Side) (i : Ident) (w : Weighed) : (s.acceptArrival x i w).kept = s.kept := by
  unfold acceptArrival; simp

@[simp] theorem kept_judgeArrival (s : State) (x : Side) (i : Ident) (w : Weighed) (b : Bool) : (s.judgeArrival x i w b).kept = s.kept := by
  unfold judgeArrival; split <;> simp

@[simp] theorem kept_takeArrival (s : State) (x : Byte) (i : Ident) (w p : Byte) : (s.takeArrival x i w p).kept = s.kept := by
  unfold takeArrival; split <;> simp

@[simp] theorem kept_testAged (s : State) (x : Side) : (s.testAged x).kept = s.kept := by
  unfold testAged; split <;> simp

@[simp] theorem kept_reachAge (s : State) (x : Side) : (s.reachAge x).kept = s.kept := by
  unfold reachAge; split <;> simp

@[simp] theorem kept_attach (s : State) (e : NewEntry) (r : EntryRef) : (s.attach e r).kept = s.kept := by
  unfold attach; split <;> simp

@[simp] theorem kept_addEntry (s : State) (l : Fin 16) (e : NewEntry) : (s.addEntry l e).kept = s.kept := by
  unfold addEntry; split <;> simp

@[simp] theorem kept_addEntries (s : State) (l : Fin 16) (e : List NewEntry) : (s.addEntries l e).kept = s.kept := by
  unfold addEntries; rw [kept_foldl]; intros; simp

@[simp] theorem kept_openIn (s : State) (n : StationNo) (l : Fin 16) (e : List NewEntry) : (s.openIn n l e).kept = s.kept := by
  unfold openIn; simp

@[simp] theorem kept_unsequence (s : State) (r : Record) : (s.unsequence r).kept = s.kept := by
  unfold unsequence; split <;> simp

@[simp] theorem kept_withdraw (s : State) (i : Ident) : (s.withdraw i).kept = s.kept := by
  unfold withdraw; repeat' split
  all_goals simp

@[simp] theorem kept_abortList (s : State) (l : Fin 16) (r : ReleaseList) : (s.abortList l r).kept = s.kept := by
  unfold abortList; simp; rw [kept_foldl]; intros; simp

@[simp] theorem kept_unsequenceTote (s : State) (i : Ident) : (s.unsequenceTote i).kept = s.kept := by
  unfold unsequenceTote; split <;> simp

@[simp] theorem kept_skip (s : State) (r : EntryRef) (i : Ident) : (s.skip r i).kept = s.kept := by
  unfold skip; simp

@[simp] theorem kept_takeExitRead (s : State) (x : Side) (i : Ident) : (s.takeExitRead x i).kept = s.kept := by
  unfold takeExitRead; repeat' split
  all_goals simp

@[simp] theorem kept_settleExit (s : State) (r : Record) (e : EntryState) : (s.settleExit r e).kept = s.kept := by
  unfold settleExit; split <;> simp

@[simp] theorem kept_finishHeld (s : State) (r : Record) (e : EntryState) : (s.finishHeld r e).kept = s.kept := by
  unfold finishHeld; split <;> simp

@[simp] theorem kept_resolve (s : State) (r : Record) (p : Placement) : (s.resolve r p).kept = s.kept := by
  unfold resolve; split <;> simp

@[simp] theorem kept_joinLocation (s : State) (i : Ident) (k : Location) : (s.joinLocation i k).kept = s.kept := by
  unfold joinLocation; split <;> simp

@[simp] theorem kept_declare (s : State) (d : Declaration) : (s.declare d).kept = s.kept := by
  unfold declare; simp

@[simp] theorem kept_clearEvents (s : State) (g : Fin 41) : (s.clearEvents g).kept = s.kept := by
  unfold clearEvents; split <;> simp

end Sys2Proof.Machine.State
end

