-- ==== Sys2Proof/Laws/Access.lean ====
section
/-! SUPPORT. What each register reads as after each register operation, and the lookup of a record after each operation on
the record table. -/

namespace Sys2Proof

theorem Side.ix_inj {x y : Side} : x.ix = y.ix ↔ x = y := by cases x <;> cases y <;> decide

theorem LaneName.ix_inj {x y : LaneName} : x.ix = y.ix ↔ x = y := by cases x <;> cases y <;> decide

theorem LaneId.ix_inj {x y : LaneId} : x.ix = y.ix ↔ x = y := by
  obtain ⟨xl, xn⟩ := x
  obtain ⟨yl, yn⟩ := y
  constructor
  · intro h
    have e : 4 * xl.val + xn.ix.val = 4 * yl.val + yn.ix.val := congrArg Fin.val h
    have a := xn.ix.isLt
    have b := yn.ix.isLt
    have hl : xl = yl := Fin.ext (by omega)
    have hn : xn.ix = yn.ix := Fin.ext (by omega)
    rw [hl, LaneName.ix_inj.mp hn]
  · intro h; rw [h]

theorem Port.ix_inj {x y : Port} : x.ix = y.ix ↔ x = y := by
  constructor
  · intro h
    have e : x.ix.val = y.ix.val := congrArg Fin.val h
    rcases x with n | _ | _ <;> rcases y with m | _ | _
    all_goals first
      | (have hn := n.isLt; have hm := m.isLt; simp only [Port.ix, Fin.val_castLE] at e; rw [Fin.ext e])
      | (rename_i x y; cases x <;> cases y <;> first | rfl | (exact absurd e (by decide)))
      | (rename_i x; cases x <;> first | (exact absurd e (by decide)) |
          (have hn := n.isLt; simp only [Port.ix, Fin.val_castLE] at e; exact absurd e (by omega)) |
          (have hm := m.isLt; simp only [Port.ix, Fin.val_castLE] at e; exact absurd e (by omega)))
      | (have hn := n.isLt; simp only [Port.ix, Fin.val_castLE] at e; exact absurd e (by omega))
      | (have hm := m.isLt; simp only [Port.ix, Fin.val_castLE] at e; exact absurd e (by omega))
      | rfl
  · intro h; rw [h]

theorem slotOwner_shuttle (l : Level) : slotOwner (shuttleSlot l) = .inl l := by
  have h : (shuttleSlot l).val < 32 := l.isLt
  rw [slotOwner, dif_pos h]; rfl

theorem slotOwner_lift (x : Side) : slotOwner (liftSlot x) = .inr x := by cases x <;> rfl

theorem slotOwner_inl {i : Fin 34} {l : Level} : slotOwner i = .inl l ↔ i = shuttleSlot l := by
  constructor
  · intro h
    unfold slotOwner at h
    split at h
    · cases h; rfl
    · split at h <;> cases h
  · rintro rfl; exact slotOwner_shuttle l

theorem slotOwner_inr {i : Fin 34} {x : Side} : slotOwner i = .inr x ↔ i = liftSlot x := by
  constructor
  · intro h
    have hi := i.isLt
    unfold slotOwner at h
    split at h
    · cases h
    · split at h
      · next h1 => cases h; exact Fin.ext h1
      · cases h; exact Fin.ext (by show i.val = 33; omega)
  · rintro rfl; exact slotOwner_lift x

theorem shuttleSlot_ne_liftSlot (l : Level) (x : Side) : shuttleSlot l ≠ liftSlot x := by
  intro h
  have e := slotOwner_shuttle l
  rw [h, slotOwner_lift] at e
  cases e

theorem mem_lanesOf {l : Level} {k : LaneId} : k ∈ lanesOf l ↔ k.level = l := by
  obtain ⟨kl, kn⟩ := k
  constructor
  · intro h
    obtain ⟨n, _, e⟩ := List.mem_map.mp h
    cases e; rfl
  · rintro rfl
    exact List.mem_map.mpr ⟨kn, by cases kn <;> decide, rfl⟩

theorem lanesOf_nodup (l : Level) : (lanesOf l).Nodup :=
  List.Nodup.map (fun _ _ e => (LaneId.mk.inj e).2) (by decide)

namespace Machine.State

/-! ### One member after a change -/

theorem lane_modLane (s : State) (l k : LaneId) (f : Lane → Lane) :
    (s.modLane l f).lane k = if l = k then f (s.lane k) else s.lane k := by
  simp only [lane, modLane, nth_upd, LaneId.ix_inj]

theorem level_modLevel (s : State) (l k : Level) (f : LevelState → LevelState) :
    (s.modLevel l f).level k = if l = k then f (s.level k) else s.level k := nth_upd ..

theorem slot_modSlot (s : State) (i k : Fin 34) (f : Slot → Slot) :
    (s.modSlot i f).slot k = if i = k then f (s.slot k) else s.slot k := nth_upd ..

theorem claimState_setClaimState (s : State) (l k : Level) (c : ClaimState) :
    (s.setClaimState l c).claimState k = if l = k then c else s.claimState k := nth_upd ..

theorem lift_modLift (s : State) (x y : Side) (f : Lift → Lift) :
    (s.modLift x f).lift y = if x = y then f (s.lift y) else s.lift y := by
  simp only [lift, modLift, nth_upd, Side.ix_inj]

theorem queue_modQueue (s : State) (x y : Side) (f : EntryQueue → EntryQueue) :
    (s.modQueue x f).queue y = if x = y then f (s.queue y) else s.queue y := by
  simp only [queue, modQueue, nth_upd, Side.ix_inj]

theorem station_modStation (s : State) (n k : StationNo) (f : Station → Station) :
    (s.modStation n f).station k = if n = k then f (s.station k) else s.station k := nth_upd ..

theorem list_setList (s : State) (l k : Fin 16) (r : Option ReleaseList) :
    (s.setList l r).list k = if l = k then r else s.list k := nth_upd ..

theorem link_modLink (s : State) (p q : Port) (f : Link → Link) :
    (s.modLink p f).link q = if p = q then f (s.link q) else s.link q := by
  simp only [link, modLink, nth_upd, Port.ix_inj]

theorem link_send (s : State) (p q : Port) (f : OutFrame) :
    (s.send p f).link q = if p = q then { s.link q with order := (s.link q).order ++ [f] } else s.link q :=
  link_modLink ..

theorem link_hear (s : State) (p q : Port) (b : List Byte) :
    (s.hear p b).link q = if p = q then { s.link q with heard := b } else s.link q := link_modLink ..

@[simp] theorem withCause_cause (s : State) : s.withCause.cause = true := rfl

/-! ### A state, and a row, read back from its members -/

/-- Two states are one when all that they keep and all that events write is one. -/
theorem eq_of_fields {s t : State} (kept : s.kept = t.kept) (records : s.records = t.records) (lanes : s.lanes = t.lanes)
    (levels : s.levels = t.levels) (slots : s.slots = t.slots) (claims : s.claims = t.claims)
    (approvals : s.approvals = t.approvals) (lifts : s.lifts = t.lifts) (entries : s.entries = t.entries)
    (stations : s.stations = t.stations) (lists : s.lists = t.lists) (opening : s.opening = t.opening)
    (unsolicited : s.unsolicited = t.unsolicited) (links : s.links = t.links) (flags : s.flags = t.flags)
    (attention : s.attention = t.attention) (cause : s.cause = t.cause) (fresh : s.fresh = t.fresh) : s = t := by
  cases s; cases t
  obtain ⟨rfl, rfl, rfl, rfl, rfl, rfl, rfl, rfl, rfl, rfl, rfl⟩ := Kept.mk.inj kept
  dsimp only at *
  subst records lanes levels slots claims approvals lifts entries stations lists opening unsolicited links flags attention
    cause fresh
  rfl

theorem lanes_ext {v w : Vector Lane 128} (h : ∀ k : LaneId, nth v k.ix = nth w k.ix) : v = w := by
  refine ext_nth fun i => ?_
  have e : i = LaneId.ix ⟨⟨i.val / 4, by omega⟩, LaneName.all[i.val % 4]'(Nat.mod_lt _ (by decide))⟩ := by
    have names : ∀ j : Fin 4, (LaneName.all[j.val]'(j.isLt)).ix = j := by decide
    have := congrArg Fin.val (names ⟨i.val % 4, Nat.mod_lt _ (by decide)⟩)
    refine Fin.ext ?_
    show i.val = 4 * (i.val / 4) + _
    rw [this]; show i.val = 4 * (i.val / 4) + i.val % 4; omega
  rw [e]; exact h _

theorem pair_ext {α : Type} {v w : Vector α 2} (h : ∀ x : Side, nth v x.ix = nth w x.ix) : v = w :=
  ext_nth fun i => by
    have := i.isLt
    rcases i with ⟨_ | _ | n, hi⟩
    · exact h .a
    · exact h .b
    · omega

theorem links_ext {α : Type} {v w : Vector α 39} (h : ∀ p : Port, nth v p.ix = nth w p.ix) : v = w :=
  ext_nth fun i => by
    by_cases h36 : i.val < 36
    · exact h (.stop ⟨i.val, h36⟩)
    · have hi := i.isLt
      rcases (by omega : i.val = 36 ∨ i.val = 37 ∨ i.val = 38) with e | e | e
      · rw [show i = Port.ix (.lift .a) from Fin.ext e]; exact h _
      · rw [show i = Port.ix (.lift .b) from Fin.ext e]; exact h _
      · rw [show i = Port.ix .front from Fin.ext e]; exact h _

/-! ### The record table -/

theorem lookup_ident {s : State} {i : Ident} {r : Record} (h : s.lookup i = some r) : r.ident = i := by
  obtain ⟨p, hp, rfl⟩ := Option.map_eq_some_iff.mp h
  have e := List.find?_some hp
  exact eq_of_beq e

/-- A change of a record that keeps its identity is seen by the lookup of that identity alone. -/
theorem lookup_modRecord (s : State) (i j : Ident) (f : Record → Record) (h : ∀ r, (f r).ident = r.ident) :
    (s.modRecord i f).lookup j = if i = j then (s.lookup j).map f else s.lookup j := by
  have key : ∀ t : List (Nat × Record),
      ((t.map fun p => if p.2.ident = i then (p.1, f p.2) else p).find? fun p => p.2.ident == j).map (·.2) =
        if i = j then ((t.find? fun p => p.2.ident == j).map (·.2)).map f else (t.find? fun p => p.2.ident == j).map (·.2) := by
    intro t
    induction t with
    | nil => split <;> rfl
    | cons p t ih =>
      rw [List.map_cons, List.find?_cons, List.find?_cons]
      by_cases hp : p.2.ident = i
      · rw [if_pos hp]
        show Option.map _ (match (f p.2).ident == j with | true => _ | false => _) = _
        rw [h, hp]
        by_cases hij : i = j
        · subst hij; simp
        · have : (i == j) = false := beq_false_of_ne hij
          rw [this]; simp only [if_neg hij]; rw [ih, if_neg hij]
      · rw [if_neg hp]
        by_cases hj : p.2.ident = j
        · have hij : i ≠ j := fun e => hp (by rw [hj, e])
          simp [hj, hij]
        · have : (p.2.ident == j) = false := beq_false_of_ne hj
          rw [this]; exact ih
  exact key s.records

theorem lookup_setTransfer (s : State) (i j : Ident) (t : Option TransferNumber) :
    (s.setTransfer i t).lookup j = if i = j then (s.lookup j).map (fun r => { r with transfer := t }) else s.lookup j :=
  lookup_modRecord s i j _ fun _ => rfl

theorem lookup_setPlace (s : State) (i j : Ident) (p : Place) :
    (s.setPlace i p).lookup j = if i = j then (s.lookup j).map (fun r => { r with place := p }) else s.lookup j :=
  lookup_modRecord s i j _ fun _ => rfl

theorem lookup_retire (s : State) (i j : Ident) : (s.retire i).lookup j = if i = j then none else s.lookup j := by
  have key : ∀ t : List (Nat × Record),
      ((t.filter fun p => p.2.ident ≠ i).find? fun p => p.2.ident == j).map (·.2) =
        if i = j then none else (t.find? fun p => p.2.ident == j).map (·.2) := by
    intro t
    induction t with
    | nil => split <;> rfl
    | cons p t ih =>
      by_cases hp : p.2.ident = i
      · rw [List.filter_cons_of_neg (by simpa using hp), ih]
        by_cases hij : i = j
        · rw [if_pos hij, if_pos hij]
        · have : (p.2.ident == j) = false := by rw [hp]; exact beq_false_of_ne hij
          rw [if_neg hij, if_neg hij, List.find?_cons, this]
      · rw [List.filter_cons_of_pos (by simpa using hp), List.find?_cons, List.find?_cons]
        by_cases hj : p.2.ident = j
        · have hij : i ≠ j := fun e => hp (by rw [hj, e])
          simp [hj, hij]
        · have : (p.2.ident == j) = false := beq_false_of_ne hj
          rw [this]; exact ih
  exact key s.records

theorem lookup_create (s : State) (r : Record) (j : Ident) (h : s.lookup r.ident = none) :
    (s.create r).lookup j = if r.ident = j then some r else s.lookup j := by
  have key : ∀ (k : Nat) (t : List (Nat × Record)), ((t.find? fun p => p.2.ident == r.ident) = none) →
      ((insertSlot k r t).find? fun p => p.2.ident == j).map (·.2) =
        if r.ident = j then some r else (t.find? fun p => p.2.ident == j).map (·.2) := by
    intro k t
    induction t with
    | nil => intro _; by_cases hj : r.ident = j <;> simp [insertSlot, hj]
    | cons p t ih =>
      intro hn
      have hp : (p.2.ident == r.ident) = false := by
        by_contra hc
        rw [List.find?_cons, eq_true_of_ne_false hc] at hn; cases hn
      have hn' : (t.find? fun p => p.2.ident == r.ident) = none := by rwa [List.find?_cons, hp] at hn
      unfold insertSlot
      split
      · by_cases hj : r.ident = j <;> simp [hj]
      · rw [List.find?_cons, List.find?_cons]
        by_cases hj : p.2.ident = j
        · have : r.ident ≠ j := fun e => by rw [hj, e] at hp; simp at hp
          simp [hj, this]
        · have : (p.2.ident == j) = false := beq_false_of_ne hj
          rw [this]; exact ih hn'
  exact key _ _ (by simpa [lookup] using h)

/-- A change made to every tote of a list, one after another. -/
theorem lookup_foldl_modRecord (f : Record → Record) (h : ∀ r, (f r).ident = r.ident) (hf : ∀ r, f (f r) = f r)
    (totes : List Ident) (s : State) (j : Ident) :
    (totes.foldl (fun s i => s.modRecord i f) s).lookup j =
      if j ∈ totes then (s.lookup j).map f else s.lookup j := by
  induction totes generalizing s with
  | nil => simp
  | cons i t ih =>
    rw [List.foldl_cons, ih, lookup_modRecord _ _ _ _ h]
    by_cases hij : i = j
    · subst hij
      cases s.lookup i <;> simp [hf]
    · have : ¬ j = i := fun e => hij e.symm
      simp [hij, this]

theorem lookup_foldl_retire (totes : List Ident) (s : State) (j : Ident) :
    (totes.foldl retire s).lookup j = if j ∈ totes then none else s.lookup j := by
  induction totes generalizing s with
  | nil => simp
  | cons i t ih =>
    rw [List.foldl_cons, ih, lookup_retire]
    by_cases hij : i = j
    · subst hij; simp
    · have : ¬ j = i := fun e => hij e.symm
      simp [hij, this]

end Machine.State

end Sys2Proof
end

