-- ==== Sys2Proof/Laws/Frames.lean ====
section
/-! SUPPORT. For each shared operation, one lemma that names every field it leaves as it was. -/

namespace Sys2Proof.Machine.State

/-! ### Operations made along a list -/

@[simp] theorem foldl_settings {α : Type} (f : State → α → State) (h : ∀ s a, (f s a).settings = s.settings) (l : List α)
    (s : State) : (l.foldl f s).settings = s.settings := by
  induction l generalizing s with
  | nil => rfl
  | cons a l ih => rw [List.foldl_cons, ih, h]

@[simp] theorem foldl_stopped {α : Type} (f : State → α → State) (h : ∀ s a, (f s a).stopped = s.stopped) (l : List α)
    (s : State) : (l.foldl f s).stopped = s.stopped := by
  induction l generalizing s with
  | nil => rfl
  | cons a l ih => rw [List.foldl_cons, ih, h]

@[simp] theorem foldl_records {α : Type} (f : State → α → State) (h : ∀ s a, (f s a).records = s.records) (l : List α)
    (s : State) : (l.foldl f s).records = s.records := by
  induction l generalizing s with
  | nil => rfl
  | cons a l ih => rw [List.foldl_cons, ih, h]

@[simp] theorem foldl_lanes {α : Type} (f : State → α → State) (h : ∀ s a, (f s a).lanes = s.lanes) (l : List α)
    (s : State) : (l.foldl f s).lanes = s.lanes := by
  induction l generalizing s with
  | nil => rfl
  | cons a l ih => rw [List.foldl_cons, ih, h]

@[simp] theorem foldl_levels {α : Type} (f : State → α → State) (h : ∀ s a, (f s a).levels = s.levels) (l : List α)
    (s : State) : (l.foldl f s).levels = s.levels := by
  induction l generalizing s with
  | nil => rfl
  | cons a l ih => rw [List.foldl_cons, ih, h]

@[simp] theorem foldl_slots {α : Type} (f : State → α → State) (h : ∀ s a, (f s a).slots = s.slots) (l : List α)
    (s : State) : (l.foldl f s).slots = s.slots := by
  induction l generalizing s with
  | nil => rfl
  | cons a l ih => rw [List.foldl_cons, ih, h]

@[simp] theorem foldl_claims {α : Type} (f : State → α → State) (h : ∀ s a, (f s a).claims = s.claims) (l : List α)
    (s : State) : (l.foldl f s).claims = s.claims := by
  induction l generalizing s with
  | nil => rfl
  | cons a l ih => rw [List.foldl_cons, ih, h]

@[simp] theorem foldl_approvals {α : Type} (f : State → α → State) (h : ∀ s a, (f s a).approvals = s.approvals) (l : List α)
    (s : State) : (l.foldl f s).approvals = s.approvals := by
  induction l generalizing s with
  | nil => rfl
  | cons a l ih => rw [List.foldl_cons, ih, h]

@[simp] theorem foldl_lifts {α : Type} (f : State → α → State) (h : ∀ s a, (f s a).lifts = s.lifts) (l : List α)
    (s : State) : (l.foldl f s).lifts = s.lifts := by
  induction l generalizing s with
  | nil => rfl
  | cons a l ih => rw [List.foldl_cons, ih, h]

@[simp] theorem foldl_entries {α : Type} (f : State → α → State) (h : ∀ s a, (f s a).entries = s.entries) (l : List α)
    (s : State) : (l.foldl f s).entries = s.entries := by
  induction l generalizing s with
  | nil => rfl
  | cons a l ih => rw [List.foldl_cons, ih, h]

@[simp] theorem foldl_stations {α : Type} (f : State → α → State) (h : ∀ s a, (f s a).stations = s.stations) (l : List α)
    (s : State) : (l.foldl f s).stations = s.stations := by
  induction l generalizing s with
  | nil => rfl
  | cons a l ih => rw [List.foldl_cons, ih, h]

@[simp] theorem foldl_lists {α : Type} (f : State → α → State) (h : ∀ s a, (f s a).lists = s.lists) (l : List α)
    (s : State) : (l.foldl f s).lists = s.lists := by
  induction l generalizing s with
  | nil => rfl
  | cons a l ih => rw [List.foldl_cons, ih, h]

@[simp] theorem foldl_opening {α : Type} (f : State → α → State) (h : ∀ s a, (f s a).opening = s.opening) (l : List α)
    (s : State) : (l.foldl f s).opening = s.opening := by
  induction l generalizing s with
  | nil => rfl
  | cons a l ih => rw [List.foldl_cons, ih, h]

@[simp] theorem foldl_unsolicited {α : Type} (f : State → α → State) (h : ∀ s a, (f s a).unsolicited = s.unsolicited) (l : List α)
    (s : State) : (l.foldl f s).unsolicited = s.unsolicited := by
  induction l generalizing s with
  | nil => rfl
  | cons a l ih => rw [List.foldl_cons, ih, h]

@[simp] theorem foldl_links {α : Type} (f : State → α → State) (h : ∀ s a, (f s a).links = s.links) (l : List α)
    (s : State) : (l.foldl f s).links = s.links := by
  induction l generalizing s with
  | nil => rfl
  | cons a l ih => rw [List.foldl_cons, ih, h]

@[simp] theorem foldl_flags {α : Type} (f : State → α → State) (h : ∀ s a, (f s a).flags = s.flags) (l : List α)
    (s : State) : (l.foldl f s).flags = s.flags := by
  induction l generalizing s with
  | nil => rfl
  | cons a l ih => rw [List.foldl_cons, ih, h]

@[simp] theorem foldl_attention {α : Type} (f : State → α → State) (h : ∀ s a, (f s a).attention = s.attention) (l : List α)
    (s : State) : (l.foldl f s).attention = s.attention := by
  induction l generalizing s with
  | nil => rfl
  | cons a l ih => rw [List.foldl_cons, ih, h]

@[simp] theorem foldl_cause {α : Type} (f : State → α → State) (h : ∀ s a, (f s a).cause = s.cause) (l : List α)
    (s : State) : (l.foldl f s).cause = s.cause := by
  induction l generalizing s with
  | nil => rfl
  | cons a l ih => rw [List.foldl_cons, ih, h]

@[simp] theorem foldl_fresh {α : Type} (f : State → α → State) (h : ∀ s a, (f s a).fresh = s.fresh) (l : List α)
    (s : State) : (l.foldl f s).fresh = s.fresh := by
  induction l generalizing s with
  | nil => rfl
  | cons a l ih => rw [List.foldl_cons, ih, h]

/-! ### One operation after another, in the order of their definitions -/

@[simp] theorem hear_frame (s : State) (p : Port) (b : List Byte) :
    (s.hear p b).settings = s.settings ∧ (s.hear p b).stopped = s.stopped ∧ (s.hear p b).records = s.records ∧
    (s.hear p b).lanes = s.lanes ∧ (s.hear p b).levels = s.levels ∧ (s.hear p b).slots = s.slots ∧
    (s.hear p b).claims = s.claims ∧ (s.hear p b).approvals = s.approvals ∧ (s.hear p b).lifts = s.lifts ∧
    (s.hear p b).entries = s.entries ∧ (s.hear p b).stations = s.stations ∧ (s.hear p b).lists = s.lists ∧
    (s.hear p b).opening = s.opening ∧ (s.hear p b).unsolicited = s.unsolicited ∧ (s.hear p b).flags = s.flags ∧
    (s.hear p b).attention = s.attention ∧ (s.hear p b).cause = s.cause ∧ (s.hear p b).fresh = s.fresh := by
  unfold hear; simp

@[simp] theorem sendStatus_frame (s : State) :
    (s.sendStatus).settings = s.settings ∧ (s.sendStatus).stopped = s.stopped ∧ (s.sendStatus).records = s.records ∧
    (s.sendStatus).lanes = s.lanes ∧ (s.sendStatus).levels = s.levels ∧ (s.sendStatus).slots = s.slots ∧
    (s.sendStatus).claims = s.claims ∧ (s.sendStatus).approvals = s.approvals ∧ (s.sendStatus).lifts = s.lifts ∧
    (s.sendStatus).entries = s.entries ∧ (s.sendStatus).stations = s.stations ∧ (s.sendStatus).lists = s.lists ∧
    (s.sendStatus).opening = s.opening ∧ (s.sendStatus).unsolicited = s.unsolicited ∧ (s.sendStatus).flags = s.flags ∧
    (s.sendStatus).attention = s.attention ∧ (s.sendStatus).cause = s.cause := by
  unfold sendStatus; simp

@[simp] theorem frameGone_frame (s : State) (p : Port) :
    (s.frameGone p).settings = s.settings ∧ (s.frameGone p).stopped = s.stopped ∧
    (s.frameGone p).records = s.records ∧ (s.frameGone p).lanes = s.lanes ∧ (s.frameGone p).levels = s.levels ∧
    (s.frameGone p).slots = s.slots ∧ (s.frameGone p).claims = s.claims ∧ (s.frameGone p).approvals = s.approvals ∧
    (s.frameGone p).lifts = s.lifts ∧ (s.frameGone p).entries = s.entries ∧ (s.frameGone p).stations = s.stations ∧
    (s.frameGone p).lists = s.lists ∧ (s.frameGone p).opening = s.opening ∧
    (s.frameGone p).unsolicited = s.unsolicited ∧ (s.frameGone p).flags = s.flags ∧
    (s.frameGone p).attention = s.attention ∧ (s.frameGone p).cause = s.cause ∧ (s.frameGone p).fresh = s.fresh := by
  unfold frameGone; simp

@[simp] theorem refreshPointers_frame (s : State) :
    (s.refreshPointers).settings = s.settings ∧ (s.refreshPointers).stopped = s.stopped ∧
    (s.refreshPointers).records = s.records ∧ (s.refreshPointers).lanes = s.lanes ∧
    (s.refreshPointers).levels = s.levels ∧ (s.refreshPointers).slots = s.slots ∧
    (s.refreshPointers).claims = s.claims ∧ (s.refreshPointers).approvals = s.approvals ∧
    (s.refreshPointers).lifts = s.lifts ∧ (s.refreshPointers).entries = s.entries ∧
    (s.refreshPointers).lists = s.lists ∧ (s.refreshPointers).opening = s.opening ∧
    (s.refreshPointers).unsolicited = s.unsolicited ∧ (s.refreshPointers).links = s.links ∧
    (s.refreshPointers).flags = s.flags ∧ (s.refreshPointers).attention = s.attention ∧
    (s.refreshPointers).fresh = s.fresh := by
  unfold refreshPointers; simp

@[simp] theorem dropClaim_frame (s : State) (l : Level) :
    (s.dropClaim l).settings = s.settings ∧ (s.dropClaim l).stopped = s.stopped ∧
    (s.dropClaim l).records = s.records ∧ (s.dropClaim l).lanes = s.lanes ∧ (s.dropClaim l).levels = s.levels ∧
    (s.dropClaim l).slots = s.slots ∧ (s.dropClaim l).lifts = s.lifts ∧ (s.dropClaim l).entries = s.entries ∧
    (s.dropClaim l).stations = s.stations ∧ (s.dropClaim l).lists = s.lists ∧ (s.dropClaim l).opening = s.opening ∧
    (s.dropClaim l).unsolicited = s.unsolicited ∧ (s.dropClaim l).links = s.links ∧ (s.dropClaim l).flags = s.flags ∧
    (s.dropClaim l).attention = s.attention ∧ (s.dropClaim l).cause = s.cause ∧ (s.dropClaim l).fresh = s.fresh := by
  unfold dropClaim; simp

@[simp] theorem freeSlot_frame (s : State) (i : Fin 34) (e : LastEnd) :
    (s.freeSlot i e).settings = s.settings ∧ (s.freeSlot i e).stopped = s.stopped ∧
    (s.freeSlot i e).records = s.records ∧ (s.freeSlot i e).lanes = s.lanes ∧ (s.freeSlot i e).levels = s.levels ∧
    (s.freeSlot i e).claims = s.claims ∧ (s.freeSlot i e).approvals = s.approvals ∧ (s.freeSlot i e).lifts = s.lifts ∧
    (s.freeSlot i e).entries = s.entries ∧ (s.freeSlot i e).stations = s.stations ∧ (s.freeSlot i e).lists = s.lists ∧
    (s.freeSlot i e).opening = s.opening ∧ (s.freeSlot i e).unsolicited = s.unsolicited ∧
    (s.freeSlot i e).links = s.links ∧ (s.freeSlot i e).flags = s.flags ∧ (s.freeSlot i e).attention = s.attention ∧
    (s.freeSlot i e).cause = s.cause ∧ (s.freeSlot i e).fresh = s.fresh := by
  unfold freeSlot; simp

@[simp] theorem clearStreak_frame (s : State) (l : Level) :
    (s.clearStreak l).settings = s.settings ∧ (s.clearStreak l).stopped = s.stopped ∧
    (s.clearStreak l).records = s.records ∧ (s.clearStreak l).lanes = s.lanes ∧ (s.clearStreak l).slots = s.slots ∧
    (s.clearStreak l).claims = s.claims ∧ (s.clearStreak l).approvals = s.approvals ∧
    (s.clearStreak l).lifts = s.lifts ∧ (s.clearStreak l).entries = s.entries ∧
    (s.clearStreak l).stations = s.stations ∧ (s.clearStreak l).lists = s.lists ∧
    (s.clearStreak l).opening = s.opening ∧ (s.clearStreak l).unsolicited = s.unsolicited ∧
    (s.clearStreak l).links = s.links ∧ (s.clearStreak l).flags = s.flags ∧
    (s.clearStreak l).attention = s.attention ∧ (s.clearStreak l).cause = s.cause ∧ (s.clearStreak l).fresh = s.fresh := by
  unfold clearStreak; simp

@[simp] theorem raiseStreak_frame (s : State) (l : Level) :
    (s.raiseStreak l).settings = s.settings ∧ (s.raiseStreak l).stopped = s.stopped ∧
    (s.raiseStreak l).records = s.records ∧ (s.raiseStreak l).lanes = s.lanes ∧ (s.raiseStreak l).slots = s.slots ∧
    (s.raiseStreak l).claims = s.claims ∧ (s.raiseStreak l).approvals = s.approvals ∧
    (s.raiseStreak l).lifts = s.lifts ∧ (s.raiseStreak l).entries = s.entries ∧
    (s.raiseStreak l).stations = s.stations ∧ (s.raiseStreak l).lists = s.lists ∧
    (s.raiseStreak l).opening = s.opening ∧ (s.raiseStreak l).unsolicited = s.unsolicited ∧
    (s.raiseStreak l).links = s.links ∧ (s.raiseStreak l).flags = s.flags ∧
    (s.raiseStreak l).attention = s.attention ∧ (s.raiseStreak l).cause = s.cause ∧ (s.raiseStreak l).fresh = s.fresh := by
  unfold raiseStreak; simp

@[simp] theorem pauseTimers_frame (s : State) :
    (s.pauseTimers).settings = s.settings ∧ (s.pauseTimers).stopped = s.stopped ∧
    (s.pauseTimers).records = s.records ∧ (s.pauseTimers).lanes = s.lanes ∧ (s.pauseTimers).levels = s.levels ∧
    (s.pauseTimers).claims = s.claims ∧ (s.pauseTimers).approvals = s.approvals ∧ (s.pauseTimers).lifts = s.lifts ∧
    (s.pauseTimers).entries = s.entries ∧ (s.pauseTimers).stations = s.stations ∧ (s.pauseTimers).lists = s.lists ∧
    (s.pauseTimers).opening = s.opening ∧ (s.pauseTimers).unsolicited = s.unsolicited ∧
    (s.pauseTimers).links = s.links ∧ (s.pauseTimers).flags = s.flags ∧ (s.pauseTimers).attention = s.attention ∧
    (s.pauseTimers).cause = s.cause ∧ (s.pauseTimers).fresh = s.fresh := by
  unfold pauseTimers; simp

@[simp] theorem restartTimers_frame (s : State) :
    (s.restartTimers).settings = s.settings ∧ (s.restartTimers).stopped = s.stopped ∧
    (s.restartTimers).records = s.records ∧ (s.restartTimers).lanes = s.lanes ∧ (s.restartTimers).levels = s.levels ∧
    (s.restartTimers).claims = s.claims ∧ (s.restartTimers).approvals = s.approvals ∧
    (s.restartTimers).lifts = s.lifts ∧ (s.restartTimers).entries = s.entries ∧
    (s.restartTimers).stations = s.stations ∧ (s.restartTimers).lists = s.lists ∧
    (s.restartTimers).opening = s.opening ∧ (s.restartTimers).unsolicited = s.unsolicited ∧
    (s.restartTimers).links = s.links ∧ (s.restartTimers).flags = s.flags ∧
    (s.restartTimers).attention = s.attention ∧ (s.restartTimers).cause = s.cause ∧ (s.restartTimers).fresh = s.fresh := by
  unfold restartTimers; simp

@[simp] theorem park_frame (s : State) (x : Side) :
    (s.park x).settings = s.settings ∧ (s.park x).stopped = s.stopped ∧ (s.park x).records = s.records ∧
    (s.park x).lanes = s.lanes ∧ (s.park x).levels = s.levels ∧ (s.park x).slots = s.slots ∧
    (s.park x).claims = s.claims ∧ (s.park x).approvals = s.approvals ∧ (s.park x).entries = s.entries ∧
    (s.park x).stations = s.stations ∧ (s.park x).lists = s.lists ∧ (s.park x).opening = s.opening ∧
    (s.park x).unsolicited = s.unsolicited ∧ (s.park x).flags = s.flags ∧ (s.park x).attention = s.attention ∧
    (s.park x).cause = s.cause ∧ (s.park x).fresh = s.fresh := by
  unfold park; simp

@[simp] theorem discardDirected_frame (s : State) (x : Side) (c : Code) :
    (s.discardDirected x c).settings = s.settings ∧ (s.discardDirected x c).stopped = s.stopped ∧
    (s.discardDirected x c).records = s.records ∧ (s.discardDirected x c).lanes = s.lanes ∧
    (s.discardDirected x c).levels = s.levels ∧ (s.discardDirected x c).slots = s.slots ∧
    (s.discardDirected x c).claims = s.claims ∧ (s.discardDirected x c).approvals = s.approvals ∧
    (s.discardDirected x c).entries = s.entries ∧ (s.discardDirected x c).stations = s.stations ∧
    (s.discardDirected x c).lists = s.lists ∧ (s.discardDirected x c).opening = s.opening ∧
    (s.discardDirected x c).unsolicited = s.unsolicited ∧ (s.discardDirected x c).links = s.links ∧
    (s.discardDirected x c).attention = s.attention ∧ (s.discardDirected x c).cause = s.cause ∧
    (s.discardDirected x c).fresh = s.fresh := by
  unfold discardDirected; simp

@[simp] theorem endAudit_frame (s : State) (l : Level) :
    (s.endAudit l).settings = s.settings ∧ (s.endAudit l).stopped = s.stopped ∧ (s.endAudit l).records = s.records ∧
    (s.endAudit l).lanes = s.lanes ∧ (s.endAudit l).slots = s.slots ∧ (s.endAudit l).claims = s.claims ∧
    (s.endAudit l).approvals = s.approvals ∧ (s.endAudit l).lifts = s.lifts ∧ (s.endAudit l).entries = s.entries ∧
    (s.endAudit l).stations = s.stations ∧ (s.endAudit l).lists = s.lists ∧ (s.endAudit l).opening = s.opening ∧
    (s.endAudit l).unsolicited = s.unsolicited ∧ (s.endAudit l).links = s.links ∧
    (s.endAudit l).attention = s.attention ∧ (s.endAudit l).fresh = s.fresh := by
  unfold endAudit; simp

@[simp] theorem unpend_frame (s : State) (l : Level) :
    (s.unpend l).settings = s.settings ∧ (s.unpend l).stopped = s.stopped ∧ (s.unpend l).records = s.records ∧
    (s.unpend l).lanes = s.lanes ∧ (s.unpend l).levels = s.levels ∧ (s.unpend l).slots = s.slots ∧
    (s.unpend l).claims = s.claims ∧ (s.unpend l).lifts = s.lifts ∧ (s.unpend l).entries = s.entries ∧
    (s.unpend l).stations = s.stations ∧ (s.unpend l).lists = s.lists ∧ (s.unpend l).opening = s.opening ∧
    (s.unpend l).unsolicited = s.unsolicited ∧ (s.unpend l).links = s.links ∧ (s.unpend l).flags = s.flags ∧
    (s.unpend l).attention = s.attention ∧ (s.unpend l).cause = s.cause ∧ (s.unpend l).fresh = s.fresh := by
  unfold unpend; simp

@[simp] theorem pend_frame (s : State) (p : PendingClaim) :
    (s.pend p).settings = s.settings ∧ (s.pend p).stopped = s.stopped ∧ (s.pend p).records = s.records ∧
    (s.pend p).lanes = s.lanes ∧ (s.pend p).levels = s.levels ∧ (s.pend p).slots = s.slots ∧
    (s.pend p).claims = s.claims ∧ (s.pend p).lifts = s.lifts ∧ (s.pend p).entries = s.entries ∧
    (s.pend p).stations = s.stations ∧ (s.pend p).lists = s.lists ∧ (s.pend p).opening = s.opening ∧
    (s.pend p).unsolicited = s.unsolicited ∧ (s.pend p).links = s.links ∧ (s.pend p).flags = s.flags ∧
    (s.pend p).attention = s.attention ∧ (s.pend p).cause = s.cause ∧ (s.pend p).fresh = s.fresh := by
  unfold pend; simp

@[simp] theorem newList_frame (s : State) (n : StationNo) (l : Fin 16) :
    (s.newList n l).settings = s.settings ∧ (s.newList n l).stopped = s.stopped ∧
    (s.newList n l).records = s.records ∧ (s.newList n l).lanes = s.lanes ∧ (s.newList n l).levels = s.levels ∧
    (s.newList n l).slots = s.slots ∧ (s.newList n l).claims = s.claims ∧ (s.newList n l).approvals = s.approvals ∧
    (s.newList n l).lifts = s.lifts ∧ (s.newList n l).entries = s.entries ∧ (s.newList n l).stations = s.stations ∧
    (s.newList n l).unsolicited = s.unsolicited ∧ (s.newList n l).links = s.links ∧ (s.newList n l).flags = s.flags ∧
    (s.newList n l).attention = s.attention ∧ (s.newList n l).cause = s.cause ∧ (s.newList n l).fresh = s.fresh := by
  unfold newList; simp

@[simp] theorem keepUnsolicited_frame (s : State) (x : Side) (i : Ident) :
    (s.keepUnsolicited x i).settings = s.settings ∧ (s.keepUnsolicited x i).stopped = s.stopped ∧
    (s.keepUnsolicited x i).records = s.records ∧ (s.keepUnsolicited x i).lanes = s.lanes ∧
    (s.keepUnsolicited x i).levels = s.levels ∧ (s.keepUnsolicited x i).slots = s.slots ∧
    (s.keepUnsolicited x i).claims = s.claims ∧ (s.keepUnsolicited x i).approvals = s.approvals ∧
    (s.keepUnsolicited x i).lifts = s.lifts ∧ (s.keepUnsolicited x i).entries = s.entries ∧
    (s.keepUnsolicited x i).stations = s.stations ∧ (s.keepUnsolicited x i).lists = s.lists ∧
    (s.keepUnsolicited x i).opening = s.opening ∧ (s.keepUnsolicited x i).links = s.links ∧
    (s.keepUnsolicited x i).flags = s.flags ∧ (s.keepUnsolicited x i).attention = s.attention ∧
    (s.keepUnsolicited x i).cause = s.cause ∧ (s.keepUnsolicited x i).fresh = s.fresh := by
  unfold keepUnsolicited; simp

@[simp] theorem joinAudit_frame (s : State) (l : LaneId) :
    (s.joinAudit l).settings = s.settings ∧ (s.joinAudit l).stopped = s.stopped ∧
    (s.joinAudit l).records = s.records ∧ (s.joinAudit l).levels = s.levels ∧ (s.joinAudit l).slots = s.slots ∧
    (s.joinAudit l).claims = s.claims ∧ (s.joinAudit l).approvals = s.approvals ∧ (s.joinAudit l).lifts = s.lifts ∧
    (s.joinAudit l).entries = s.entries ∧ (s.joinAudit l).stations = s.stations ∧ (s.joinAudit l).lists = s.lists ∧
    (s.joinAudit l).opening = s.opening ∧ (s.joinAudit l).unsolicited = s.unsolicited ∧
    (s.joinAudit l).links = s.links ∧ (s.joinAudit l).flags = s.flags ∧ (s.joinAudit l).attention = s.attention ∧
    (s.joinAudit l).cause = s.cause ∧ (s.joinAudit l).fresh = s.fresh := by
  unfold joinAudit; simp

@[simp] theorem forgetReport_frame (s : State) (l : LaneId) :
    (s.forgetReport l).settings = s.settings ∧ (s.forgetReport l).stopped = s.stopped ∧
    (s.forgetReport l).records = s.records ∧ (s.forgetReport l).levels = s.levels ∧
    (s.forgetReport l).slots = s.slots ∧ (s.forgetReport l).claims = s.claims ∧
    (s.forgetReport l).approvals = s.approvals ∧ (s.forgetReport l).lifts = s.lifts ∧
    (s.forgetReport l).entries = s.entries ∧ (s.forgetReport l).stations = s.stations ∧
    (s.forgetReport l).lists = s.lists ∧ (s.forgetReport l).opening = s.opening ∧
    (s.forgetReport l).unsolicited = s.unsolicited ∧ (s.forgetReport l).links = s.links ∧
    (s.forgetReport l).flags = s.flags ∧ (s.forgetReport l).attention = s.attention ∧
    (s.forgetReport l).cause = s.cause ∧ (s.forgetReport l).fresh = s.fresh := by
  unfold forgetReport; simp

@[simp] theorem sendLevel_frame (s : State) (l : Level) (f : OutFrame) :
    (s.sendLevel l f).settings = s.settings ∧ (s.sendLevel l f).stopped = s.stopped ∧
    (s.sendLevel l f).records = s.records ∧ (s.sendLevel l f).lanes = s.lanes ∧ (s.sendLevel l f).levels = s.levels ∧
    (s.sendLevel l f).slots = s.slots ∧ (s.sendLevel l f).claims = s.claims ∧
    (s.sendLevel l f).approvals = s.approvals ∧ (s.sendLevel l f).lifts = s.lifts ∧
    (s.sendLevel l f).entries = s.entries ∧ (s.sendLevel l f).stations = s.stations ∧
    (s.sendLevel l f).lists = s.lists ∧ (s.sendLevel l f).opening = s.opening ∧
    (s.sendLevel l f).unsolicited = s.unsolicited ∧ (s.sendLevel l f).flags = s.flags ∧
    (s.sendLevel l f).attention = s.attention ∧ (s.sendLevel l f).cause = s.cause ∧ (s.sendLevel l f).fresh = s.fresh := by
  unfold sendLevel; (repeat' split) <;> simp

@[simp] theorem leaveGiver_frame (s : State) (g : Giver) (t : List Ident) :
    (s.leaveGiver g t).settings = s.settings ∧ (s.leaveGiver g t).stopped = s.stopped ∧
    (s.leaveGiver g t).records = s.records ∧ (s.leaveGiver g t).levels = s.levels ∧
    (s.leaveGiver g t).slots = s.slots ∧ (s.leaveGiver g t).claims = s.claims ∧
    (s.leaveGiver g t).approvals = s.approvals ∧ (s.leaveGiver g t).stations = s.stations ∧
    (s.leaveGiver g t).lists = s.lists ∧ (s.leaveGiver g t).opening = s.opening ∧
    (s.leaveGiver g t).unsolicited = s.unsolicited ∧ (s.leaveGiver g t).links = s.links ∧
    (s.leaveGiver g t).flags = s.flags ∧ (s.leaveGiver g t).attention = s.attention ∧
    (s.leaveGiver g t).cause = s.cause ∧ (s.leaveGiver g t).fresh = s.fresh := by
  unfold leaveGiver; (repeat' split) <;> simp

@[simp] theorem modEntry_frame (s : State) (r : EntryRef) (f : Entry → Entry) :
    (s.modEntry r f).settings = s.settings ∧ (s.modEntry r f).stopped = s.stopped ∧
    (s.modEntry r f).records = s.records ∧ (s.modEntry r f).lanes = s.lanes ∧ (s.modEntry r f).levels = s.levels ∧
    (s.modEntry r f).slots = s.slots ∧ (s.modEntry r f).claims = s.claims ∧ (s.modEntry r f).approvals = s.approvals ∧
    (s.modEntry r f).lifts = s.lifts ∧ (s.modEntry r f).entries = s.entries ∧ (s.modEntry r f).stations = s.stations ∧
    (s.modEntry r f).opening = s.opening ∧ (s.modEntry r f).unsolicited = s.unsolicited ∧
    (s.modEntry r f).links = s.links ∧ (s.modEntry r f).flags = s.flags ∧ (s.modEntry r f).attention = s.attention ∧
    (s.modEntry r f).cause = s.cause ∧ (s.modEntry r f).fresh = s.fresh := by
  unfold modEntry; (repeat' split) <;> simp

@[simp] theorem setEntryState_frame (s : State) (r : EntryRef) (e : EntryState) :
    (s.setEntryState r e).settings = s.settings ∧ (s.setEntryState r e).stopped = s.stopped ∧
    (s.setEntryState r e).records = s.records ∧ (s.setEntryState r e).lanes = s.lanes ∧
    (s.setEntryState r e).levels = s.levels ∧ (s.setEntryState r e).slots = s.slots ∧
    (s.setEntryState r e).claims = s.claims ∧ (s.setEntryState r e).approvals = s.approvals ∧
    (s.setEntryState r e).lifts = s.lifts ∧ (s.setEntryState r e).entries = s.entries ∧
    (s.setEntryState r e).stations = s.stations ∧ (s.setEntryState r e).opening = s.opening ∧
    (s.setEntryState r e).unsolicited = s.unsolicited ∧ (s.setEntryState r e).links = s.links ∧
    (s.setEntryState r e).flags = s.flags ∧ (s.setEntryState r e).attention = s.attention ∧
    (s.setEntryState r e).cause = s.cause ∧ (s.setEntryState r e).fresh = s.fresh := by
  unfold setEntryState; simp

@[simp] theorem claimEntry_frame (s : State) (i : Ident) :
    (s.claimEntry i).settings = s.settings ∧ (s.claimEntry i).stopped = s.stopped ∧
    (s.claimEntry i).records = s.records ∧ (s.claimEntry i).lanes = s.lanes ∧ (s.claimEntry i).levels = s.levels ∧
    (s.claimEntry i).slots = s.slots ∧ (s.claimEntry i).claims = s.claims ∧ (s.claimEntry i).approvals = s.approvals ∧
    (s.claimEntry i).lifts = s.lifts ∧ (s.claimEntry i).entries = s.entries ∧ (s.claimEntry i).stations = s.stations ∧
    (s.claimEntry i).opening = s.opening ∧ (s.claimEntry i).unsolicited = s.unsolicited ∧
    (s.claimEntry i).links = s.links ∧ (s.claimEntry i).flags = s.flags ∧ (s.claimEntry i).attention = s.attention ∧
    (s.claimEntry i).cause = s.cause ∧ (s.claimEntry i).fresh = s.fresh := by
  unfold claimEntry; (repeat' split) <;> simp

@[simp] theorem loadEntry_frame (s : State) (i : Ident) :
    (s.loadEntry i).settings = s.settings ∧ (s.loadEntry i).stopped = s.stopped ∧
    (s.loadEntry i).records = s.records ∧ (s.loadEntry i).lanes = s.lanes ∧ (s.loadEntry i).levels = s.levels ∧
    (s.loadEntry i).slots = s.slots ∧ (s.loadEntry i).claims = s.claims ∧ (s.loadEntry i).approvals = s.approvals ∧
    (s.loadEntry i).lifts = s.lifts ∧ (s.loadEntry i).entries = s.entries ∧ (s.loadEntry i).stations = s.stations ∧
    (s.loadEntry i).opening = s.opening ∧ (s.loadEntry i).unsolicited = s.unsolicited ∧
    (s.loadEntry i).links = s.links ∧ (s.loadEntry i).flags = s.flags ∧ (s.loadEntry i).attention = s.attention ∧
    (s.loadEntry i).cause = s.cause ∧ (s.loadEntry i).fresh = s.fresh := by
  unfold loadEntry; (repeat' split) <;> simp

@[simp] theorem testOpening_frame (s : State) :
    (s.testOpening).settings = s.settings ∧ (s.testOpening).stopped = s.stopped ∧
    (s.testOpening).records = s.records ∧ (s.testOpening).lanes = s.lanes ∧ (s.testOpening).levels = s.levels ∧
    (s.testOpening).slots = s.slots ∧ (s.testOpening).claims = s.claims ∧ (s.testOpening).approvals = s.approvals ∧
    (s.testOpening).lifts = s.lifts ∧ (s.testOpening).entries = s.entries ∧ (s.testOpening).stations = s.stations ∧
    (s.testOpening).lists = s.lists ∧ (s.testOpening).unsolicited = s.unsolicited ∧ (s.testOpening).links = s.links ∧
    (s.testOpening).flags = s.flags ∧ (s.testOpening).attention = s.attention ∧ (s.testOpening).cause = s.cause ∧
    (s.testOpening).fresh = s.fresh := by
  unfold testOpening; (repeat' split) <;> simp

@[simp] theorem freeList_frame (s : State) (l : Fin 16) :
    (s.freeList l).settings = s.settings ∧ (s.freeList l).stopped = s.stopped ∧ (s.freeList l).records = s.records ∧
    (s.freeList l).lanes = s.lanes ∧ (s.freeList l).levels = s.levels ∧ (s.freeList l).slots = s.slots ∧
    (s.freeList l).claims = s.claims ∧ (s.freeList l).approvals = s.approvals ∧ (s.freeList l).lifts = s.lifts ∧
    (s.freeList l).entries = s.entries ∧ (s.freeList l).unsolicited = s.unsolicited ∧ (s.freeList l).links = s.links ∧
    (s.freeList l).flags = s.flags ∧ (s.freeList l).attention = s.attention ∧ (s.freeList l).cause = s.cause ∧
    (s.freeList l).fresh = s.fresh := by
  unfold freeList; (repeat' split) <;> simp

@[simp] theorem testComplete_frame (s : State) (l : Fin 16) :
    (s.testComplete l).settings = s.settings ∧ (s.testComplete l).stopped = s.stopped ∧
    (s.testComplete l).records = s.records ∧ (s.testComplete l).lanes = s.lanes ∧
    (s.testComplete l).levels = s.levels ∧ (s.testComplete l).slots = s.slots ∧ (s.testComplete l).claims = s.claims ∧
    (s.testComplete l).approvals = s.approvals ∧ (s.testComplete l).lifts = s.lifts ∧
    (s.testComplete l).entries = s.entries ∧ (s.testComplete l).unsolicited = s.unsolicited ∧
    (s.testComplete l).links = s.links ∧ (s.testComplete l).attention = s.attention ∧
    (s.testComplete l).cause = s.cause ∧ (s.testComplete l).fresh = s.fresh := by
  unfold testComplete; (repeat' split) <;> simp

@[simp] theorem raiseDelivered_frame (s : State) (n : StationNo) :
    (s.raiseDelivered n).settings = s.settings ∧ (s.raiseDelivered n).stopped = s.stopped ∧
    (s.raiseDelivered n).records = s.records ∧ (s.raiseDelivered n).lanes = s.lanes ∧
    (s.raiseDelivered n).levels = s.levels ∧ (s.raiseDelivered n).slots = s.slots ∧
    (s.raiseDelivered n).claims = s.claims ∧ (s.raiseDelivered n).approvals = s.approvals ∧
    (s.raiseDelivered n).lifts = s.lifts ∧ (s.raiseDelivered n).entries = s.entries ∧
    (s.raiseDelivered n).stations = s.stations ∧ (s.raiseDelivered n).lists = s.lists ∧
    (s.raiseDelivered n).opening = s.opening ∧ (s.raiseDelivered n).unsolicited = s.unsolicited ∧
    (s.raiseDelivered n).links = s.links ∧ (s.raiseDelivered n).attention = s.attention ∧
    (s.raiseDelivered n).cause = s.cause ∧ (s.raiseDelivered n).fresh = s.fresh := by
  unfold raiseDelivered; (repeat' split) <;> simp

@[simp] theorem testStall_frame (s : State) (n : StationNo) :
    (s.testStall n).settings = s.settings ∧ (s.testStall n).stopped = s.stopped ∧
    (s.testStall n).records = s.records ∧ (s.testStall n).lanes = s.lanes ∧ (s.testStall n).levels = s.levels ∧
    (s.testStall n).slots = s.slots ∧ (s.testStall n).claims = s.claims ∧ (s.testStall n).approvals = s.approvals ∧
    (s.testStall n).lifts = s.lifts ∧ (s.testStall n).entries = s.entries ∧ (s.testStall n).lists = s.lists ∧
    (s.testStall n).opening = s.opening ∧ (s.testStall n).unsolicited = s.unsolicited ∧
    (s.testStall n).links = s.links ∧ (s.testStall n).attention = s.attention ∧ (s.testStall n).fresh = s.fresh := by
  unfold testStall; (repeat' split) <;> simp

@[simp] theorem reportDelivery_frame (s : State) (r : EntryRef) (e : EntryState) :
    (s.reportDelivery r e).settings = s.settings ∧ (s.reportDelivery r e).stopped = s.stopped ∧
    (s.reportDelivery r e).records = s.records ∧ (s.reportDelivery r e).lanes = s.lanes ∧
    (s.reportDelivery r e).levels = s.levels ∧ (s.reportDelivery r e).slots = s.slots ∧
    (s.reportDelivery r e).claims = s.claims ∧ (s.reportDelivery r e).approvals = s.approvals ∧
    (s.reportDelivery r e).lifts = s.lifts ∧ (s.reportDelivery r e).entries = s.entries ∧
    (s.reportDelivery r e).stations = s.stations ∧ (s.reportDelivery r e).lists = s.lists ∧
    (s.reportDelivery r e).opening = s.opening ∧ (s.reportDelivery r e).unsolicited = s.unsolicited ∧
    (s.reportDelivery r e).links = s.links ∧ (s.reportDelivery r e).attention = s.attention ∧
    (s.reportDelivery r e).cause = s.cause ∧ (s.reportDelivery r e).fresh = s.fresh := by
  unfold reportDelivery; (repeat' split) <;> simp

@[simp] theorem testStallOf_frame (s : State) (r : EntryRef) :
    (s.testStallOf r).settings = s.settings ∧ (s.testStallOf r).stopped = s.stopped ∧
    (s.testStallOf r).records = s.records ∧ (s.testStallOf r).lanes = s.lanes ∧ (s.testStallOf r).levels = s.levels ∧
    (s.testStallOf r).slots = s.slots ∧ (s.testStallOf r).claims = s.claims ∧
    (s.testStallOf r).approvals = s.approvals ∧ (s.testStallOf r).lifts = s.lifts ∧
    (s.testStallOf r).entries = s.entries ∧ (s.testStallOf r).lists = s.lists ∧
    (s.testStallOf r).opening = s.opening ∧ (s.testStallOf r).unsolicited = s.unsolicited ∧
    (s.testStallOf r).links = s.links ∧ (s.testStallOf r).attention = s.attention ∧ (s.testStallOf r).fresh = s.fresh := by
  unfold testStallOf; (repeat' split) <;> simp

@[simp] theorem finishEntry_frame (s : State) (r : EntryRef) (e : EntryState) :
    (s.finishEntry r e).settings = s.settings ∧ (s.finishEntry r e).stopped = s.stopped ∧
    (s.finishEntry r e).records = s.records ∧ (s.finishEntry r e).lanes = s.lanes ∧
    (s.finishEntry r e).levels = s.levels ∧ (s.finishEntry r e).slots = s.slots ∧
    (s.finishEntry r e).claims = s.claims ∧ (s.finishEntry r e).approvals = s.approvals ∧
    (s.finishEntry r e).lifts = s.lifts ∧ (s.finishEntry r e).entries = s.entries ∧
    (s.finishEntry r e).stations = s.stations ∧ (s.finishEntry r e).opening = s.opening ∧
    (s.finishEntry r e).unsolicited = s.unsolicited ∧ (s.finishEntry r e).links = s.links ∧
    (s.finishEntry r e).attention = s.attention ∧ (s.finishEntry r e).cause = s.cause ∧
    (s.finishEntry r e).fresh = s.fresh := by
  unfold finishEntry; simp

@[simp] theorem hold_frame (s : State) (i : Ident) (h : Hold) :
    (s.hold i h).settings = s.settings ∧ (s.hold i h).stopped = s.stopped ∧ (s.hold i h).lanes = s.lanes ∧
    (s.hold i h).levels = s.levels ∧ (s.hold i h).slots = s.slots ∧ (s.hold i h).claims = s.claims ∧
    (s.hold i h).approvals = s.approvals ∧ (s.hold i h).lifts = s.lifts ∧ (s.hold i h).entries = s.entries ∧
    (s.hold i h).stations = s.stations ∧ (s.hold i h).lists = s.lists ∧ (s.hold i h).opening = s.opening ∧
    (s.hold i h).unsolicited = s.unsolicited ∧ (s.hold i h).links = s.links ∧ (s.hold i h).attention = s.attention ∧
    (s.hold i h).cause = s.cause ∧ (s.hold i h).fresh = s.fresh := by
  unfold hold; simp

@[simp] theorem stall_frame (s : State) (n : StationNo) (x : ExitFault) :
    (s.stall n x).settings = s.settings ∧ (s.stall n x).stopped = s.stopped ∧ (s.stall n x).records = s.records ∧
    (s.stall n x).lanes = s.lanes ∧ (s.stall n x).levels = s.levels ∧ (s.stall n x).slots = s.slots ∧
    (s.stall n x).claims = s.claims ∧ (s.stall n x).approvals = s.approvals ∧ (s.stall n x).lifts = s.lifts ∧
    (s.stall n x).entries = s.entries ∧ (s.stall n x).lists = s.lists ∧ (s.stall n x).opening = s.opening ∧
    (s.stall n x).unsolicited = s.unsolicited ∧ (s.stall n x).links = s.links ∧
    (s.stall n x).attention = s.attention ∧ (s.stall n x).cause = s.cause ∧ (s.stall n x).fresh = s.fresh := by
  unfold stall; simp

@[simp] theorem stallOf_frame (s : State) (r : EntryRef) (x : ExitFault) :
    (s.stallOf r x).settings = s.settings ∧ (s.stallOf r x).stopped = s.stopped ∧
    (s.stallOf r x).records = s.records ∧ (s.stallOf r x).lanes = s.lanes ∧ (s.stallOf r x).levels = s.levels ∧
    (s.stallOf r x).slots = s.slots ∧ (s.stallOf r x).claims = s.claims ∧ (s.stallOf r x).approvals = s.approvals ∧
    (s.stallOf r x).lifts = s.lifts ∧ (s.stallOf r x).entries = s.entries ∧ (s.stallOf r x).lists = s.lists ∧
    (s.stallOf r x).opening = s.opening ∧ (s.stallOf r x).unsolicited = s.unsolicited ∧
    (s.stallOf r x).links = s.links ∧ (s.stallOf r x).attention = s.attention ∧ (s.stallOf r x).cause = s.cause ∧
    (s.stallOf r x).fresh = s.fresh := by
  unfold stallOf; (repeat' split) <;> simp

@[simp] theorem faultEntry_frame (s : State) (r : Option EntryRef) (x : ExitFault) :
    (s.faultEntry r x).settings = s.settings ∧ (s.faultEntry r x).stopped = s.stopped ∧
    (s.faultEntry r x).records = s.records ∧ (s.faultEntry r x).lanes = s.lanes ∧
    (s.faultEntry r x).levels = s.levels ∧ (s.faultEntry r x).slots = s.slots ∧ (s.faultEntry r x).claims = s.claims ∧
    (s.faultEntry r x).approvals = s.approvals ∧ (s.faultEntry r x).lifts = s.lifts ∧
    (s.faultEntry r x).entries = s.entries ∧ (s.faultEntry r x).opening = s.opening ∧
    (s.faultEntry r x).unsolicited = s.unsolicited ∧ (s.faultEntry r x).links = s.links ∧
    (s.faultEntry r x).attention = s.attention ∧ (s.faultEntry r x).cause = s.cause ∧
    (s.faultEntry r x).fresh = s.fresh := by
  unfold faultEntry; (repeat' split) <;> simp

@[simp] theorem exitFault_frame (s : State) (x : Side) (i r : Ident) :
    (s.exitFault x i r).settings = s.settings ∧ (s.exitFault x i r).stopped = s.stopped ∧
    (s.exitFault x i r).levels = s.levels ∧ (s.exitFault x i r).slots = s.slots ∧
    (s.exitFault x i r).claims = s.claims ∧ (s.exitFault x i r).approvals = s.approvals ∧
    (s.exitFault x i r).opening = s.opening ∧ (s.exitFault x i r).unsolicited = s.unsolicited ∧
    (s.exitFault x i r).links = s.links ∧ (s.exitFault x i r).attention = s.attention ∧
    (s.exitFault x i r).cause = s.cause ∧ (s.exitFault x i r).fresh = s.fresh := by
  unfold exitFault; simp

@[simp] theorem exitMatch_frame (s : State) (x : Side) (i : Ident) :
    (s.exitMatch x i).settings = s.settings ∧ (s.exitMatch x i).stopped = s.stopped ∧
    (s.exitMatch x i).levels = s.levels ∧ (s.exitMatch x i).slots = s.slots ∧ (s.exitMatch x i).claims = s.claims ∧
    (s.exitMatch x i).approvals = s.approvals ∧ (s.exitMatch x i).unsolicited = s.unsolicited ∧
    (s.exitMatch x i).links = s.links ∧ (s.exitMatch x i).attention = s.attention ∧
    (s.exitMatch x i).cause = s.cause ∧ (s.exitMatch x i).fresh = s.fresh := by
  unfold exitMatch; (repeat' split) <;> simp

@[simp] theorem endClaim_frame (s : State) (l : Level) (c : Code) :
    (s.endClaim l c).settings = s.settings ∧ (s.endClaim l c).stopped = s.stopped ∧
    (s.endClaim l c).records = s.records ∧ (s.endClaim l c).lanes = s.lanes ∧ (s.endClaim l c).levels = s.levels ∧
    (s.endClaim l c).slots = s.slots ∧ (s.endClaim l c).lifts = s.lifts ∧ (s.endClaim l c).entries = s.entries ∧
    (s.endClaim l c).stations = s.stations ∧ (s.endClaim l c).lists = s.lists ∧ (s.endClaim l c).opening = s.opening ∧
    (s.endClaim l c).unsolicited = s.unsolicited ∧ (s.endClaim l c).flags = s.flags ∧
    (s.endClaim l c).attention = s.attention ∧ (s.endClaim l c).cause = s.cause ∧ (s.endClaim l c).fresh = s.fresh := by
  unfold endClaim; (repeat' split) <;> simp

@[simp] theorem blockLane_frame (s : State) (l : LaneId) (w : BlockReason) :
    (s.blockLane l w).settings = s.settings ∧ (s.blockLane l w).stopped = s.stopped ∧
    (s.blockLane l w).records = s.records ∧ (s.blockLane l w).levels = s.levels ∧ (s.blockLane l w).slots = s.slots ∧
    (s.blockLane l w).claims = s.claims ∧ (s.blockLane l w).approvals = s.approvals ∧
    (s.blockLane l w).lifts = s.lifts ∧ (s.blockLane l w).entries = s.entries ∧
    (s.blockLane l w).stations = s.stations ∧ (s.blockLane l w).lists = s.lists ∧
    (s.blockLane l w).opening = s.opening ∧ (s.blockLane l w).unsolicited = s.unsolicited ∧
    (s.blockLane l w).links = s.links ∧ (s.blockLane l w).attention = s.attention ∧
    (s.blockLane l w).cause = s.cause ∧ (s.blockLane l w).fresh = s.fresh := by
  unfold blockLane; (repeat' split) <;> simp

@[simp] theorem compareLane_frame (s : State) (l : LaneId) :
    (s.compareLane l).settings = s.settings ∧ (s.compareLane l).stopped = s.stopped ∧
    (s.compareLane l).records = s.records ∧ (s.compareLane l).levels = s.levels ∧ (s.compareLane l).slots = s.slots ∧
    (s.compareLane l).claims = s.claims ∧ (s.compareLane l).approvals = s.approvals ∧
    (s.compareLane l).lifts = s.lifts ∧ (s.compareLane l).entries = s.entries ∧
    (s.compareLane l).stations = s.stations ∧ (s.compareLane l).lists = s.lists ∧
    (s.compareLane l).opening = s.opening ∧ (s.compareLane l).unsolicited = s.unsolicited ∧
    (s.compareLane l).links = s.links ∧ (s.compareLane l).attention = s.attention ∧
    (s.compareLane l).cause = s.cause ∧ (s.compareLane l).fresh = s.fresh := by
  unfold compareLane; (repeat' split) <;> simp

@[simp] theorem endSettle_frame (s : State) (l : LaneId) :
    (s.endSettle l).settings = s.settings ∧ (s.endSettle l).stopped = s.stopped ∧
    (s.endSettle l).records = s.records ∧ (s.endSettle l).levels = s.levels ∧ (s.endSettle l).slots = s.slots ∧
    (s.endSettle l).claims = s.claims ∧ (s.endSettle l).approvals = s.approvals ∧ (s.endSettle l).lifts = s.lifts ∧
    (s.endSettle l).entries = s.entries ∧ (s.endSettle l).stations = s.stations ∧ (s.endSettle l).lists = s.lists ∧
    (s.endSettle l).opening = s.opening ∧ (s.endSettle l).unsolicited = s.unsolicited ∧
    (s.endSettle l).links = s.links ∧ (s.endSettle l).attention = s.attention ∧ (s.endSettle l).fresh = s.fresh := by
  unfold endSettle; (repeat' split) <;> simp

@[simp] theorem startSettle_frame (s : State) (l : LaneId) :
    (s.startSettle l).settings = s.settings ∧ (s.startSettle l).stopped = s.stopped ∧
    (s.startSettle l).records = s.records ∧ (s.startSettle l).levels = s.levels ∧ (s.startSettle l).slots = s.slots ∧
    (s.startSettle l).claims = s.claims ∧ (s.startSettle l).approvals = s.approvals ∧
    (s.startSettle l).lifts = s.lifts ∧ (s.startSettle l).entries = s.entries ∧
    (s.startSettle l).stations = s.stations ∧ (s.startSettle l).lists = s.lists ∧
    (s.startSettle l).opening = s.opening ∧ (s.startSettle l).unsolicited = s.unsolicited ∧
    (s.startSettle l).links = s.links ∧ (s.startSettle l).flags = s.flags ∧
    (s.startSettle l).attention = s.attention ∧ (s.startSettle l).cause = s.cause ∧ (s.startSettle l).fresh = s.fresh := by
  unfold startSettle; (repeat' split) <;> simp

@[simp] theorem cutSettles_frame (s : State) (l : Level) (m : Mode) :
    (s.cutSettles l m).settings = s.settings ∧ (s.cutSettles l m).stopped = s.stopped ∧
    (s.cutSettles l m).records = s.records ∧ (s.cutSettles l m).levels = s.levels ∧
    (s.cutSettles l m).slots = s.slots ∧ (s.cutSettles l m).claims = s.claims ∧
    (s.cutSettles l m).approvals = s.approvals ∧ (s.cutSettles l m).lifts = s.lifts ∧
    (s.cutSettles l m).entries = s.entries ∧ (s.cutSettles l m).stations = s.stations ∧
    (s.cutSettles l m).lists = s.lists ∧ (s.cutSettles l m).opening = s.opening ∧
    (s.cutSettles l m).unsolicited = s.unsolicited ∧ (s.cutSettles l m).links = s.links ∧
    (s.cutSettles l m).attention = s.attention ∧ (s.cutSettles l m).fresh = s.fresh := by
  unfold cutSettles; (repeat' split) <;> simp

@[simp] theorem overtake_frame (s : State) (l : Level) (m n : Mode) :
    (s.overtake l m n).settings = s.settings ∧ (s.overtake l m n).stopped = s.stopped ∧
    (s.overtake l m n).records = s.records ∧ (s.overtake l m n).lanes = s.lanes ∧
    (s.overtake l m n).levels = s.levels ∧ (s.overtake l m n).slots = s.slots ∧ (s.overtake l m n).lifts = s.lifts ∧
    (s.overtake l m n).entries = s.entries ∧ (s.overtake l m n).stations = s.stations ∧
    (s.overtake l m n).lists = s.lists ∧ (s.overtake l m n).opening = s.opening ∧
    (s.overtake l m n).unsolicited = s.unsolicited ∧ (s.overtake l m n).flags = s.flags ∧
    (s.overtake l m n).attention = s.attention ∧ (s.overtake l m n).cause = s.cause ∧
    (s.overtake l m n).fresh = s.fresh := by
  unfold overtake; (repeat' split) <;> simp

@[simp] theorem changeMode_frame (s : State) (l : Level) (m : Mode) :
    (s.changeMode l m).settings = s.settings ∧ (s.changeMode l m).stopped = s.stopped ∧
    (s.changeMode l m).records = s.records ∧ (s.changeMode l m).slots = s.slots ∧ (s.changeMode l m).lifts = s.lifts ∧
    (s.changeMode l m).entries = s.entries ∧ (s.changeMode l m).stations = s.stations ∧
    (s.changeMode l m).lists = s.lists ∧ (s.changeMode l m).opening = s.opening ∧
    (s.changeMode l m).unsolicited = s.unsolicited ∧ (s.changeMode l m).attention = s.attention ∧
    (s.changeMode l m).fresh = s.fresh := by
  unfold changeMode; (repeat' split) <;> simp

@[simp] theorem askMode_frame (s : State) (l : Level) (m : Mode) :
    (s.askMode l m).settings = s.settings ∧ (s.askMode l m).stopped = s.stopped ∧
    (s.askMode l m).records = s.records ∧ (s.askMode l m).slots = s.slots ∧ (s.askMode l m).lifts = s.lifts ∧
    (s.askMode l m).entries = s.entries ∧ (s.askMode l m).stations = s.stations ∧ (s.askMode l m).lists = s.lists ∧
    (s.askMode l m).opening = s.opening ∧ (s.askMode l m).unsolicited = s.unsolicited ∧
    (s.askMode l m).attention = s.attention ∧ (s.askMode l m).fresh = s.fresh := by
  unfold askMode; (repeat' split) <;> simp

@[simp] theorem testDrain_frame (s : State) (l : Level) :
    (s.testDrain l).settings = s.settings ∧ (s.testDrain l).stopped = s.stopped ∧
    (s.testDrain l).records = s.records ∧ (s.testDrain l).slots = s.slots ∧ (s.testDrain l).lifts = s.lifts ∧
    (s.testDrain l).entries = s.entries ∧ (s.testDrain l).stations = s.stations ∧ (s.testDrain l).lists = s.lists ∧
    (s.testDrain l).opening = s.opening ∧ (s.testDrain l).unsolicited = s.unsolicited ∧
    (s.testDrain l).attention = s.attention ∧ (s.testDrain l).fresh = s.fresh := by
  unfold testDrain; (repeat' split) <;> simp

@[simp] theorem testStreak_frame (s : State) (l : Level) :
    (s.testStreak l).settings = s.settings ∧ (s.testStreak l).stopped = s.stopped ∧
    (s.testStreak l).records = s.records ∧ (s.testStreak l).slots = s.slots ∧ (s.testStreak l).lifts = s.lifts ∧
    (s.testStreak l).entries = s.entries ∧ (s.testStreak l).stations = s.stations ∧ (s.testStreak l).lists = s.lists ∧
    (s.testStreak l).opening = s.opening ∧ (s.testStreak l).unsolicited = s.unsolicited ∧
    (s.testStreak l).attention = s.attention ∧ (s.testStreak l).fresh = s.fresh := by
  unfold testStreak; (repeat' split) <;> simp

@[simp] theorem recomputeFence_frame (s : State) (l : Level) :
    (s.recomputeFence l).settings = s.settings ∧ (s.recomputeFence l).stopped = s.stopped ∧
    (s.recomputeFence l).records = s.records ∧ (s.recomputeFence l).lanes = s.lanes ∧
    (s.recomputeFence l).slots = s.slots ∧ (s.recomputeFence l).lifts = s.lifts ∧
    (s.recomputeFence l).entries = s.entries ∧ (s.recomputeFence l).stations = s.stations ∧
    (s.recomputeFence l).lists = s.lists ∧ (s.recomputeFence l).opening = s.opening ∧
    (s.recomputeFence l).unsolicited = s.unsolicited ∧ (s.recomputeFence l).flags = s.flags ∧
    (s.recomputeFence l).attention = s.attention ∧ (s.recomputeFence l).fresh = s.fresh := by
  unfold recomputeFence; (repeat' split) <;> simp

@[simp] theorem reserve_frame (s : State) (t : Taker) (c : List Ident) :
    (s.reserve t c).settings = s.settings ∧ (s.reserve t c).stopped = s.stopped ∧
    (s.reserve t c).records = s.records ∧ (s.reserve t c).levels = s.levels ∧ (s.reserve t c).slots = s.slots ∧
    (s.reserve t c).claims = s.claims ∧ (s.reserve t c).approvals = s.approvals ∧
    (s.reserve t c).entries = s.entries ∧ (s.reserve t c).stations = s.stations ∧ (s.reserve t c).lists = s.lists ∧
    (s.reserve t c).opening = s.opening ∧ (s.reserve t c).unsolicited = s.unsolicited ∧
    (s.reserve t c).links = s.links ∧ (s.reserve t c).flags = s.flags ∧ (s.reserve t c).attention = s.attention ∧
    (s.reserve t c).cause = s.cause ∧ (s.reserve t c).fresh = s.fresh := by
  unfold reserve; (repeat' split) <;> simp

@[simp] theorem release_frame (s : State) (t : Taker) (n : Nat) :
    (s.release t n).settings = s.settings ∧ (s.release t n).stopped = s.stopped ∧
    (s.release t n).records = s.records ∧ (s.release t n).levels = s.levels ∧ (s.release t n).slots = s.slots ∧
    (s.release t n).claims = s.claims ∧ (s.release t n).approvals = s.approvals ∧
    (s.release t n).entries = s.entries ∧ (s.release t n).stations = s.stations ∧ (s.release t n).lists = s.lists ∧
    (s.release t n).opening = s.opening ∧ (s.release t n).unsolicited = s.unsolicited ∧
    (s.release t n).links = s.links ∧ (s.release t n).flags = s.flags ∧ (s.release t n).attention = s.attention ∧
    (s.release t n).cause = s.cause ∧ (s.release t n).fresh = s.fresh := by
  unfold release; (repeat' split) <;> simp

@[simp] theorem partyWorks_frame (s : State) (i : Fin 34) :
    (s.partyWorks i).settings = s.settings ∧ (s.partyWorks i).stopped = s.stopped ∧
    (s.partyWorks i).records = s.records ∧ (s.partyWorks i).lanes = s.lanes ∧ (s.partyWorks i).levels = s.levels ∧
    (s.partyWorks i).slots = s.slots ∧ (s.partyWorks i).approvals = s.approvals ∧
    (s.partyWorks i).entries = s.entries ∧ (s.partyWorks i).stations = s.stations ∧ (s.partyWorks i).lists = s.lists ∧
    (s.partyWorks i).opening = s.opening ∧ (s.partyWorks i).unsolicited = s.unsolicited ∧
    (s.partyWorks i).links = s.links ∧ (s.partyWorks i).flags = s.flags ∧ (s.partyWorks i).attention = s.attention ∧
    (s.partyWorks i).cause = s.cause ∧ (s.partyWorks i).fresh = s.fresh := by
  unfold partyWorks; (repeat' split) <;> simp

@[simp] theorem openSlot_frame (s : State) (i : Fin 34) (o : Open) :
    (s.openSlot i o).settings = s.settings ∧ (s.openSlot i o).stopped = s.stopped ∧
    (s.openSlot i o).records = s.records ∧ (s.openSlot i o).lanes = s.lanes ∧ (s.openSlot i o).levels = s.levels ∧
    (s.openSlot i o).claims = s.claims ∧ (s.openSlot i o).approvals = s.approvals ∧ (s.openSlot i o).lifts = s.lifts ∧
    (s.openSlot i o).entries = s.entries ∧ (s.openSlot i o).stations = s.stations ∧ (s.openSlot i o).lists = s.lists ∧
    (s.openSlot i o).opening = s.opening ∧ (s.openSlot i o).unsolicited = s.unsolicited ∧
    (s.openSlot i o).links = s.links ∧ (s.openSlot i o).flags = s.flags ∧ (s.openSlot i o).attention = s.attention ∧
    (s.openSlot i o).cause = s.cause ∧ (s.openSlot i o).fresh = s.fresh := by
  unfold openSlot; simp

@[simp] theorem enlist_frame (s : State) (i : Fin 34) (t : List Ident) :
    (s.enlist i t).settings = s.settings ∧ (s.enlist i t).stopped = s.stopped ∧ (s.enlist i t).lanes = s.lanes ∧
    (s.enlist i t).levels = s.levels ∧ (s.enlist i t).slots = s.slots ∧ (s.enlist i t).claims = s.claims ∧
    (s.enlist i t).approvals = s.approvals ∧ (s.enlist i t).lifts = s.lifts ∧ (s.enlist i t).entries = s.entries ∧
    (s.enlist i t).stations = s.stations ∧ (s.enlist i t).lists = s.lists ∧ (s.enlist i t).opening = s.opening ∧
    (s.enlist i t).unsolicited = s.unsolicited ∧ (s.enlist i t).links = s.links ∧ (s.enlist i t).flags = s.flags ∧
    (s.enlist i t).attention = s.attention ∧ (s.enlist i t).cause = s.cause ∧ (s.enlist i t).fresh = s.fresh := by
  unfold enlist; repeat' apply And.intro
  all_goals first
    | rfl
    | exact (foldl_settings _ (by intros; rfl) _ _).trans rfl
    | exact (foldl_stopped _ (by intros; rfl) _ _).trans rfl
    | exact (foldl_lanes _ (by intros; rfl) _ _).trans rfl
    | exact (foldl_levels _ (by intros; rfl) _ _).trans rfl
    | exact (foldl_slots _ (by intros; rfl) _ _).trans rfl
    | exact (foldl_claims _ (by intros; rfl) _ _).trans rfl
    | exact (foldl_approvals _ (by intros; rfl) _ _).trans rfl
    | exact (foldl_lifts _ (by intros; rfl) _ _).trans rfl
    | exact (foldl_entries _ (by intros; rfl) _ _).trans rfl
    | exact (foldl_stations _ (by intros; rfl) _ _).trans rfl
    | exact (foldl_lists _ (by intros; rfl) _ _).trans rfl
    | exact (foldl_opening _ (by intros; rfl) _ _).trans rfl
    | exact (foldl_unsolicited _ (by intros; rfl) _ _).trans rfl
    | exact (foldl_links _ (by intros; rfl) _ _).trans rfl
    | exact (foldl_flags _ (by intros; rfl) _ _).trans rfl
    | exact (foldl_attention _ (by intros; rfl) _ _).trans rfl
    | exact (foldl_cause _ (by intros; rfl) _ _).trans rfl
    | exact (foldl_fresh _ (by intros; rfl) _ _).trans rfl

@[simp] theorem openTransfer_frame (s : State) (g : Grant) :
    (s.openTransfer g).settings = s.settings ∧ (s.openTransfer g).stopped = s.stopped ∧
    (s.openTransfer g).levels = s.levels ∧ (s.openTransfer g).approvals = s.approvals ∧
    (s.openTransfer g).entries = s.entries ∧ (s.openTransfer g).stations = s.stations ∧
    (s.openTransfer g).lists = s.lists ∧ (s.openTransfer g).opening = s.opening ∧
    (s.openTransfer g).unsolicited = s.unsolicited ∧ (s.openTransfer g).links = s.links ∧
    (s.openTransfer g).flags = s.flags ∧ (s.openTransfer g).attention = s.attention ∧
    (s.openTransfer g).cause = s.cause ∧ (s.openTransfer g).fresh = s.fresh := by
  unfold openTransfer; simp

@[simp] theorem partyFree_frame (s : State) (i : Fin 34) (b : Bool) :
    (s.partyFree i b).settings = s.settings ∧ (s.partyFree i b).stopped = s.stopped ∧
    (s.partyFree i b).records = s.records ∧ (s.partyFree i b).lanes = s.lanes ∧ (s.partyFree i b).levels = s.levels ∧
    (s.partyFree i b).slots = s.slots ∧ (s.partyFree i b).approvals = s.approvals ∧
    (s.partyFree i b).entries = s.entries ∧ (s.partyFree i b).stations = s.stations ∧
    (s.partyFree i b).lists = s.lists ∧ (s.partyFree i b).opening = s.opening ∧
    (s.partyFree i b).unsolicited = s.unsolicited ∧ (s.partyFree i b).links = s.links ∧
    (s.partyFree i b).flags = s.flags ∧ (s.partyFree i b).attention = s.attention ∧
    (s.partyFree i b).cause = s.cause ∧ (s.partyFree i b).fresh = s.fresh := by
  unfold partyFree; (repeat' split) <;> simp

@[simp] theorem afterEnd_frame (s : State) (l : List Level) :
    (s.afterEnd l).settings = s.settings ∧ (s.afterEnd l).stopped = s.stopped ∧ (s.afterEnd l).records = s.records ∧
    (s.afterEnd l).slots = s.slots ∧ (s.afterEnd l).lifts = s.lifts ∧ (s.afterEnd l).entries = s.entries ∧
    (s.afterEnd l).stations = s.stations ∧ (s.afterEnd l).lists = s.lists ∧ (s.afterEnd l).opening = s.opening ∧
    (s.afterEnd l).unsolicited = s.unsolicited ∧ (s.afterEnd l).attention = s.attention ∧
    (s.afterEnd l).fresh = s.fresh := by
  unfold afterEnd; simp

@[simp] theorem unlist_frame (s : State) (l : List Ident) :
    (s.unlist l).settings = s.settings ∧ (s.unlist l).stopped = s.stopped ∧ (s.unlist l).lanes = s.lanes ∧
    (s.unlist l).levels = s.levels ∧ (s.unlist l).slots = s.slots ∧ (s.unlist l).claims = s.claims ∧
    (s.unlist l).approvals = s.approvals ∧ (s.unlist l).lifts = s.lifts ∧ (s.unlist l).entries = s.entries ∧
    (s.unlist l).stations = s.stations ∧ (s.unlist l).lists = s.lists ∧ (s.unlist l).opening = s.opening ∧
    (s.unlist l).unsolicited = s.unsolicited ∧ (s.unlist l).links = s.links ∧ (s.unlist l).flags = s.flags ∧
    (s.unlist l).attention = s.attention ∧ (s.unlist l).cause = s.cause ∧ (s.unlist l).fresh = s.fresh := by
  unfold unlist; repeat' apply And.intro
  all_goals first
    | rfl
    | exact (foldl_settings _ (by intros; rfl) _ _).trans rfl
    | exact (foldl_stopped _ (by intros; rfl) _ _).trans rfl
    | exact (foldl_lanes _ (by intros; rfl) _ _).trans rfl
    | exact (foldl_levels _ (by intros; rfl) _ _).trans rfl
    | exact (foldl_slots _ (by intros; rfl) _ _).trans rfl
    | exact (foldl_claims _ (by intros; rfl) _ _).trans rfl
    | exact (foldl_approvals _ (by intros; rfl) _ _).trans rfl
    | exact (foldl_lifts _ (by intros; rfl) _ _).trans rfl
    | exact (foldl_entries _ (by intros; rfl) _ _).trans rfl
    | exact (foldl_stations _ (by intros; rfl) _ _).trans rfl
    | exact (foldl_lists _ (by intros; rfl) _ _).trans rfl
    | exact (foldl_opening _ (by intros; rfl) _ _).trans rfl
    | exact (foldl_unsolicited _ (by intros; rfl) _ _).trans rfl
    | exact (foldl_links _ (by intros; rfl) _ _).trans rfl
    | exact (foldl_flags _ (by intros; rfl) _ _).trans rfl
    | exact (foldl_attention _ (by intros; rfl) _ _).trans rfl
    | exact (foldl_cause _ (by intros; rfl) _ _).trans rfl
    | exact (foldl_fresh _ (by intros; rfl) _ _).trans rfl

@[simp] theorem joinTaker_frame (s : State) (t : Taker) (c : List Ident) :
    (s.joinTaker t c).settings = s.settings ∧ (s.joinTaker t c).stopped = s.stopped ∧
    (s.joinTaker t c).levels = s.levels ∧ (s.joinTaker t c).slots = s.slots ∧ (s.joinTaker t c).claims = s.claims ∧
    (s.joinTaker t c).approvals = s.approvals ∧ (s.joinTaker t c).entries = s.entries ∧
    (s.joinTaker t c).stations = s.stations ∧ (s.joinTaker t c).lists = s.lists ∧
    (s.joinTaker t c).opening = s.opening ∧ (s.joinTaker t c).unsolicited = s.unsolicited ∧
    (s.joinTaker t c).links = s.links ∧ (s.joinTaker t c).flags = s.flags ∧
    (s.joinTaker t c).attention = s.attention ∧ (s.joinTaker t c).cause = s.cause ∧ (s.joinTaker t c).fresh = s.fresh := by
  unfold joinTaker
  split
  all_goals repeat' apply And.intro
  all_goals first
    | rfl
    | exact (foldl_settings _ (by intros; rfl) _ _).trans rfl
    | exact (foldl_stopped _ (by intros; rfl) _ _).trans rfl
    | exact (foldl_levels _ (by intros; rfl) _ _).trans rfl
    | exact (foldl_slots _ (by intros; rfl) _ _).trans rfl
    | exact (foldl_claims _ (by intros; rfl) _ _).trans rfl
    | exact (foldl_approvals _ (by intros; rfl) _ _).trans rfl
    | exact (foldl_entries _ (by intros; rfl) _ _).trans rfl
    | exact (foldl_stations _ (by intros; rfl) _ _).trans rfl
    | exact (foldl_lists _ (by intros; rfl) _ _).trans rfl
    | exact (foldl_opening _ (by intros; rfl) _ _).trans rfl
    | exact (foldl_unsolicited _ (by intros; rfl) _ _).trans rfl
    | exact (foldl_links _ (by intros; rfl) _ _).trans rfl
    | exact (foldl_flags _ (by intros; rfl) _ _).trans rfl
    | exact (foldl_attention _ (by intros; rfl) _ _).trans rfl
    | exact (foldl_cause _ (by intros; rfl) _ _).trans rfl
    | exact (foldl_fresh _ (by intros; rfl) _ _).trans rfl

@[simp] theorem clearStreaks_frame (s : State) (l : List Level) :
    (s.clearStreaks l).settings = s.settings ∧ (s.clearStreaks l).stopped = s.stopped ∧
    (s.clearStreaks l).records = s.records ∧ (s.clearStreaks l).lanes = s.lanes ∧ (s.clearStreaks l).slots = s.slots ∧
    (s.clearStreaks l).claims = s.claims ∧ (s.clearStreaks l).approvals = s.approvals ∧
    (s.clearStreaks l).lifts = s.lifts ∧ (s.clearStreaks l).entries = s.entries ∧
    (s.clearStreaks l).stations = s.stations ∧ (s.clearStreaks l).lists = s.lists ∧
    (s.clearStreaks l).opening = s.opening ∧ (s.clearStreaks l).unsolicited = s.unsolicited ∧
    (s.clearStreaks l).links = s.links ∧ (s.clearStreaks l).flags = s.flags ∧
    (s.clearStreaks l).attention = s.attention ∧ (s.clearStreaks l).cause = s.cause ∧
    (s.clearStreaks l).fresh = s.fresh := by
  unfold clearStreaks; simp

@[simp] theorem loadTaken_frame (s : State) (o : Open) :
    (s.loadTaken o).settings = s.settings ∧ (s.loadTaken o).stopped = s.stopped ∧
    (s.loadTaken o).records = s.records ∧ (s.loadTaken o).lanes = s.lanes ∧ (s.loadTaken o).levels = s.levels ∧
    (s.loadTaken o).slots = s.slots ∧ (s.loadTaken o).claims = s.claims ∧ (s.loadTaken o).approvals = s.approvals ∧
    (s.loadTaken o).lifts = s.lifts ∧ (s.loadTaken o).entries = s.entries ∧ (s.loadTaken o).stations = s.stations ∧
    (s.loadTaken o).opening = s.opening ∧ (s.loadTaken o).unsolicited = s.unsolicited ∧
    (s.loadTaken o).links = s.links ∧ (s.loadTaken o).flags = s.flags ∧ (s.loadTaken o).attention = s.attention ∧
    (s.loadTaken o).cause = s.cause ∧ (s.loadTaken o).fresh = s.fresh := by
  unfold loadTaken; (repeat' split) <;> simp

@[simp] theorem settleNamed_frame (s : State) (o : Open) :
    (s.settleNamed o).settings = s.settings ∧ (s.settleNamed o).stopped = s.stopped ∧
    (s.settleNamed o).records = s.records ∧ (s.settleNamed o).levels = s.levels ∧ (s.settleNamed o).slots = s.slots ∧
    (s.settleNamed o).claims = s.claims ∧ (s.settleNamed o).approvals = s.approvals ∧
    (s.settleNamed o).lifts = s.lifts ∧ (s.settleNamed o).entries = s.entries ∧
    (s.settleNamed o).stations = s.stations ∧ (s.settleNamed o).lists = s.lists ∧
    (s.settleNamed o).opening = s.opening ∧ (s.settleNamed o).unsolicited = s.unsolicited ∧
    (s.settleNamed o).links = s.links ∧ (s.settleNamed o).flags = s.flags ∧
    (s.settleNamed o).attention = s.attention ∧ (s.settleNamed o).cause = s.cause ∧ (s.settleNamed o).fresh = s.fresh := by
  unfold settleNamed; (repeat' split) <;> simp

@[simp] theorem commit_frame (s : State) (i : Fin 34) (o : Open) :
    (s.commit i o).settings = s.settings ∧ (s.commit i o).stopped = s.stopped ∧ (s.commit i o).stations = s.stations ∧
    (s.commit i o).opening = s.opening ∧ (s.commit i o).unsolicited = s.unsolicited ∧
    (s.commit i o).attention = s.attention ∧ (s.commit i o).fresh = s.fresh := by
  unfold commit; simp

@[simp] theorem abort_frame (s : State) (i : Fin 34) (o : Open) :
    (s.abort i o).settings = s.settings ∧ (s.abort i o).stopped = s.stopped ∧ (s.abort i o).entries = s.entries ∧
    (s.abort i o).stations = s.stations ∧ (s.abort i o).lists = s.lists ∧ (s.abort i o).opening = s.opening ∧
    (s.abort i o).unsolicited = s.unsolicited ∧ (s.abort i o).attention = s.attention ∧ (s.abort i o).fresh = s.fresh := by
  unfold abort; simp

@[simp] theorem raiseFailed_frame (s : State) (i : Fin 34) (o : Open) :
    (s.raiseFailed i o).settings = s.settings ∧ (s.raiseFailed i o).stopped = s.stopped ∧
    (s.raiseFailed i o).records = s.records ∧ (s.raiseFailed i o).lanes = s.lanes ∧
    (s.raiseFailed i o).levels = s.levels ∧ (s.raiseFailed i o).slots = s.slots ∧
    (s.raiseFailed i o).claims = s.claims ∧ (s.raiseFailed i o).approvals = s.approvals ∧
    (s.raiseFailed i o).lifts = s.lifts ∧ (s.raiseFailed i o).entries = s.entries ∧
    (s.raiseFailed i o).stations = s.stations ∧ (s.raiseFailed i o).lists = s.lists ∧
    (s.raiseFailed i o).opening = s.opening ∧ (s.raiseFailed i o).unsolicited = s.unsolicited ∧
    (s.raiseFailed i o).links = s.links ∧ (s.raiseFailed i o).attention = s.attention ∧
    (s.raiseFailed i o).cause = s.cause ∧ (s.raiseFailed i o).fresh = s.fresh := by
  unfold raiseFailed; (repeat' split) <;> simp

@[simp] theorem raiseStreaks_frame (s : State) (l : List Level) :
    (s.raiseStreaks l).settings = s.settings ∧ (s.raiseStreaks l).stopped = s.stopped ∧
    (s.raiseStreaks l).records = s.records ∧ (s.raiseStreaks l).lanes = s.lanes ∧ (s.raiseStreaks l).slots = s.slots ∧
    (s.raiseStreaks l).claims = s.claims ∧ (s.raiseStreaks l).approvals = s.approvals ∧
    (s.raiseStreaks l).lifts = s.lifts ∧ (s.raiseStreaks l).entries = s.entries ∧
    (s.raiseStreaks l).stations = s.stations ∧ (s.raiseStreaks l).lists = s.lists ∧
    (s.raiseStreaks l).opening = s.opening ∧ (s.raiseStreaks l).unsolicited = s.unsolicited ∧
    (s.raiseStreaks l).links = s.links ∧ (s.raiseStreaks l).flags = s.flags ∧
    (s.raiseStreaks l).attention = s.attention ∧ (s.raiseStreaks l).cause = s.cause ∧
    (s.raiseStreaks l).fresh = s.fresh := by
  unfold raiseStreaks; simp

@[simp] theorem testStreaks_frame (s : State) (l : List Level) :
    (s.testStreaks l).settings = s.settings ∧ (s.testStreaks l).stopped = s.stopped ∧
    (s.testStreaks l).records = s.records ∧ (s.testStreaks l).slots = s.slots ∧ (s.testStreaks l).lifts = s.lifts ∧
    (s.testStreaks l).entries = s.entries ∧ (s.testStreaks l).stations = s.stations ∧
    (s.testStreaks l).lists = s.lists ∧ (s.testStreaks l).opening = s.opening ∧
    (s.testStreaks l).unsolicited = s.unsolicited ∧ (s.testStreaks l).attention = s.attention ∧
    (s.testStreaks l).fresh = s.fresh := by
  unfold testStreaks; simp

@[simp] theorem holdTotes_frame (s : State) (o : Open) (w : FailReason) :
    (s.holdTotes o w).settings = s.settings ∧ (s.holdTotes o w).stopped = s.stopped ∧
    (s.holdTotes o w).lanes = s.lanes ∧ (s.holdTotes o w).levels = s.levels ∧ (s.holdTotes o w).slots = s.slots ∧
    (s.holdTotes o w).claims = s.claims ∧ (s.holdTotes o w).approvals = s.approvals ∧
    (s.holdTotes o w).lifts = s.lifts ∧ (s.holdTotes o w).entries = s.entries ∧
    (s.holdTotes o w).stations = s.stations ∧ (s.holdTotes o w).lists = s.lists ∧
    (s.holdTotes o w).opening = s.opening ∧ (s.holdTotes o w).unsolicited = s.unsolicited ∧
    (s.holdTotes o w).links = s.links ∧ (s.holdTotes o w).attention = s.attention ∧
    (s.holdTotes o w).cause = s.cause ∧ (s.holdTotes o w).fresh = s.fresh := by
  unfold holdTotes; simp

@[simp] theorem blockNamed_frame (s : State) (o : Open) :
    (s.blockNamed o).settings = s.settings ∧ (s.blockNamed o).stopped = s.stopped ∧
    (s.blockNamed o).records = s.records ∧ (s.blockNamed o).levels = s.levels ∧ (s.blockNamed o).slots = s.slots ∧
    (s.blockNamed o).claims = s.claims ∧ (s.blockNamed o).approvals = s.approvals ∧ (s.blockNamed o).lifts = s.lifts ∧
    (s.blockNamed o).entries = s.entries ∧ (s.blockNamed o).stations = s.stations ∧ (s.blockNamed o).lists = s.lists ∧
    (s.blockNamed o).opening = s.opening ∧ (s.blockNamed o).unsolicited = s.unsolicited ∧
    (s.blockNamed o).links = s.links ∧ (s.blockNamed o).attention = s.attention ∧ (s.blockNamed o).cause = s.cause ∧
    (s.blockNamed o).fresh = s.fresh := by
  unfold blockNamed; (repeat' split) <;> simp

@[simp] theorem fail_frame (s : State) (i : Fin 34) (o : Open) (w : FailReason) :
    (s.fail i o w).settings = s.settings ∧ (s.fail i o w).stopped = s.stopped ∧ (s.fail i o w).stations = s.stations ∧
    (s.fail i o w).lists = s.lists ∧ (s.fail i o w).opening = s.opening ∧ (s.fail i o w).unsolicited = s.unsolicited ∧
    (s.fail i o w).attention = s.attention ∧ (s.fail i o w).fresh = s.fresh := by
  unfold fail; simp

@[simp] theorem putOpen_frame (s : State) (i : Fin 34) (o : Open) :
    (s.putOpen i o).settings = s.settings ∧ (s.putOpen i o).stopped = s.stopped ∧
    (s.putOpen i o).records = s.records ∧ (s.putOpen i o).lanes = s.lanes ∧ (s.putOpen i o).levels = s.levels ∧
    (s.putOpen i o).claims = s.claims ∧ (s.putOpen i o).approvals = s.approvals ∧ (s.putOpen i o).lifts = s.lifts ∧
    (s.putOpen i o).entries = s.entries ∧ (s.putOpen i o).stations = s.stations ∧ (s.putOpen i o).lists = s.lists ∧
    (s.putOpen i o).opening = s.opening ∧ (s.putOpen i o).unsolicited = s.unsolicited ∧
    (s.putOpen i o).links = s.links ∧ (s.putOpen i o).flags = s.flags ∧ (s.putOpen i o).attention = s.attention ∧
    (s.putOpen i o).cause = s.cause ∧ (s.putOpen i o).fresh = s.fresh := by
  unfold putOpen; simp

@[simp] theorem advance_frame (s : State) (i : Fin 34) (o : Open) :
    (s.advance i o).settings = s.settings ∧ (s.advance i o).stopped = s.stopped ∧
    (s.advance i o).stations = s.stations ∧ (s.advance i o).opening = s.opening ∧
    (s.advance i o).unsolicited = s.unsolicited ∧ (s.advance i o).attention = s.attention ∧
    (s.advance i o).fresh = s.fresh := by
  unfold advance; (repeat' split) <;> simp

@[simp] theorem judgeLane_frame (s : State) (i : Fin 34) (r : LaneReport) :
    (s.judgeLane i r).settings = s.settings ∧ (s.judgeLane i r).stopped = s.stopped ∧
    (s.judgeLane i r).stations = s.stations ∧ (s.judgeLane i r).opening = s.opening ∧
    (s.judgeLane i r).unsolicited = s.unsolicited ∧ (s.judgeLane i r).attention = s.attention ∧
    (s.judgeLane i r).fresh = s.fresh := by
  unfold judgeLane; (repeat' split) <;> simp

@[simp] theorem judgeCarriage_frame (s : State) (i : Fin 34) (r : CarriageReport) :
    (s.judgeCarriage i r).settings = s.settings ∧ (s.judgeCarriage i r).stopped = s.stopped ∧
    (s.judgeCarriage i r).stations = s.stations ∧ (s.judgeCarriage i r).opening = s.opening ∧
    (s.judgeCarriage i r).unsolicited = s.unsolicited ∧ (s.judgeCarriage i r).attention = s.attention ∧
    (s.judgeCarriage i r).fresh = s.fresh := by
  unfold judgeCarriage; (repeat' split) <;> simp

@[simp] theorem judgeReport_frame (s : State) (l : LaneId) (r : LaneReport) :
    (s.judgeReport l r).settings = s.settings ∧ (s.judgeReport l r).stopped = s.stopped ∧
    (s.judgeReport l r).stations = s.stations ∧ (s.judgeReport l r).opening = s.opening ∧
    (s.judgeReport l r).unsolicited = s.unsolicited ∧ (s.judgeReport l r).attention = s.attention ∧
    (s.judgeReport l r).fresh = s.fresh := by
  unfold judgeReport; (repeat' split) <;> simp

@[simp] theorem takeLaneReport_frame (s : State) (l : LaneId) (r : LaneReport) :
    (s.takeLaneReport l r).settings = s.settings ∧ (s.takeLaneReport l r).stopped = s.stopped ∧
    (s.takeLaneReport l r).stations = s.stations ∧ (s.takeLaneReport l r).opening = s.opening ∧
    (s.takeLaneReport l r).unsolicited = s.unsolicited ∧ (s.takeLaneReport l r).attention = s.attention ∧
    (s.takeLaneReport l r).fresh = s.fresh := by
  unfold takeLaneReport; simp

@[simp] theorem judgeLatestLane_frame (s : State) (i : Fin 34) (l : Option LaneId) :
    (s.judgeLatestLane i l).settings = s.settings ∧ (s.judgeLatestLane i l).stopped = s.stopped ∧
    (s.judgeLatestLane i l).stations = s.stations ∧ (s.judgeLatestLane i l).opening = s.opening ∧
    (s.judgeLatestLane i l).unsolicited = s.unsolicited ∧ (s.judgeLatestLane i l).attention = s.attention ∧
    (s.judgeLatestLane i l).fresh = s.fresh := by
  unfold judgeLatestLane; (repeat' split) <;> simp

@[simp] theorem judgeLatestCarriage_frame (s : State) (i : Fin 34) (x : Option Side) :
    (s.judgeLatestCarriage i x).settings = s.settings ∧ (s.judgeLatestCarriage i x).stopped = s.stopped ∧
    (s.judgeLatestCarriage i x).stations = s.stations ∧ (s.judgeLatestCarriage i x).opening = s.opening ∧
    (s.judgeLatestCarriage i x).unsolicited = s.unsolicited ∧ (s.judgeLatestCarriage i x).attention = s.attention ∧
    (s.judgeLatestCarriage i x).fresh = s.fresh := by
  unfold judgeLatestCarriage; (repeat' split) <;> simp

@[simp] theorem judgeLatest_frame (s : State) (i : Fin 34) (o : Open) :
    (s.judgeLatest i o).settings = s.settings ∧ (s.judgeLatest i o).stopped = s.stopped ∧
    (s.judgeLatest i o).stations = s.stations ∧ (s.judgeLatest i o).opening = s.opening ∧
    (s.judgeLatest i o).unsolicited = s.unsolicited ∧ (s.judgeLatest i o).attention = s.attention ∧
    (s.judgeLatest i o).fresh = s.fresh := by
  unfold judgeLatest; simp

@[simp] theorem takeDone_frame (s : State) (i : Fin 34) :
    (s.takeDone i).settings = s.settings ∧ (s.takeDone i).stopped = s.stopped ∧ (s.takeDone i).stations = s.stations ∧
    (s.takeDone i).opening = s.opening ∧ (s.takeDone i).unsolicited = s.unsolicited ∧
    (s.takeDone i).attention = s.attention ∧ (s.takeDone i).fresh = s.fresh := by
  unfold takeDone; (repeat' split) <;> simp

@[simp] theorem takeAborted_frame (s : State) (i : Fin 34) :
    (s.takeAborted i).settings = s.settings ∧ (s.takeAborted i).stopped = s.stopped ∧
    (s.takeAborted i).stations = s.stations ∧ (s.takeAborted i).lists = s.lists ∧
    (s.takeAborted i).opening = s.opening ∧ (s.takeAborted i).unsolicited = s.unsolicited ∧
    (s.takeAborted i).attention = s.attention ∧ (s.takeAborted i).fresh = s.fresh := by
  unfold takeAborted; (repeat' split) <;> simp

@[simp] theorem strikeOff_frame (s : State) (i : Fin 34) (t : Ident) :
    (s.strikeOff i t).settings = s.settings ∧ (s.strikeOff i t).stopped = s.stopped ∧
    (s.strikeOff i t).stations = s.stations ∧ (s.strikeOff i t).opening = s.opening ∧
    (s.strikeOff i t).unsolicited = s.unsolicited ∧ (s.strikeOff i t).attention = s.attention ∧
    (s.strikeOff i t).fresh = s.fresh := by
  unfold strikeOff; (repeat' split) <;> simp

@[simp] theorem claimTaken_frame (s : State) (g : Grant) :
    (s.claimTaken g).settings = s.settings ∧ (s.claimTaken g).stopped = s.stopped ∧
    (s.claimTaken g).records = s.records ∧ (s.claimTaken g).lanes = s.lanes ∧ (s.claimTaken g).levels = s.levels ∧
    (s.claimTaken g).slots = s.slots ∧ (s.claimTaken g).claims = s.claims ∧ (s.claimTaken g).approvals = s.approvals ∧
    (s.claimTaken g).lifts = s.lifts ∧ (s.claimTaken g).entries = s.entries ∧ (s.claimTaken g).stations = s.stations ∧
    (s.claimTaken g).opening = s.opening ∧ (s.claimTaken g).unsolicited = s.unsolicited ∧
    (s.claimTaken g).links = s.links ∧ (s.claimTaken g).flags = s.flags ∧ (s.claimTaken g).attention = s.attention ∧
    (s.claimTaken g).cause = s.cause ∧ (s.claimTaken g).fresh = s.fresh := by
  unfold claimTaken; (repeat' split) <;> simp

@[simp] theorem sendJob_frame (s : State) (x : Side) (g : Grant) :
    (s.sendJob x g).settings = s.settings ∧ (s.sendJob x g).stopped = s.stopped ∧
    (s.sendJob x g).records = s.records ∧ (s.sendJob x g).lanes = s.lanes ∧ (s.sendJob x g).levels = s.levels ∧
    (s.sendJob x g).slots = s.slots ∧ (s.sendJob x g).claims = s.claims ∧ (s.sendJob x g).approvals = s.approvals ∧
    (s.sendJob x g).lifts = s.lifts ∧ (s.sendJob x g).entries = s.entries ∧ (s.sendJob x g).stations = s.stations ∧
    (s.sendJob x g).lists = s.lists ∧ (s.sendJob x g).opening = s.opening ∧
    (s.sendJob x g).unsolicited = s.unsolicited ∧ (s.sendJob x g).flags = s.flags ∧
    (s.sendJob x g).attention = s.attention ∧ (s.sendJob x g).cause = s.cause ∧ (s.sendJob x g).fresh = s.fresh := by
  unfold sendJob; simp

@[simp] theorem grantJob_frame (s : State) (x : Side) (g : Grant) :
    (s.grantJob x g).settings = s.settings ∧ (s.grantJob x g).stopped = s.stopped ∧
    (s.grantJob x g).levels = s.levels ∧ (s.grantJob x g).approvals = s.approvals ∧
    (s.grantJob x g).entries = s.entries ∧ (s.grantJob x g).stations = s.stations ∧
    (s.grantJob x g).opening = s.opening ∧ (s.grantJob x g).unsolicited = s.unsolicited ∧
    (s.grantJob x g).flags = s.flags ∧ (s.grantJob x g).attention = s.attention ∧ (s.grantJob x g).cause = s.cause ∧
    (s.grantJob x g).fresh = s.fresh := by
  unfold grantJob; simp

@[simp] theorem markStuck_frame (s : State) (x : Side) :
    (s.markStuck x).settings = s.settings ∧ (s.markStuck x).stopped = s.stopped ∧
    (s.markStuck x).records = s.records ∧ (s.markStuck x).lanes = s.lanes ∧ (s.markStuck x).levels = s.levels ∧
    (s.markStuck x).slots = s.slots ∧ (s.markStuck x).claims = s.claims ∧ (s.markStuck x).approvals = s.approvals ∧
    (s.markStuck x).entries = s.entries ∧ (s.markStuck x).stations = s.stations ∧ (s.markStuck x).lists = s.lists ∧
    (s.markStuck x).opening = s.opening ∧ (s.markStuck x).unsolicited = s.unsolicited ∧
    (s.markStuck x).links = s.links ∧ (s.markStuck x).attention = s.attention ∧ (s.markStuck x).cause = s.cause ∧
    (s.markStuck x).fresh = s.fresh := by
  unfold markStuck; (repeat' split) <;> simp

@[simp] theorem selectOn_frame (s : State) (x : Side) :
    (s.selectOn x).1.settings = s.settings ∧ (s.selectOn x).1.stopped = s.stopped ∧
    (s.selectOn x).1.levels = s.levels ∧ (s.selectOn x).1.approvals = s.approvals ∧
    (s.selectOn x).1.entries = s.entries ∧ (s.selectOn x).1.stations = s.stations ∧
    (s.selectOn x).1.opening = s.opening ∧ (s.selectOn x).1.unsolicited = s.unsolicited ∧
    (s.selectOn x).1.attention = s.attention ∧ (s.selectOn x).1.cause = s.cause ∧ (s.selectOn x).1.fresh = s.fresh := by
  unfold selectOn; (repeat' split) <;> simp

@[simp] theorem select_frame (s : State) (x : Side) :
    (s.select x).1.settings = s.settings ∧ (s.select x).1.stopped = s.stopped ∧ (s.select x).1.levels = s.levels ∧
    (s.select x).1.approvals = s.approvals ∧ (s.select x).1.entries = s.entries ∧
    (s.select x).1.stations = s.stations ∧ (s.select x).1.opening = s.opening ∧
    (s.select x).1.unsolicited = s.unsolicited ∧ (s.select x).1.attention = s.attention ∧
    (s.select x).1.cause = s.cause ∧ (s.select x).1.fresh = s.fresh := by
  unfold select; (repeat' split) <;> simp

@[simp] theorem selectOrPark_frame (s : State) (x : Side) :
    (s.selectOrPark x).settings = s.settings ∧ (s.selectOrPark x).stopped = s.stopped ∧
    (s.selectOrPark x).levels = s.levels ∧ (s.selectOrPark x).approvals = s.approvals ∧
    (s.selectOrPark x).entries = s.entries ∧ (s.selectOrPark x).stations = s.stations ∧
    (s.selectOrPark x).opening = s.opening ∧ (s.selectOrPark x).unsolicited = s.unsolicited ∧
    (s.selectOrPark x).attention = s.attention ∧ (s.selectOrPark x).cause = s.cause ∧
    (s.selectOrPark x).fresh = s.fresh := by
  unfold selectOrPark; (repeat' split) <;> simp

@[simp] theorem reevaluateLift_frame (s : State) (x : Side) :
    (s.reevaluateLift x).settings = s.settings ∧ (s.reevaluateLift x).stopped = s.stopped ∧
    (s.reevaluateLift x).levels = s.levels ∧ (s.reevaluateLift x).approvals = s.approvals ∧
    (s.reevaluateLift x).entries = s.entries ∧ (s.reevaluateLift x).stations = s.stations ∧
    (s.reevaluateLift x).opening = s.opening ∧ (s.reevaluateLift x).unsolicited = s.unsolicited ∧
    (s.reevaluateLift x).attention = s.attention ∧ (s.reevaluateLift x).cause = s.cause ∧
    (s.reevaluateLift x).fresh = s.fresh := by
  unfold reevaluateLift; (repeat' split) <;> simp

@[simp] theorem reevaluate_frame (s : State) :
    (s.reevaluate).settings = s.settings ∧ (s.reevaluate).stopped = s.stopped ∧ (s.reevaluate).levels = s.levels ∧
    (s.reevaluate).approvals = s.approvals ∧ (s.reevaluate).entries = s.entries ∧
    (s.reevaluate).stations = s.stations ∧ (s.reevaluate).opening = s.opening ∧
    (s.reevaluate).unsolicited = s.unsolicited ∧ (s.reevaluate).attention = s.attention ∧
    (s.reevaluate).cause = s.cause ∧ (s.reevaluate).fresh = s.fresh := by
  unfold reevaluate; simp

@[simp] theorem drainCause_frame (s : State) (n : Nat) :
    (s.drainCause n).settings = s.settings ∧ (s.drainCause n).stopped = s.stopped ∧
    (s.drainCause n).levels = s.levels ∧ (s.drainCause n).approvals = s.approvals ∧
    (s.drainCause n).entries = s.entries ∧ (s.drainCause n).opening = s.opening ∧
    (s.drainCause n).unsolicited = s.unsolicited ∧ (s.drainCause n).attention = s.attention ∧
    (s.drainCause n).fresh = s.fresh := by
  induction n generalizing s with
  | zero => simp [drainCause]
  | succ n ih => unfold drainCause; split <;> simp [ih]

@[simp] theorem closeEvent_frame (s : State) :
    (s.closeEvent).settings = s.settings ∧ (s.closeEvent).stopped = s.stopped ∧ (s.closeEvent).levels = s.levels ∧
    (s.closeEvent).approvals = s.approvals ∧ (s.closeEvent).entries = s.entries ∧ (s.closeEvent).opening = s.opening ∧
    (s.closeEvent).unsolicited = s.unsolicited ∧ (s.closeEvent).fresh = s.fresh := by
  unfold closeEvent; simp

@[simp] theorem setLift_frame (s : State) (x : Side) (t : LiftStatus) :
    (s.setLift x t).settings = s.settings ∧ (s.setLift x t).stopped = s.stopped ∧
    (s.setLift x t).records = s.records ∧ (s.setLift x t).lanes = s.lanes ∧ (s.setLift x t).levels = s.levels ∧
    (s.setLift x t).slots = s.slots ∧ (s.setLift x t).claims = s.claims ∧ (s.setLift x t).approvals = s.approvals ∧
    (s.setLift x t).entries = s.entries ∧ (s.setLift x t).stations = s.stations ∧ (s.setLift x t).lists = s.lists ∧
    (s.setLift x t).opening = s.opening ∧ (s.setLift x t).unsolicited = s.unsolicited ∧
    (s.setLift x t).links = s.links ∧ (s.setLift x t).flags = s.flags ∧ (s.setLift x t).attention = s.attention ∧
    (s.setLift x t).cause = s.cause ∧ (s.setLift x t).fresh = s.fresh := by
  unfold setLift; simp

@[simp] theorem dropParked_frame (s : State) (x : Side) (t : LiftStatus) (w : Code) :
    (s.dropParked x t w).settings = s.settings ∧ (s.dropParked x t w).stopped = s.stopped ∧
    (s.dropParked x t w).records = s.records ∧ (s.dropParked x t w).lanes = s.lanes ∧
    (s.dropParked x t w).levels = s.levels ∧ (s.dropParked x t w).slots = s.slots ∧
    (s.dropParked x t w).claims = s.claims ∧ (s.dropParked x t w).approvals = s.approvals ∧
    (s.dropParked x t w).entries = s.entries ∧ (s.dropParked x t w).stations = s.stations ∧
    (s.dropParked x t w).lists = s.lists ∧ (s.dropParked x t w).opening = s.opening ∧
    (s.dropParked x t w).unsolicited = s.unsolicited ∧ (s.dropParked x t w).flags = s.flags ∧
    (s.dropParked x t w).attention = s.attention ∧ (s.dropParked x t w).cause = s.cause ∧
    (s.dropParked x t w).fresh = s.fresh := by
  unfold dropParked; (repeat' split) <;> simp

@[simp] theorem linkChanged_frame (s : State) (p : Port) :
    (s.linkChanged p).settings = s.settings ∧ (s.linkChanged p).stopped = s.stopped ∧
    (s.linkChanged p).records = s.records ∧ (s.linkChanged p).lanes = s.lanes ∧ (s.linkChanged p).slots = s.slots ∧
    (s.linkChanged p).lifts = s.lifts ∧ (s.linkChanged p).entries = s.entries ∧
    (s.linkChanged p).stations = s.stations ∧ (s.linkChanged p).lists = s.lists ∧
    (s.linkChanged p).opening = s.opening ∧ (s.linkChanged p).unsolicited = s.unsolicited ∧
    (s.linkChanged p).attention = s.attention ∧ (s.linkChanged p).fresh = s.fresh := by
  unfold linkChanged; (repeat' split) <;> simp

@[simp] theorem setLink_frame (s : State) (p : Port) (x : LinkStatus) :
    (s.setLink p x).settings = s.settings ∧ (s.setLink p x).stopped = s.stopped ∧
    (s.setLink p x).records = s.records ∧ (s.setLink p x).lanes = s.lanes ∧ (s.setLink p x).levels = s.levels ∧
    (s.setLink p x).slots = s.slots ∧ (s.setLink p x).claims = s.claims ∧ (s.setLink p x).approvals = s.approvals ∧
    (s.setLink p x).lifts = s.lifts ∧ (s.setLink p x).entries = s.entries ∧ (s.setLink p x).stations = s.stations ∧
    (s.setLink p x).lists = s.lists ∧ (s.setLink p x).opening = s.opening ∧
    (s.setLink p x).unsolicited = s.unsolicited ∧ (s.setLink p x).flags = s.flags ∧
    (s.setLink p x).attention = s.attention ∧ (s.setLink p x).cause = s.cause ∧ (s.setLink p x).fresh = s.fresh := by
  unfold setLink; simp

@[simp] theorem bringUp_frame (s : State) (p : Port) :
    (s.bringUp p).settings = s.settings ∧ (s.bringUp p).stopped = s.stopped ∧ (s.bringUp p).records = s.records ∧
    (s.bringUp p).lanes = s.lanes ∧ (s.bringUp p).slots = s.slots ∧ (s.bringUp p).lifts = s.lifts ∧
    (s.bringUp p).entries = s.entries ∧ (s.bringUp p).stations = s.stations ∧ (s.bringUp p).lists = s.lists ∧
    (s.bringUp p).opening = s.opening ∧ (s.bringUp p).unsolicited = s.unsolicited ∧
    (s.bringUp p).attention = s.attention ∧ (s.bringUp p).fresh = s.fresh := by
  unfold bringUp; (repeat' split) <;> simp

@[simp] theorem takeValid_frame (s : State) (p : Port) :
    (s.takeValid p).settings = s.settings ∧ (s.takeValid p).stopped = s.stopped ∧
    (s.takeValid p).records = s.records ∧ (s.takeValid p).lanes = s.lanes ∧ (s.takeValid p).slots = s.slots ∧
    (s.takeValid p).lifts = s.lifts ∧ (s.takeValid p).entries = s.entries ∧ (s.takeValid p).stations = s.stations ∧
    (s.takeValid p).lists = s.lists ∧ (s.takeValid p).opening = s.opening ∧
    (s.takeValid p).unsolicited = s.unsolicited ∧ (s.takeValid p).attention = s.attention ∧
    (s.takeValid p).fresh = s.fresh := by
  unfold takeValid; simp

@[simp] theorem unpark_frame (s : State) (p : Port) :
    (s.unpark p).settings = s.settings ∧ (s.unpark p).stopped = s.stopped ∧ (s.unpark p).records = s.records ∧
    (s.unpark p).lanes = s.lanes ∧ (s.unpark p).levels = s.levels ∧ (s.unpark p).slots = s.slots ∧
    (s.unpark p).claims = s.claims ∧ (s.unpark p).approvals = s.approvals ∧ (s.unpark p).entries = s.entries ∧
    (s.unpark p).stations = s.stations ∧ (s.unpark p).lists = s.lists ∧ (s.unpark p).opening = s.opening ∧
    (s.unpark p).unsolicited = s.unsolicited ∧ (s.unpark p).links = s.links ∧ (s.unpark p).flags = s.flags ∧
    (s.unpark p).attention = s.attention ∧ (s.unpark p).cause = s.cause ∧ (s.unpark p).fresh = s.fresh := by
  unfold unpark; (repeat' split) <;> simp

@[simp] theorem loseLink_frame (s : State) (p : Port) :
    (s.loseLink p).settings = s.settings ∧ (s.loseLink p).stopped = s.stopped ∧ (s.loseLink p).records = s.records ∧
    (s.loseLink p).lanes = s.lanes ∧ (s.loseLink p).slots = s.slots ∧ (s.loseLink p).entries = s.entries ∧
    (s.loseLink p).stations = s.stations ∧ (s.loseLink p).lists = s.lists ∧ (s.loseLink p).opening = s.opening ∧
    (s.loseLink p).unsolicited = s.unsolicited ∧ (s.loseLink p).attention = s.attention ∧
    (s.loseLink p).fresh = s.fresh := by
  unfold loseLink; (repeat' split) <;> simp

@[simp] theorem raiseWrongNode_frame (s : State) (p : Port) :
    (s.raiseWrongNode p).settings = s.settings ∧ (s.raiseWrongNode p).stopped = s.stopped ∧
    (s.raiseWrongNode p).records = s.records ∧ (s.raiseWrongNode p).lanes = s.lanes ∧
    (s.raiseWrongNode p).levels = s.levels ∧ (s.raiseWrongNode p).slots = s.slots ∧
    (s.raiseWrongNode p).claims = s.claims ∧ (s.raiseWrongNode p).approvals = s.approvals ∧
    (s.raiseWrongNode p).lifts = s.lifts ∧ (s.raiseWrongNode p).entries = s.entries ∧
    (s.raiseWrongNode p).stations = s.stations ∧ (s.raiseWrongNode p).lists = s.lists ∧
    (s.raiseWrongNode p).opening = s.opening ∧ (s.raiseWrongNode p).unsolicited = s.unsolicited ∧
    (s.raiseWrongNode p).links = s.links ∧ (s.raiseWrongNode p).attention = s.attention ∧
    (s.raiseWrongNode p).cause = s.cause ∧ (s.raiseWrongNode p).fresh = s.fresh := by
  unfold raiseWrongNode; (repeat' split) <;> simp

@[simp] theorem beginAudit_frame (s : State) (l : Level) :
    (s.beginAudit l).settings = s.settings ∧ (s.beginAudit l).stopped = s.stopped ∧
    (s.beginAudit l).records = s.records ∧ (s.beginAudit l).slots = s.slots ∧ (s.beginAudit l).claims = s.claims ∧
    (s.beginAudit l).approvals = s.approvals ∧ (s.beginAudit l).lifts = s.lifts ∧
    (s.beginAudit l).entries = s.entries ∧ (s.beginAudit l).stations = s.stations ∧ (s.beginAudit l).lists = s.lists ∧
    (s.beginAudit l).opening = s.opening ∧ (s.beginAudit l).unsolicited = s.unsolicited ∧
    (s.beginAudit l).flags = s.flags ∧ (s.beginAudit l).attention = s.attention ∧ (s.beginAudit l).cause = s.cause ∧
    (s.beginAudit l).fresh = s.fresh := by
  unfold beginAudit; simp

@[simp] theorem settleScan_frame (s : State) (l : LaneId) (c : List Ident) :
    (s.settleScan l c).settings = s.settings ∧ (s.settleScan l c).stopped = s.stopped ∧
    (s.settleScan l c).records = s.records ∧ (s.settleScan l c).levels = s.levels ∧
    (s.settleScan l c).slots = s.slots ∧ (s.settleScan l c).claims = s.claims ∧
    (s.settleScan l c).approvals = s.approvals ∧ (s.settleScan l c).lifts = s.lifts ∧
    (s.settleScan l c).entries = s.entries ∧ (s.settleScan l c).stations = s.stations ∧
    (s.settleScan l c).lists = s.lists ∧ (s.settleScan l c).opening = s.opening ∧
    (s.settleScan l c).unsolicited = s.unsolicited ∧ (s.settleScan l c).links = s.links ∧
    (s.settleScan l c).attention = s.attention ∧ (s.settleScan l c).cause = s.cause ∧
    (s.settleScan l c).fresh = s.fresh := by
  unfold settleScan; (repeat' split) <;> simp

@[simp] theorem takeScan_frame (s : State) (l : Level) (x : Scan) :
    (s.takeScan l x).settings = s.settings ∧ (s.takeScan l x).stopped = s.stopped ∧
    (s.takeScan l x).records = s.records ∧ (s.takeScan l x).slots = s.slots ∧ (s.takeScan l x).claims = s.claims ∧
    (s.takeScan l x).approvals = s.approvals ∧ (s.takeScan l x).lifts = s.lifts ∧
    (s.takeScan l x).entries = s.entries ∧ (s.takeScan l x).stations = s.stations ∧ (s.takeScan l x).lists = s.lists ∧
    (s.takeScan l x).opening = s.opening ∧ (s.takeScan l x).unsolicited = s.unsolicited ∧
    (s.takeScan l x).links = s.links ∧ (s.takeScan l x).attention = s.attention ∧ (s.takeScan l x).fresh = s.fresh := by
  unfold takeScan; (repeat' split) <;> simp

@[simp] theorem timeOutLane_frame (s : State) (l : LaneId) :
    (s.timeOutLane l).settings = s.settings ∧ (s.timeOutLane l).stopped = s.stopped ∧
    (s.timeOutLane l).records = s.records ∧ (s.timeOutLane l).levels = s.levels ∧ (s.timeOutLane l).slots = s.slots ∧
    (s.timeOutLane l).claims = s.claims ∧ (s.timeOutLane l).approvals = s.approvals ∧
    (s.timeOutLane l).lifts = s.lifts ∧ (s.timeOutLane l).entries = s.entries ∧
    (s.timeOutLane l).stations = s.stations ∧ (s.timeOutLane l).lists = s.lists ∧
    (s.timeOutLane l).opening = s.opening ∧ (s.timeOutLane l).unsolicited = s.unsolicited ∧
    (s.timeOutLane l).links = s.links ∧ (s.timeOutLane l).attention = s.attention ∧
    (s.timeOutLane l).cause = s.cause ∧ (s.timeOutLane l).fresh = s.fresh := by
  unfold timeOutLane; (repeat' split) <;> simp

@[simp] theorem timeOutAudit_frame (s : State) (l : Level) :
    (s.timeOutAudit l).settings = s.settings ∧ (s.timeOutAudit l).stopped = s.stopped ∧
    (s.timeOutAudit l).records = s.records ∧ (s.timeOutAudit l).slots = s.slots ∧
    (s.timeOutAudit l).claims = s.claims ∧ (s.timeOutAudit l).approvals = s.approvals ∧
    (s.timeOutAudit l).lifts = s.lifts ∧ (s.timeOutAudit l).entries = s.entries ∧
    (s.timeOutAudit l).stations = s.stations ∧ (s.timeOutAudit l).lists = s.lists ∧
    (s.timeOutAudit l).opening = s.opening ∧ (s.timeOutAudit l).unsolicited = s.unsolicited ∧
    (s.timeOutAudit l).links = s.links ∧ (s.timeOutAudit l).attention = s.attention ∧
    (s.timeOutAudit l).fresh = s.fresh := by
  unfold timeOutAudit; (repeat' split) <;> simp

@[simp] theorem reportFrom_frame (s : State) (n : Stop) (k : LaneName) (r : LaneReport) :
    (s.reportFrom n k r).settings = s.settings ∧ (s.reportFrom n k r).stopped = s.stopped ∧
    (s.reportFrom n k r).stations = s.stations ∧ (s.reportFrom n k r).opening = s.opening ∧
    (s.reportFrom n k r).unsolicited = s.unsolicited ∧ (s.reportFrom n k r).attention = s.attention ∧
    (s.reportFrom n k r).fresh = s.fresh := by
  unfold reportFrom; (repeat' split) <;> simp

@[simp] theorem endMotion_frame (s : State) (i : Fin 34) :
    (s.endMotion i).settings = s.settings ∧ (s.endMotion i).stopped = s.stopped ∧
    (s.endMotion i).stations = s.stations ∧ (s.endMotion i).lists = s.lists ∧ (s.endMotion i).opening = s.opening ∧
    (s.endMotion i).unsolicited = s.unsolicited ∧ (s.endMotion i).attention = s.attention ∧
    (s.endMotion i).fresh = s.fresh := by
  unfold endMotion; (repeat' split) <;> simp

@[simp] theorem endWindow_frame (s : State) (i : Fin 34) :
    (s.endWindow i).settings = s.settings ∧ (s.endWindow i).stopped = s.stopped ∧
    (s.endWindow i).stations = s.stations ∧ (s.endWindow i).lists = s.lists ∧ (s.endWindow i).opening = s.opening ∧
    (s.endWindow i).unsolicited = s.unsolicited ∧ (s.endWindow i).attention = s.attention ∧
    (s.endWindow i).fresh = s.fresh := by
  unfold endWindow; (repeat' split) <;> simp

@[simp] theorem missReads_frame (s : State) (i : Fin 34) (o : Open) (x : Side) :
    (s.missReads i o x).settings = s.settings ∧ (s.missReads i o x).stopped = s.stopped ∧
    (s.missReads i o x).opening = s.opening ∧ (s.missReads i o x).unsolicited = s.unsolicited ∧
    (s.missReads i o x).attention = s.attention ∧ (s.missReads i o x).fresh = s.fresh := by
  unfold missReads; simp

@[simp] theorem endReadWindow_frame (s : State) (i : Fin 34) :
    (s.endReadWindow i).settings = s.settings ∧ (s.endReadWindow i).stopped = s.stopped ∧
    (s.endReadWindow i).opening = s.opening ∧ (s.endReadWindow i).unsolicited = s.unsolicited ∧
    (s.endReadWindow i).attention = s.attention ∧ (s.endReadWindow i).fresh = s.fresh := by
  unfold endReadWindow; (repeat' split) <;> simp

@[simp] theorem sendGrant_frame (s : State) (l : Level) (g : Grant) :
    (s.sendGrant l g).settings = s.settings ∧ (s.sendGrant l g).stopped = s.stopped ∧
    (s.sendGrant l g).records = s.records ∧ (s.sendGrant l g).lanes = s.lanes ∧ (s.sendGrant l g).levels = s.levels ∧
    (s.sendGrant l g).slots = s.slots ∧ (s.sendGrant l g).claims = s.claims ∧
    (s.sendGrant l g).approvals = s.approvals ∧ (s.sendGrant l g).lifts = s.lifts ∧
    (s.sendGrant l g).entries = s.entries ∧ (s.sendGrant l g).stations = s.stations ∧
    (s.sendGrant l g).lists = s.lists ∧ (s.sendGrant l g).opening = s.opening ∧
    (s.sendGrant l g).unsolicited = s.unsolicited ∧ (s.sendGrant l g).flags = s.flags ∧
    (s.sendGrant l g).attention = s.attention ∧ (s.sendGrant l g).cause = s.cause ∧ (s.sendGrant l g).fresh = s.fresh := by
  unfold sendGrant; (repeat' split) <;> simp

@[simp] theorem grantClaim_frame (s : State) (l : Level) (g : Grant) :
    (s.grantClaim l g).settings = s.settings ∧ (s.grantClaim l g).stopped = s.stopped ∧
    (s.grantClaim l g).levels = s.levels ∧ (s.grantClaim l g).entries = s.entries ∧
    (s.grantClaim l g).stations = s.stations ∧ (s.grantClaim l g).lists = s.lists ∧
    (s.grantClaim l g).opening = s.opening ∧ (s.grantClaim l g).unsolicited = s.unsolicited ∧
    (s.grantClaim l g).flags = s.flags ∧ (s.grantClaim l g).attention = s.attention ∧
    (s.grantClaim l g).cause = s.cause ∧ (s.grantClaim l g).fresh = s.fresh := by
  unfold grantClaim; simp

@[simp] theorem placeClaim_frame (s : State) (l : Level) (c : Claim) :
    (s.placeClaim l c).settings = s.settings ∧ (s.placeClaim l c).stopped = s.stopped ∧
    (s.placeClaim l c).records = s.records ∧ (s.placeClaim l c).lanes = s.lanes ∧
    (s.placeClaim l c).levels = s.levels ∧ (s.placeClaim l c).slots = s.slots ∧ (s.placeClaim l c).lifts = s.lifts ∧
    (s.placeClaim l c).entries = s.entries ∧ (s.placeClaim l c).stations = s.stations ∧
    (s.placeClaim l c).lists = s.lists ∧ (s.placeClaim l c).opening = s.opening ∧
    (s.placeClaim l c).unsolicited = s.unsolicited ∧ (s.placeClaim l c).attention = s.attention ∧
    (s.placeClaim l c).cause = s.cause ∧ (s.placeClaim l c).fresh = s.fresh := by
  unfold placeClaim; simp

@[simp] theorem receiveClaim_frame (s : State) (l : Level) (c : Claim) :
    (s.receiveClaim l c).settings = s.settings ∧ (s.receiveClaim l c).stopped = s.stopped ∧
    (s.receiveClaim l c).levels = s.levels ∧ (s.receiveClaim l c).entries = s.entries ∧
    (s.receiveClaim l c).stations = s.stations ∧ (s.receiveClaim l c).lists = s.lists ∧
    (s.receiveClaim l c).opening = s.opening ∧ (s.receiveClaim l c).unsolicited = s.unsolicited ∧
    (s.receiveClaim l c).attention = s.attention ∧ (s.receiveClaim l c).cause = s.cause ∧
    (s.receiveClaim l c).fresh = s.fresh := by
  unfold receiveClaim; (repeat' split) <;> simp

@[simp] theorem claimFrom_frame (s : State) (n : Stop) (c : Claim) :
    (s.claimFrom n c).settings = s.settings ∧ (s.claimFrom n c).stopped = s.stopped ∧
    (s.claimFrom n c).levels = s.levels ∧ (s.claimFrom n c).entries = s.entries ∧
    (s.claimFrom n c).stations = s.stations ∧ (s.claimFrom n c).lists = s.lists ∧
    (s.claimFrom n c).opening = s.opening ∧ (s.claimFrom n c).unsolicited = s.unsolicited ∧
    (s.claimFrom n c).attention = s.attention ∧ (s.claimFrom n c).cause = s.cause ∧ (s.claimFrom n c).fresh = s.fresh := by
  unfold claimFrom; (repeat' split) <;> simp

@[simp] theorem placeDirected_frame (s : State) (x : Side) (d : Directed) :
    (s.placeDirected x d).settings = s.settings ∧ (s.placeDirected x d).stopped = s.stopped ∧
    (s.placeDirected x d).records = s.records ∧ (s.placeDirected x d).lanes = s.lanes ∧
    (s.placeDirected x d).levels = s.levels ∧ (s.placeDirected x d).slots = s.slots ∧
    (s.placeDirected x d).claims = s.claims ∧ (s.placeDirected x d).approvals = s.approvals ∧
    (s.placeDirected x d).entries = s.entries ∧ (s.placeDirected x d).stations = s.stations ∧
    (s.placeDirected x d).lists = s.lists ∧ (s.placeDirected x d).opening = s.opening ∧
    (s.placeDirected x d).unsolicited = s.unsolicited ∧ (s.placeDirected x d).links = s.links ∧
    (s.placeDirected x d).flags = s.flags ∧ (s.placeDirected x d).attention = s.attention ∧
    (s.placeDirected x d).fresh = s.fresh := by
  unfold placeDirected; (repeat' split) <;> simp

@[simp] theorem disableLift_frame (s : State) (x : Side) :
    (s.disableLift x).settings = s.settings ∧ (s.disableLift x).stopped = s.stopped ∧
    (s.disableLift x).records = s.records ∧ (s.disableLift x).lanes = s.lanes ∧ (s.disableLift x).levels = s.levels ∧
    (s.disableLift x).slots = s.slots ∧ (s.disableLift x).claims = s.claims ∧
    (s.disableLift x).approvals = s.approvals ∧ (s.disableLift x).entries = s.entries ∧
    (s.disableLift x).stations = s.stations ∧ (s.disableLift x).lists = s.lists ∧
    (s.disableLift x).opening = s.opening ∧ (s.disableLift x).unsolicited = s.unsolicited ∧
    (s.disableLift x).flags = s.flags ∧ (s.disableLift x).attention = s.attention ∧
    (s.disableLift x).cause = s.cause ∧ (s.disableLift x).fresh = s.fresh := by
  unfold disableLift; simp

@[simp] theorem raiseMismatch_frame (s : State) (x : Side) :
    (s.raiseMismatch x).settings = s.settings ∧ (s.raiseMismatch x).stopped = s.stopped ∧
    (s.raiseMismatch x).records = s.records ∧ (s.raiseMismatch x).lanes = s.lanes ∧
    (s.raiseMismatch x).levels = s.levels ∧ (s.raiseMismatch x).slots = s.slots ∧
    (s.raiseMismatch x).claims = s.claims ∧ (s.raiseMismatch x).approvals = s.approvals ∧
    (s.raiseMismatch x).lifts = s.lifts ∧ (s.raiseMismatch x).entries = s.entries ∧
    (s.raiseMismatch x).stations = s.stations ∧ (s.raiseMismatch x).lists = s.lists ∧
    (s.raiseMismatch x).opening = s.opening ∧ (s.raiseMismatch x).unsolicited = s.unsolicited ∧
    (s.raiseMismatch x).links = s.links ∧ (s.raiseMismatch x).attention = s.attention ∧
    (s.raiseMismatch x).cause = s.cause ∧ (s.raiseMismatch x).fresh = s.fresh := by
  unfold raiseMismatch; simp

@[simp] theorem disagree_frame (s : State) (x : Side) (b : Bool) :
    (s.disagree x b).settings = s.settings ∧ (s.disagree x b).stopped = s.stopped ∧
    (s.disagree x b).records = s.records ∧ (s.disagree x b).lanes = s.lanes ∧ (s.disagree x b).levels = s.levels ∧
    (s.disagree x b).slots = s.slots ∧ (s.disagree x b).claims = s.claims ∧ (s.disagree x b).approvals = s.approvals ∧
    (s.disagree x b).entries = s.entries ∧ (s.disagree x b).stations = s.stations ∧ (s.disagree x b).lists = s.lists ∧
    (s.disagree x b).opening = s.opening ∧ (s.disagree x b).unsolicited = s.unsolicited ∧
    (s.disagree x b).attention = s.attention ∧ (s.disagree x b).cause = s.cause ∧ (s.disagree x b).fresh = s.fresh := by
  unfold disagree; (repeat' split) <;> simp

@[simp] theorem judgeOrCompare_frame (s : State) (x : Side) (r : CarriageReport) (b : Bool) :
    (s.judgeOrCompare x r b).settings = s.settings ∧ (s.judgeOrCompare x r b).stopped = s.stopped ∧
    (s.judgeOrCompare x r b).stations = s.stations ∧ (s.judgeOrCompare x r b).opening = s.opening ∧
    (s.judgeOrCompare x r b).unsolicited = s.unsolicited ∧ (s.judgeOrCompare x r b).attention = s.attention ∧
    (s.judgeOrCompare x r b).fresh = s.fresh := by
  unfold judgeOrCompare; (repeat' split) <;> simp

@[simp] theorem takeCarriageReport_frame (s : State) (x : Side) (r : CarriageReport) :
    (s.takeCarriageReport x r).settings = s.settings ∧ (s.takeCarriageReport x r).stopped = s.stopped ∧
    (s.takeCarriageReport x r).stations = s.stations ∧ (s.takeCarriageReport x r).opening = s.opening ∧
    (s.takeCarriageReport x r).unsolicited = s.unsolicited ∧ (s.takeCarriageReport x r).attention = s.attention ∧
    (s.takeCarriageReport x r).fresh = s.fresh := by
  unfold takeCarriageReport; simp

@[simp] theorem takeJobRequest_frame (s : State) (x : Side) :
    (s.takeJobRequest x).settings = s.settings ∧ (s.takeJobRequest x).stopped = s.stopped ∧
    (s.takeJobRequest x).levels = s.levels ∧ (s.takeJobRequest x).approvals = s.approvals ∧
    (s.takeJobRequest x).entries = s.entries ∧ (s.takeJobRequest x).stations = s.stations ∧
    (s.takeJobRequest x).opening = s.opening ∧ (s.takeJobRequest x).unsolicited = s.unsolicited ∧
    (s.takeJobRequest x).attention = s.attention ∧ (s.takeJobRequest x).cause = s.cause ∧
    (s.takeJobRequest x).fresh = s.fresh := by
  unfold takeJobRequest; (repeat' split) <;> simp

@[simp] theorem rejectArrival_frame (s : State) (x : Side) (i : Ident) (w : Weighed) (c : Code) :
    (s.rejectArrival x i w c).settings = s.settings ∧ (s.rejectArrival x i w c).stopped = s.stopped ∧
    (s.rejectArrival x i w c).records = s.records ∧ (s.rejectArrival x i w c).lanes = s.lanes ∧
    (s.rejectArrival x i w c).levels = s.levels ∧ (s.rejectArrival x i w c).slots = s.slots ∧
    (s.rejectArrival x i w c).claims = s.claims ∧ (s.rejectArrival x i w c).approvals = s.approvals ∧
    (s.rejectArrival x i w c).lifts = s.lifts ∧ (s.rejectArrival x i w c).stations = s.stations ∧
    (s.rejectArrival x i w c).lists = s.lists ∧ (s.rejectArrival x i w c).opening = s.opening ∧
    (s.rejectArrival x i w c).unsolicited = s.unsolicited ∧ (s.rejectArrival x i w c).attention = s.attention ∧
    (s.rejectArrival x i w c).cause = s.cause ∧ (s.rejectArrival x i w c).fresh = s.fresh := by
  unfold rejectArrival; simp

@[simp] theorem acceptArrival_frame (s : State) (x : Side) (i : Ident) (w : Weighed) :
    (s.acceptArrival x i w).settings = s.settings ∧ (s.acceptArrival x i w).stopped = s.stopped ∧
    (s.acceptArrival x i w).lanes = s.lanes ∧ (s.acceptArrival x i w).levels = s.levels ∧
    (s.acceptArrival x i w).slots = s.slots ∧ (s.acceptArrival x i w).claims = s.claims ∧
    (s.acceptArrival x i w).approvals = s.approvals ∧ (s.acceptArrival x i w).lifts = s.lifts ∧
    (s.acceptArrival x i w).stations = s.stations ∧ (s.acceptArrival x i w).lists = s.lists ∧
    (s.acceptArrival x i w).opening = s.opening ∧ (s.acceptArrival x i w).unsolicited = s.unsolicited ∧
    (s.acceptArrival x i w).flags = s.flags ∧ (s.acceptArrival x i w).attention = s.attention ∧
    (s.acceptArrival x i w).fresh = s.fresh := by
  unfold acceptArrival; simp

@[simp] theorem judgeArrival_frame (s : State) (x : Side) (i : Ident) (w : Weighed) (b : Bool) :
    (s.judgeArrival x i w b).settings = s.settings ∧ (s.judgeArrival x i w b).stopped = s.stopped ∧
    (s.judgeArrival x i w b).lanes = s.lanes ∧ (s.judgeArrival x i w b).levels = s.levels ∧
    (s.judgeArrival x i w b).slots = s.slots ∧ (s.judgeArrival x i w b).claims = s.claims ∧
    (s.judgeArrival x i w b).approvals = s.approvals ∧ (s.judgeArrival x i w b).lifts = s.lifts ∧
    (s.judgeArrival x i w b).stations = s.stations ∧ (s.judgeArrival x i w b).lists = s.lists ∧
    (s.judgeArrival x i w b).opening = s.opening ∧ (s.judgeArrival x i w b).unsolicited = s.unsolicited ∧
    (s.judgeArrival x i w b).attention = s.attention ∧ (s.judgeArrival x i w b).fresh = s.fresh := by
  unfold judgeArrival; (repeat' split) <;> simp

@[simp] theorem takeArrival_frame (s : State) (x : Byte) (i : Ident) (w p : Byte) :
    (s.takeArrival x i w p).settings = s.settings ∧ (s.takeArrival x i w p).stopped = s.stopped ∧
    (s.takeArrival x i w p).lanes = s.lanes ∧ (s.takeArrival x i w p).levels = s.levels ∧
    (s.takeArrival x i w p).slots = s.slots ∧ (s.takeArrival x i w p).claims = s.claims ∧
    (s.takeArrival x i w p).approvals = s.approvals ∧ (s.takeArrival x i w p).lifts = s.lifts ∧
    (s.takeArrival x i w p).stations = s.stations ∧ (s.takeArrival x i w p).lists = s.lists ∧
    (s.takeArrival x i w p).opening = s.opening ∧ (s.takeArrival x i w p).unsolicited = s.unsolicited ∧
    (s.takeArrival x i w p).attention = s.attention ∧ (s.takeArrival x i w p).fresh = s.fresh := by
  unfold takeArrival; (repeat' split) <;> simp

@[simp] theorem testAged_frame (s : State) (x : Side) :
    (s.testAged x).settings = s.settings ∧ (s.testAged x).stopped = s.stopped ∧ (s.testAged x).records = s.records ∧
    (s.testAged x).lanes = s.lanes ∧ (s.testAged x).levels = s.levels ∧ (s.testAged x).slots = s.slots ∧
    (s.testAged x).claims = s.claims ∧ (s.testAged x).approvals = s.approvals ∧ (s.testAged x).lifts = s.lifts ∧
    (s.testAged x).stations = s.stations ∧ (s.testAged x).lists = s.lists ∧ (s.testAged x).opening = s.opening ∧
    (s.testAged x).unsolicited = s.unsolicited ∧ (s.testAged x).links = s.links ∧
    (s.testAged x).attention = s.attention ∧ (s.testAged x).cause = s.cause ∧ (s.testAged x).fresh = s.fresh := by
  unfold testAged; (repeat' split) <;> simp

@[simp] theorem reachAge_frame (s : State) (x : Side) :
    (s.reachAge x).settings = s.settings ∧ (s.reachAge x).stopped = s.stopped ∧ (s.reachAge x).records = s.records ∧
    (s.reachAge x).lanes = s.lanes ∧ (s.reachAge x).levels = s.levels ∧ (s.reachAge x).slots = s.slots ∧
    (s.reachAge x).claims = s.claims ∧ (s.reachAge x).approvals = s.approvals ∧ (s.reachAge x).lifts = s.lifts ∧
    (s.reachAge x).stations = s.stations ∧ (s.reachAge x).lists = s.lists ∧ (s.reachAge x).opening = s.opening ∧
    (s.reachAge x).unsolicited = s.unsolicited ∧ (s.reachAge x).links = s.links ∧
    (s.reachAge x).attention = s.attention ∧ (s.reachAge x).cause = s.cause ∧ (s.reachAge x).fresh = s.fresh := by
  unfold reachAge; (repeat' split) <;> simp

@[simp] theorem attach_frame (s : State) (e : NewEntry) (r : EntryRef) :
    (s.attach e r).settings = s.settings ∧ (s.attach e r).stopped = s.stopped ∧ (s.attach e r).lanes = s.lanes ∧
    (s.attach e r).levels = s.levels ∧ (s.attach e r).slots = s.slots ∧ (s.attach e r).claims = s.claims ∧
    (s.attach e r).approvals = s.approvals ∧ (s.attach e r).lifts = s.lifts ∧ (s.attach e r).entries = s.entries ∧
    (s.attach e r).stations = s.stations ∧ (s.attach e r).lists = s.lists ∧ (s.attach e r).opening = s.opening ∧
    (s.attach e r).unsolicited = s.unsolicited ∧ (s.attach e r).links = s.links ∧ (s.attach e r).flags = s.flags ∧
    (s.attach e r).attention = s.attention ∧ (s.attach e r).cause = s.cause ∧ (s.attach e r).fresh = s.fresh := by
  unfold attach; (repeat' split) <;> simp

@[simp] theorem addEntry_frame (s : State) (l : Fin 16) (e : NewEntry) :
    (s.addEntry l e).settings = s.settings ∧ (s.addEntry l e).stopped = s.stopped ∧ (s.addEntry l e).lanes = s.lanes ∧
    (s.addEntry l e).levels = s.levels ∧ (s.addEntry l e).slots = s.slots ∧ (s.addEntry l e).claims = s.claims ∧
    (s.addEntry l e).approvals = s.approvals ∧ (s.addEntry l e).lifts = s.lifts ∧
    (s.addEntry l e).entries = s.entries ∧ (s.addEntry l e).stations = s.stations ∧
    (s.addEntry l e).opening = s.opening ∧ (s.addEntry l e).unsolicited = s.unsolicited ∧
    (s.addEntry l e).links = s.links ∧ (s.addEntry l e).flags = s.flags ∧ (s.addEntry l e).attention = s.attention ∧
    (s.addEntry l e).cause = s.cause ∧ (s.addEntry l e).fresh = s.fresh := by
  unfold addEntry; (repeat' split) <;> simp

@[simp] theorem addEntries_frame (s : State) (l : Fin 16) (e : List NewEntry) :
    (s.addEntries l e).settings = s.settings ∧ (s.addEntries l e).stopped = s.stopped ∧
    (s.addEntries l e).lanes = s.lanes ∧ (s.addEntries l e).levels = s.levels ∧ (s.addEntries l e).slots = s.slots ∧
    (s.addEntries l e).claims = s.claims ∧ (s.addEntries l e).approvals = s.approvals ∧
    (s.addEntries l e).lifts = s.lifts ∧ (s.addEntries l e).entries = s.entries ∧
    (s.addEntries l e).stations = s.stations ∧ (s.addEntries l e).opening = s.opening ∧
    (s.addEntries l e).unsolicited = s.unsolicited ∧ (s.addEntries l e).links = s.links ∧
    (s.addEntries l e).flags = s.flags ∧ (s.addEntries l e).attention = s.attention ∧
    (s.addEntries l e).cause = s.cause ∧ (s.addEntries l e).fresh = s.fresh := by
  unfold addEntries; simp

@[simp] theorem openIn_frame (s : State) (n : StationNo) (l : Fin 16) (e : List NewEntry) :
    (s.openIn n l e).settings = s.settings ∧ (s.openIn n l e).stopped = s.stopped ∧ (s.openIn n l e).lanes = s.lanes ∧
    (s.openIn n l e).levels = s.levels ∧ (s.openIn n l e).slots = s.slots ∧ (s.openIn n l e).claims = s.claims ∧
    (s.openIn n l e).approvals = s.approvals ∧ (s.openIn n l e).lifts = s.lifts ∧
    (s.openIn n l e).entries = s.entries ∧ (s.openIn n l e).unsolicited = s.unsolicited ∧
    (s.openIn n l e).links = s.links ∧ (s.openIn n l e).flags = s.flags ∧ (s.openIn n l e).attention = s.attention ∧
    (s.openIn n l e).cause = s.cause ∧ (s.openIn n l e).fresh = s.fresh := by
  unfold openIn; simp

@[simp] theorem unsequence_frame (s : State) (r : Record) :
    (s.unsequence r).settings = s.settings ∧ (s.unsequence r).stopped = s.stopped ∧ (s.unsequence r).lanes = s.lanes ∧
    (s.unsequence r).levels = s.levels ∧ (s.unsequence r).slots = s.slots ∧ (s.unsequence r).claims = s.claims ∧
    (s.unsequence r).approvals = s.approvals ∧ (s.unsequence r).lifts = s.lifts ∧
    (s.unsequence r).entries = s.entries ∧ (s.unsequence r).stations = s.stations ∧ (s.unsequence r).lists = s.lists ∧
    (s.unsequence r).opening = s.opening ∧ (s.unsequence r).unsolicited = s.unsolicited ∧
    (s.unsequence r).links = s.links ∧ (s.unsequence r).flags = s.flags ∧ (s.unsequence r).attention = s.attention ∧
    (s.unsequence r).fresh = s.fresh := by
  unfold unsequence; (repeat' split) <;> simp

@[simp] theorem withdraw_frame (s : State) (i : Ident) :
    (s.withdraw i).settings = s.settings ∧ (s.withdraw i).stopped = s.stopped ∧ (s.withdraw i).lanes = s.lanes ∧
    (s.withdraw i).levels = s.levels ∧ (s.withdraw i).slots = s.slots ∧ (s.withdraw i).claims = s.claims ∧
    (s.withdraw i).approvals = s.approvals ∧ (s.withdraw i).lifts = s.lifts ∧ (s.withdraw i).entries = s.entries ∧
    (s.withdraw i).stations = s.stations ∧ (s.withdraw i).lists = s.lists ∧ (s.withdraw i).opening = s.opening ∧
    (s.withdraw i).unsolicited = s.unsolicited ∧ (s.withdraw i).links = s.links ∧ (s.withdraw i).flags = s.flags ∧
    (s.withdraw i).attention = s.attention ∧ (s.withdraw i).fresh = s.fresh := by
  unfold withdraw; (repeat' split) <;> simp

@[simp] theorem abortList_frame (s : State) (l : Fin 16) (r : ReleaseList) :
    (s.abortList l r).settings = s.settings ∧ (s.abortList l r).stopped = s.stopped ∧
    (s.abortList l r).lanes = s.lanes ∧ (s.abortList l r).levels = s.levels ∧ (s.abortList l r).slots = s.slots ∧
    (s.abortList l r).claims = s.claims ∧ (s.abortList l r).approvals = s.approvals ∧
    (s.abortList l r).lifts = s.lifts ∧ (s.abortList l r).entries = s.entries ∧
    (s.abortList l r).unsolicited = s.unsolicited ∧ (s.abortList l r).links = s.links ∧
    (s.abortList l r).flags = s.flags ∧ (s.abortList l r).attention = s.attention ∧ (s.abortList l r).fresh = s.fresh := by
  unfold abortList; simp

@[simp] theorem unsequenceTote_frame (s : State) (i : Ident) :
    (s.unsequenceTote i).settings = s.settings ∧ (s.unsequenceTote i).stopped = s.stopped ∧
    (s.unsequenceTote i).lanes = s.lanes ∧ (s.unsequenceTote i).levels = s.levels ∧
    (s.unsequenceTote i).slots = s.slots ∧ (s.unsequenceTote i).claims = s.claims ∧
    (s.unsequenceTote i).approvals = s.approvals ∧ (s.unsequenceTote i).lifts = s.lifts ∧
    (s.unsequenceTote i).entries = s.entries ∧ (s.unsequenceTote i).stations = s.stations ∧
    (s.unsequenceTote i).lists = s.lists ∧ (s.unsequenceTote i).opening = s.opening ∧
    (s.unsequenceTote i).unsolicited = s.unsolicited ∧ (s.unsequenceTote i).links = s.links ∧
    (s.unsequenceTote i).flags = s.flags ∧ (s.unsequenceTote i).attention = s.attention ∧
    (s.unsequenceTote i).fresh = s.fresh := by
  unfold unsequenceTote; (repeat' split) <;> simp

@[simp] theorem skip_frame (s : State) (r : EntryRef) (i : Ident) :
    (s.skip r i).settings = s.settings ∧ (s.skip r i).stopped = s.stopped ∧ (s.skip r i).lanes = s.lanes ∧
    (s.skip r i).levels = s.levels ∧ (s.skip r i).slots = s.slots ∧ (s.skip r i).claims = s.claims ∧
    (s.skip r i).approvals = s.approvals ∧ (s.skip r i).lifts = s.lifts ∧ (s.skip r i).entries = s.entries ∧
    (s.skip r i).unsolicited = s.unsolicited ∧ (s.skip r i).links = s.links ∧ (s.skip r i).attention = s.attention ∧
    (s.skip r i).fresh = s.fresh := by
  unfold skip; simp

@[simp] theorem takeExitRead_frame (s : State) (x : Side) (i : Ident) :
    (s.takeExitRead x i).settings = s.settings ∧ (s.takeExitRead x i).stopped = s.stopped ∧
    (s.takeExitRead x i).attention = s.attention ∧ (s.takeExitRead x i).fresh = s.fresh := by
  unfold takeExitRead; (repeat' split) <;> simp

@[simp] theorem settleExit_frame (s : State) (r : Record) (e : EntryState) :
    (s.settleExit r e).settings = s.settings ∧ (s.settleExit r e).stopped = s.stopped ∧
    (s.settleExit r e).lanes = s.lanes ∧ (s.settleExit r e).levels = s.levels ∧ (s.settleExit r e).slots = s.slots ∧
    (s.settleExit r e).claims = s.claims ∧ (s.settleExit r e).approvals = s.approvals ∧
    (s.settleExit r e).lifts = s.lifts ∧ (s.settleExit r e).entries = s.entries ∧
    (s.settleExit r e).unsolicited = s.unsolicited ∧ (s.settleExit r e).links = s.links ∧
    (s.settleExit r e).attention = s.attention ∧ (s.settleExit r e).fresh = s.fresh := by
  unfold settleExit; (repeat' split) <;> simp

@[simp] theorem finishHeld_frame (s : State) (r : Record) (e : EntryState) :
    (s.finishHeld r e).settings = s.settings ∧ (s.finishHeld r e).stopped = s.stopped ∧
    (s.finishHeld r e).lanes = s.lanes ∧ (s.finishHeld r e).levels = s.levels ∧ (s.finishHeld r e).slots = s.slots ∧
    (s.finishHeld r e).claims = s.claims ∧ (s.finishHeld r e).approvals = s.approvals ∧
    (s.finishHeld r e).lifts = s.lifts ∧ (s.finishHeld r e).entries = s.entries ∧
    (s.finishHeld r e).unsolicited = s.unsolicited ∧ (s.finishHeld r e).links = s.links ∧
    (s.finishHeld r e).attention = s.attention ∧ (s.finishHeld r e).cause = s.cause ∧
    (s.finishHeld r e).fresh = s.fresh := by
  unfold finishHeld; (repeat' split) <;> simp

@[simp] theorem resolve_frame (s : State) (r : Record) (p : Placement) :
    (s.resolve r p).settings = s.settings ∧ (s.resolve r p).stopped = s.stopped ∧ (s.resolve r p).levels = s.levels ∧
    (s.resolve r p).slots = s.slots ∧ (s.resolve r p).claims = s.claims ∧ (s.resolve r p).approvals = s.approvals ∧
    (s.resolve r p).unsolicited = s.unsolicited ∧ (s.resolve r p).links = s.links ∧
    (s.resolve r p).attention = s.attention ∧ (s.resolve r p).fresh = s.fresh := by
  unfold resolve; (repeat' split) <;> simp

@[simp] theorem joinLocation_frame (s : State) (i : Ident) (k : Location) :
    (s.joinLocation i k).settings = s.settings ∧ (s.joinLocation i k).stopped = s.stopped ∧
    (s.joinLocation i k).records = s.records ∧ (s.joinLocation i k).levels = s.levels ∧
    (s.joinLocation i k).slots = s.slots ∧ (s.joinLocation i k).claims = s.claims ∧
    (s.joinLocation i k).approvals = s.approvals ∧ (s.joinLocation i k).stations = s.stations ∧
    (s.joinLocation i k).lists = s.lists ∧ (s.joinLocation i k).opening = s.opening ∧
    (s.joinLocation i k).unsolicited = s.unsolicited ∧ (s.joinLocation i k).links = s.links ∧
    (s.joinLocation i k).flags = s.flags ∧ (s.joinLocation i k).attention = s.attention ∧
    (s.joinLocation i k).cause = s.cause ∧ (s.joinLocation i k).fresh = s.fresh := by
  unfold joinLocation; (repeat' split) <;> simp

@[simp] theorem declare_frame (s : State) (d : Declaration) :
    (s.declare d).settings = s.settings ∧ (s.declare d).stopped = s.stopped ∧ (s.declare d).levels = s.levels ∧
    (s.declare d).slots = s.slots ∧ (s.declare d).claims = s.claims ∧ (s.declare d).approvals = s.approvals ∧
    (s.declare d).stations = s.stations ∧ (s.declare d).lists = s.lists ∧ (s.declare d).opening = s.opening ∧
    (s.declare d).unsolicited = s.unsolicited ∧ (s.declare d).links = s.links ∧ (s.declare d).flags = s.flags ∧
    (s.declare d).attention = s.attention ∧ (s.declare d).fresh = s.fresh := by
  unfold declare; simp

@[simp] theorem clearEvents_frame (s : State) (g : Fin 41) :
    (s.clearEvents g).settings = s.settings ∧ (s.clearEvents g).stopped = s.stopped ∧
    (s.clearEvents g).records = s.records ∧ (s.clearEvents g).lanes = s.lanes ∧ (s.clearEvents g).slots = s.slots ∧
    (s.clearEvents g).claims = s.claims ∧ (s.clearEvents g).approvals = s.approvals ∧
    (s.clearEvents g).lifts = s.lifts ∧ (s.clearEvents g).entries = s.entries ∧
    (s.clearEvents g).stations = s.stations ∧ (s.clearEvents g).lists = s.lists ∧
    (s.clearEvents g).opening = s.opening ∧ (s.clearEvents g).unsolicited = s.unsolicited ∧
    (s.clearEvents g).links = s.links ∧ (s.clearEvents g).attention = s.attention ∧
    (s.clearEvents g).cause = s.cause ∧ (s.clearEvents g).fresh = s.fresh := by
  unfold clearEvents; (repeat' split) <;> simp

end Sys2Proof.Machine.State
end

