-- ==== Sys2Proof/Laws/Operands.lean ====
section
/-! SUPPORT. What a field's byte names, and how a request, a frame and an event run: the lemmas that a statement about one
command opens with. -/

namespace Sys2Proof

/-! ### A byte in its field's range, and out of it (R171) -/

theorem Level.ofByte_of {b : Byte} {l : Level} (h : b.toNat = l.val + 1) : Level.ofByte b = some l := by
  have := l.isLt
  rw [Level.ofByte, dif_pos (by omega)]
  exact congrArg some (Fin.ext (by show b.toNat - 1 = l.val; omega))

theorem Level.ofByte_out {b : Byte} (h : b.toNat < 1 ∨ 32 < b.toNat) : Level.ofByte b = none := dif_neg (by omega)

theorem Level.ofByte_some {b : Byte} {l : Level} (h : Level.ofByte b = some l) : b.toNat = l.val + 1 := by
  unfold Level.ofByte at h
  split at h
  · cases h; show b.toNat = b.toNat - 1 + 1; omega
  · cases h

theorem Stop.ofByte_of {b : Byte} {n : Stop} (h : b.toNat = n.val + 1) : Stop.ofByte b = some n := by
  have := n.isLt
  rw [Stop.ofByte, dif_pos (by omega)]
  exact congrArg some (Fin.ext (by show b.toNat - 1 = n.val; omega))

theorem Stop.ofByte_out {b : Byte} (h : b.toNat < 1 ∨ 36 < b.toNat) : Stop.ofByte b = none := dif_neg (by omega)

theorem StationNo.ofByte_of {b : Byte} {n : StationNo} (h : b.toNat = n.val + 1) : StationNo.ofByte b = some n := by
  have := n.isLt
  rw [StationNo.ofByte, dif_pos (by omega)]
  exact congrArg some (Fin.ext (by show b.toNat - 1 = n.val; omega))

theorem StationNo.ofByte_out {b : Byte} (h : b.toNat < 1 ∨ 4 < b.toNat) : StationNo.ofByte b = none := dif_neg (by omega)

theorem listOfByte_of {b : Byte} {l : Fin 16} (h : b.toNat = l.val) : listOfByte b = some l := by
  rw [listOfByte, dif_pos (by omega)]; exact congrArg some (Fin.ext h)

theorem listOfByte_out {b : Byte} (h : 15 < b.toNat) : listOfByte b = none := dif_neg (by omega)

theorem slotOfByte_of {b : Byte} {i : Fin 34} (h : b.toNat = i.val) : slotOfByte b = some i := by
  rw [slotOfByte, dif_pos (by omega)]; exact congrArg some (Fin.ext h)

theorem slotOfByte_out {b : Byte} (h : 33 < b.toNat) : slotOfByte b = none := dif_neg (by omega)

theorem groupOfByte_of {b : Byte} {g : Fin 41} (h : b.toNat = g.val) : groupOfByte b = some g := by
  rw [groupOfByte, dif_pos (by omega)]; exact congrArg some (Fin.ext h)

theorem groupOfByte_out {b : Byte} (h : 40 < b.toNat) : groupOfByte b = none := dif_neg (by omega)

theorem correctionOfByte_of {b : Byte} {e : Fin 8} (h : b.toNat = e.val) : correctionOfByte b = some e := by
  rw [correctionOfByte, dif_pos (by omega)]; exact congrArg some (Fin.ext h)

theorem correctionOfByte_out {b : Byte} (h : 7 < b.toNat) : correctionOfByte b = none := dif_neg (by omega)

/-- A byte is told by its value. -/
theorem byte_eq {b : Byte} {n : Nat} (hn : n < 256) (h : b.toNat = n) : b = BitVec.ofNat 8 n :=
  BitVec.eq_of_toNat_eq (by rw [h, BitVec.toNat_ofNat]; omega)

theorem Side.ofByte_of {b : Byte} {x : Side} (h : b.toNat = x.ix.val) : Side.ofByte b = some x := by
  cases x
  · rw [byte_eq (by decide) h]; rfl
  · rw [byte_eq (by decide) h]; rfl

theorem Side.ofByte_out {b : Byte} (h : 1 < b.toNat) : Side.ofByte b = none := by
  unfold Side.ofByte
  rw [if_neg (by rintro rfl; exact absurd h (by decide)), if_neg (by rintro rfl; exact absurd h (by decide))]

theorem LaneName.ofByte_of {b : Byte} {n : LaneName} (h : b.toNat = n.ix.val) : LaneName.ofByte b = some n := by
  cases n
  all_goals rw [byte_eq (by decide) h]; rfl

theorem LaneName.ofByte_out {b : Byte} (h : 3 < b.toNat) : LaneName.ofByte b = none := by
  unfold LaneName.ofByte
  rw [if_neg (by rintro rfl; exact absurd h (by decide)), if_neg (by rintro rfl; exact absurd h (by decide)),
    if_neg (by rintro rfl; exact absurd h (by decide)), if_neg (by rintro rfl; exact absurd h (by decide))]

theorem settingOfByte_out {b : Byte} (h : 1 < b.toNat) : settingOfByte b = none := by
  unfold settingOfByte
  rw [if_neg (by rintro rfl; exact absurd h (by decide)), if_neg (by rintro rfl; exact absurd h (by decide))]

theorem settingOfByte_le {b : Byte} (h : b.toNat ≤ 1) : settingOfByte b = some (decide (b = 0)) := by
  rcases (by omega : b.toNat = 0 ∨ b.toNat = 1) with e | e
  · rw [byte_eq (by decide) e]; rfl
  · rw [byte_eq (by decide) e]; rfl

namespace Machine

theorem Weight.ofByte_of {b : Byte} {w : Weight} (h : b.toNat = w.val) : Weight.ofByte b = some w := by
  rw [Weight.ofByte, dif_pos (by omega)]; exact congrArg some (Fin.ext h)

theorem Weight.ofByte_out {b : Byte} (h : 4 < b.toNat) : Weight.ofByte b = none := dif_neg (by omega)

/-! ### How a request runs (R169, R171) -/

@[simp] theorem Answer.checked_nil (go : Answer) : Answer.checked [] go = go := rfl

@[simp] theorem Answer.checked_cons (b : Bool) (c : Code) (rest : List (Bool × Code)) (go : Answer) :
    Answer.checked ((b, c) :: rest) go = if b then .refuse c else .checked rest go := by
  cases b <;> rfl

namespace State

@[simp] theorem answered_refuse (s : State) (c : Code) : s.answered (.refuse c) = s.told c .empty := rfl
@[simp] theorem answered_reply (s : State) (b : Body) : s.answered (.reply b) = s.told .ok b := rfl
@[simp] theorem answered_accept (s t : State) : s.answered (.accept t) = s.doneWith t .empty := rfl
@[simp] theorem answered_acceptWith (s t : State) (b : Body) : s.answered (.acceptWith t b) = s.doneWith t b := rfl

end State

/-- The status byte of a transaction under way is the one its assertion took (R168). -/
theorem State.firstByte_asserted {s : State} {b : Byte} (h : s.chip = .asserted b) : s.firstByte = b := by
  unfold State.firstByte; rw [h]

/-- A transaction that the part hears acts when chip select is released (R167). -/
theorem State.onRelease_hears {s : State} (h : s.hearsPort) (act : State → State) : s.onRelease act = act s := by
  have : (s.inReset || s.chip == .abandoned) = false := by rw [h.1, beq_false_of_ne h.2]; rfl
  rw [State.onRelease, this]; rfl

/-- A transaction that the part does not hear ends without effect (R167). -/
theorem State.onRelease_deaf {s : State} (h : ¬ s.hearsPort) (act : State → State) :
    s.onRelease act = { s with chip := .idle } := by
  have : (s.inReset || s.chip == .abandoned) = true := by
    by_contra hc
    obtain ⟨hr, hd⟩ := Bool.or_eq_false_iff.mp (eq_false_of_ne_true hc)
    exact h ⟨hr, ne_of_beq_false hd⟩
  rw [State.onRelease, if_pos this]

/-- What an assertion of chip select can do (R167, R168). -/
theorem State.assertSelect_eq (s : State) : s.assertSelect = { s with chip :=
    if s.chip = .idle then (if s.inReset then .abandoned else .asserted s.statusByte) else s.chip } := by
  unfold State.assertSelect
  split <;> rename_i h <;> simp only [h, if_true, reduceCtorEq, if_false]
  all_goals rw [← h]

/-- A request that a response in the buffer keeps out sets the overrun flag (R169). -/
theorem request_overrun {s : State} (h : s.hearsPort) (hb : s.buffer.isSome) (f : State → Answer) :
    request f s = .next { s.shift [s.firstByte] with overrun := true } := by
  show Host.Outcome.next (s.takeRequest f) = _
  rw [State.takeRequest, State.onRelease_hears h, if_pos hb]

/-- A request that the part does not hear ends without effect (R167). -/
theorem request_deaf {s : State} (h : ¬ s.hearsPort) (f : State → Answer) : request f s = .next { s with chip := .idle } :=
  congrArg Host.Outcome.next (State.onRelease_deaf h _)

/-- A COLLECT and a status poll that the part hears (R167, R169). -/
theorem execCollect_hears {s : State} (h : s.hearsPort) (n : Nat) :
    execCollect (.collects n) s = .next (s.collect n) ∧ execCollect (.polls n) s = .next (s.shift [s.firstByte]) :=
  ⟨congrArg Host.Outcome.next (State.onRelease_hears h fun s => s.collect n),
    congrArg Host.Outcome.next (State.onRelease_hears h fun s => s.shift [s.firstByte])⟩

/-- A COLLECT and a status poll that the part does not hear end without effect (R167). -/
theorem execCollect_deaf {s : State} (h : ¬ s.hearsPort) (n : Nat) :
    execCollect (.collects n) s = .next { s with chip := .idle } ∧ execCollect (.polls n) s = .next { s with chip := .idle } :=
  ⟨congrArg Host.Outcome.next (State.onRelease_deaf h fun s => s.collect n),
    congrArg Host.Outcome.next (State.onRelease_deaf h fun s => s.shift [s.firstByte])⟩

/-- A request of a part that is ready is answered by its owning rule. -/
theorem request_ready {s : State} (h : s.ready) (f : State → Answer) : request f s = .next (s.answered (f s)) := by
  show Host.Outcome.next (s.takeRequest f) = _
  rw [State.takeRequest, State.onRelease_hears h.1, h.2]; rfl

/-- Every request has a next state. -/
theorem request_next (f : State → Answer) (s : State) : ∃ t, request f s = .next t := ⟨_, rfl⟩

/-! ### How an event and a frame run (R158) -/

theorem event_out {s : State} (h : s.inReset = false) (f : State → State) : event f s = .next (f s).closeEvent := by
  show Host.Outcome.next (s.takeEvent f) = _
  rw [State.takeEvent, h]; rfl

theorem frame_out {s : State} (h : s.inReset = false) (p : Port) (f : State → State) :
    frame p f s = .next (f (s.takeValid p)).closeEvent := event_out h _

end Machine

end Sys2Proof
end

