-- ==== Sys2Proof/Laws/Transfers.lean ====
section
/-! SUPPORT. What a grant, a commit, a failure and the steps that end a transfer make of each lane, lift, level and record,
and which event flags an operation leaves raised. -/

open Sys2Proof Sys2Proof.Machine Sys2Proof.Machine.State

namespace Sys2Proof.Machine.State
/-! ### Grants -/

theorem slot_openTransfer (s : State) (g : Grant) (k : Fin 34) : (s.openTransfer g).slot k =
    if g.slot = k then { s.slot k with generation := (s.slot k).generation + 1, opened := some (s.openedBy g) }
    else s.slot k := by
  have : (s.openTransfer g).slot k = (s.openSlot g.slot (s.openedBy g)).slot k := by simp [openTransfer, State.slot]
  rw [this]; exact slot_modSlot ..

theorem lookup_enlist (s : State) (i : Fin 34) (totes : List Ident) (j : Ident) : (s.enlist i totes).lookup j =
    if j ∈ totes then (s.lookup j).map (fun r => { r with transfer := some (s.numberOf i) }) else s.lookup j := by
  unfold enlist
  induction totes generalizing s with
  | nil => simp
  | cons a t ih =>
    rw [List.foldl_cons, ih, lookup_setTransfer]
    have hn : (s.setTransfer a (some (s.numberOf i))).numberOf i = s.numberOf i := rfl
    rw [hn]
    by_cases h : a = j
    · subst h; cases s.lookup a <;> simp
    · have : ¬ j = a := fun e => h e.symm
      simp [h, this]

theorem lookup_openTransfer (s : State) (g : Grant) (j : Ident) : (s.openTransfer g).lookup j =
    if j ∈ g.totes then
      (s.lookup j).map (fun r => { r with transfer := some { slot := g.slot, gen := (s.slot g.slot).generation + 1 } })
    else s.lookup j := by
  have h0 : (s.openTransfer g).lookup j =
      (((s.openSlot g.slot (s.openedBy g)).reserve g.taker g.totes).enlist g.slot g.totes).lookup j := by
    simp [openTransfer, State.lookup]
  have h1 : ((s.openSlot g.slot (s.openedBy g)).reserve g.taker g.totes).lookup j = s.lookup j := by simp [State.lookup]
  have h2 : ((s.openSlot g.slot (s.openedBy g)).reserve g.taker g.totes).numberOf g.slot =
      { slot := g.slot, gen := (s.slot g.slot).generation + 1 } := by
    have : ((s.openSlot g.slot (s.openedBy g)).reserve g.taker g.totes).slot g.slot =
        (s.openSlot g.slot (s.openedBy g)).slot g.slot := by simp [State.slot]
    unfold numberOf
    rw [this, openSlot, slot_modSlot, if_pos rfl]
  rw [h0, lookup_enlist, h1, h2]

theorem lane_reserve (s : State) (t : Taker) (totes : List Ident) (k : LaneId) : (s.reserve t totes).lane k =
    { s.lane k with reserved := (s.lane k).reserved + if t = .lane k then totes.length else 0 } := by
  cases t with
  | lane l =>
    show (s.modLane l _).lane k = _
    rw [lane_modLane]
    by_cases hl : l = k <;> simp [hl]
  | carriage x => simp; rfl
  | shuttle => simp; rfl
  | exit => simp; rfl

theorem lane_openTransfer (s : State) (g : Grant) (k : LaneId) : (s.openTransfer g).lane k =
    { s.lane k with reserved := (s.lane k).reserved + if g.taker = .lane k then g.totes.length else 0 } := by
  have : (s.openTransfer g).lane k = ((s.openSlot g.slot (s.openedBy g)).reserve g.taker g.totes).lane k := by
    simp [openTransfer, State.lane]
  rw [this, lane_reserve]; rfl

theorem claimState_openTransfer (s : State) (g : Grant) (l : Level) : (s.openTransfer g).claimState l =
    if slotOwner g.slot = .inl l then .working else s.claimState l := by
  show (State.partyWorks _ _).claimState l = _
  unfold partyWorks
  cases h : slotOwner g.slot with
  | inl m =>
    dsimp only
    rw [claimState_setClaimState]
    by_cases hm : m = l
    · subst hm; simp
    · rw [if_neg hm, if_neg (by simpa using hm)]; simp [State.claimState]
  | inr x => dsimp only; rw [if_neg (by simp)]; simp [State.claimState]

/-- The places that a grant reserves on a carriage. -/
theorem lift_reserve (s : State) (t : Taker) (totes : List Ident) (x : Side) : (s.reserve t totes).lift x =
    if t = .carriage x then { s.lift x with
      reserved := totes.filterMap fun i => (s.lookup i).map fun r =>
        { direction := r.direction, weight := r.weight.getD 0 } }
    else s.lift x := by
  cases t with
  | carriage z =>
    show (s.modLift z _).lift x = _
    rw [lift_modLift]
    by_cases hz : z = x
    · subst hz; simp
    · rw [if_neg hz, if_neg (by simpa using hz)]
  | lane l => simp; rfl
  | shuttle => simp; rfl
  | exit => simp; rfl

theorem lift_openTransfer (s : State) (g : Grant) (x : Side) : (s.openTransfer g).lift x =
    let y := (s.reserve g.taker g.totes).lift x
    if slotOwner g.slot = .inr x then { y with status := .working, stuck := false } else y := by
  have base : (((s.openSlot g.slot (s.openedBy g)).reserve g.taker g.totes).enlist g.slot g.totes).lift x =
      (s.reserve g.taker g.totes).lift x := by
    have : (((s.openSlot g.slot (s.openedBy g)).reserve g.taker g.totes).enlist g.slot g.totes).lift x =
      ((s.openSlot g.slot (s.openedBy g)).reserve g.taker g.totes).lift x := by simp [State.lift]
    rw [this, lift_reserve, lift_reserve]; rfl
  show (State.partyWorks _ _).lift x = _
  unfold partyWorks
  cases h : slotOwner g.slot with
  | inl m => dsimp only; rw [if_neg (by simp), ← base]; rfl
  | inr y =>
    dsimp only
    rw [lift_modLift, base]
    by_cases hy : y = x <;> simp [hy]

/-! ### The lists that records leave and join -/

theorem lane_setContents (s : State) (l k : LaneId) (c : List Ident) : (s.setContents l c).lane k =
    if l = k then { s.lane k with contents := c } else s.lane k := lane_modLane ..

theorem contents_setCarriage (s : State) (x y : Side) (c : List Ident) : ((s.setCarriage x c).lift y).contents =
    if x = y then c else (s.lift y).contents := by
  unfold setCarriage
  rw [lift_modLift]
  by_cases h : x = y
  · subst h
    rw [if_pos rfl, if_pos rfl]
    split
    · assumption
    · rfl
  · rw [if_neg h, if_neg h]

/-- A change of a carriage's contents changes its stuck mark at most besides. -/
theorem lift_setCarriage (s : State) (x y : Side) (c : List Ident) : (s.setCarriage x c).lift y =
    { s.lift y with contents := ((s.setCarriage x c).lift y).contents, stuck := ((s.setCarriage x c).lift y).stuck } := by
  unfold setCarriage
  rw [lift_modLift]
  split
  · split <;> rfl
  · rfl

theorem contents_setQueue (s : State) (x y : Side) (c : List Ident) : ((s.setQueue x c).queue y).contents =
    if x = y then c else (s.queue y).contents := by
  unfold setQueue
  rw [queue_modQueue]
  by_cases h : x = y
  · subst h
    rw [if_pos rfl, if_pos rfl]
    split <;> rfl
  · rw [if_neg h, if_neg h]

theorem lane_leaveGiver (s : State) (g : Giver) (totes : List Ident) (k : LaneId) : (s.leaveGiver g totes).lane k =
    { s.lane k with contents :=
        if g = .lane k then (s.lane k).contents.filter (fun x => x ∉ totes) else (s.lane k).contents } := by
  cases g with
  | lane l =>
    show (s.setContents l _).lane k = _
    rw [lane_setContents]
    by_cases hl : l = k
    · subst hl; simp
    · rw [if_neg hl, if_neg (by simpa using hl)]
  | carriage x => rw [if_neg (by simp)]; simp [leaveGiver, State.lane]
  | entry x => rw [if_neg (by simp)]; simp [leaveGiver, State.lane]
  | rack l => rw [if_neg (by simp)]; simp [leaveGiver, State.lane]

theorem contents_leaveGiver (s : State) (g : Giver) (totes : List Ident) (y : Side) :
    ((s.leaveGiver g totes).lift y).contents =
      if g = .carriage y then (s.lift y).contents.filter (fun x => x ∉ totes) else (s.lift y).contents := by
  cases g with
  | carriage x =>
    show ((s.setCarriage x _).lift y).contents = _
    rw [contents_setCarriage]
    by_cases hl : x = y
    · subst hl; simp
    · rw [if_neg hl, if_neg (by simpa using hl)]
  | lane x => rw [if_neg (by simp)]; simp [leaveGiver, State.lift]
  | entry x => rw [if_neg (by simp)]; simp [leaveGiver, State.lift]
  | rack l => rw [if_neg (by simp)]; simp [leaveGiver, State.lift]

theorem lift_leaveGiver (s : State) (g : Giver) (totes : List Ident) (y : Side) : (s.leaveGiver g totes).lift y =
    { s.lift y with
      contents := ((s.leaveGiver g totes).lift y).contents, stuck := ((s.leaveGiver g totes).lift y).stuck } := by
  cases g with
  | carriage x => exact lift_setCarriage ..
  | lane x => rfl
  | entry x => rfl
  | rack l => rfl

theorem queue_leaveGiver (s : State) (g : Giver) (totes : List Ident) (y : Side) :
    ((s.leaveGiver g totes).queue y).contents =
      if g = .entry y then (s.queue y).contents.filter (fun x => x ∉ totes) else (s.queue y).contents := by
  cases g with
  | entry x =>
    show ((s.setQueue x _).queue y).contents = _
    rw [contents_setQueue]
    by_cases hl : x = y
    · subst hl; simp
    · rw [if_neg hl, if_neg (by simpa using hl)]
  | lane x => rw [if_neg (by simp)]; simp [leaveGiver, State.queue]
  | carriage x => rw [if_neg (by simp)]; simp [leaveGiver, State.queue]
  | rack l => rw [if_neg (by simp)]; simp [leaveGiver, State.queue]

theorem lane_release (s : State) (t : Taker) (n : Nat) (k : LaneId) : (s.release t n).lane k =
    { s.lane k with reserved := (s.lane k).reserved - if t = .lane k then n else 0 } := by
  cases t with
  | lane l =>
    show (s.modLane l _).lane k = _
    rw [lane_modLane]
    by_cases hl : l = k <;> simp [hl]
  | carriage x => simp; rfl
  | shuttle => simp; rfl
  | exit => simp; rfl

theorem lift_release (s : State) (t : Taker) (n : Nat) (x : Side) : (s.release t n).lift x =
    { s.lift x with reserved := if t = .carriage x then [] else (s.lift x).reserved } := by
  cases t with
  | carriage z =>
    show (s.modLift z _).lift x = _
    rw [lift_modLift]
    by_cases hz : z = x
    · subst hz; simp
    · rw [if_neg hz, if_neg (by simpa using hz)]
  | lane l => simp; rfl
  | shuttle => simp; rfl
  | exit => simp; rfl

theorem lookup_unlist (s : State) (totes : List Ident) (j : Ident) : (s.unlist totes).lookup j =
    if j ∈ totes then (s.lookup j).map (fun r => { r with transfer := none }) else s.lookup j :=
  lookup_foldl_modRecord (fun r => { r with transfer := none }) (fun _ => rfl) (fun _ => rfl) totes s j

theorem lookup_joinTaker (s : State) (t : Taker) (totes : List Ident) (j : Ident) : (s.joinTaker t totes).lookup j =
    match t with
    | .lane l => if j ∈ totes then (s.lookup j).map (fun r => { r with place := .lane l }) else s.lookup j
    | .carriage x => if j ∈ totes then (s.lookup j).map (fun r => { r with place := .carriage x }) else s.lookup j
    | .shuttle => if j ∈ totes then none else s.lookup j
    | .exit => s.lookup j := by
  cases t with
  | lane l => exact lookup_foldl_modRecord (fun r => { r with place := .lane l }) (fun _ => rfl) (fun _ => rfl) ..
  | carriage x => exact lookup_foldl_modRecord (fun r => { r with place := .carriage x }) (fun _ => rfl) (fun _ => rfl) ..
  | shuttle => exact lookup_foldl_retire ..
  | exit => rfl

theorem lane_joinTaker (s : State) (t : Taker) (totes : List Ident) (k : LaneId) : (s.joinTaker t totes).lane k =
    { s.lane k with contents := (s.lane k).contents ++ if t = .lane k then totes else [] } := by
  cases t with
  | lane l =>
    have : (s.joinTaker (.lane l) totes).lane k = (s.setContents l ((s.lane l).contents ++ totes)).lane k :=
      congrArg (nth · k.ix) (foldl_lanes _ (by intros; rfl) _ _)
    rw [this, lane_setContents]
    by_cases hl : l = k <;> simp [hl]
  | carriage x => simp; exact congrArg (nth · k.ix) ((foldl_lanes _ (by intros; rfl) _ _).trans rfl)
  | shuttle => simp; exact congrArg (nth · k.ix) (foldl_lanes _ (by intros; rfl) _ _)
  | exit => simp; rfl

theorem contents_joinTaker (s : State) (t : Taker) (totes : List Ident) (y : Side) :
    ((s.joinTaker t totes).lift y).contents = (s.lift y).contents ++ if t = .carriage y then totes else [] := by
  cases t with
  | carriage x =>
    have : (s.joinTaker (.carriage x) totes).lift y = (s.setCarriage x ((s.lift x).contents ++ totes)).lift y :=
      congrArg (nth · y.ix) (foldl_lifts _ (by intros; rfl) _ _)
    rw [this, contents_setCarriage]
    by_cases hl : x = y <;> simp [hl]
  | lane x =>
    have : (s.joinTaker (.lane x) totes).lift y = s.lift y := congrArg (nth · y.ix) (foldl_lifts _ (by intros; rfl) _ _)
    rw [this]; simp
  | shuttle =>
    have : (s.joinTaker .shuttle totes).lift y = s.lift y := congrArg (nth · y.ix) (foldl_lifts _ (by intros; rfl) _ _)
    rw [this]; simp
  | exit => simp; rfl

theorem lift_joinTaker (s : State) (t : Taker) (totes : List Ident) (y : Side) : (s.joinTaker t totes).lift y =
    { s.lift y with
      contents := ((s.joinTaker t totes).lift y).contents, stuck := ((s.joinTaker t totes).lift y).stuck } := by
  cases t with
  | carriage x =>
    have : (s.joinTaker (.carriage x) totes).lift y = (s.setCarriage x ((s.lift x).contents ++ totes)).lift y :=
      congrArg (nth · y.ix) (foldl_lifts _ (by intros; rfl) _ _)
    rw [this]; exact lift_setCarriage ..
  | lane x =>
    have : (s.joinTaker (.lane x) totes).lift y = s.lift y :=
      congrArg (nth · y.ix) (foldl_lifts _ (by intros; rfl) _ _)
    rw [this]
  | shuttle =>
    have : (s.joinTaker .shuttle totes).lift y = s.lift y :=
      congrArg (nth · y.ix) (foldl_lifts _ (by intros; rfl) _ _)
    rw [this]
  | exit => rfl
end Sys2Proof.Machine.State
namespace Sys2Proof.Machine

theorem Flag.mask_ne_zero (f : Flag) : f.mask ≠ 0 := by
  have key : ∀ n < 8, (1 : Byte) <<< n ≠ 0 := by decide
  refine key f.bit ?_
  rcases f with x | ⟨_, x⟩ | ⟨_, x⟩ | ⟨_, x⟩ | ⟨_, x⟩ <;> cases x <;> simp [Flag.bit]

namespace State

/-! ### Flags -/

theorem raised_raise_self (s : State) (f : Flag) : (s.raise f).raised f = true := by
  have e : nth (s.raise f).flags f.group = nth s.flags f.group ||| f.mask := nth_upd_self ..
  unfold raised
  rw [e]
  have : (nth s.flags f.group ||| f.mask) &&& f.mask = f.mask := by
    ext i hi; simp; intro h; exact Or.inr h
  rw [this]
  simpa using Flag.mask_ne_zero f

theorem raised_raise {s : State} {g : Flag} (f : Flag) (h : s.raised g = true) : (s.raise f).raised g = true := by
  have e : nth (s.raise f).flags g.group = if f.group = g.group then nth s.flags g.group ||| f.mask else nth s.flags g.group :=
    nth_upd ..
  unfold raised at h ⊢
  rw [e]
  split
  · have hne : nth s.flags g.group &&& g.mask ≠ 0 := by simpa using h
    have : (nth s.flags g.group ||| f.mask) &&& g.mask ≠ 0 := by
      intro hc
      apply hne
      ext i hi
      have := congrArg (fun v : Byte => v[i]) hc
      simp at this ⊢
      tauto
    simpa using this
  · exact h

theorem flags_raise_ne (s : State) (f : Flag) (g : Fin 41) (h : f.group ≠ g) : nth (s.raise f).flags g = nth s.flags g :=
  nth_upd_ne _ _ _ _ h

/-- Flags that each operation of a list keeps set, the whole list keeps set. -/
theorem raised_foldl {α : Type} (f : State → α → State) (h : ∀ s a g, s.raised g = true → (f s a).raised g = true)
    (l : List α) {s : State} {g : Flag} (hg : s.raised g = true) : (l.foldl f s).raised g = true := by
  induction l generalizing s with
  | nil => exact hg
  | cons a l ih => exact ih (h s a g hg)

/-! ### A level that drains, and the switch-off test -/

theorem testDrain_eq (s : State) (l : Level) : s.testDrain l =
    if (s.level l).mode = .draining ∧ s.levelTouched l = false then
      ((s.modLevel l fun x => { x with mode := .off }).withCause).raise (.level l .modeChange)
    else s := by
  unfold testDrain
  by_cases h : (s.level l).mode = .draining ∧ s.levelTouched l = false
  · rw [if_pos h, if_pos (by simp [h.1, h.2])]
    unfold changeMode
    rw [if_neg (by rw [h.1]; decide), h.1]
    rfl
  · rw [if_neg h, if_neg (by simpa using h)]

theorem touches_foldl_testDrain (ls : List Level) (s : State) (l : Level) :
    (ls.foldl testDrain s).levelTouched l = s.levelTouched l := by
  have : (ls.foldl testDrain s).slots = s.slots := by simp
  simp [levelTouched, touches, State.slot, this]

theorem level_foldl_testDrain (ls : List Level) (s : State) (k : Level) : (ls.foldl testDrain s).level k =
    { s.level k with mode :=
        if k ∈ ls ∧ (s.level k).mode = .draining ∧ s.levelTouched k = false then .off else (s.level k).mode } := by
  induction ls generalizing s with
  | nil => simp
  | cons l ls ih =>
    have e : (s.testDrain l).level k = { s.level k with mode :=
        if l = k ∧ (s.level k).mode = .draining ∧ s.levelTouched k = false then .off else (s.level k).mode } := by
      rw [testDrain_eq]
      by_cases hl : l = k
      · subst hl
        split
        · next h => rw [if_pos ⟨rfl, h⟩]; exact (level_modLevel ..).trans (if_pos rfl)
        · next h => rw [if_neg (fun c => h c.2)]
      · rw [if_neg (c := l = k ∧ _) (fun c => hl c.1)]
        split
        · exact (level_modLevel ..).trans (if_neg hl)
        · rfl
    have t : (s.testDrain l).levelTouched k = s.levelTouched k := touches_foldl_testDrain [l] s k
    rw [List.foldl_cons, ih, e, t]
    by_cases hl : l = k
    · subst hl
      by_cases hd : (s.level l).mode = .draining ∧ s.levelTouched l = false
      · simp [hd]
      · simp [hd]
    · have hl' : ¬ k = l := fun c => hl c.symm
      simp [hl, hl']

theorem raised_testDrain {s : State} {g : Flag} (l : Level) (h : s.raised g = true) : (s.testDrain l).raised g = true := by
  rw [testDrain_eq]
  split
  · exact raised_raise _ h
  · exact h

theorem raised_foldl_testDrain (ls : List Level) (s : State) (k : Level) (hk : k ∈ ls) (h : (s.level k).mode = .draining)
    (ht : s.levelTouched k = false) : (ls.foldl testDrain s).raised (.level k .modeChange) = true := by
  induction ls generalizing s with
  | nil => cases hk
  | cons l ls ih =>
    rw [List.foldl_cons]
    by_cases hl : l = k
    · subst hl
      refine raised_foldl testDrain (fun _ a _ => raised_testDrain a) ls ?_
      rw [testDrain_eq, if_pos ⟨h, ht⟩]
      exact raised_raise_self ..
    · have hk' : k ∈ ls := by
        rcases List.mem_cons.mp hk with e | e
        · exact absurd e.symm hl
        · exact e
      refine ih (s.testDrain l) hk' ?_ ?_
      · have := level_foldl_testDrain [l] s k
        have e : (s.testDrain l).level k = (([l] : List Level).foldl testDrain s).level k := rfl
        have hl' : ¬ k = l := fun c => hl c.symm
        rw [e, this]; simp [hl', h]
      · exact (touches_foldl_testDrain [l] s k).trans ht

theorem mem_levelsTouched {s : State} {i : Fin 34} {l : Level} : l ∈ s.levelsTouched i ↔ s.touches i l = true := by
  simp [levelsTouched]

/-! ### The end of a transfer -/

theorem slot_freeSlot (s : State) (i j : Fin 34) (e : LastEnd) : (s.freeSlot i e).slot j =
    if i = j then { s.slot j with lastEnd := e, opened := none } else s.slot j := slot_modSlot ..

theorem claimState_partyFree (s : State) (i : Fin 34) (failed : Bool) (l : Level) : (s.partyFree i failed).claimState l =
    if slotOwner i = .inl l then .idle else s.claimState l := by
  unfold partyFree
  cases h : slotOwner i with
  | inl m =>
    dsimp only
    rw [claimState_setClaimState]
    by_cases hm : m = l
    · subst hm; simp
    · rw [if_neg hm, if_neg (by simpa using hm)]
  | inr x => show s.claimState l = _; rw [if_neg (by simp)]

theorem lift_partyFree (s : State) (i : Fin 34) (failed : Bool) (x : Side) : (s.partyFree i failed).lift x =
    { s.lift x with
      status := if slotOwner i = .inr x then (if failed then .blocked else .ready) else (s.lift x).status } := by
  unfold partyFree
  cases h : slotOwner i with
  | inl m => dsimp only; rw [if_neg (by simp)]; rfl
  | inr y =>
    dsimp only
    rw [lift_modLift]
    by_cases hy : y = x
    · subst hy; simp
    · rw [if_neg hy, if_neg (by simpa using hy)]

theorem level_foldl_modLevel (f : LevelState → LevelState) (ls : List Level) (hn : ls.Nodup) (s : State) (k : Level) :
    (ls.foldl (fun s l => s.modLevel l f) s).level k = if k ∈ ls then f (s.level k) else s.level k := by
  induction ls generalizing s with
  | nil => simp
  | cons l ls ih =>
    rw [List.nodup_cons] at hn
    rw [List.foldl_cons, ih hn.2, level_modLevel]
    by_cases hl : l = k
    · subst hl; simp [hn.1]
    · have hl' : ¬ k = l := fun c => hl c.symm
      simp [hl, hl']

theorem levelsTouched_nodup (s : State) (i : Fin 34) : (s.levelsTouched i).Nodup := (List.nodup_finRange 32).filter _

theorem lane_startSettle (s : State) (l k : LaneId) : (s.startSettle l).lane k = { s.lane k with
    condition := if l = k ∧ s.settings.params.settleTime ≠ 0 then .settling s.settings.params.settleTime else (s.lane k).condition } := by
  unfold startSettle
  split
  · next h => rw [if_neg (fun c => c.2 h)]
  · next h =>
    rw [lane_modLane]
    by_cases hl : l = k
    · simp [hl, h]
    · simp [hl]

theorem lane_settleNamed (s : State) (o : Open) (k : LaneId) : (s.settleNamed o).lane k = { s.lane k with
    condition := if laneNamed o.giver o.taker = some k ∧ s.settings.params.settleTime ≠ 0 then .settling s.settings.params.settleTime
    else (s.lane k).condition } := by
  unfold settleNamed
  cases h : laneNamed o.giver o.taker with
  | none => simp
  | some l => dsimp only; rw [lane_startSettle]; simp

theorem lane_blockLane (s : State) (l k : LaneId) (why : BlockReason) : (s.blockLane l why).lane k = { s.lane k with
    condition := if l = k ∧ (s.lane k).condition.isBlocked = false then .blocked why else (s.lane k).condition } := by
  unfold blockLane
  have key : ((s.modLane l fun x => { x with condition := .blocked why }).raise (.level l.level .laneBlocked)).lane k =
      if l = k then { s.lane k with condition := .blocked why } else s.lane k := lane_modLane ..
  by_cases hl : l = k
  · subst hl
    rw [if_pos rfl] at key
    cases h : (s.lane l).condition <;> dsimp only <;> simp_all [Condition.isBlocked]
    rw [← h]
  · rw [if_neg hl] at key
    cases h : (s.lane l).condition <;> dsimp only <;> simp_all [Condition.isBlocked]

theorem raised_blockLane {s : State} {g : Flag} (l : LaneId) (why : BlockReason) (h : s.raised g = true) :
    (s.blockLane l why).raised g = true := by
  unfold blockLane
  split
  · exact h
  all_goals exact raised_raise _ h

theorem raised_blockLane_self (s : State) (l : LaneId) (why : BlockReason) (h : (s.lane l).condition.isBlocked = false) :
    (s.blockLane l why).raised (.level l.level .laneBlocked) = true := by
  unfold blockLane
  cases hc : (s.lane l).condition with
  | blocked w => rw [hc] at h; cases h
  | clear => exact raised_raise_self ..
  | settling n => exact raised_raise_self ..
  | audit => exact raised_raise_self ..

end State
end Sys2Proof.Machine
end

