-- ==== Sys2Proof/Laws/Ends.lean ====
section
/-! SUPPORT. What the end of a transfer leaves of entries, levels, lanes and claim states, and which event flags stay raised. -/

open Sys2Proof Sys2Proof.Machine Sys2Proof.Machine.State

namespace Sys2Proof.Machine.State
/-! ### The end of a transfer leaves alone what no drain of it can reach -/

@[simp] theorem testDrain_lanes (s : State) (l : Level) : (s.testDrain l).lanes = s.lanes := by
  rw [testDrain_eq]; split <;> simp
@[simp] theorem testDrain_claims (s : State) (l : Level) : (s.testDrain l).claims = s.claims := by
  rw [testDrain_eq]; split <;> simp
@[simp] theorem testDrain_approvals (s : State) (l : Level) : (s.testDrain l).approvals = s.approvals := by
  rw [testDrain_eq]; split <;> simp
@[simp] theorem testDrain_links (s : State) (l : Level) : (s.testDrain l).links = s.links := by
  rw [testDrain_eq]; split <;> simp

@[simp] theorem afterEnd_lanes (s : State) (ls : List Level) : (s.afterEnd ls).lanes = s.lanes := by
  unfold afterEnd; simp
@[simp] theorem afterEnd_claims (s : State) (ls : List Level) : (s.afterEnd ls).claims = s.claims := by
  unfold afterEnd; simp
@[simp] theorem afterEnd_approvals (s : State) (ls : List Level) : (s.afterEnd ls).approvals = s.approvals := by
  unfold afterEnd; simp
@[simp] theorem afterEnd_links (s : State) (ls : List Level) : (s.afterEnd ls).links = s.links := by
  unfold afterEnd; simp
@[simp] theorem afterEnd_cause (s : State) (ls : List Level) : (s.afterEnd ls).cause = true := rfl

/-! ### Entries of release lists -/

theorem entryAt_of_lists {s t : State} (h : s.lists = t.lists) (ref : EntryRef) : s.entryAt ref = t.entryAt ref := by
  unfold entryAt State.list; rw [h]

theorem entryState_of_lists {s t : State} (h : s.lists = t.lists) (ref : EntryRef) : s.entryState ref = t.entryState ref := by
  unfold entryState; rw [entryAt_of_lists h]

theorem list_modEntry (s : State) (ref : EntryRef) (f : Entry → Entry) (k : Fin 16) : (s.modEntry ref f).list k =
    if ref.list = k then (s.list k).map (fun r => { r with entries := r.entries.modify (ref.rank - 1) f }) else s.list k := by
  unfold modEntry
  by_cases h : ref.list = k
  · subst h
    rw [if_pos rfl]
    cases hl : s.list ref.list with
    | none => exact hl
    | some r => exact (list_setList ..).trans (if_pos rfl)
  · rw [if_neg h]
    cases hl : s.list ref.list with
    | none => rfl
    | some r => exact (list_setList ..).trans (if_neg h)

theorem entryAt_modEntry_self (s : State) (ref : EntryRef) (f : Entry → Entry) :
    (s.modEntry ref f).entryAt ref = (s.entryAt ref).map f := by
  unfold entryAt
  rw [list_modEntry, if_pos rfl]
  cases s.list ref.list with
  | none => rfl
  | some r => simp

theorem entryState_set_self (s : State) (ref : EntryRef) (e : EntryState) :
    (s.setEntryState ref e).entryState ref = (s.entryState ref).map fun _ => e := by
  unfold entryState setEntryState
  rw [entryAt_modEntry_self]
  cases s.entryAt ref <;> rfl

/-- A change of one entry leaves the entry that another reference of a rank from 1 names. -/
theorem entryState_set_ne (s : State) (ref other : EntryRef) (e : EntryState)
    (h : ref.list ≠ other.list ∨ ref.rank - 1 ≠ other.rank - 1) :
    (s.setEntryState ref e).entryState other = s.entryState other := by
  unfold entryState setEntryState entryAt
  rw [list_modEntry]
  by_cases hl : ref.list = other.list
  · rw [if_pos hl]
    have hr := h.resolve_left (fun c => c hl)
    cases s.list other.list with
    | none => rfl
    | some r => simp [hr]
  · rw [if_neg hl]

theorem stationOf_setEntryState (s : State) (ref other : EntryRef) (e : EntryState) :
    (s.setEntryState ref e).stationOf other = s.stationOf other := by
  unfold stationOf setEntryState
  rw [list_modEntry]
  split
  · cases s.list other.list <;> rfl
  · rfl

/-- What an entry's state reads as after a change: the new state for every reference that names that entry. -/
theorem entryState_set (s : State) (ref other : EntryRef) (e : EntryState) :
    (s.setEntryState ref e).entryState other =
      if ref.list = other.list ∧ ref.rank - 1 = other.rank - 1 then (s.entryState other).map fun _ => e
      else s.entryState other := by
  by_cases h : ref.list = other.list ∧ ref.rank - 1 = other.rank - 1
  · rw [if_pos h]
    have e1 : (s.setEntryState ref e) = s.setEntryState other e := by
      unfold setEntryState modEntry; rw [h.1, h.2]
    rw [e1, entryState_set_self]
  · rw [if_neg h]
    refine entryState_set_ne s ref other e ?_
    by_cases hl : ref.list = other.list
    · exact Or.inr fun c => h ⟨hl, c⟩
    · exact Or.inl hl

theorem entryState_loadEntry (s : State) (i : Ident) (ref : EntryRef) :
    (s.loadEntry i).entryState ref = s.entryState ref ∨
      (s.loadEntry i).entryState ref = (s.entryState ref).map fun _ => .loaded := by
  unfold loadEntry
  split
  · rw [entryState_set]; split
    · exact Or.inr rfl
    · exact Or.inl rfl
  · exact Or.inl rfl

theorem lookup_loadEntry (s : State) (i j : Ident) : (s.loadEntry i).lookup j = s.lookup j := by simp [State.lookup]

theorem entryState_foldl_loadEntry_keeps (totes : List Ident) (s : State) (ref : EntryRef) {v : Option EntryState}
    (h : s.entryState ref = v.map fun _ => .loaded) :
    (totes.foldl loadEntry s).entryState ref = v.map fun _ => .loaded := by
  induction totes generalizing s with
  | nil => exact h
  | cons a l ih =>
    refine ih _ ?_
    rcases entryState_loadEntry s a ref with e | e
    · rw [e, h]
    · rw [e, h]; cases v <;> rfl

/-- Every sequenced tote of the list has its entry LOADED. -/
theorem entryState_foldl_loadEntry (totes : List Ident) (s : State) {x : Ident} {r : Record} {ref : EntryRef}
    (hx : x ∈ totes) (hr : s.lookup x = some r) (he : r.entry = some ref) :
    (totes.foldl loadEntry s).entryState ref = (s.entryState ref).map fun _ => .loaded := by
  induction totes generalizing s with
  | nil => cases hx
  | cons a l ih =>
    rw [List.foldl_cons]
    by_cases ha : x = a
    · subst ha
      refine entryState_foldl_loadEntry_keeps l _ ref ?_
      have : (s.lookup x).bind (·.entry) = some ref := by rw [hr]; exact he
      unfold loadEntry
      rw [this]
      exact entryState_set_self ..
    · have hx' : x ∈ l := (List.mem_cons.mp hx).resolve_left ha
      rw [ih (s.loadEntry a) hx' (by rw [lookup_loadEntry]; exact hr)]
      rcases entryState_loadEntry s a ref with e | e
      · rw [e]
      · rw [e]; cases s.entryState ref <;> rfl

@[simp] theorem commit_frame' (s : State) (i : Fin 34) (o : Open) : (s.commit i o).approvals = s.approvals ∧
    (s.commit i o).links = s.links ∧ (s.commit i o).cause = true := by
  unfold commit; simp
@[simp] theorem abort_frame' (s : State) (i : Fin 34) (o : Open) : (s.abort i o).approvals = s.approvals ∧
    (s.abort i o).links = s.links ∧ (s.abort i o).lists = s.lists ∧ (s.abort i o).entries = s.entries ∧ (s.abort i o).cause = true := by
  unfold abort; simp

/-! ### A change of a level's mode -/

theorem level_changeMode (s : State) (l k : Level) (m : Mode) : (s.changeMode l m).level k =
    if l = k then { s.level k with mode := m } else s.level k := by
  unfold changeMode
  by_cases h : (s.level l).mode = m
  · rw [if_pos h]
    by_cases hk : l = k
    · subst hk; rw [if_pos rfl, ← h]
    · rw [if_neg hk]
  · rw [if_neg h]
    have e : ((((s.modLevel l fun x => { x with mode := m }).cutSettles l (s.level l).mode).overtake l (s.level l).mode
        m).withCause).level k = (s.modLevel l fun x => { x with mode := m }).level k := by simp [State.level]
    rw [e, level_modLevel]

theorem levelTouched_of_slots {s t : State} (h : s.slots = t.slots) (l : Level) : s.levelTouched l = t.levelTouched l := by
  unfold levelTouched touches State.slot; rw [h]

theorem touches_of_slots {s t : State} (h : s.slots = t.slots) (i : Fin 34) (l : Level) : s.touches i l = t.touches i l := by
  unfold touches State.slot; rw [h]

theorem levelsTouched_of_slots {s t : State} (h : s.slots = t.slots) (i : Fin 34) : s.levelsTouched i = t.levelsTouched i := by
  unfold levelsTouched; simp only [touches_of_slots h]

/-- The switch-off test has its condition (R36). -/
def switchesOff (s : State) (l : Level) : Prop :=
  ((s.level l).mode = .auto ∨ (s.level l).mode = .manual) ∧ s.settings.params.streakLimit ≤ (s.level l).streak

theorem testStreak_eq (s : State) (l : Level) : (s.switchesOff l → s.testStreak l =
      (s.changeMode l (if s.levelTouched l then .draining else .off)).raise (.level l .autoOff)) ∧
    (¬ s.switchesOff l → s.testStreak l = s) := by
  unfold switchesOff testStreak
  constructor
  · rintro ⟨h1, h2⟩
    rw [if_pos (by rcases h1 with h | h <;> simp [h, h2])]
    congr 1
    unfold askMode modeAskedOff
    rw [if_pos rfl]
    rcases h1 with h | h <;> rw [h]
  · intro h
    rw [if_neg]
    intro c
    simp only [Bool.and_eq_true, decide_eq_true_eq, Bool.or_eq_true] at c
    exact h ⟨c.2, c.1⟩

theorem level_testStreak (s : State) (l k : Level) : (s.testStreak l).level k = { s.level k with mode :=
    if l = k ∧ ((s.level k).mode = .auto ∨ (s.level k).mode = .manual) ∧
        s.settings.params.streakLimit ≤ (s.level k).streak
    then (if s.levelTouched k then .draining else .off) else (s.level k).mode } := by
  by_cases h : s.switchesOff l
  · rw [(testStreak_eq s l).1 h]
    show (s.changeMode l _).level k = _
    rw [level_changeMode]
    by_cases hk : l = k
    · subst hk
      obtain ⟨h1, h2⟩ := h
      simp [h1, h2]
    · simp [hk]
  · rw [(testStreak_eq s l).2 h]
    rw [if_neg]
    rintro ⟨rfl, c⟩
    exact h c

theorem levelTouched_testStreak (s : State) (l k : Level) : (s.testStreak l).levelTouched k = s.levelTouched k :=
  levelTouched_of_slots (by simp) k

theorem level_testStreaks (ls : List Level) (s : State) (k : Level) : (s.testStreaks ls).level k = { s.level k with mode :=
    if k ∈ ls ∧ ((s.level k).mode = .auto ∨ (s.level k).mode = .manual) ∧
        s.settings.params.streakLimit ≤ (s.level k).streak
    then (if s.levelTouched k then .draining else .off) else (s.level k).mode } := by
  unfold testStreaks
  induction ls generalizing s with
  | nil => simp
  | cons l ls ih =>
    have e := level_testStreak s l k
    have hs : (s.testStreak l).settings = s.settings := by simp
    rw [List.foldl_cons, ih, e, levelTouched_testStreak, hs]
    by_cases hl : l = k
    · subst hl
      by_cases hd : ((s.level l).mode = .auto ∨ (s.level l).mode = .manual) ∧
          s.settings.params.streakLimit ≤ (s.level l).streak
      · rw [if_pos (c := l = l ∧ _) ⟨rfl, hd⟩, if_pos (c := l ∈ l :: ls ∧ _) ⟨List.mem_cons_self, hd⟩]
        dsimp only
        split <;> simp
      · rw [if_neg (c := l = l ∧ _) (fun c => hd c.2), if_neg (c := l ∈ l :: ls ∧ _) (fun c => hd c.2)]
        rw [if_neg (fun c => hd c.2)]
    · have hl' : ¬ k = l := fun c => hl c.symm
      simp [hl, hl']

/-! ### What a change of mode leaves of the rest -/

theorem lane_compareLane_of_blocked (s : State) (l k : LaneId) (h : l ≠ k) : (s.compareLane l).lane k = s.lane k := by
  unfold compareLane
  split
  · rfl
  · split
    · rw [lane_blockLane, if_neg (fun c => h c.1)]
    · rfl

theorem lane_endSettle_ne (s : State) (l k : LaneId) (h : l ≠ k) : (s.endSettle l).lane k = s.lane k := by
  unfold endSettle
  split
  · show (State.compareLane _ l).lane k = _
    rw [lane_compareLane_of_blocked _ _ _ h, lane_modLane, if_neg h]
  all_goals rfl

theorem endSettle_of_not (s : State) (l : LaneId) (h : ∀ n, (s.lane l).condition ≠ .settling n) : s.endSettle l = s := by
  unfold endSettle
  cases hc : (s.lane l).condition with
  | settling n => exact absurd hc (h n)
  | clear => rfl
  | audit => rfl
  | blocked w => rfl


theorem lookup_hold (s : State) (i j : Ident) (h : Hold) : (s.hold i h).lookup j =
    if i = j then (s.lookup j).map (fun r => { r with place := .held h, transfer := none }) else s.lookup j := by
  have e : (s.hold i h).records = (s.modRecord i fun r => { r with place := .held h, transfer := none }).records := rfl
  have e2 : (s.hold i h).lookup j = (s.modRecord i fun r => { r with place := .held h, transfer := none }).lookup j := by
    simp only [State.lookup, e]
  rw [e2, lookup_modRecord]
  intro r; rfl

theorem lookup_holdTotes (s : State) (o : Open) (why : FailReason) (j : Ident) : (s.holdTotes o why).lookup j =
    if j ∈ o.totes then (s.lookup j).map (fun r => { r with
      place := .held { reason := .failed why, giver := o.giver, taker := o.taker }, transfer := none }) else s.lookup j := by
  unfold holdTotes
  generalize o.totes = totes
  induction totes generalizing s with
  | nil => simp
  | cons i t ih =>
    rw [List.foldl_cons, ih, lookup_hold]
    by_cases hij : i = j
    · subst hij; cases s.lookup i <;> simp
    · have : ¬ j = i := fun e => hij e.symm
      simp [hij, this]

theorem raised_hold (s : State) (i : Ident) (h : Hold) : (s.hold i h).raised (.aisle .holdRaised) = true :=
  raised_raise_self ..

/-- An event flag stays raised through an operation that raises flags and clears none. -/
theorem raised_of_flags {s t : State} {g : Flag} (h : s.flags = t.flags) (ht : t.raised g = true) : s.raised g = true := by
  unfold raised at *; rw [h]; exact ht

theorem raised_holdTotes (s : State) (o : Open) (why : FailReason) (h : o.totes ≠ []) :
    (s.holdTotes o why).raised (.aisle .holdRaised) = true := by
  unfold holdTotes
  generalize o.totes = totes at h
  cases totes with
  | nil => exact absurd rfl h
  | cons i t =>
    rw [List.foldl_cons]
    refine raised_foldl _ (fun s a g hg => ?_) t (raised_hold ..)
    exact raised_raise (s := s.modRecord a _) _ (raised_of_flags (t := s) rfl hg)

theorem raised_compareLane {s : State} {g : Flag} (l : LaneId) (h : s.raised g = true) : (s.compareLane l).raised g = true := by
  unfold compareLane
  split
  · exact h
  · split
    · exact raised_blockLane _ _ h
    · exact h

theorem raised_endSettle {s : State} {g : Flag} (l : LaneId) (h : s.raised g = true) : (s.endSettle l).raised g = true := by
  unfold endSettle
  split
  · exact raised_of_flags (t := (s.modLane l fun x => { x with condition := .clear }).compareLane l) rfl
      (raised_compareLane l h)
  all_goals exact h

theorem raised_changeMode {s : State} {g : Flag} (l : Level) (m : Mode) (h : s.raised g = true) :
    (s.changeMode l m).raised g = true := by
  unfold changeMode
  split
  · exact h
  · refine raised_of_flags (t := (s.modLevel l fun x => { x with mode := m }).cutSettles l (s.level l).mode) (by simp) ?_
    unfold cutSettles
    split
    · exact raised_foldl _ (fun _ a _ hg => raised_endSettle a hg) _ h
    · exact h

theorem raised_testStreak {s : State} {g : Flag} (l : Level) (h : s.raised g = true) : (s.testStreak l).raised g = true := by
  unfold testStreak
  split
  · exact raised_raise _ (raised_changeMode _ _ h)
  · exact h

theorem raised_testStreaks {s : State} {g : Flag} (ls : List Level) (h : s.raised g = true) :
    (s.testStreaks ls).raised g = true :=
  raised_foldl _ (fun _ a _ hg => raised_testStreak a hg) _ h

theorem raised_afterEnd {s : State} {g : Flag} (ls : List Level) (h : s.raised g = true) : (s.afterEnd ls).raised g = true :=
  raised_of_flags (t := ls.foldl testDrain s) rfl (raised_foldl _ (fun _ a _ hg => raised_testDrain a hg) _ h)

/-- The switch-off test raises AUTO_OFF for every level that it switches off (R36). -/
theorem raised_testStreaks_autoOff (ls : List Level) (s : State) (l : Level) (hl : l ∈ ls) (h : s.switchesOff l) :
    (s.testStreaks ls).raised (.level l .autoOff) = true := by
  unfold testStreaks
  induction ls generalizing s with
  | nil => cases hl
  | cons a ls ih =>
    rw [List.foldl_cons]
    by_cases ha : a = l
    · subst ha
      refine raised_testStreaks ls ?_
      rw [(testStreak_eq s a).1 h]
      exact raised_raise_self ..
    · refine ih _ ((List.mem_cons.mp hl).resolve_left (fun c => ha c.symm)) ?_
      have e := level_testStreak s a l
      unfold switchesOff at *
      have hs : (s.testStreak a).settings = s.settings := by simp
      rw [e, hs, if_neg (fun c => ha c.1)]; exact h

theorem busy_of_slots {s t : State} (h : s.slots = t.slots) (l : LaneId) : s.busy l = t.busy l := by
  unfold busy slotNaming State.slot; rw [h]

/-- What the comparison of a lane makes of it: blocked by a settled report of another count (R29). -/
theorem lane_compareLane_self (s : State) (l : LaneId) : (s.compareLane l).lane l = { s.lane l with
  condition :=
    if ((s.lane l).report.any (fun r => r.settled && r.count.val != (s.lane l).contents.length)) = true ∧
        s.busy l = false ∧ isSettling (s.lane l).condition = false ∧ (s.lane l).condition.isBlocked = false
    then .blocked .unexpectedChange else (s.lane l).condition } := by
  unfold compareLane
  cases hr : (s.lane l).report with
  | none => simp
  | some r =>
    dsimp only
    by_cases hb : (s.lane l).condition.isBlocked = true
    · split
      · rw [lane_blockLane]; simp [hb]
      · simp [hb]
    · have hb' := eq_false_of_ne_true hb
      split
      · next h =>
        rw [lane_blockLane]
        simp only [Bool.and_eq_true, Bool.not_eq_true', bne_iff_ne, ne_eq] at h
        simp [hb', h]
      · next h =>
        rw [if_neg]
        rintro ⟨h1, h2, h3, _⟩
        apply h
        simp only [Option.any_some] at h1
        rw [Bool.and_eq_true] at h1
        rw [h1.1, h1.2, h2, h3]; rfl

/-- The end of a lane's settle time reads that lane and whether it is busy, and nothing else. -/
theorem lane_endSettle_congr {s t : State} {k : LaneId} (h : s.lane k = t.lane k) (hb : s.busy k = t.busy k) :
    (s.endSettle k).lane k = (t.endSettle k).lane k := by
  unfold endSettle
  rw [h]
  cases hc : (t.lane k).condition with
  | settling n =>
    show (State.compareLane _ k).lane k = (State.compareLane _ k).lane k
    rw [lane_compareLane_self, lane_compareLane_self, lane_modLane, lane_modLane, if_pos rfl, if_pos rfl, h]
    have e1 : (s.modLane k fun x => { x with condition := .clear }).busy k = s.busy k := busy_of_slots rfl k
    have e2 : (t.modLane k fun x => { x with condition := .clear }).busy k = t.busy k := busy_of_slots rfl k
    rw [e1, e2, hb]
  | clear => exact h
  | audit => exact h
  | blocked w => exact h

/-! ### Lanes through the end of settle times -/

theorem lane_cutSettles (s : State) (l : Level) (old : Mode) (k : LaneId) : (s.cutSettles l old).lane k =
    if k.level = l ∧ old = .auto then (s.endSettle k).lane k else s.lane k := by
  unfold cutSettles
  by_cases ho : old = .auto
  · rw [if_pos ho]
    have key : ∀ (ls : List LaneId), ls.Nodup → ∀ t : State,
        (ls.foldl endSettle t).lane k = if k ∈ ls then (t.endSettle k).lane k else t.lane k := by
      intro ls
      induction ls with
      | nil => intro _ t; simp
      | cons a ls ih =>
        intro hn t
        rw [List.nodup_cons] at hn
        rw [List.foldl_cons, ih hn.2]
        by_cases ha : a = k
        · subst ha
          rw [if_neg hn.1, if_pos List.mem_cons_self]
        · have hk : ¬ k = a := fun c => ha c.symm
          by_cases hm : k ∈ ls
          · rw [if_pos hm, if_pos (List.mem_cons_of_mem _ hm)]
            exact lane_endSettle_congr (lane_endSettle_ne t a k ha) (busy_of_slots (by simp) k)
          · rw [if_neg hm, if_neg (by simp [hk, hm])]
            exact lane_endSettle_ne t a k ha
    rw [key _ (lanesOf_nodup l)]
    simp [mem_lanesOf, ho]
  · rw [if_neg ho, if_neg (fun c => ho c.2)]


/-- A lane that differs from another in its condition at most, and not even there unless it was SETTLING and `may`. -/
def sameButSettle (may : Prop) (x y : Lane) : Prop :=
  ∃ c, y = { x with condition := c } ∧ (¬ may ∨ isSettling x.condition = false → c = x.condition)

theorem sameButSettle_refl (may : Prop) (x : Lane) : sameButSettle may x x := ⟨x.condition, rfl, fun _ => rfl⟩

theorem sameButSettle.mono {p q : Prop} {x y : Lane} (h : sameButSettle p x y) (hpq : p → q) : sameButSettle q x y := by
  obtain ⟨c, e, hc⟩ := h
  exact ⟨c, e, fun d => hc (d.imp_left fun n hp => n (hpq hp))⟩

theorem sameButSettle.trans {p : Prop} {x y z : Lane} (h : sameButSettle p x y) (k : sameButSettle p y z) :
    sameButSettle p x z := by
  obtain ⟨c, rfl, hc⟩ := h
  obtain ⟨d, rfl, hd⟩ := k
  refine ⟨d, rfl, fun e => ?_⟩
  have := hc e
  subst this
  exact hd e

theorem sameButSettle.eq {p : Prop} {x y : Lane} (h : sameButSettle p x y) (n : ¬ p ∨ isSettling x.condition = false) :
    y = x := by
  obtain ⟨c, rfl, hc⟩ := h
  rw [hc n]

theorem isSettling_of {c : Condition} (h : isSettling c = true) : ∃ n, c = .settling n := by
  cases c <;> first | exact ⟨_, rfl⟩ | cases h

theorem sameButSettle_endSettle (s : State) (l k : LaneId) : sameButSettle (l = k) (s.lane k) ((s.endSettle l).lane k) := by
  by_cases h : l = k
  · subst h
    unfold endSettle
    cases hc : (s.lane l).condition with
    | settling n =>
      show sameButSettle _ _ ((State.compareLane _ l).lane l)
      rw [lane_compareLane_self, lane_modLane, if_pos rfl]
      refine ⟨_, rfl, fun d => ?_⟩
      rw [hc] at d
      rcases d with d | d
      · exact absurd rfl d
      · cases d
    | clear => exact sameButSettle_refl _ _
    | audit => exact sameButSettle_refl _ _
    | blocked w => exact sameButSettle_refl _ _
  · rw [lane_endSettle_ne s l k h]; exact sameButSettle_refl _ _

theorem sameButSettle_changeMode (s : State) (l : Level) (m : Mode) (k : LaneId) :
    sameButSettle (k.level = l) (s.lane k) ((s.changeMode l m).lane k) := by
  unfold changeMode
  split
  · exact sameButSettle_refl _ _
  · have e : ((((s.modLevel l fun x => { x with mode := m }).cutSettles l (s.level l).mode).overtake l (s.level l).mode
        m).withCause).lane k = ((s.modLevel l fun x => { x with mode := m }).cutSettles l (s.level l).mode).lane k := by
      simp [State.lane]
    rw [e, lane_cutSettles]
    split
    · next h => exact (sameButSettle_endSettle (s.modLevel l fun x => { x with mode := m }) k k).mono fun _ => h.1
    · exact sameButSettle_refl _ _

theorem sameButSettle_testStreak (s : State) (l : Level) (k : LaneId) :
    sameButSettle (k.level = l) (s.lane k) ((s.testStreak l).lane k) := by
  by_cases h : s.switchesOff l
  · rw [(testStreak_eq s l).1 h]; exact sameButSettle_changeMode ..
  · rw [(testStreak_eq s l).2 h]; exact sameButSettle_refl _ _

theorem sameButSettle_testStreaks (ls : List Level) (s : State) (k : LaneId) :
    sameButSettle (k.level ∈ ls) (s.lane k) ((s.testStreaks ls).lane k) := by
  unfold testStreaks
  induction ls generalizing s with
  | nil => exact sameButSettle_refl _ _
  | cons l ls ih =>
    rw [List.foldl_cons]
    exact ((sameButSettle_testStreak s l k).mono fun e => e ▸ List.mem_cons_self).trans
      ((ih (s.testStreak l)).mono fun h => List.mem_cons_of_mem _ h)

theorem lane_blockNamed (s : State) (o : Open) (k : LaneId) : (s.blockNamed o).lane k = { s.lane k with
  condition := if laneNamed o.giver o.taker = some k ∧ (s.lane k).condition.isBlocked = false
    then .blocked .confirmFail else (s.lane k).condition } := by
  unfold blockNamed
  split
  · next l h =>
    rw [lane_blockLane, h]
    simp only [Option.some.injEq]
  · next h => simp [h]

theorem raised_blockNamed {s : State} {g : Flag} (o : Open) (h : s.raised g = true) : (s.blockNamed o).raised g = true := by
  unfold blockNamed
  split
  · exact raised_blockLane _ _ h
  · exact h

theorem raised_raiseFailed {s : State} {g : Flag} (i : Fin 34) (o : Open) (h : s.raised g = true) :
    (s.raiseFailed i o).raised g = true := by
  unfold raiseFailed
  split
  · exact raised_raise _ h
  · split
    · exact raised_raise _ (raised_raise _ h)
    · exact raised_raise _ h

/-- A flag raised when the steps of a failure's end begin is raised after them. -/
theorem raised_failEnd {s : State} {g : Flag} (i : Fin 34) (e : LastEnd) (b : Bool) (ls ms : List Level)
    (h : s.raised g = true) : ((((s.freeSlot i e).partyFree i b).testStreaks ls).afterEnd ms).raised g = true :=
  raised_afterEnd _ (raised_testStreaks _ (raised_of_flags (t := s) (by simp) h))

/-- A transfer touches the level of the lane that it names. -/
theorem touches_named {s : State} {i : Fin 34} {o : Open} (ho : (s.slot i).opened = some o) {k : LaneId}
    (h : laneNamed o.giver o.taker = some k) : s.touches i k.level = true := by
  unfold touches Slot.namesLane
  rw [ho]
  simp only [Option.isSome_some, Bool.true_and, Bool.or_eq_true, List.any_eq_true]
  refine Or.inr ⟨k.name, by cases k.name <;> decide, ?_⟩
  rw [h]
  exact beq_self_eq_true _


theorem claimState_endClaim_idle (s : State) (l k : Level) (why : Code) (h : s.claimState k = .idle) :
    (s.endClaim l why).claimState k = .idle := by
  unfold endClaim
  split
  · have e : ((s.dropClaim l).sendLevel l (.refuse why)).claimState k = (s.setClaimState l .idle).claimState k := by
      have : ((s.dropClaim l).sendLevel l (.refuse why)).claims = (s.dropClaim l).claims := by simp
      unfold State.claimState; rw [this]; rfl
    rw [e, claimState_setClaimState]
    split
    · rfl
    · exact h
  · exact h

theorem claimState_changeMode_idle (s : State) (l k : Level) (m : Mode) (h : s.claimState k = .idle) :
    (s.changeMode l m).claimState k = .idle := by
  unfold changeMode
  split
  · exact h
  · have h1 : ((s.modLevel l fun x => { x with mode := m }).cutSettles l (s.level l).mode).claimState k = .idle := by
      have e : ((s.modLevel l fun x => { x with mode := m }).cutSettles l (s.level l).mode).claims = s.claims := by simp
      unfold State.claimState at *; rw [e]; exact h
    show (State.overtake _ l (s.level l).mode m).claimState k = _
    unfold overtake
    split
    · exact claimState_endClaim_idle _ _ _ _ h1
    · exact h1

theorem claimState_testStreak_idle (s : State) (l k : Level) (h : s.claimState k = .idle) :
    (s.testStreak l).claimState k = .idle := by
  by_cases hs : s.switchesOff l
  · rw [(testStreak_eq s l).1 hs]; exact claimState_changeMode_idle _ _ _ _ h
  · rw [(testStreak_eq s l).2 hs]; exact h

theorem claimState_testStreaks_idle (ls : List Level) (s : State) (k : Level) (h : s.claimState k = .idle) :
    (s.testStreaks ls).claimState k = .idle := by
  unfold testStreaks
  induction ls generalizing s with
  | nil => exact h
  | cons l ls ih => exact ih _ (claimState_testStreak_idle s l k h)

end Sys2Proof.Machine.State
end

