-- ==== Sys2Proof/Laws/Endings.lean ====
section
/-! SUPPORT. What a grant, a commit and a failure change exactly: which flags are raised, what becomes of settle times and of
pending claims, of queues and stuck marks, and of the records' identities and the lists' entries. -/

open Sys2Proof Sys2Proof.Machine Sys2Proof.Machine.State

namespace Sys2Proof.Machine

/-! ### Which flags an operation raises -/

theorem Flag.eq_of_place {f g : Flag} (hg : f.group = g.group) (hb : f.bit = g.bit) : f = g := by
  have e := congrArg Fin.val hg
  rcases f with x | ⟨l, x⟩ | ⟨s, x⟩ | ⟨n, x⟩ | ⟨s, x⟩ <;> rcases g with y | ⟨m, y⟩ | ⟨t, y⟩ | ⟨k, y⟩ | ⟨t, y⟩
  all_goals simp only [Flag.group] at e
  · cases x <;> cases y <;> first | rfl | cases hb
  · simp at e
  · simp at e
  · simp at e
  · simp at e
  · simp at e
  · have : l = m := Fin.ext (by omega)
    subst this; cases x <;> cases y <;> first | rfl | cases hb
  all_goals first
    | (exfalso; omega)
    | (have : s = t := Side.ix_inj.mp (Fin.ext (by omega)); subst this; cases x <;> cases y <;> first | rfl | cases hb)
    | (have : n = k := Fin.ext (by omega); subst this; cases x <;> cases y <;> first | rfl | cases hb)

theorem Flag.bit_lt (f : Flag) : f.bit < 8 := by
  rcases f with x | ⟨_, x⟩ | ⟨_, x⟩ | ⟨_, x⟩ | ⟨_, x⟩ <;> cases x <;> simp [Flag.bit]

namespace State

/-- A flag is set when its bit in its group's byte is. -/
theorem raised_eq_bit (s : State) (f : Flag) : s.raised f = (nth s.flags f.group).getLsbD f.bit := by
  have key : ∀ n < 8, ∀ b : Byte, (b &&& (1 : Byte) <<< n != 0) = b.getLsbD n := by decide +kernel
  exact key f.bit f.bit_lt _

/-- Raising a flag raises it and no other (R175). -/
theorem raised_raise_iff (s : State) (f g : Flag) : (s.raise f).raised g = true ↔ g = f ∨ s.raised g = true := by
  constructor
  · intro h
    by_cases e : g = f
    · exact .inl e
    · right
      rw [raised_eq_bit] at h ⊢
      have u : nth (s.raise f).flags g.group =
          if f.group = g.group then nth s.flags g.group ||| f.mask else nth s.flags g.group := nth_upd ..
      rw [u] at h
      split at h
      · next hg =>
        have key : ∀ n < 8, ∀ m < 8, n ≠ m → ((1 : Byte) <<< m).getLsbD n = false := by decide
        have hb : g.bit ≠ f.bit := fun c => e (Flag.eq_of_place hg.symm c)
        rw [BitVec.getLsbD_or, Flag.mask, key _ g.bit_lt _ f.bit_lt hb, Bool.or_false] at h
        exact h
      · exact h
  · rintro (rfl | h)
    · exact raised_raise_self ..
    · exact raised_raise _ h

theorem raised_congr {s t : State} (h : s.flags = t.flags) (g : Flag) : s.raised g = t.raised g := by
  unfold raised; rw [h]

theorem raised_blockLane_iff (s : State) (k : LaneId) (why : BlockReason) (g : Flag) :
    (s.blockLane k why).raised g = true ↔
      s.raised g = true ∨ (g = .level k.level .laneBlocked ∧ (s.lane k).condition.isBlocked = false) := by
  have key : ∀ t : State, t = (s.modLane k fun x => { x with condition := .blocked why }).raise (.level k.level .laneBlocked) →
      (t.raised g = true ↔ s.raised g = true ∨ g = .level k.level .laneBlocked) := by
    rintro t rfl
    rw [raised_raise_iff, raised_congr (t := s) rfl]; tauto
  unfold blockLane
  cases hc : (s.lane k).condition with
  | blocked w => simp [Condition.isBlocked]
  | clear => rw [key _ rfl]; simp [Condition.isBlocked]
  | settling n => rw [key _ rfl]; simp [Condition.isBlocked]
  | audit => rw [key _ rfl]; simp [Condition.isBlocked]

end State
end Sys2Proof.Machine

namespace Sys2Proof.Machine.State

/-! ### What the steps of an ending raise -/

/-- From `s` to `t` lanes that are blocked stay blocked, and the flags raised are LANE_BLOCKED for each lane that becomes
blocked and those that `also` names. -/
structure raises (s t : State) (also : Flag → Prop) : Prop where
  stays : ∀ k, (s.lane k).condition.isBlocked = true → (t.lane k).condition.isBlocked = true
  raised : ∀ g, t.raised g = true ↔ s.raised g = true ∨
    (∃ k, g = .level k.level .laneBlocked ∧ (t.lane k).condition.isBlocked = true ∧
      (s.lane k).condition.isBlocked = false) ∨ also g

theorem raises.congr {s t : State} {p q : Flag → Prop} (h : raises s t p) (e : ∀ g, p g ↔ q g) : raises s t q :=
  ⟨h.stays, fun g => by rw [← e]; exact h.raised g⟩

theorem raises.of_eq {s t : State} (hl : t.lanes = s.lanes) (hf : t.flags = s.flags) : raises s t fun _ => False := by
  have e : ∀ k, t.lane k = s.lane k := fun k => congrArg (nth · k.ix) hl
  refine ⟨fun k h => by rw [e]; exact h, fun g => ?_⟩
  rw [raised_congr hf]
  constructor
  · exact .inl
  · rintro (h | ⟨k, _, h1, h2⟩ | h)
    · exact h
    · rw [e, h2] at h1; cases h1
    · exact h.elim

theorem raises.raise (s : State) (f : Flag) : raises s (s.raise f) fun g => g = f := by
  refine ⟨fun k h => h, fun g => ?_⟩
  rw [raised_raise_iff]
  constructor
  · rintro (h | h)
    · exact .inr (.inr h)
    · exact .inl h
  · rintro (h | ⟨k, _, h1, h2⟩ | h)
    · exact .inr h
    · rw [show ((s.raise f).lane k) = s.lane k from rfl, h2] at h1; cases h1
    · exact .inl h

theorem raises.trans {s t u : State} {p q : Flag → Prop} (a : raises s t p) (b : raises t u q) :
    raises s u fun g => p g ∨ q g := by
  refine ⟨fun k h => b.stays k (a.stays k h), fun g => ?_⟩
  rw [b.raised, a.raised]
  have keep : ∀ k, (t.lane k).condition.isBlocked = false → (s.lane k).condition.isBlocked = false := fun k h => by
    by_contra c
    rw [a.stays k (eq_true_of_ne_false c)] at h; cases h
  constructor
  · rintro ((h | ⟨k, e, h1, h2⟩ | h) | ⟨k, e, h1, h2⟩ | h)
    · exact .inl h
    · exact .inr (.inl ⟨k, e, b.stays k h1, h2⟩)
    · exact .inr (.inr (.inl h))
    · exact .inr (.inl ⟨k, e, h1, keep k h2⟩)
    · exact .inr (.inr (.inr h))
  · rintro (h | ⟨k, e, h1, h2⟩ | h | h)
    · exact .inl (.inl h)
    · by_cases c : (t.lane k).condition.isBlocked = true
      · exact .inl (.inr (.inl ⟨k, e, c, h2⟩))
      · exact .inr (.inl ⟨k, e, h1, eq_false_of_ne_true c⟩)
    · exact .inl (.inr (.inr h))
    · exact .inr (.inr h)

/-- Operations made along a list, each of which raises what `also` says of its state. -/
theorem raises.foldl {α : Type} {f : State → α → State} {also : α → Flag → Prop} {inv : State → Prop}
    (h : ∀ s a, inv s → inv (f s a) ∧ raises s (f s a) (also a)) (ls : List α) {s : State} (hs : inv s) :
    raises s (ls.foldl f s) fun g => ∃ a ∈ ls, also a g := by
  induction ls generalizing s with
  | nil => exact (raises.of_eq rfl rfl).congr (by simp)
  | cons a ls ih =>
    rw [List.foldl_cons]
    exact ((h s a hs).2.trans (ih (h s a hs).1)).congr (by simp)

theorem raises_blockLane (s : State) (l : LaneId) (why : BlockReason) : raises s (s.blockLane l why) fun _ => False := by
  refine ⟨fun k h => ?_, fun g => ?_⟩
  · rw [lane_blockLane, if_neg (fun c => by rw [h] at c; cases c.2)]; exact h
  · rw [raised_blockLane_iff]
    constructor
    · rintro (h | ⟨h, hb⟩)
      · exact .inl h
      · exact .inr (.inl ⟨l, h, by rw [lane_blockLane, if_pos ⟨rfl, hb⟩]; rfl, hb⟩)
    · rintro (h | ⟨k, e, h1, h2⟩ | h)
      · exact .inl h
      · by_cases hk : l = k
        · subst hk; exact .inr ⟨e, h2⟩
        · rw [lane_blockLane, if_neg (fun c => hk c.1), h2] at h1; cases h1
      · exact h.elim

theorem raises_compareLane (s : State) (l : LaneId) : raises s (s.compareLane l) fun _ => False := by
  unfold compareLane
  split
  · exact .of_eq rfl rfl
  · split
    · exact raises_blockLane ..
    · exact .of_eq rfl rfl

theorem raises_endSettle (s : State) (l : LaneId) : raises s (s.endSettle l) fun _ => False := by
  unfold endSettle
  split
  · next n hc =>
    have h1 : raises s (s.modLane l fun x => { x with condition := .clear }) fun _ => False := by
      have e : ∀ k, ((s.modLane l fun x => { x with condition := .clear }).lane k).condition.isBlocked =
          (s.lane k).condition.isBlocked := fun k => by
        rw [lane_modLane]
        split
        · next h => subst h; rw [hc]; rfl
        · rfl
      refine ⟨fun k h => by rw [e]; exact h, fun g => ?_⟩
      rw [raised_congr (t := s) rfl]
      constructor
      · exact .inl
      · rintro (h | ⟨k, _, h1, h2⟩ | h)
        · exact h
        · rw [e, h2] at h1; cases h1
        · exact h.elim
    have h2 := h1.trans (raises_compareLane _ l)
    exact (h2.trans (raises.of_eq (t := (State.compareLane _ l).withCause) rfl rfl)).congr fun g => by simp
  all_goals exact .of_eq rfl rfl

theorem raises_changeMode (s : State) (l : Level) (m : Mode) : raises s (s.changeMode l m) fun _ => False := by
  unfold changeMode
  split
  · exact .of_eq rfl rfl
  · have h1 : raises s ((s.modLevel l fun x => { x with mode := m }).cutSettles l (s.level l).mode) fun _ => False := by
      unfold cutSettles
      split
      · have h2 : raises s (s.modLevel l fun x => { x with mode := m }) fun _ => False := .of_eq rfl rfl
        have h3 := raises.foldl (inv := fun _ => True) (fun t a _ => ⟨trivial, raises_endSettle t a⟩) (lanesOf l)
          (s := s.modLevel l fun x => { x with mode := m }) trivial
        exact (h2.trans h3).congr fun g => by simp
      · exact .of_eq rfl rfl
    exact (h1.trans (.of_eq (by simp) (by simp))).congr (by simp)

theorem raises_testStreak (s : State) (l : Level) :
    raises s (s.testStreak l) fun g => g = .level l .autoOff ∧ s.switchesOff l := by
  by_cases h : s.switchesOff l
  · rw [(testStreak_eq s l).1 h]
    exact ((raises_changeMode s l _).trans (.raise _ _)).congr (by simp [h])
  · rw [(testStreak_eq s l).2 h]
    exact (raises.of_eq rfl rfl).congr (by simp [h])

theorem raises_testStreaks (s : State) (ls : List Level) :
    raises s (s.testStreaks ls) fun g => ∃ l ∈ ls, g = .level l .autoOff ∧ s.switchesOff l := by
  unfold testStreaks
  induction ls generalizing s with
  | nil => exact (raises.of_eq rfl rfl).congr (by simp)
  | cons a ls ih =>
    rw [List.foldl_cons]
    refine ((raises_testStreak s a).trans (ih (s.testStreak a))).congr fun g => ?_
    have hs : (s.testStreak a).settings = s.settings := by simp
    have off : ∀ l, (s.testStreak a).switchesOff l ↔ l ≠ a ∧ s.switchesOff l ∨ l = a ∧ (s.testStreak a).switchesOff a := by
      intro l
      by_cases hl : l = a
      · subst hl; simp
      · have e := level_testStreak s a l
        rw [if_neg (fun c => hl c.1.symm)] at e
        unfold switchesOff
        rw [e, hs]; simp [hl]
    have gone : (s.testStreak a).switchesOff a → s.switchesOff a := fun h => by
      by_contra c
      rw [(testStreak_eq s a).2 c] at h; exact c h
    constructor
    · rintro (⟨e, h⟩ | ⟨l, hl, e, h⟩)
      · exact ⟨a, List.mem_cons_self, e, h⟩
      · rcases (off l).mp h with ⟨_, h⟩ | ⟨rfl, h⟩
        · exact ⟨l, List.mem_cons_of_mem _ hl, e, h⟩
        · exact ⟨l, List.mem_cons_self, e, gone h⟩
    · rintro ⟨l, hl, e, h⟩
      by_cases hla : l = a
      · subst hla; exact .inl ⟨e, h⟩
      · exact .inr ⟨l, (List.mem_cons.mp hl).resolve_left hla, e, (off l).mpr (.inl ⟨hla, h⟩)⟩

theorem raises_testDrains (s : State) (ls : List Level) : raises s (ls.foldl testDrain s) fun g =>
    ∃ l ∈ ls, g = .level l .modeChange ∧ (s.level l).mode = .draining ∧ s.levelTouched l = false := by
  induction ls generalizing s with
  | nil => exact (raises.of_eq rfl rfl).congr (by simp)
  | cons a ls ih =>
    rw [List.foldl_cons]
    have h1 : raises s (s.testDrain a) fun g =>
        g = .level a .modeChange ∧ (s.level a).mode = .draining ∧ s.levelTouched a = false := by
      rw [testDrain_eq]
      split
      · next h =>
        have h2 : raises s (s.modLevel a fun x => { x with mode := .off }).withCause fun _ => False := .of_eq rfl rfl
        exact (h2.trans (raises.raise _ _)).congr fun g => by simp [h]
      · next h => exact (raises.of_eq rfl rfl).congr (by simp [h])
    refine (h1.trans (ih _)).congr fun g => ?_
    have e : ∀ l, (s.testDrain a).level l = { s.level l with mode :=
        if l = a ∧ (s.level l).mode = .draining ∧ s.levelTouched l = false then .off else (s.level l).mode } := fun l => by
      have := level_foldl_testDrain [a] s l
      simpa using this
    have t : ∀ l, (s.testDrain a).levelTouched l = s.levelTouched l := fun l => touches_foldl_testDrain [a] s l
    constructor
    · rintro (⟨e, h⟩ | ⟨l, hl, e', h⟩)
      · exact ⟨a, List.mem_cons_self, e, h⟩
      · rw [t] at h
        refine ⟨l, List.mem_cons_of_mem _ hl, e', ?_, h.2⟩
        have := h.1
        rw [e l] at this
        dsimp only at this
        split at this
        · cases this
        · exact this
    · rintro ⟨l, hl, e', h⟩
      by_cases hla : l = a
      · subst hla; exact .inl ⟨e', h⟩
      · refine .inr ⟨l, (List.mem_cons.mp hl).resolve_left hla, e', ?_, (t l).trans h.2⟩
        rw [e l]; simp [hla, h.1]

theorem raises_afterEnd (s : State) (ls : List Level) : raises s (s.afterEnd ls) fun g =>
    ∃ l ∈ ls, g = .level l .modeChange ∧ (s.level l).mode = .draining ∧ s.levelTouched l = false :=
  ((raises_testDrains s ls).trans (.of_eq (t := s.afterEnd ls) rfl rfl)).congr (by simp)

theorem raises_holdTotes (s : State) (o : Open) (why : FailReason) :
    raises s (s.holdTotes o why) fun g => g = .aisle .holdRaised ∧ o.totes ≠ [] := by
  refine (raises.foldl (inv := fun _ => True) (also := fun _ g => g = .aisle .holdRaised) (fun t a _ => ⟨trivial, ?_⟩)
    o.totes trivial).congr fun g => ?_
  · have h2 : raises t (t.modRecord a fun r => { r with
        place := .held { reason := .failed why, giver := o.giver, taker := o.taker }, transfer := none }) fun _ => False :=
      .of_eq rfl rfl
    exact (h2.trans (raises.raise _ _)).congr fun g => by simp
  · cases o.totes with
    | nil => simp
    | cons a l => simp

theorem raises_blockNamed (s : State) (o : Open) : raises s (s.blockNamed o) fun _ => False := by
  unfold blockNamed
  split
  · exact raises_blockLane ..
  · exact .of_eq rfl rfl

/-- The flags of a failed transfer (R62). -/
theorem raises_raiseFailed (s : State) (i : Fin 34) (o : Open) : raises s (s.raiseFailed i o) fun g =>
    (∃ y, g = .lift y .transferFailed ∧ slotOwner i = .inr y) ∨
    ∃ l, g = .level l .transferFailed ∧ (slotOwner i = .inl l ∨
      (laneNamed o.giver o.taker).map (·.level) = some l ∧ ∀ k, slotOwner i ≠ .inl k) := by
  unfold raiseFailed
  split
  · next l h => exact (raises.raise _ _).congr (by simp [h])
  · next y h =>
    split
    · next k hk => exact ((raises.raise _ _).trans (.raise _ _)).congr (by simp [h, hk])
    · next hk => exact (raises.raise _ _).congr (by simp [h, hk])

/-! ### What the switch-off tests of a failure change besides the modes -/

/-- The condition of a lane after its settle time has been cut short, if it is SETTLING (R31). -/
def cutCondition (s : State) (k : LaneId) : Condition :=
  if (s.lane k).report.any (fun r => r.settled && r.count.val != (s.lane k).contents.length) && !s.busy k
  then .blocked .unexpectedChange else .clear

theorem lane_endSettle (s : State) (k : LaneId) : (s.endSettle k).lane k = { s.lane k with
    condition := if isSettling (s.lane k).condition then s.cutCondition k else (s.lane k).condition } := by
  unfold endSettle
  cases hc : (s.lane k).condition with
  | settling n =>
    show (State.compareLane _ k).lane k = _
    have e1 : (s.modLane k fun x => { x with condition := .clear }).busy k = s.busy k := busy_of_slots rfl k
    rw [lane_compareLane_self, lane_modLane, if_pos rfl, e1]
    unfold cutCondition
    simp only [isSettling, Condition.isBlocked, and_true, if_true]
    congr 1
    cases s.busy k <;> simp
  | clear => simp [isSettling, ← hc]
  | audit => simp [isSettling, ← hc]
  | blocked w => simp [isSettling, ← hc]

theorem lane_changeMode (s : State) (l : Level) (m : Mode) (k : LaneId) : (s.changeMode l m).lane k = { s.lane k with
    condition := if k.level = l ∧ (s.level l).mode = .auto ∧ m ≠ .auto ∧ isSettling (s.lane k).condition then s.cutCondition k
      else (s.lane k).condition } := by
  unfold changeMode
  by_cases hm : (s.level l).mode = m
  · rw [if_pos hm, if_neg]
    rintro ⟨_, a, b, _⟩
    exact b (hm.symm.trans a)
  · rw [if_neg hm]
    have e : ((((s.modLevel l fun x => { x with mode := m }).cutSettles l (s.level l).mode).overtake l (s.level l).mode
        m).withCause).lane k = ((s.modLevel l fun x => { x with mode := m }).cutSettles l (s.level l).mode).lane k := by
      simp [State.lane]
    rw [e, lane_cutSettles]
    by_cases h : k.level = l ∧ (s.level l).mode = .auto
    · rw [if_pos h, lane_endSettle]
      have hne : m ≠ .auto := fun c => hm (h.2.trans c.symm)
      have hb : (s.modLevel l fun x => { x with mode := m }).cutCondition k = s.cutCondition k := rfl
      have hl : (s.modLevel l fun x => { x with mode := m }).lane k = s.lane k := rfl
      rw [hb, hl]
      simp [h, hne]
    · rw [if_neg h, if_neg (fun c => h ⟨c.1, c.2.1⟩)]; rfl

theorem cutCondition_congr {s t : State} {k : LaneId} (h : s.lane k = t.lane k) (hs : s.slots = t.slots) :
    s.cutCondition k = t.cutCondition k := by
  unfold cutCondition; rw [h, busy_of_slots hs]

theorem lane_testStreak (s : State) (l : Level) (k : LaneId) : (s.testStreak l).lane k = { s.lane k with
    condition := if k.level = l ∧ (s.level l).mode = .auto ∧ s.settings.params.streakLimit ≤ (s.level l).streak ∧
        isSettling (s.lane k).condition then s.cutCondition k else (s.lane k).condition } := by
  by_cases h : s.switchesOff l
  · rw [(testStreak_eq s l).1 h]
    show (s.changeMode l _).lane k = _
    rw [lane_changeMode]
    have hm : (if s.levelTouched l then Mode.draining else Mode.off) ≠ .auto := by split <;> decide
    simp [hm, h.2]
  · rw [(testStreak_eq s l).2 h, if_neg]
    rintro ⟨_, a, b, _⟩
    exact h ⟨.inl a, b⟩

theorem lane_testStreaks (ls : List Level) (hn : ls.Nodup) (s : State) (k : LaneId) : (s.testStreaks ls).lane k =
    { s.lane k with condition :=
        if k.level ∈ ls ∧ (s.level k.level).mode = .auto ∧ s.settings.params.streakLimit ≤ (s.level k.level).streak ∧
          isSettling (s.lane k).condition then s.cutCondition k else (s.lane k).condition } := by
  unfold testStreaks
  induction ls generalizing s with
  | nil => simp
  | cons l ls ih =>
    rw [List.nodup_cons] at hn
    rw [List.foldl_cons, ih hn.2]
    have e := lane_testStreak s l k
    have hs : (s.testStreak l).settings = s.settings := by simp
    by_cases hl : k.level = l
    · have hk : ¬ k.level ∈ ls := fun c => hn.1 (hl ▸ c)
      rw [if_neg (fun c => hk c.1), e, ← hl]
      simp
    · rw [if_neg (fun c => hl c.1)] at e
      have e' : (s.testStreak l).lane k = s.lane k := e
      have v : (s.testStreak l).level k.level = s.level k.level := by
        rw [level_testStreak, if_neg (fun c => hl c.1.symm)]
      have c : (s.testStreak l).cutCondition k = s.cutCondition k := cutCondition_congr e' (by simp)
      rw [e', v, hs, c]
      simp [hl]

/-- What the end of a claim leaves of the approvals, of a claim state and of a link. -/
theorem approvals_endClaim (s : State) (l : Level) (why : Code) :
    (s.endClaim l why).approvals = s.approvals.filter fun p => p.level ≠ l := by
  unfold endClaim
  split
  · simp [dropClaim, setClaimState]
  · next h =>
    symm
    rw [List.filter_eq_self]
    intro p hp
    have := List.find?_eq_none.mp (Option.not_isSome_iff_eq_none.mp h) p hp
    simpa using this

theorem claimState_endClaim (s : State) (l k : Level) (why : Code) : (s.endClaim l why).claimState k =
    if l = k ∧ (s.pendingOf l).isSome then .idle else s.claimState k := by
  unfold endClaim
  split
  · next h =>
    have e : ((s.dropClaim l).sendLevel l (.refuse why)).claimState k = (s.setClaimState l .idle).claimState k := by
      have : ((s.dropClaim l).sendLevel l (.refuse why)).claims = (s.dropClaim l).claims := by simp
      unfold State.claimState; rw [this]; rfl
    rw [e, claimState_setClaimState]; simp [h]
  · next h => simp [h]

theorem link_sendLevel (s : State) (l : Level) (f : OutFrame) (p : Port) : (s.sendLevel l f).link p =
    if (s.stopOf l).map Port.stop = some p then { s.link p with order := (s.link p).order ++ [f] } else s.link p := by
  unfold sendLevel
  cases h : s.stopOf l with
  | none => simp
  | some n => simp [link_send]

theorem link_endClaim (s : State) (l : Level) (why : Code) (p : Port) : (s.endClaim l why).link p =
    if (s.pendingOf l).isSome ∧ (s.stopOf l).map Port.stop = some p
    then { s.link p with order := (s.link p).order ++ [.refuse why] } else s.link p := by
  unfold endClaim
  split
  · next h =>
    rw [link_sendLevel]
    have e1 : (s.dropClaim l).stopOf l = s.stopOf l := rfl
    have e2 : (s.dropClaim l).link p = s.link p := rfl
    rw [e1, e2]; simp [h]
  · next h => simp [h]

/-- A change of mode ends the pending claim of a level that leaves MANUAL, and no other (R80). -/
theorem claims_changeMode (s : State) (l : Level) (m : Mode) :
    let ends := (s.level l).mode = .manual ∧ m ≠ .manual
    (s.changeMode l m).approvals = (if ends then s.approvals.filter fun p => p.level ≠ l else s.approvals) ∧
    (∀ k, (s.changeMode l m).claimState k = if ends ∧ l = k ∧ (s.pendingOf l).isSome then .idle else s.claimState k) ∧
    (∀ p, (s.changeMode l m).link p = if ends ∧ (s.pendingOf l).isSome ∧ (s.stopOf l).map Port.stop = some p
      then { s.link p with order := (s.link p).order ++ [.refuse (overtakenBy m)] } else s.link p) := by
  intro ends
  unfold changeMode
  by_cases hm : (s.level l).mode = m
  · have hn : ¬ ends := fun c => c.2 (hm.symm.trans c.1)
    rw [if_pos hm]; simp [hn]
  · rw [if_neg hm]
    generalize hu : (s.modLevel l fun x => { x with mode := m }).cutSettles l (s.level l).mode = u
    have h1 : u.approvals = s.approvals := by rw [← hu]; simp
    have h2 : u.claims = s.claims := by rw [← hu]; simp
    have h3 : u.links = s.links := by rw [← hu]; simp
    have h4 : u.settings = s.settings := by rw [← hu]; simp
    have hp : u.pendingOf l = s.pendingOf l := by unfold pendingOf; rw [h1]
    have hl : ∀ p, u.link p = s.link p := fun p => congrArg (nth · p.ix) h3
    have hc : ∀ k, u.claimState k = s.claimState k := fun k => congrArg (nth · k) h2
    have ho : u.stopOf l = s.stopOf l := by unfold stopOf; rw [h4]
    unfold overtake
    by_cases he : (s.level l).mode = .manual
    · have hy : ends := ⟨he, fun c => hm (he.trans c.symm)⟩
      rw [if_pos he]
      refine ⟨?_, fun k => ?_, fun p => ?_⟩
      · show (u.endClaim l _).approvals = _
        rw [approvals_endClaim, h1, if_pos hy]
      · show (u.endClaim l _).claimState k = _
        rw [claimState_endClaim, hp, hc]; simp [hy]
      · show (u.endClaim l _).link p = _
        rw [link_endClaim, hp, ho, hl]; simp [hy]
    · have hn : ¬ ends := fun c => he c.1
      rw [if_neg he]
      simp only [hn, false_and, if_false]
      exact ⟨h1, hc, hl⟩

/-- A level leaves MANUAL by its switch-off test (R36). -/
def manualOff (s : State) (l : Level) : Prop :=
  (s.level l).mode = .manual ∧ s.settings.params.streakLimit ≤ (s.level l).streak

theorem claims_testStreak (s : State) (l : Level) :
    ((s.testStreak l).approvals = s.approvals ∨ s.manualOff l ∧
      (s.testStreak l).approvals = s.approvals.filter fun p => p.level ≠ l) ∧
    (s.manualOff l → (s.testStreak l).approvals = s.approvals.filter fun p => p.level ≠ l) ∧
    (∀ k, (s.manualOff l ∧ l = k ∧ (s.pendingOf l).isSome → (s.testStreak l).claimState k = .idle) ∧
      (¬ (s.manualOff l ∧ l = k ∧ (s.pendingOf l).isSome) → (s.testStreak l).claimState k = s.claimState k)) ∧
    (∀ p, (s.manualOff l ∧ (s.pendingOf l).isSome ∧ (s.stopOf l).map Port.stop = some p → (s.testStreak l).link p =
        { s.link p with order := (s.link p).order ++ [.refuse (if s.levelTouched l then .levelDraining else .levelOff)] }) ∧
      (¬ (s.manualOff l ∧ (s.pendingOf l).isSome ∧ (s.stopOf l).map Port.stop = some p) →
        (s.testStreak l).link p = s.link p)) := by
  by_cases hs : s.switchesOff l
  · rw [(testStreak_eq s l).1 hs]
    obtain ⟨c1, c2, c3⟩ := claims_changeMode s l (if s.levelTouched l then .draining else .off)
    have hne : (if s.levelTouched l then Mode.draining else Mode.off) ≠ .manual := by split <;> decide
    have e : overtakenBy (if s.levelTouched l then Mode.draining else Mode.off) =
        if s.levelTouched l then .levelDraining else .levelOff := by split <;> rfl
    have hm : s.manualOff l ↔ (s.level l).mode = .manual := ⟨fun c => c.1, fun c => ⟨c, hs.2⟩⟩
    rw [e] at c3
    generalize s.changeMode l _ = t at c1 c2 c3
    generalize (if s.levelTouched l then Mode.draining else Mode.off) = m at hne c1 c2 c3
    have r1 : (t.raise (.level l .autoOff)).approvals = t.approvals := rfl
    have r2 : ∀ k, (t.raise (.level l .autoOff)).claimState k = t.claimState k := fun _ => rfl
    have r3 : ∀ p, (t.raise (.level l .autoOff)).link p = t.link p := fun _ => rfl
    have hne' : (m ≠ Mode.manual) = True := eq_true hne
    simp only [r1, r2, r3, c1, c2, c3, hm, hne', and_true]
    refine ⟨?_, fun h => by simp [h], fun k => ⟨fun h => if_pos h, fun h => ?_⟩, fun p => ⟨fun h => ?_, fun h => ?_⟩⟩
    · by_cases c : (s.level l).mode = .manual <;> simp [c]
    · rw [if_neg h]
    · rw [if_pos h]
    · rw [if_neg h]
  · have hm : ¬ s.manualOff l := fun c => hs ⟨.inr c.1, c.2⟩
    rw [(testStreak_eq s l).2 hs]
    refine ⟨.inl rfl, fun h => absurd h hm, fun k => ⟨fun h => absurd h.1 hm, fun _ => rfl⟩, fun p => ⟨fun h => absurd h.1 hm, fun _ => rfl⟩⟩

/-- What the switch-off tests after a failure make of the pending claims: those of the levels that leave MANUAL by them end,
with one REFUSE each (R36, R80). -/
theorem claims_testStreaks (ls : List Level) (hn : ls.Nodup) (s : State) :
    let off (l : Level) := l ∈ ls ∧ s.manualOff l
    (∀ p, p ∈ (s.testStreaks ls).approvals ↔ p ∈ s.approvals ∧ ¬ off p.level) ∧
    (s.testStreaks ls).approvals.Sublist s.approvals ∧
    (∀ k, (off k ∧ (s.pendingOf k).isSome → (s.testStreaks ls).claimState k = .idle) ∧
      (¬ (off k ∧ (s.pendingOf k).isSome) → (s.testStreaks ls).claimState k = s.claimState k)) ∧
    (∀ p, (∀ l, off l → (s.pendingOf l).isSome → (s.stopOf l).map Port.stop ≠ some p) →
      (s.testStreaks ls).link p = s.link p) ∧
    (∀ l n, off l → (s.pendingOf l).isSome → s.stopOf l = some n → (∀ k, k ≠ l → s.stopOf k ≠ some n) →
      (s.testStreaks ls).link (.stop n) = { s.link (.stop n) with
        order := (s.link (.stop n)).order ++ [.refuse (if s.levelTouched l then .levelDraining else .levelOff)] }) := by
  unfold testStreaks
  induction ls generalizing s with
  | nil => simp
  | cons a ls ih =>
    rw [List.nodup_cons] at hn
    obtain ⟨i1, i2, i3, i4, i5⟩ := ih hn.2 (s.testStreak a)
    obtain ⟨c1, c1', c2, c3⟩ := claims_testStreak s a
    have hs : (s.testStreak a).settings = s.settings := by simp
    have ho : ∀ l, (s.testStreak a).stopOf l = s.stopOf l := fun l => by unfold stopOf; rw [hs]
    have hlev : ∀ l, l ≠ a → (s.testStreak a).level l = s.level l := fun l h => by
      rw [level_testStreak, if_neg (fun c => h c.1.symm)]
    have hoff : ∀ l, l ∈ ls → ((s.testStreak a).manualOff l ↔ s.manualOff l) := fun l h => by
      unfold manualOff; rw [hlev l (fun c => hn.1 (c ▸ h)), hs]
    have hpend : ∀ l, l ≠ a → (s.testStreak a).pendingOf l = s.pendingOf l := fun l h => by
      rcases c1 with e | ⟨_, e⟩
      · unfold pendingOf; rw [e]
      · unfold pendingOf; rw [e, List.find?_filter]
        congr 1; funext p
        by_cases hp : p.level = l
        · simp [hp, h]
        · simp [hp]
    have ht : ∀ l, (s.testStreak a).levelTouched l = s.levelTouched l := fun l => levelTouched_testStreak s a l
    rw [List.foldl_cons]
    refine ⟨fun p => ?_, ?_, fun k => ⟨?_, ?_⟩, fun p h => ?_, fun l n h1 h2 h3 h4 => ?_⟩
    · rw [i1]
      constructor
      · rintro ⟨h1, h2⟩
        rcases c1 with e | ⟨ho', e⟩
        · refine ⟨e ▸ h1, ?_⟩
          rintro ⟨h3, h4⟩
          rcases List.mem_cons.mp h3 with h5 | h5
          · have := c1' (h5 ▸ h4)
            rw [this] at h1
            exact absurd h5 (by simpa using (List.mem_filter.mp h1).2)
          · exact h2 ⟨h5, (hoff _ h5).mpr h4⟩
        · rw [e] at h1
          obtain ⟨h6, h7⟩ := List.mem_filter.mp h1
          refine ⟨h6, ?_⟩
          rintro ⟨h3, h4⟩
          have h7' : p.level ≠ a := by simpa using h7
          have h5 := (List.mem_cons.mp h3).resolve_left h7'
          exact h2 ⟨h5, (hoff _ h5).mpr h4⟩
      · rintro ⟨h1, h2⟩
        refine ⟨?_, fun c => h2 ⟨List.mem_cons_of_mem _ c.1, (hoff _ c.1).mp c.2⟩⟩
        rcases c1 with e | ⟨ho', e⟩
        · rw [e]; exact h1
        · rw [e]; refine List.mem_filter.mpr ⟨h1, ?_⟩
          simp only [decide_not, Bool.not_eq_true', decide_eq_false_iff_not]
          intro c; exact h2 ⟨by rw [c]; exact List.mem_cons_self, by rw [c]; exact ho'⟩
    · refine i2.trans ?_
      rcases c1 with e | ⟨_, e⟩
      · rw [e]
      · rw [e]; exact List.filter_sublist
    · rintro ⟨⟨h1, h2⟩, h3⟩
      rcases List.mem_cons.mp h1 with h5 | h5
      · subst h5
        rw [(i3 k).2 (fun c => hn.1 c.1.1)]
        exact (c2 k).1 ⟨h2, rfl, h3⟩
      · have hk : k ≠ a := fun c => hn.1 (c ▸ h5)
        exact (i3 k).1 ⟨⟨h5, (hoff _ h5).mpr h2⟩, by rw [hpend k hk]; exact h3⟩
    · intro h
      by_cases hk : k = a
      · subst hk
        rw [(i3 k).2 (fun c => hn.1 c.1.1)]
        exact (c2 k).2 (fun c => h ⟨⟨List.mem_cons_self, c.1⟩, c.2.2⟩)
      · rw [(i3 k).2, (c2 k).2 (fun c => hk c.2.1.symm)]
        rintro ⟨⟨c5, c6⟩, c7⟩
        exact h ⟨⟨List.mem_cons_of_mem _ c5, (hoff _ c5).mp c6⟩, by rw [← hpend k hk]; exact c7⟩
    · rw [i4 p, (c3 p).2]
      · rintro ⟨a1, a2, a3⟩; exact h a ⟨List.mem_cons_self, a1⟩ a2 a3
      · rintro l ⟨a1, a2⟩ a3
        rw [ho]
        have hl : l ≠ a := fun c => hn.1 (c ▸ a1)
        rw [hpend l hl] at a3
        exact h l ⟨List.mem_cons_of_mem _ a1, (hoff _ a1).mp a2⟩ a3
    · by_cases hl : l = a
      · subst hl
        rw [i4]
        · exact (c3 _).1 ⟨h1.2, h2, by rw [h3]; rfl⟩
        · rintro k ⟨b1, _⟩ _
          rw [ho]
          have hk : k ≠ l := fun c => hn.1 (c ▸ b1)
          intro c
          cases hsk : s.stopOf k with
          | none => rw [hsk] at c; cases c
          | some m => rw [hsk] at c; cases c; exact h4 k hk hsk
      · have h5 := (List.mem_cons.mp h1.1).resolve_left hl
        rw [i5 l n ⟨h5, (hoff _ h5).mpr h1.2⟩ (by rw [hpend l hl]; exact h2) (by rw [ho]; exact h3)
          (fun k hk => by rw [ho]; exact h4 k hk), (c3 _).2, ht]
        rintro ⟨_, _, a3⟩
        cases hsk : s.stopOf a with
        | none => rw [hsk] at a3; cases a3
        | some m => rw [hsk] at a3; cases a3; exact h4 a (fun c => hl c.symm) hsk

/-! ### Lists that records leave and join, exactly -/

theorem records_enlist (s : State) (i : Fin 34) (totes : List Ident) : (s.enlist i totes).records =
    s.records.map fun p => if p.2.ident ∈ totes then (p.1, { p.2 with transfer := some (s.numberOf i) }) else p := by
  unfold enlist
  induction totes generalizing s with
  | nil => simp
  | cons a t ih =>
    rw [List.foldl_cons, ih]
    show ((s.records.map _).map _) = _
    rw [List.map_map]
    refine List.map_congr_left fun p _ => ?_
    have hn : (s.setTransfer a (some (s.numberOf i))).numberOf i = s.numberOf i := rfl
    rw [hn]
    by_cases h : p.2.ident = a
    · simp [h]
    · simp [h]

theorem stuck_setCarriage (s : State) (x y : Side) (c : List Ident) : ((s.setCarriage x c).lift y).stuck =
    if ((s.setCarriage x c).lift y).contents = (s.lift y).contents then (s.lift y).stuck else false := by
  rw [contents_setCarriage]
  unfold setCarriage
  rw [lift_modLift]
  by_cases h : x = y
  · subst h
    rw [if_pos rfl, if_pos rfl]
    by_cases hc : (s.lift x).contents = c
    · rw [if_pos hc, if_pos hc.symm]
    · rw [if_neg hc, if_neg (fun e => hc e.symm)]
  · rw [if_neg h, if_neg h, if_pos rfl]

/-- A queue after its contents are replaced: a new head begins its age (R113). -/
theorem queue_setQueue (s : State) (x : Side) (c : List Ident) :
    (c.head? = (s.queue x).contents.head? → (s.setQueue x c).queue x = { s.queue x with contents := c }) ∧
    (c.head? ≠ (s.queue x).contents.head? → (s.setQueue x c).queue x =
      { s.queue x with contents := c, age := if c = [] then none else some 0, aged := false }) := by
  unfold setQueue
  rw [queue_modQueue, if_pos rfl]
  constructor
  · intro h; rw [if_pos h.symm]
  · intro h; rw [if_neg (Ne.symm h)]
    cases c <;> rfl

theorem queue_setQueue_ne (s : State) {x y : Side} (c : List Ident) (h : x ≠ y) : (s.setQueue x c).queue y = s.queue y := by
  unfold setQueue; rw [queue_modQueue, if_neg h]

theorem stuck_leaveGiver (s : State) (g : Giver) (totes : List Ident) (y : Side) : ((s.leaveGiver g totes).lift y).stuck =
    if ((s.leaveGiver g totes).lift y).contents = (s.lift y).contents then (s.lift y).stuck else false := by
  cases g with
  | carriage x => exact stuck_setCarriage ..
  | lane x => exact (if_pos rfl).symm
  | entry x => exact (if_pos rfl).symm
  | rack l => exact (if_pos rfl).symm

theorem queues_leaveGiver (s : State) (g : Giver) (totes : List Ident) (y : Side) :
    (g ≠ .entry y → (s.leaveGiver g totes).queue y = s.queue y) ∧
    (g = .entry y → let c := (s.queue y).contents.filter fun x => x ∉ totes
      (c.head? = (s.queue y).contents.head? → (s.leaveGiver g totes).queue y = { s.queue y with contents := c }) ∧
      (c.head? ≠ (s.queue y).contents.head? → (s.leaveGiver g totes).queue y = { s.queue y with
        contents := c, age := if c = [] then none else some 0, aged := false })) := by
  constructor
  · intro h
    cases g with
    | entry x => exact queue_setQueue_ne s _ (fun e => h (e ▸ rfl))
    | lane x => rfl
    | carriage x => rfl
    | rack l => rfl
  · rintro rfl
    exact queue_setQueue ..

theorem idents_modRecord (s : State) (i : Ident) (f : Record → Record) (h : ∀ r, (f r).ident = r.ident) :
    (s.modRecord i f).records.map (fun p => (p.1, p.2.ident)) = s.records.map fun p => (p.1, p.2.ident) := by
  unfold modRecord
  rw [List.map_map]
  refine List.map_congr_left fun p _ => ?_
  show ((if p.2.ident = i then (p.1, f p.2) else p).1, (if p.2.ident = i then (p.1, f p.2) else p).2.ident) = _
  split <;> simp [h]

theorem idents_foldl_modRecord (f : Record → Record) (h : ∀ r, (f r).ident = r.ident) (totes : List Ident) (s : State) :
    (totes.foldl (fun s i => s.modRecord i f) s).records.map (fun p => (p.1, p.2.ident)) =
      s.records.map fun p => (p.1, p.2.ident) := by
  induction totes generalizing s with
  | nil => rfl
  | cons i t ih => rw [List.foldl_cons, ih, idents_modRecord s i f h]

theorem idents_unlist (s : State) (totes : List Ident) : (s.unlist totes).records.map (fun p => (p.1, p.2.ident)) =
    s.records.map fun p => (p.1, p.2.ident) := idents_foldl_modRecord (fun r => { r with transfer := none }) (fun _ => rfl) totes s

theorem idents_holdTotes (s : State) (o : Open) (why : FailReason) :
    (s.holdTotes o why).records.map (fun p => (p.1, p.2.ident)) = s.records.map fun p => (p.1, p.2.ident) := by
  unfold holdTotes
  generalize o.totes = totes
  induction totes generalizing s with
  | nil => rfl
  | cons i t ih =>
    rw [List.foldl_cons, ih]
    exact idents_modRecord s i (fun r => { r with
      place := .held { reason := .failed why, giver := o.giver, taker := o.taker }, transfer := none }) fun _ => rfl

theorem records_foldl_retire (totes : List Ident) (s : State) :
    (totes.foldl retire s).records = s.records.filter fun p => p.2.ident ∉ totes := by
  induction totes generalizing s with
  | nil => simp
  | cons i t ih =>
    rw [List.foldl_cons, ih]
    show (s.records.filter _).filter _ = _
    rw [List.filter_filter]
    refine List.filter_congr fun p _ => ?_
    simp [not_or, Bool.and_comm]

theorem idents_joinTaker (s : State) (t : Taker) (totes : List Ident) :
    (t ≠ .shuttle → (s.joinTaker t totes).records.map (fun p => (p.1, p.2.ident)) = s.records.map fun p => (p.1, p.2.ident)) ∧
    (t = .shuttle → (s.joinTaker t totes).records = s.records.filter fun p => p.2.ident ∉ totes) := by
  cases t with
  | lane l => exact ⟨fun _ => idents_foldl_modRecord (fun r => { r with place := .lane l }) (fun _ => rfl) totes _, fun h => nomatch h⟩
  | carriage x =>
    exact ⟨fun _ => idents_foldl_modRecord (fun r => { r with place := .carriage x }) (fun _ => rfl) totes _, fun h => nomatch h⟩
  | shuttle => exact ⟨fun h => absurd rfl h, fun _ => records_foldl_retire totes s⟩
  | exit => exact ⟨fun _ => rfl, fun h => nomatch h⟩

/-- A change of entry states leaves all else of every list. -/
theorem stateless_setEntryState (s : State) (ref : EntryRef) (e : EntryState) (l : Fin 16) :
    ((s.setEntryState ref e).list l).map ReleaseList.stateless = (s.list l).map ReleaseList.stateless := by
  unfold setEntryState
  rw [list_modEntry]
  split
  · cases s.list l with
    | none => rfl
    | some r =>
      simp only [Option.map_some, ReleaseList.stateless, Option.some.injEq]
      congr 1
      refine List.ext_getElem? fun n => ?_
      rw [List.getElem?_map, List.getElem?_map, List.getElem?_modify]
      split <;> cases r.entries[n]? <;> rfl
  · rfl

theorem stateless_loadEntry (s : State) (i : Ident) (l : Fin 16) :
    ((s.loadEntry i).list l).map ReleaseList.stateless = (s.list l).map ReleaseList.stateless := by
  unfold loadEntry
  split
  · exact stateless_setEntryState ..
  · rfl

theorem stateless_claimEntry (s : State) (i : Ident) (l : Fin 16) :
    ((s.claimEntry i).list l).map ReleaseList.stateless = (s.list l).map ReleaseList.stateless := by
  unfold claimEntry
  repeat' split
  all_goals first | exact stateless_setEntryState .. | rfl

theorem stateless_foldl {f : State → Ident → State}
    (h : ∀ s i l, ((f s i).list l).map ReleaseList.stateless = (s.list l).map ReleaseList.stateless) (totes : List Ident)
    (s : State) (l : Fin 16) : ((totes.foldl f s).list l).map ReleaseList.stateless = (s.list l).map ReleaseList.stateless := by
  induction totes generalizing s with
  | nil => rfl
  | cons i t ih => rw [List.foldl_cons, ih, h]

/-- An entry that no listed tote names keeps its state when the others are LOADED. -/
theorem entryState_foldl_loadEntry_ne (totes : List Ident) (s : State) (ref : EntryRef)
    (h : ∀ x r e, x ∈ totes → s.lookup x = some r → r.entry = some e → e.list ≠ ref.list ∨ e.rank - 1 ≠ ref.rank - 1) :
    (totes.foldl loadEntry s).entryState ref = s.entryState ref := by
  induction totes generalizing s with
  | nil => rfl
  | cons i t ih =>
    rw [List.foldl_cons, ih]
    · unfold loadEntry
      split
      · next e he =>
        obtain ⟨r, hr, hre⟩ := Option.bind_eq_some_iff.mp he
        exact entryState_set_ne _ _ _ _ (h i r e List.mem_cons_self hr hre)
      · rfl
    · intro x r e hx hr
      rw [lookup_loadEntry] at hr
      exact h x r e (List.mem_cons_of_mem _ hx) hr

theorem stuck_joinTaker (s : State) (t : Taker) (totes : List Ident) (y : Side) : ((s.joinTaker t totes).lift y).stuck =
    if ((s.joinTaker t totes).lift y).contents = (s.lift y).contents then (s.lift y).stuck else false := by
  cases t with
  | carriage x =>
    have : (s.joinTaker (.carriage x) totes).lift y = (s.setCarriage x ((s.lift x).contents ++ totes)).lift y :=
      congrArg (nth · y.ix) (foldl_lifts _ (by intros; rfl) _ _)
    rw [this]; exact stuck_setCarriage ..
  | lane x =>
    have : (s.joinTaker (.lane x) totes).lift y = s.lift y := congrArg (nth · y.ix) (foldl_lifts _ (by intros; rfl) _ _)
    rw [this, if_pos rfl]
  | shuttle =>
    have : (s.joinTaker .shuttle totes).lift y = s.lift y := congrArg (nth · y.ix) (foldl_lifts _ (by intros; rfl) _ _)
    rw [this, if_pos rfl]
  | exit => exact (if_pos rfl).symm

/-- The drain tests set MODE_CHANGE in the group of each level that they bring to OFF, and no other bit (R34). -/
theorem flags_testDrains (ls : List Level) (hn : ls.Nodup) (s : State) (g : Fin 41) :
    nth (ls.foldl testDrain s).flags g =
      if ∃ l, g = levelGroup l ∧ l ∈ ls ∧ (s.level l).mode = .draining ∧ s.levelTouched l = false
      then nth s.flags g ||| 0x08 else nth s.flags g := by
  induction ls generalizing s with
  | nil => simp
  | cons a ls ih =>
    rw [List.nodup_cons] at hn
    rw [List.foldl_cons, ih hn.2]
    have e : ∀ l, l ∈ ls → ((s.testDrain a).level l).mode = (s.level l).mode := fun l h => by
      have := level_foldl_testDrain [a] s l
      have hla : ¬ l = a := fun c => hn.1 (c ▸ h)
      rw [show (s.testDrain a).level l = (([a] : List Level).foldl testDrain s).level l from rfl, this]; simp [hla]
    have t : ∀ l, (s.testDrain a).levelTouched l = s.levelTouched l := fun l => touches_foldl_testDrain [a] s l
    have f : nth (s.testDrain a).flags g = if g = levelGroup a ∧ (s.level a).mode = .draining ∧ s.levelTouched a = false
        then nth s.flags g ||| 0x08 else nth s.flags g := by
      rw [testDrain_eq]
      by_cases h : (s.level a).mode = .draining ∧ s.levelTouched a = false
      · rw [if_pos h]
        by_cases hg : g = levelGroup a
        · subst hg; rw [if_pos ⟨rfl, h⟩]; exact nth_upd_self ..
        · rw [if_neg (fun c => hg c.1)]; exact nth_upd_ne _ _ _ _ (fun c => hg c.symm)
      · rw [if_neg h, if_neg (fun c => h c.2)]
    have inj : ∀ l m, levelGroup l = levelGroup m → l = m := fun l m h => by
      have := congrArg Fin.val h
      exact Fin.ext (by simpa [levelGroup] using this)
    rw [f]
    by_cases h1 : g = levelGroup a ∧ (s.level a).mode = .draining ∧ s.levelTouched a = false
    · have hno : ¬ ∃ l, g = levelGroup l ∧ l ∈ ls ∧ ((s.testDrain a).level l).mode = .draining ∧
          (s.testDrain a).levelTouched l = false := by
        rintro ⟨l, e1, e2, _⟩
        exact hn.1 (inj a l (h1.1.symm.trans e1) ▸ e2)
      have hyes : ∃ l, g = levelGroup l ∧ l ∈ a :: ls ∧ (s.level l).mode = .draining ∧ s.levelTouched l = false :=
        ⟨a, h1.1, List.mem_cons_self, h1.2⟩
      rw [if_pos h1, if_neg hno, if_pos hyes]
    · rw [if_neg h1]
      refine if_congr ?_ rfl rfl
      constructor
      · rintro ⟨l, e1, e2, e3, e4⟩
        exact ⟨l, e1, List.mem_cons_of_mem _ e2, (e l e2) ▸ e3, (t l) ▸ e4⟩
      · rintro ⟨l, e1, e2, e3, e4⟩
        have hla : l ≠ a := fun c => h1 (c ▸ ⟨e1, e3, e4⟩)
        have e5 := (List.mem_cons.mp e2).resolve_left hla
        exact ⟨l, e1, e5, (e l e5).trans e3, (t l).trans e4⟩

end Sys2Proof.Machine.State
end

