-- ==== Sys2Proof/Laws/Fences.lean ====
section
/-! SUPPORT. What recomputes a fence, and that a change of a link's status made known leaves every fence current. -/

open Sys2Proof Sys2Proof.Machine Sys2Proof.Machine.State

namespace Sys2Proof.Machine.State

/-! ### Fences (R38) -/

theorem fencesCurrent_iff (s : State) : s.fencesCurrent ↔ ∀ l, (s.level l).fenced = s.fenceOf l := by
  refine forall_congr' fun l => ?_
  have : s.fenceOf l = true ↔ ∃ n, s.stopOf l = some n ∧ (s.link (.stop n)).status = .lost ∧
      nth s.settings.fenceOnLoss l = true := by
    unfold fenceOf
    cases s.stopOf l with
    | none => simp
    | some n => simp
  rw [← this]
  exact Bool.eq_iff_iff.symm

/-- What a fence reads: the settings and the statuses of the stops' links. -/
theorem fenceOf_congr {s t : State} (hs : t.settings = s.settings)
    (hl : ∀ n, (t.link (.stop n)).status = (s.link (.stop n)).status) (l : Level) : t.fenceOf l = s.fenceOf l := by
  unfold fenceOf stopOf
  rw [hs]
  cases nth s.settings.levelMap l with
  | none => rfl
  | some n => dsimp only; rw [hl]

/-- An operation that writes no fence, no setting and no status of a stop's link keeps every fence current. -/
theorem fencesCurrent_congr {s t : State} (hf : ∀ l, (t.level l).fenced = (s.level l).fenced) (hs : t.settings = s.settings)
    (hl : ∀ n, (t.link (.stop n)).status = (s.link (.stop n)).status) (h : s.fencesCurrent) : t.fencesCurrent := by
  rw [fencesCurrent_iff] at *
  intro l
  rw [hf, fenceOf_congr hs hl, h]

theorem status_endClaim (s : State) (l : Level) (why : Code) (p : Port) :
    ((s.endClaim l why).link p).status = (s.link p).status := by
  rw [link_endClaim]; split <;> rfl

theorem status_recomputeFence (s : State) (l : Level) (p : Port) :
    ((s.recomputeFence l).link p).status = (s.link p).status := by
  unfold recomputeFence
  repeat' split
  · rfl
  · exact status_endClaim ..
  · rfl

/-- A level whose fence is recomputed is fenced as R38 says, and no other level changes. -/
theorem level_recomputeFence (s : State) (l k : Level) : (s.recomputeFence l).level k =
    { s.level k with fenced := if l = k then s.fenceOf k else (s.level k).fenced } := by
  have key : ∀ b : Bool, (s.modLevel l fun x => { x with fenced := b }).level k =
      { s.level k with fenced := if l = k then b else (s.level k).fenced } := fun b => by
    rw [level_modLevel]; split <;> rfl
  unfold recomputeFence
  by_cases h : s.fenceOf l = (s.level l).fenced
  · rw [if_pos h]
    by_cases hk : l = k
    · subst hk; rw [if_pos rfl, h]
    · rw [if_neg hk]
  · rw [if_neg h]
    cases hf : s.fenceOf l
    · rw [if_neg (by simp)]
      refine (key false).trans ?_
      by_cases hk : l = k
      · subst hk; simp [hf]
      · simp [hk]
    · rw [if_pos rfl]
      have e : ∀ u : State, (u.endClaim l .levelFenced).level k = u.level k := fun u => by simp [State.level]
      rw [e]
      refine (key true).trans ?_
      by_cases hk : l = k
      · subst hk; simp [hf]
      · simp [hk]

/-- After a recomputation every fence is current, if every other level's was. -/
theorem fencesCurrent_recomputeFence {s : State} (l : Level) (h : ∀ k, k ≠ l → (s.level k).fenced = s.fenceOf k) :
    (s.recomputeFence l).fencesCurrent := by
  rw [fencesCurrent_iff]
  intro k
  rw [level_recomputeFence, fenceOf_congr (s := s) (by simp) (fun n => status_recomputeFence s l (.stop n))]
  dsimp only
  split
  · rfl
  · next hk => exact h k (fun c => hk c.symm)

/-- With legal settings a change of one link's status, made known, leaves every fence current (R20, R38, R161). -/
theorem fencesCurrent_linkChanged {s : State} (p : Port) (x : LinkStatus) (hl : s.settings.legal) (h : s.fencesCurrent) :
    ((s.setLink p x).linkChanged p).fencesCurrent := by
  have hother : ∀ n, Port.stop n ≠ p → ((s.setLink p x).link (.stop n)).status = (s.link (.stop n)).status := fun n hn => by
    unfold setLink; rw [link_modLink, if_neg (fun c => hn c.symm)]
  have keep : (∀ l n, s.stopOf l = some n → Port.stop n ≠ p) → (s.setLink p x).fencesCurrent := fun hno => by
    rw [fencesCurrent_iff] at *
    intro l
    show (s.level l).fenced = _
    rw [h l]
    unfold fenceOf
    show _ = match s.stopOf l with | none => false | some n => ((s.setLink p x).link (.stop n)).status == LinkStatus.lost && nth s.settings.fenceOnLoss _
    cases hs : s.stopOf l with
    | none => rfl
    | some n => dsimp only; rw [hother n (hno l n hs)]
  unfold linkChanged
  split
  · next n =>
    split
    · next l hat =>
      have hmap : s.stopOf l = some n := by
        have := List.find?_some (p := fun l => s.stopOf l == some n) hat
        exact eq_of_beq this
      refine fencesCurrent_recomputeFence l fun k hk => ?_
      rw [fencesCurrent_iff] at h
      show (s.level k).fenced = _
      rw [h k]
      show s.fenceOf k = (s.setLink (.stop n) x).fenceOf k
      unfold fenceOf
      show _ = match s.stopOf k with
        | none => false
        | some m => ((s.setLink (.stop n) x).link (.stop m)).status == LinkStatus.lost && nth s.settings.fenceOnLoss _
      cases hs : s.stopOf k with
      | none => rfl
      | some m =>
        have hm : Port.stop m ≠ Port.stop n := fun c => by
          cases c
          exact hl.1 l k (Ne.symm hk) (by show (s.stopOf l).isSome; rw [hmap]; rfl) (hmap.trans hs.symm)
        dsimp only; rw [hother m hm]
    · next hat =>
      refine fencesCurrent_congr (s := s.setLink (.stop n) x) (fun _ => rfl) rfl (fun _ => rfl) (keep fun l m hs c => ?_)
      cases c
      have := List.find?_eq_none.mp hat l (List.mem_finRange l)
      exact this (by
        show (s.stopOf l == some n) = true
        rw [hs]; exact beq_self_eq_true _)
  · exact fencesCurrent_congr (s := s.setLink _ x) (fun _ => rfl) rfl (fun _ => rfl) (keep fun _ _ _ c => by cases c)
  · exact fencesCurrent_congr (s := s.setLink _ x) (fun _ => rfl) rfl (fun _ => rfl) (keep fun _ _ _ c => by cases c)

end Sys2Proof.Machine.State
end

