-- ==== Sys2Proof/Laws/Engaged.lean ====
section
/-! SUPPORT. The operations that keep the law that a party is at work exactly while its slot holds an open transfer, and how a property
passes from a command's effect to its outcome. -/

open Sys2Proof Sys2Proof.Machine Sys2Proof.Machine.State

namespace Sys2Proof.Machine

theorem nth_map {α β : Type} {n : Nat} (f : α → β) (v : Vector α n) (i : Fin n) : nth (v.map f) i = f (nth v i) := by
  simp [nth]

end Sys2Proof.Machine

namespace Sys2Proof.Machine.State

/-! ### A command's outcome from its effect -/

/-- A property that reads neither the buffer, the overrun flag, chip select nor the port's output, and that the close of an
event keeps, holds after a request if it holds of the request's own effect. -/
theorem request_inv {P : State → Prop}
    (hb : ∀ s o b v c, P s → P { s with portOut := o, buffer := b, overrun := v, chip := c })
    (hc : ∀ s, P s → P s.closeEvent)
    {f : State → Answer} {s t : State} (h : P s) (hf : ∀ u r, f s = .changed u r → P u) (e : request f s = .next t) : P t := by
  have e' : s.takeRequest f = t := by injection e
  subst e'
  by_cases hp : s.hearsPort
  · rw [takeRequest, onRelease_hears hp]
    split
    · exact hb s [s.firstByte] s.buffer true .idle h
    · unfold answered
      split
      · exact hb s _ _ s.overrun .idle h
      · next u r hu => exact hb u.closeEvent [s.firstByte] (some r) u.closeEvent.overrun .idle (hc _ (hf u r hu))
  · rw [takeRequest, onRelease_deaf hp]
    exact hb s s.portOut s.buffer s.overrun .idle h

/-- A property that reads neither the buffer, the overrun flag, chip select nor the port's output holds after a transaction
without a request. -/
theorem transaction_inv {P : State → Prop}
    (hb : ∀ s o b v c, P s → P { s with portOut := o, buffer := b, overrun := v, chip := c })
    {act : PortAct} {s t : State} (h : P s) (e : execCollect act s = .next t) : P t := by
  have e' : s.takeTransaction act = t := by injection e
  subst e'
  have end_ : ∀ f : State → State, P (f s) → P (s.onRelease f) := fun f hf => by
    by_cases hp : s.hearsPort
    · rw [onRelease_hears hp]; exact hf
    · rw [onRelease_deaf hp]; exact hb s s.portOut s.buffer s.overrun .idle h
  unfold takeTransaction
  split
  · rw [assertSelect_eq]; exact hb s s.portOut s.buffer s.overrun _ h
  · refine end_ _ ?_
    unfold collect
    dsimp only
    split
    · exact hb s _ none false .idle h
    · exact hb s _ s.buffer s.overrun .idle h
  · exact end_ _ (hb s _ s.buffer s.overrun .idle h)

/-- A property that the close of an event keeps holds after an event if it holds of the event's own effect. -/
theorem event_inv {P : State → Prop} (hc : ∀ s, P s → P s.closeEvent) {f : State → State} {s t : State} (h : P s)
    (hf : P (f s)) (e : event f s = .next t) : P t := by
  have e' : s.takeEvent f = t := by injection e
  subst e'
  unfold takeEvent
  split
  · exact h
  · exact hc _ hf

/-- A checked request that changes anything has passed all its checks. -/
theorem checked_changed {checks : List (Bool × Code)} {go : Answer} {u : State} {r : Response}
    (h : Answer.checked checks go = .changed u r) : go = .changed u r ∧ ∀ c ∈ checks, c.1 = false := by
  induction checks with
  | nil => exact ⟨h, fun _ c => by cases c⟩
  | cons c l ih =>
    obtain ⟨b, c⟩ := c
    rw [Answer.checked_cons] at h
    cases b
    · have := ih (by simpa using h)
      exact ⟨this.1, fun d hd => by rcases List.mem_cons.mp hd with e | e; (· rw [e]); (· exact this.2 d e)⟩
    · simp [Answer.refuse] at h

/-! ### The law that a party at work and an open transfer go together -/

/-- What the law says of one level: its shuttle's claim state, its slot and its pending claim. -/
def shuttleEngaged (s : State) (l : Level) : Prop :=
  (s.claimState l = .working ↔ (s.slot (shuttleSlot l)).opened.isSome) ∧
    (s.claimState l = .awaitingApproval ↔ (s.pendingOf l).isSome)

/-- What the law says of one lift. -/
def liftEngaged (s : State) (x : Side) : Prop := (s.lift x).status = .working ↔ (s.slot (liftSlot x)).opened.isSome

theorem engaged_iff (s : State) : s.engaged ↔
    (∀ l, s.shuttleEngaged l) ∧ (∀ x, s.liftEngaged x) ∧ (s.approvals.map (·.level)).Nodup := by
  unfold engaged partyEngaged shuttleEngaged liftEngaged
  constructor
  · rintro ⟨h1, h2, h3⟩
    refine ⟨fun l => ⟨?_, h2 l⟩, fun x => ?_, h3⟩
    · have := h1 (shuttleSlot l); rw [slotOwner_shuttle] at this; exact this
    · have := h1 (liftSlot x); rw [slotOwner_lift] at this; exact this
  · rintro ⟨h1, h2, h3⟩
    refine ⟨fun i => ?_, fun l => (h1 l).2, h3⟩
    cases h : slotOwner i with
    | inl l => rw [slotOwner_inl] at h; subst h; exact (h1 l).1
    | inr x => rw [slotOwner_inr] at h; subst h; exact h2 x

theorem pendingOf_congr {s t : State} (h : t.approvals = s.approvals) (l : Level) : t.pendingOf l = s.pendingOf l := by
  unfold pendingOf; rw [h]

/-- The law reads the transfer table, the claim states, the approval list and the lifts' states, and nothing else. -/
theorem engaged_congr {s t : State} (hs : t.slots = s.slots) (hc : t.claims = s.claims) (ha : t.approvals = s.approvals)
    (hl : ∀ x, (t.lift x).status = (s.lift x).status) (h : s.engaged) : t.engaged := by
  rw [engaged_iff] at *
  obtain ⟨h1, h2, h3⟩ := h
  refine ⟨fun l => ?_, fun x => ?_, by rw [ha]; exact h3⟩
  · have := h1 l
    unfold shuttleEngaged at *
    rw [pendingOf_congr ha]
    unfold State.claimState State.slot at *
    rw [hc, hs]; exact this
  · have := h2 x
    unfold liftEngaged at *
    rw [hl]
    unfold State.slot at *
    rw [hs]; exact this

theorem engaged_frame {s t : State} (hs : t.slots = s.slots) (hc : t.claims = s.claims) (ha : t.approvals = s.approvals)
    (hl : t.lifts = s.lifts) (h : s.engaged) : t.engaged :=
  engaged_congr hs hc ha (fun x => by unfold State.lift; rw [hl]) h

theorem pendingOf_filter (s : State) (l k : Level) (a : List PendingClaim) (h : a = s.approvals.filter fun p => p.level ≠ l) :
    (a.find? fun p => p.level == k) = if l = k then none else s.pendingOf k := by
  subst h
  unfold pendingOf
  generalize s.approvals = a
  induction a with
  | nil => simp
  | cons p a ih =>
    by_cases hp : p.level = l
    · rw [List.filter_cons_of_neg (by simpa using hp), ih]
      by_cases hk : l = k
      · rw [if_pos hk, if_pos hk]
      · rw [if_neg hk, if_neg hk, List.find?_cons, hp, show (l == k) = false from beq_false_of_ne hk]
    · rw [List.filter_cons_of_pos (by simpa using hp), List.find?_cons, List.find?_cons]
      by_cases hk : p.level = k
      · have : ¬ l = k := fun e => hp (hk.trans e.symm)
        rw [hk]; simp [this]
      · rw [show (p.level == k) = false from beq_false_of_ne hk]; exact ih

theorem engaged_endClaim {s : State} (l : Level) (why : Code) (h : s.engaged) : (s.endClaim l why).engaged := by
  unfold endClaim
  split
  · next hp =>
    refine engaged_frame (s := s.dropClaim l) (by simp) (by simp) (by simp) (by simp) ?_
    rw [engaged_iff] at *
    obtain ⟨h1, h2, h3⟩ := h
    refine ⟨fun k => ?_, h2, h3.sublist (List.filter_sublist.map _)⟩
    have hc : (s.dropClaim l).claimState k = if l = k then .idle else s.claimState k := claimState_setClaimState ..
    have hq : (s.dropClaim l).pendingOf k = if l = k then none else s.pendingOf k := pendingOf_filter s l k _ rfl
    have hk := h1 k
    unfold shuttleEngaged at *
    rw [hc, hq]
    show (_ ↔ (s.slot (shuttleSlot k)).opened.isSome) ∧ _
    by_cases e : l = k
    · subst e
      simp only [if_true]
      have hw := hk.2.mpr hp
      rw [hw] at hk
      simp at hk ⊢
      exact hk.1
    · simp only [if_neg e]; exact hk
  · exact h

theorem engaged_foldl {α : Type} (f : State → α → State) (hf : ∀ s a, s.engaged → (f s a).engaged) (l : List α)
    {s : State} (h : s.engaged) : (l.foldl f s).engaged := by
  induction l generalizing s with
  | nil => exact h
  | cons a l ih => exact ih (hf s a h)

theorem engaged_changeMode {s : State} (l : Level) (m : Mode) (h : s.engaged) : (s.changeMode l m).engaged := by
  unfold changeMode
  split
  · exact h
  · have h1 : ((s.modLevel l fun x => { x with mode := m }).cutSettles l (s.level l).mode).engaged :=
      engaged_frame (s := s) (by simp) (by simp) (by simp) (by simp) h
    refine engaged_frame (s := ((s.modLevel l fun x => { x with mode := m }).cutSettles l (s.level l).mode).overtake l
      (s.level l).mode m) (by simp) (by simp) (by simp) (by simp) ?_
    unfold overtake
    split
    · exact engaged_endClaim _ _ h1
    · exact h1

theorem engaged_raise {s : State} (f : Flag) (h : s.engaged) : (s.raise f).engaged :=
  engaged_frame (s := s) rfl rfl rfl rfl h

theorem engaged_testDrain {s : State} (l : Level) (h : s.engaged) : (s.testDrain l).engaged := by
  unfold testDrain
  split
  · exact engaged_raise _ (engaged_changeMode _ _ h)
  · exact h

theorem engaged_testStreak {s : State} (l : Level) (h : s.engaged) : (s.testStreak l).engaged := by
  by_cases hs : s.switchesOff l
  · rw [(testStreak_eq s l).1 hs]; exact engaged_raise _ (engaged_changeMode _ _ h)
  · rw [(testStreak_eq s l).2 hs]; exact h

theorem engaged_afterEnd {s : State} (ls : List Level) (h : s.engaged) : (s.afterEnd ls).engaged :=
  engaged_frame (s := ls.foldl testDrain s) rfl rfl rfl rfl (engaged_foldl _ (fun _ a => engaged_testDrain a) ls h)

/-- A party that is engaged in an open transfer is free with its slot. -/
theorem engaged_freed {s : State} (i : Fin 34) (e : LastEnd) (b : Bool) (h : s.engaged) (ho : (s.slot i).opened.isSome) :
    ((s.freeSlot i e).partyFree i b).engaged := by
  rw [engaged_iff] at *
  obtain ⟨h1, h2, h3⟩ := h
  have hslot : ∀ j, ((s.freeSlot i e).partyFree i b).slot j = if i = j then { s.slot j with lastEnd := e, opened := none }
      else s.slot j := by
    intro j
    have : ((s.freeSlot i e).partyFree i b).slot j = (s.freeSlot i e).slot j := by simp [State.slot]
    rw [this, slot_freeSlot]
  have hpend : ∀ k, ((s.freeSlot i e).partyFree i b).pendingOf k = s.pendingOf k := fun k => pendingOf_congr (by simp) k
  refine ⟨fun l => ?_, fun x => ?_, by simpa using h3⟩
  · have hk := h1 l
    unfold shuttleEngaged at *
    have hc : ((s.freeSlot i e).partyFree i b).claimState l = if slotOwner i = .inl l then .idle else s.claimState l :=
      claimState_partyFree ..
    rw [hc, hslot, hpend]
    by_cases hi : slotOwner i = .inl l
    · have hi' := slotOwner_inl.mp hi
      subst hi'
      have hw := hk.1.mpr ho
      rw [hw] at hk
      simp only [hi, if_true]
      simpa using hk.2
    · have : i ≠ shuttleSlot l := fun c => hi (slotOwner_inl.mpr c)
      simp only [if_neg hi, if_neg this]; exact hk
  · have hk := h2 x
    unfold liftEngaged at *
    rw [lift_partyFree, hslot]
    by_cases hi : slotOwner i = .inr x
    · have hi' := slotOwner_inr.mp hi
      subst hi'
      rw [if_pos rfl]
      simp only [hi]
      cases b <;> simp
    · have : i ≠ liftSlot x := fun c => hi (slotOwner_inr.mpr c)
      simp only [hi, if_neg this]
      exact hk


theorem status_leaveGiver (s : State) (g : Giver) (totes : List Ident) (x : Side) :
    ((s.leaveGiver g totes).lift x).status = (s.lift x).status := by rw [lift_leaveGiver]

theorem status_release (s : State) (t : Taker) (n : Nat) (x : Side) : ((s.release t n).lift x).status = (s.lift x).status := by
  rw [lift_release]

theorem status_reserve (s : State) (t : Taker) (totes : List Ident) (x : Side) :
    ((s.reserve t totes).lift x).status = (s.lift x).status := by rw [lift_reserve]; split <;> rfl

theorem status_joinTaker (s : State) (t : Taker) (totes : List Ident) (x : Side) :
    ((s.joinTaker t totes).lift x).status = (s.lift x).status := by rw [lift_joinTaker]

theorem status_setCarriage (s : State) (y : Side) (c : List Ident) (x : Side) :
    ((s.setCarriage y c).lift x).status = (s.lift x).status := by rw [lift_setCarriage]

theorem engaged_leaveGiver {s : State} (g : Giver) (totes : List Ident) (h : s.engaged) : (s.leaveGiver g totes).engaged :=
  engaged_congr (s := s) (by simp) (by simp) (by simp) (status_leaveGiver s g totes) h

theorem engaged_release {s : State} (t : Taker) (n : Nat) (h : s.engaged) : (s.release t n).engaged :=
  engaged_congr (s := s) (by simp) (by simp) (by simp) (status_release s t n) h

theorem engaged_joinTaker {s : State} (t : Taker) (totes : List Ident) (h : s.engaged) : (s.joinTaker t totes).engaged :=
  engaged_congr (s := s) (by simp) (by simp) (by simp) (status_joinTaker s t totes) h

theorem engaged_commit {s : State} (i : Fin 34) (o : Open) (h : s.engaged) (ho : (s.slot i).opened.isSome) :
    (s.commit i o).engaged := by
  unfold commit
  refine engaged_afterEnd _ (engaged_freed i _ _ ?_ (by simpa [State.slot] using ho))
  refine engaged_frame (s := ((((s.unlist o.totes).leaveGiver o.giver o.totes).release o.taker o.granted).loadTaken
    o).joinTaker o.taker o.totes) (by simp) (by simp) (by simp) (by simp) (engaged_joinTaker _ _ ?_)
  refine engaged_frame (s := ((s.unlist o.totes).leaveGiver o.giver o.totes).release o.taker o.granted) (by simp) (by simp)
    (by simp) (by simp) (engaged_release _ _ (engaged_leaveGiver _ _ ?_))
  exact engaged_frame (s := s) (by simp) (by simp) (by simp) (by simp) h

theorem engaged_abort {s : State} (i : Fin 34) (o : Open) (h : s.engaged) (ho : (s.slot i).opened.isSome) :
    (s.abort i o).engaged := by
  unfold abort
  refine engaged_afterEnd _ (engaged_freed i _ _ (engaged_release _ _ ?_) (by simpa [State.slot] using ho))
  exact engaged_frame (s := s) (by simp) (by simp) (by simp) (by simp) h

theorem engaged_fail {s : State} (i : Fin 34) (o : Open) (why : FailReason) (h : s.engaged) (ho : (s.slot i).opened.isSome) :
    (s.fail i o why).engaged := by
  unfold fail
  refine engaged_afterEnd _ (engaged_foldl _ (fun _ a => engaged_testStreak a) _ (engaged_freed i _ _ ?_
    (by simpa [State.slot] using ho)))
  refine engaged_frame (s := ((s.leaveGiver o.giver o.totes).holdTotes o why).release o.taker o.granted) (by simp) (by simp)
    (by simp) (by simp) (engaged_release _ _ ?_)
  exact engaged_frame (s := s.leaveGiver o.giver o.totes) (by simp) (by simp) (by simp) (by simp) (engaged_leaveGiver _ _ h)

theorem engaged_putOpen {s : State} (i : Fin 34) (o : Open) (h : s.engaged) (ho : (s.slot i).opened.isSome) :
    (s.putOpen i o).engaged := by
  rw [engaged_iff] at *
  obtain ⟨h1, h2, h3⟩ := h
  have e : ∀ j, ((s.putOpen i o).slot j).opened.isSome = (s.slot j).opened.isSome := by
    intro j
    have := slot_modSlot s i j fun x => { x with opened := some o }
    show ((s.modSlot i _).slot j).opened.isSome = _
    rw [this]
    split
    · next c => subst c; exact ho.symm
    · rfl
  refine ⟨fun l => ?_, fun x => ?_, h3⟩
  · unfold shuttleEngaged; rw [e]; exact h1 l
  · unfold liftEngaged; rw [e]; exact h2 x

theorem engaged_advance {s : State} (i : Fin 34) (o : Open) (h : s.engaged) (ho : (s.slot i).opened.isSome) :
    (s.advance i o).engaged := by
  have hp := engaged_putOpen i o h ho
  unfold advance
  split
  · refine engaged_commit i o hp ?_
    have : (s.putOpen i o).slot i = { s.slot i with opened := some o } := (slot_modSlot ..).trans (if_pos rfl)
    rw [this]; rfl
  · exact hp

theorem engaged_judgeLane {s : State} (i : Fin 34) (r : LaneReport) (h : s.engaged) : (s.judgeLane i r).engaged := by
  unfold judgeLane
  split
  · exact h
  · next o ho =>
    have hs : (s.slot i).opened.isSome := by rw [ho]; rfl
    split
    · exact h
    · split
      · split
        · exact h
        · exact engaged_advance _ _ h hs
        · exact engaged_fail _ _ _ h hs
      · split
        · exact engaged_advance _ _ h hs
        · exact h

theorem engaged_judgeCarriage {s : State} (i : Fin 34) (r : CarriageReport) (h : s.engaged) :
    (s.judgeCarriage i r).engaged := by
  unfold judgeCarriage
  split
  · next o c ho _ =>
    have hs : (s.slot i).opened.isSome := by rw [ho]; rfl
    split
    · exact h
    · split
      · exact h
      · exact engaged_advance _ _ h hs
      · exact engaged_fail _ _ _ h hs
  · exact h
  · exact h

theorem engaged_takeDone {s : State} (i : Fin 34) (h : s.engaged) : (s.takeDone i).engaged := by
  unfold takeDone
  split
  · exact h
  · next o ho =>
    split
    · exact h
    · have hs : (s.slot i).opened.isSome := by rw [ho]; rfl
      have h1 := engaged_advance i (s.confirmed o) h hs
      unfold judgeLatest judgeLatestLane judgeLatestCarriage
      have h2 : (match (laneNamed (s.confirmed o).giver (s.confirmed o).taker).bind fun l =>
            ((s.advance i (s.confirmed o)).lane l).report with
          | some r => (s.advance i (s.confirmed o)).judgeLane i r
          | none => s.advance i (s.confirmed o)).engaged := by
        split
        · exact engaged_judgeLane _ _ h1
        · exact h1
      split
      · exact engaged_judgeCarriage _ _ h2
      · exact h2

theorem engaged_takeAborted {s : State} (i : Fin 34) (h : s.engaged) : (s.takeAborted i).engaged := by
  unfold takeAborted
  split
  · exact h
  · next o ho =>
    have hs : (s.slot i).opened.isSome := by rw [ho]; rfl
    split
    · exact engaged_fail _ _ _ h hs
    · exact engaged_abort _ _ h hs

theorem engaged_strikeOff {s : State} (i : Fin 34) (t : Ident) (h : s.engaged) : (s.strikeOff i t).engaged := by
  unfold strikeOff
  split
  · exact h
  · next o ho => exact engaged_advance _ _ h (by rw [ho]; rfl)

theorem engaged_exitFault {s : State} (x : Side) (i read : Ident) (h : s.engaged) : (s.exitFault x i read).engaged := by
  unfold exitFault
  exact engaged_frame (s := s.leaveGiver (.carriage x) [i]) (by simp) (by simp) (by simp) (by simp) (engaged_leaveGiver _ _ h)

theorem engaged_exitMatch {s : State} (x : Side) (i : Ident) (h : s.engaged) : (s.exitMatch x i).engaged := by
  unfold exitMatch
  split
  · exact engaged_frame (s := s.leaveGiver (.carriage x) [i]) (by simp) (by simp) (by simp) (by simp) (engaged_leaveGiver _ _ h)
  · exact engaged_frame (s := s.leaveGiver (.carriage x) [i]) (by simp) (by simp) (by simp) (by simp) (engaged_leaveGiver _ _ h)


/-- A grant in a lift's slot puts that lift to work. -/
theorem engaged_openTransfer_lift {s : State} (g : Grant) (x : Side) (hg : g.slot = liftSlot x) (h : s.engaged) :
    (s.openTransfer g).engaged := by
  rw [engaged_iff] at *
  obtain ⟨h1, h2, h3⟩ := h
  have hp : (s.openTransfer g).approvals = s.approvals := by simp
  have hown : slotOwner g.slot = .inr x := slotOwner_inr.mpr hg
  refine ⟨fun l => ?_, fun y => ?_, by rw [hp]; exact h3⟩
  · have hk := h1 l
    unfold shuttleEngaged at *
    rw [claimState_openTransfer, pendingOf_congr hp, slot_openTransfer]
    have : g.slot ≠ shuttleSlot l := by rw [hg]; exact (shuttleSlot_ne_liftSlot l x).symm
    simp only [hown, if_neg this]
    simpa using hk
  · have hk := h2 y
    unfold liftEngaged at *
    rw [lift_openTransfer, slot_openTransfer]
    by_cases e : x = y
    · subst e
      simp [hg, slotOwner_lift]
    · have h4 : g.slot ≠ liftSlot y := by
        intro c
        have := slotOwner_inr.mpr c
        rw [hown] at this
        exact e (Sum.inr.inj this)
      have h5 : slotOwner g.slot ≠ .inr y := by rw [hown]; simpa using e
      simp only [if_neg h4, if_neg h5]
      rw [status_reserve]; exact hk

/-- A grant in a level's shuttle slot, whose claim has left the approval list, puts that shuttle to work. -/
theorem engaged_openTransfer_shuttle {s : State} (g : Grant) (l : Level) (hg : g.slot = shuttleSlot l) (h : s.engaged) :
    ((s.unpend l).openTransfer g).engaged := by
  rw [engaged_iff] at *
  obtain ⟨h1, h2, h3⟩ := h
  have hp : ((s.unpend l).openTransfer g).approvals = s.approvals.filter fun p => p.level ≠ l :=
    (by simp : ((s.unpend l).openTransfer g).approvals = (s.unpend l).approvals)
  have hq : ∀ k, ((s.unpend l).openTransfer g).pendingOf k = if l = k then none else s.pendingOf k := by
    intro k; exact pendingOf_filter s l k _ hp
  have hown : slotOwner g.slot = .inl l := slotOwner_inl.mpr hg
  refine ⟨fun k => ?_, fun y => ?_, by rw [hp]; exact h3.sublist (List.filter_sublist.map _)⟩
  · have hk := h1 k
    unfold shuttleEngaged at *
    rw [claimState_openTransfer, hq, slot_openTransfer]
    by_cases e : l = k
    · subst e; simp [hg, slotOwner_shuttle]
    · have h4 : g.slot ≠ shuttleSlot k := by
        intro c
        have := slotOwner_inl.mpr c
        rw [hown] at this
        exact e (Sum.inl.inj this)
      have h5 : slotOwner g.slot ≠ .inl k := by rw [hown]; simpa using e
      simp only [if_neg h4, if_neg h5, if_neg e]; exact hk
  · have hk := h2 y
    unfold liftEngaged at *
    rw [lift_openTransfer, slot_openTransfer]
    have h4 : g.slot ≠ liftSlot y := by rw [hg]; exact shuttleSlot_ne_liftSlot l y
    have h5 : slotOwner g.slot ≠ .inr y := by rw [hown]; simp
    simp only [if_neg h4, if_neg h5]
    rw [status_reserve]; exact hk

/-! ### The jobs that the arbiter grants -/

/-- A grant of the arbiter for a lift: its slot is the lift's, and no other carriage is named (R47). -/
def ofLift (x : Side) (g : Grant) : Prop :=
  g.slot = liftSlot x ∧ (∀ y, g.giver = .carriage y → y = x) ∧ (∀ y, g.taker = .carriage y → y = x)

theorem ofLift_dropJob (s : State) (x : Side) (l : LaneId) : ofLift x (s.dropJob x l) :=
  ⟨rfl, fun _ h => (Giver.carriage.inj h).symm, fun _ h => by cases h⟩

theorem ofLift_takeJob (x : Side) (l : LaneId) (totes : List Ident) : ofLift x (takeJob x l totes) :=
  ⟨rfl, fun _ h => (by cases h), fun _ h => (Taker.carriage.inj h).symm⟩

theorem ofLift_judgeDirected {s : State} {x : Side} {d : Directed} {g : Grant} (h : s.judgeDirected x d = .inr g) :
    ofLift x g := by
  cases d with
  | take l n =>
    unfold judgeDirected judgeDirectedTake at h
    dsimp only at h
    repeat' split at h
    all_goals first | (cases h; done) | (cases h; exact ofLift_takeJob ..)
  | drop l =>
    unfold judgeDirected judgeDirectedDrop at h
    dsimp only at h
    repeat' split at h
    all_goals first | (cases h; done) | (cases h; exact ofLift_dropJob ..)

theorem ofLift_findDrop {s : State} {x : Side} {i : Ident} {g : Grant} (h : s.findDrop x i = some g) : ofLift x g := by
  unfold findDrop at h
  dsimp only at h
  repeat' split at h
  all_goals first | (cases h; done) | (cases h; exact ofLift_dropJob ..)

theorem ofLift_findUnload {s : State} {x : Side} {i : Ident} {l : List Ident} {g : Grant}
    (h : s.findUnload x i l = some g) : ofLift x g := by
  unfold findUnload at h
  repeat' split at h
  all_goals first | (cases h; done) | (cases h; exact ⟨rfl, fun _ h => (Giver.carriage.inj h).symm, fun _ h => by cases h⟩)

theorem ofLift_findLoad {s : State} {x : Side} {g : Grant} (h : s.findLoad x = some g) : ofLift x g := by
  unfold findLoad at h
  split at h
  · cases h
  · cases h; exact ⟨rfl, fun _ h => (by cases h), fun _ h => (Taker.carriage.inj h).symm⟩

theorem ofLift_findTake {s : State} {x : Side} {g : Grant} (h : s.findTake x = some g) : ofLift x g := by
  obtain ⟨l, _, rfl⟩ := Option.map_eq_some_iff.mp h
  exact ofLift_takeJob ..

theorem ofLift_walk {s : State} {x : Side} {g : Grant} (h : s.walk x = .job g) : ofLift x g := by
  have key : ∀ {o : Option Grant} {f : Found}, Found.ofOption o f = .job g → f ≠ .job g → o = some g := by
    intro o f h hf
    cases o with
    | none => exact absurd h hf
    | some a => cases h; rfl
  unfold walk at h
  split at h
  · have h1 := key h (by simp)
    unfold findEmpty at h1
    split at h1
    · exact ofLift_findLoad h1
    · split at h1
      · next e => cases h1; exact ofLift_findTake e
      · exact ofLift_findLoad h1
  · split at h
    · exact ofLift_findDrop (key h (by simp))
    · exact ofLift_findUnload (key h (by simp))

/-- What a selection leaves of a lift that it grants no job: all but the directed job, its refusal and the stuck mark. -/
def selectionKeeps (f : Lift → Lift) : Prop := ∀ y, (f y).status = y.status ∧ (f y).contents = y.contents ∧
  (f y).report = y.report ∧ (f y).reserved = y.reserved ∧ (f y).disputed = y.disputed

/-- What a selection does: the directed job leaves its slot, with what it was discarded for or not, the stuck mark may be
set, and a job is granted or none is. -/
theorem select_cases (s : State) (x : Side) :
    (∃ u : State, ∃ f : Lift → Lift, selectionKeeps f ∧ u = { s with lifts := upd s.lifts x.ix f, flags := u.flags } ∧
      ((s.select x = (u, false)) ∨ ∃ g, ofLift x g ∧ s.select x = (u.grantJob x g, true))) := by
  have walked : ∀ t : State, (∃ f : Lift → Lift, selectionKeeps f ∧ t = { s with lifts := upd s.lifts x.ix f, flags := t.flags }) →
      (∃ u : State, ∃ f : Lift → Lift, selectionKeeps f ∧ u = { s with lifts := upd s.lifts x.ix f, flags := u.flags } ∧
      ((t.selectOn x = (u, false)) ∨ ∃ g, ofLift x g ∧ t.selectOn x = (u.grantJob x g, true))) := by
    rintro t ⟨f, hf, ht⟩
    unfold selectOn
    split
    · next g hg => exact ⟨t, f, hf, ht, .inr ⟨g, ofLift_walk hg, rfl⟩⟩
    · unfold markStuck
      split
      · exact ⟨t, f, hf, ht, .inl rfl⟩
      · refine ⟨_, fun y => { f y with stuck := true }, fun y => hf y, ?_, .inl rfl⟩
        rw [ht]
        unfold modLift State.raise
        have : upd (upd s.lifts x.ix f) x.ix (fun x => { x with stuck := true }) =
            upd s.lifts x.ix (fun y => { f y with stuck := true }) := by
          refine ext_nth fun i => ?_
          rw [nth_upd, nth_upd, nth_upd]; split <;> rfl
        simp only [this]
    · exact ⟨t, f, hf, ht, .inl rfl⟩
  have hid : s = { s with lifts := upd s.lifts x.ix id, flags := s.flags } := by
    have : upd s.lifts x.ix id = s.lifts := ext_nth fun i => by rw [nth_upd]; split <;> rfl
    rw [this]
  unfold select
  split
  · exact walked s ⟨id, fun _ => ⟨rfl, rfl, rfl, rfl, rfl⟩, hid⟩
  · next d _ =>
    split
    · next g hg =>
      exact ⟨_, fun y => { y with directed := none }, fun _ => ⟨rfl, rfl, rfl, rfl, rfl⟩, rfl, .inr ⟨g, ofLift_judgeDirected hg, rfl⟩⟩
    · next why _ =>
      exact walked _ ⟨fun y => { y with directed := none, refusal := some why }, fun _ => ⟨rfl, rfl, rfl, rfl, rfl⟩, rfl⟩

theorem engaged_grantJob {s : State} {x : Side} {g : Grant} (hg : ofLift x g) (h : s.engaged) : (s.grantJob x g).engaged := by
  unfold grantJob
  exact engaged_frame (s := s.openTransfer g) (by simp) (by simp) (by simp) (by simp) (engaged_openTransfer_lift g x hg.1 h)

theorem engaged_select {s : State} (x : Side) (h : s.engaged) : (s.select x).1.engaged := by
  obtain ⟨u, f, hf, hu, hsel⟩ := select_cases s x
  have h1 : u.engaged := by
    refine engaged_congr (s := s) (by rw [hu]) (by rw [hu]) (by rw [hu]) (fun y => ?_) h
    have : u.lift y = nth (upd s.lifts x.ix f) y.ix := by rw [hu]; rfl
    rw [this, nth_upd]
    split
    · exact (hf _).1
    · rfl
  rcases hsel with e | ⟨g, hg, e⟩
  · rw [e]; exact h1
  · rw [e]; exact engaged_grantJob hg h1

theorem engaged_drainCause (n : Nat) {s : State} (h : s.engaged) : (s.drainCause n).engaged := by
  have hr : ∀ {t : State} (x : Side), t.engaged → (t.reevaluateLift x).engaged := by
    intro t x ht
    unfold reevaluateLift
    split
    · exact engaged_select x ht
    · exact ht
  induction n generalizing s with
  | zero => exact engaged_frame (s := s) rfl rfl rfl rfl h
  | succ n ih =>
    unfold drainCause
    split
    · refine ih (hr _ (hr _ ?_))
      exact engaged_frame (s := s) rfl rfl rfl rfl h
    · exact engaged_frame (s := s) rfl rfl rfl rfl h

theorem engaged_closeEvent {s : State} (h : s.engaged) : s.closeEvent.engaged := by
  unfold closeEvent
  exact engaged_frame (s := s.drainCause 4) rfl rfl rfl rfl (engaged_drainCause 4 h)

/-- A lift that is not WORKING may take any state but WORKING. -/
theorem engaged_setStatus {s t : State} (x : Side) (hs : t.slots = s.slots) (hc : t.claims = s.claims)
    (ha : t.approvals = s.approvals) (hx : (s.lift x).status ≠ .working) (hx' : (t.lift x).status ≠ .working)
    (hl : ∀ y, y ≠ x → (t.lift y).status = (s.lift y).status) (h : s.engaged) : t.engaged := by
  rw [engaged_iff] at *
  obtain ⟨h1, h2, h3⟩ := h
  refine ⟨fun l => ?_, fun y => ?_, by rw [ha]; exact h3⟩
  · have := h1 l
    unfold shuttleEngaged at *
    rw [pendingOf_congr ha]
    unfold State.claimState State.slot at *
    rw [hc, hs]; exact this
  · have := h2 y
    unfold liftEngaged at *
    have e : t.slot (liftSlot y) = s.slot (liftSlot y) := by unfold State.slot; rw [hs]
    rw [e]
    by_cases c : y = x
    · subst c
      simp only [hx, false_iff] at this
      simpa [hx'] using this
    · rw [hl y c]; exact this

theorem engaged_modLift {s : State} (x : Side) (f : Lift → Lift) (hf : ∀ y, (f y).status = y.status) (h : s.engaged) :
    (s.modLift x f).engaged :=
  engaged_congr (s := s) rfl rfl rfl (fun y => by rw [lift_modLift]; split <;> simp [hf]) h

theorem engaged_setLift {s : State} (x : Side) (a : LiftStatus) (hx : (s.lift x).status ≠ .working) (ha : a ≠ .working)
    (h : s.engaged) : (s.setLift x a).engaged := by
  refine engaged_setStatus (s := s) x rfl rfl rfl hx ?_ (fun y hy => ?_) h
  · show ((s.modLift x _).lift x).status ≠ _; rw [lift_modLift, if_pos rfl]; exact ha
  · show ((s.modLift x _).lift y).status = _; rw [lift_modLift, if_neg (Ne.symm hy)]

theorem engaged_send {s : State} (p : Port) (f : OutFrame) (h : s.engaged) : (s.send p f).engaged :=
  engaged_frame (s := s) rfl rfl rfl rfl h

theorem engaged_sendLevel {s : State} (l : Level) (f : OutFrame) (h : s.engaged) : (s.sendLevel l f).engaged :=
  engaged_frame (s := s) (by simp) (by simp) (by simp) (by simp) h

theorem engaged_dropParked {s : State} (x : Side) (a : LiftStatus) (c : Code) (hx : (s.lift x).status ≠ .working)
    (ha : a ≠ .working) (h : s.engaged) : (s.dropParked x a c).engaged := by
  unfold dropParked
  split
  · exact engaged_send _ _ (engaged_setLift x a hx ha h)
  · exact engaged_setLift x a hx ha h

theorem engaged_recomputeFence {s : State} (l : Level) (h : s.engaged) : (s.recomputeFence l).engaged := by
  unfold recomputeFence
  split
  · exact h
  · split
    · exact engaged_endClaim _ _ (engaged_frame (s := s) rfl rfl rfl rfl h)
    · exact engaged_frame (s := s) rfl rfl rfl rfl h

theorem engaged_linkChanged {s : State} (p : Port) (h : s.engaged) : (s.linkChanged p).engaged := by
  unfold linkChanged
  split
  · split
    · exact engaged_recomputeFence _ (engaged_raise _ h)
    · exact engaged_raise _ h
  · exact engaged_raise _ h
  · exact engaged_raise _ h

theorem engaged_setLink {s : State} (p : Port) (x : LinkStatus) (h : s.engaged) : (s.setLink p x).engaged :=
  engaged_frame (s := s) rfl rfl rfl rfl h

theorem engaged_hear {s : State} (p : Port) (b : List Byte) (h : s.engaged) : (s.hear p b).engaged :=
  engaged_frame (s := s) rfl rfl rfl rfl h

theorem engaged_bringUp {s : State} (p : Port) (h : s.engaged) : (s.bringUp p).engaged := by
  unfold bringUp
  split
  · exact engaged_setLink _ _ h
  · exact engaged_send _ _ (engaged_linkChanged _ (engaged_setLink _ _ h))
  · exact engaged_linkChanged _ (engaged_setLink _ _ h)

theorem engaged_takeValid {s : State} (p : Port) (h : s.engaged) : (s.takeValid p).engaged :=
  engaged_bringUp p (engaged_hear p [] h)

theorem engaged_loseLink {s : State} (p : Port) (h : s.engaged) : (s.loseLink p).engaged := by
  unfold loseLink
  split
  · have h1 := engaged_linkChanged p (engaged_setLink p .lost h)
    unfold unpark
    split
    · split
      · next hp => exact engaged_setLift _ _ (by rw [hp]; decide) (by decide) h1
      · exact h1
    · exact h1
    · exact h1
  · exact h
  · exact h

theorem engaged_pend {s : State} (p : PendingClaim) (hi : s.claimState p.level = .idle) (h : s.engaged) :
    ((s.setClaimState p.level .awaitingApproval).pend p).engaged := by
  rw [engaged_iff] at *
  obtain ⟨h1, h2, h3⟩ := h
  have hn : s.pendingOf p.level = none := by
    have := (h1 p.level).2; rw [hi] at this; simpa using this
  have hnone : ∀ q ∈ s.approvals, q.level ≠ p.level := by
    intro q hq e
    have := List.find?_eq_none.mp hn q hq
    simp [e] at this
  refine ⟨fun k => ?_, h2, ?_⟩
  · have hk := h1 k
    unfold shuttleEngaged at *
    have hc : ((s.setClaimState p.level .awaitingApproval).pend p).claimState k =
        if p.level = k then .awaitingApproval else s.claimState k := claimState_setClaimState ..
    have hq : (((s.setClaimState p.level .awaitingApproval).pend p).pendingOf k).isSome =
        if p.level = k then true else (s.pendingOf k).isSome := by
      unfold pendingOf pend
      show ((s.approvals ++ [p]).find? _).isSome = _
      rw [List.find?_append]
      by_cases e : p.level = k
      · simp [e]
      · simp [show (p.level == k) = false from beq_false_of_ne e, e]
    rw [hc, hq]
    show (_ ↔ (s.slot (shuttleSlot k)).opened.isSome) ∧ _
    by_cases e : p.level = k
    · rw [← e] at hk ⊢
      rw [hi] at hk
      simp at hk ⊢
      exact hk.1
    · simp only [if_neg e]; exact hk
  · show ((s.approvals ++ [p]).map (·.level)).Nodup
    rw [List.map_append, List.nodup_append]
    refine ⟨h3, by simp, ?_⟩
    intro a ha b hb
    simp at hb
    obtain ⟨q, hq, rfl⟩ := List.mem_map.mp ha
    rw [hb]; exact hnone q hq

theorem engaged_placeClaim {s : State} (l : Level) (c : Claim) (hi : s.claimState l = .idle) (h : s.engaged) :
    (s.placeClaim l c).engaged := by
  unfold placeClaim
  exact engaged_raise _ (engaged_sendLevel _ _
    (engaged_pend { level := l, claim := c, timer := 10 * s.settings.params.approvalLimit } hi h))

theorem judgeClaim_slot {s : State} {l : Level} {c : Claim} {g : Grant} (h : s.judgeClaim l c = .inr g) :
    g.slot = shuttleSlot l ∧ (∀ x, g.taker ≠ .carriage x) := by
  unfold judgeClaim at h
  split at h
  · cases h
  · split at h
    · unfold judgePut at h
      repeat' split at h
      all_goals first | (cases h; done) | (cases h; exact ⟨rfl, fun x c => by cases c⟩)
    · unfold judgeTake at h
      dsimp only at h
      repeat' split at h
      all_goals first | (cases h; done) | (cases h; exact ⟨rfl, fun x c => by cases c⟩)

theorem engaged_grantClaim {s : State} {l : Level} {c : Claim} {g : Grant} (hg : s.judgeClaim l c = .inr g) (h : s.engaged) :
    (s.grantClaim l g).engaged := by
  unfold grantClaim sendGrant
  have h1 := engaged_openTransfer_shuttle g l (judgeClaim_slot hg).1 h
  split
  · exact engaged_sendLevel _ _ h1
  · exact h1
  · exact h1

theorem engaged_claimFrom {s : State} (n : Stop) (c : Claim) (h : s.engaged) : (s.claimFrom n c).engaged := by
  unfold claimFrom
  split
  · next l _ =>
    unfold receiveClaim
    split
    · exact engaged_sendLevel _ _ h
    · next hi =>
      split
      · exact engaged_sendLevel _ _ h
      · split
        · exact engaged_sendLevel _ _ h
        · next g hg =>
          split
          · exact engaged_placeClaim l c (not_not.mp hi) h
          · exact engaged_grantClaim hg h
  · exact engaged_send _ _ h

theorem engaged_disagree {s : State} (x : Side) (before : Bool) (hw : (s.lift x).status ≠ .working) (h : s.engaged) :
    (s.disagree x before).engaged := by
  unfold disagree
  split
  · exact engaged_raise _ (engaged_dropParked _ _ _ hw (by decide) h)
  · exact engaged_raise _ (engaged_dropParked _ _ _ hw (by decide) h)
  · split
    · exact h
    · exact engaged_raise _ h
  · exact h
  · exact h

theorem engaged_takeCarriageReport {s : State} (x : Side) (r : CarriageReport) (h : s.engaged) :
    (s.takeCarriageReport x r).engaged := by
  have h1 := engaged_modLift x (fun y => { y with report := some r, disputed := s.disputes x r }) (fun _ => rfl) h
  unfold takeCarriageReport judgeOrCompare
  split
  · exact engaged_judgeCarriage _ _ h1
  · next hw =>
    split
    · exact engaged_disagree x _ hw h1
    · exact h1

theorem status_select_false (s : State) (x y : Side) (h : (s.select x).2 = false) :
    (((s.select x).1).lift y).status = (s.lift y).status := by
  obtain ⟨u, f, hf, hu, hsel⟩ := select_cases s x
  rcases hsel with e | ⟨g, hg, e⟩
  · rw [e]
    have : u.lift y = nth (upd s.lifts x.ix f) y.ix := by rw [hu]; rfl
    show (u.lift y).status = _
    rw [this, nth_upd]
    split
    · exact (hf _).1
    · rfl
  · rw [e] at h; cases h

theorem engaged_park {s : State} (x : Side) (hx : (s.lift x).status ≠ .working) (h : s.engaged) : (s.park x).engaged := by
  unfold park
  exact engaged_send _ _ (engaged_setLift x .parked hx (by decide) h)

theorem engaged_takeJobRequest {s : State} (x : Side) (h : s.engaged) : (s.takeJobRequest x).engaged := by
  have key : (s.lift x).status ≠ .working → (s.selectOrPark x).engaged := by
    intro hx
    unfold selectOrPark
    split
    · exact engaged_park x hx h
    · split
      · exact engaged_select x h
      · next hs =>
        refine engaged_park x ?_ (engaged_select x h)
        rw [status_select_false s x x (by simpa using hs)]; exact hx
  unfold takeJobRequest
  split
  · exact engaged_send _ _ h
  · exact engaged_send _ _ h
  · exact engaged_send _ _ h
  · next hs => exact key (by rw [hs]; decide)
  · next hs => exact key (by rw [hs]; decide)

theorem engaged_takeExitRead {s : State} (x : Side) (i : Ident) (h : s.engaged) : (s.takeExitRead x i).engaged := by
  unfold takeExitRead
  repeat' split
  all_goals first
    | exact engaged_frame (s := s) rfl rfl rfl rfl h
    | exact engaged_strikeOff _ _ (engaged_exitMatch _ _ h)
    | exact engaged_strikeOff _ _ (engaged_exitFault _ _ _ h)

/-! ### The law through the resets, the aisle stop and the settings -/

theorem engaged_initial {t : State} (hc : t.claims = Vector.replicate 32 .idle) (ha : t.approvals = [])
    (hl : t.lifts = Vector.replicate 2 Lift.initial) (hs : ∀ i, (t.slot i).opened = none) : t.engaged := by
  rw [engaged_iff]
  refine ⟨fun l => ?_, fun x => ?_, ?_⟩
  · unfold shuttleEngaged pendingOf claimState; rw [hs, hc, ha]; simp
  · unfold liftEngaged State.lift; rw [hs, hl]; simp [Lift.initial]
  · rw [ha]; simp

theorem engaged_timers {s : State} {t : State} (hc : t.claims = s.claims) (ha : t.approvals = s.approvals) (hl : t.lifts = s.lifts)
    (hs : ∀ i, (t.slot i).opened.isSome = (s.slot i).opened.isSome)  (h : s.engaged) : t.engaged := by
  rw [engaged_iff] at *
  obtain ⟨h1, h2, h3⟩ := h
  refine ⟨fun l => ?_, fun x => ?_, by rw [ha]; exact h3⟩
  · have := h1 l
    unfold shuttleEngaged at *
    rw [pendingOf_congr ha, hs]
    unfold State.claimState at *
    rw [hc]; exact this
  · have := h2 x
    unfold liftEngaged at *
    rw [hs]; unfold State.lift at *; rw [hl]; exact this

theorem engaged_writeParam {s : State} (n : Fin 11) (v : Nat) (h : s.engaged) : (s.writeParam n v).engaged := by
  unfold writeParam; split
  · exact engaged_frame (s := s) (by simp; rfl) (by simp; rfl) (by simp; rfl) (by simp; rfl) h
  · exact engaged_frame (s := s) rfl rfl rfl rfl h

theorem engaged_askMode {s : State} (l : Level) (m : Mode) (h : s.engaged) : (s.askMode l m).engaged := by
  unfold askMode
  repeat' split
  all_goals first | exact h | exact engaged_changeMode _ _ h

theorem engaged_reportFrom {s : State} (n : Stop) (x : LaneName) (r : LaneReport) (h : s.engaged) : (s.reportFrom n x r).engaged := by
  unfold reportFrom
  split
  · next l _ =>
    unfold takeLaneReport judgeReport
    have h1 : ∀ k, (s.modLane k fun x => { x with report := some r }).engaged := fun k => engaged_frame (s := s) rfl rfl rfl rfl h
    split
    · exact engaged_judgeLane _ _ (h1 _)
    · exact engaged_frame (s := s.modLane { level := l, name := x } fun x => { x with report := some r }) (by simp) (by simp) (by simp) (by simp) (h1 _)
  · exact h

end Sys2Proof.Machine.State
end

