-- ==== Sys2Proof/Laws/Close.lean ====
section
/-! SUPPORT. What the close of an event makes of the pointers, and all that its re-evaluations may change. -/

open Sys2Proof Sys2Proof.Machine Sys2Proof.Machine.State

namespace Sys2Proof.Machine.State

/-- After a refresh both pointers of every station stand at their values. -/
theorem stationNow_refresh (s : State) (n : StationNo) : s.refreshPointers.stationNow n = s.refreshPointers.station n := by
  show s.refreshPointers.stationNow n = nth (tab 4 s.stationNow) n
  rw [nth_tab]
  have hst : ∀ m, s.refreshPointers.station m = s.stationNow m := fun m => by show nth (tab 4 s.stationNow) m = _; rw [nth_tab]
  have hf : ∀ w q, s.refreshPointers.firstEntry w q = s.firstEntry w q := by
    intro w q; induction q with
    | nil => rfl
    | cons l q ih => unfold firstEntry; rw [ih]; rfl
  have h1 : s.refreshPointers.nextExitOf n = s.nextExitOf n := by
    unfold nextExitOf; rw [hf, hst]; rfl
  have h2 : s.refreshPointers.nextLoadOf n = s.nextLoadOf n := by
    have : s.refreshPointers.withheld n = s.withheld n := by
      unfold withheld hasLooseClaim; rw [hst]; rfl
    unfold nextLoadOf; rw [this, hf, hst]; rfl
  unfold stationNow
  rw [h1, h2, hst]; rfl

/-- The values of the pointers are read from the stations, the lists and the records, and from nothing else. -/
theorem stationNow_congr {s t : State} (h1 : t.stations = s.stations) (h2 : t.lists = s.lists) (h3 : t.records = s.records) (n : StationNo) :
    t.stationNow n = s.stationNow n := by
  have hf : ∀ w q, t.firstEntry w q = s.firstEntry w q := by
    intro w q; induction q with
    | nil => rfl
    | cons l q ih => unfold firstEntry; rw [ih]; unfold State.list; rw [h2]
  unfold stationNow nextLoadOf nextExitOf withheld hasLooseClaim at *
  simp only [hf, State.station, State.list, State.lookup, h1, h2, h3] at *
  congr

/-- Both pointers of every station stand at their values and no cause of re-evaluation is outstanding. -/
def pointersStand (s : State) : Prop := (∀ n, s.station n = s.stationNow n) ∧ s.cause = false

theorem pointersStand_congr {s t : State} (h1 : t.stations = s.stations) (h2 : t.lists = s.lists) (h3 : t.records = s.records)
   (h7 : t.cause = s.cause) (h : s.pointersStand) : t.pointersStand :=
  ⟨fun n => by rw [stationNow_congr h1 h2 h3, ← h.1]; unfold State.station; rw [h1], by rw [h7, h.2]⟩

theorem pointersStand_drainCause (n : Nat) (s : State) : (s.drainCause n).pointersStand := by
  induction n generalizing s with
  | zero => exact ⟨fun n => by
             show nth s.refreshPointers.stations n = _
             refine (stationNow_refresh s n).symm.trans (stationNow_congr ?_ ?_ ?_ n) <;> rfl, rfl⟩
  | succ n ih =>
    unfold drainCause; split
    · exact ih _
    · next h => exact ⟨fun n => (stationNow_refresh s n).symm, by simpa using h⟩

theorem closeEvent_current (s : State) : s.closeEvent.current := by
  have h := pointersStand_congr (t := (s.drainCause 4).recomputeAttention) (s := s.drainCause 4) rfl rfl rfl rfl (pointersStand_drainCause 4 s)
  exact ⟨h.1, rfl, h.2⟩

/-- What `current` reads. -/
theorem current_congr {s t : State} (h1 : t.stations = s.stations) (h2 : t.lists = s.lists) (h3 : t.records = s.records)
   (h4 : t.attention = s.attention) (h5 : t.flags = s.flags) (h6 : t.settings = s.settings) (h7 : t.cause = s.cause) (h : s.current) : t.current := by
  obtain ⟨a,b,c⟩ := h
  have := pointersStand_congr h1 h2 h3 h7 ⟨a, c⟩
  refine ⟨this.1, ?_, this.2⟩
  rw [h4, b]; unfold attentionValue; rw [h5, h6]

/-- What re-evaluations may change: parked lifts with their slots, lane reservations, transfer references, the frames of the
lifts' links, lists and flags, and nothing else. -/
structure grantsAtMost (s t : State) : Prop where
  levels : t.levels = s.levels
  claims : t.claims = s.claims
  approvals : t.approvals = s.approvals
  entries : t.entries = s.entries
  opening : t.opening = s.opening
  unsolicited : t.unsolicited = s.unsolicited
  fresh : t.fresh = s.fresh
  lane : ∀ k, t.lane k = { s.lane k with reserved := (t.lane k).reserved }
  shuttleSlots : ∀ l, t.slot (shuttleSlot l) = s.slot (shuttleSlot l)
  otherLifts : ∀ x, (s.lift x).status ≠ .parked → t.lift x = s.lift x ∧ t.slot (liftSlot x) = s.slot (liftSlot x)
  carriages : ∀ x, (t.lift x).contents = (s.lift x).contents ∧ (t.lift x).report = (s.lift x).report ∧
    (t.lift x).disputed = (s.lift x).disputed
  records : ∀ i, (t.lookup i).map (fun r => { r with transfer := none }) = (s.lookup i).map (fun r => { r with transfer := none })
  stopLinks : ∀ n, t.link (.stop n) = s.link (.stop n)
  frontLink : t.link .front = s.link .front
  liftLinks : ∀ x, (t.link (.lift x)).status = (s.link (.lift x)).status ∧
    (t.link (.lift x)).heard = (s.link (.lift x)).heard

/-- A state whose fields that a grant writes are those of another. -/
theorem grantsAtMost.of_eq {s t : State} (h : t = { s with
    stations := t.stations, flags := t.flags, attention := t.attention, cause := t.cause }) : grantsAtMost s t := by
  rw [h]
  exact ⟨rfl, rfl, rfl, rfl, rfl, rfl, rfl, fun _ => rfl, fun _ => rfl, fun _ _ => ⟨rfl, rfl⟩, fun _ => ⟨rfl, rfl, rfl⟩,
    fun _ => rfl, fun _ => rfl, rfl, fun _ => ⟨rfl, rfl⟩⟩

theorem grantsAtMost.refl (s : State) : grantsAtMost s s := grantsAtMost.of_eq rfl

theorem grantsAtMost.trans {s t u : State} (a : grantsAtMost s t) (b : grantsAtMost t u) : grantsAtMost s u where
  levels := b.levels.trans a.levels
  claims := b.claims.trans a.claims
  approvals := b.approvals.trans a.approvals
  entries := b.entries.trans a.entries
  opening := b.opening.trans a.opening
  unsolicited := b.unsolicited.trans a.unsolicited
  fresh := b.fresh.trans a.fresh
  lane k := by rw [b.lane k, a.lane k]
  shuttleSlots l := (b.shuttleSlots l).trans (a.shuttleSlots l)
  otherLifts x h := by
    have h1 := a.otherLifts x h
    have h2 := b.otherLifts x (by rw [h1.1]; exact h)
    exact ⟨h2.1.trans h1.1, h2.2.trans h1.2⟩
  carriages x := ⟨(b.carriages x).1.trans (a.carriages x).1, (b.carriages x).2.1.trans (a.carriages x).2.1,
    (b.carriages x).2.2.trans (a.carriages x).2.2⟩
  records i := (b.records i).trans (a.records i)
  stopLinks n := (b.stopLinks n).trans (a.stopLinks n)
  frontLink := b.frontLink.trans a.frontLink
  liftLinks x := ⟨(b.liftLinks x).1.trans (a.liftLinks x).1, (b.liftLinks x).2.trans (a.liftLinks x).2⟩

theorem side_ix_inj (x y : Side) : x.ix = y.ix ↔ x = y := by cases x <;> cases y <;> decide

theorem liftSlot_inj (x y : Side) : liftSlot x = liftSlot y ↔ x = y := by cases x <;> cases y <;> decide

theorem slotOwner_lift (x : Side) : slotOwner (liftSlot x) = .inr x := by cases x <;> decide

theorem grantsAtMost_grantJob {s : State} {x : Side} {g : Grant} (hg : ofLift x g) (hp : (s.lift x).status = .parked) : grantsAtMost s (s.grantJob x g) := by
  obtain ⟨h1, h2, h3⟩ := hg
  have hsl : ∀ i, (s.grantJob x g).slot i = (s.openTransfer g).slot i := fun i => by unfold grantJob; show nth _ _ = nth _ _; congr 1; simp
  have hli : ∀ i, (s.grantJob x g).lift i = (s.openTransfer g).lift i := fun i => by unfold grantJob; show nth _ _ = nth _ _; congr 1; simp
  refine ⟨by simp, ?_, by simp, by simp, by simp, by simp, by simp, ?_, ?_, ?_, ?_, ?_, ?_, ?_, ?_⟩
  · refine ext_nth fun l => ?_
    have := claimState_openTransfer s g l
    rw [h1, slotOwner_lift] at this
    have e : (s.grantJob x g).claims = (s.openTransfer g).claims := by unfold grantJob; simp
    rw [e]; simpa [claimState] using this
  · intro k
    have := lane_openTransfer s g k
    have e : (s.grantJob x g).lane k = (s.openTransfer g).lane k := by unfold grantJob; show nth _ _ = nth _ _; congr 1; simp
    rw [e, this]
  · intro l; rw [hsl, slot_openTransfer, h1]
    rw [if_neg]; cases x <;> simp [liftSlot, shuttleSlot, Fin.ext_iff] <;> omega
  · intro y hy
    have hxy : x ≠ y := fun e => hy (e ▸ hp)
    rw [hsl, hli, slot_openTransfer, h1, if_neg (by rw [liftSlot_inj]; exact hxy), lift_openTransfer]
    refine ⟨?_, rfl⟩
    rw [h1, slotOwner_lift]
    have : g.taker ≠ .carriage y := fun e => hxy (h3 y e).symm
    simp [hxy, this, lift_reserve]
  · intro y
    rw [hli, lift_openTransfer]
    rw [lift_reserve]
    refine ⟨?_, ?_, ?_⟩ <;> (repeat' split) <;> rfl
  · intro i
    have e : (s.grantJob x g).lookup i = (s.openTransfer g).lookup i := by unfold grantJob; unfold State.lookup; simp
    rw [e, lookup_openTransfer]
    split
    · rw [Option.map_map]; rfl
    · rfl
  · intro n
    have : (s.grantJob x g).link (.stop n) = ((s.openTransfer g).claimTaken g).link (.stop n) := by
      unfold grantJob sendJob; rw [link_send, if_neg Port.noConfusion]
    rw [this]; unfold link; simp
  · have : (s.grantJob x g).link .front = ((s.openTransfer g).claimTaken g).link .front := by
      unfold grantJob sendJob; rw [link_send, if_neg]; cases x <;> decide
    rw [this]; unfold link; simp
  · intro y
    have e : (s.grantJob x g).link (.lift y) = { s.link (.lift y) with order := ((s.grantJob x g).link (.lift y)).order } := by
      unfold grantJob sendJob; rw [link_send]; unfold link; split <;> simp
    rw [e]; exact ⟨rfl, rfl⟩

theorem grantsAtMost_select {s : State} {x : Side} (hp : (s.lift x).status = .parked) : grantsAtMost s (s.select x).1 := by
  obtain ⟨u, f, hf, hu, h⟩ := select_cases s x
  have hl : ∀ y, u.lift y = if x.ix = y.ix then f (s.lift y) else s.lift y := fun y => by rw [hu]; exact nth_upd ..
  have hju : grantsAtMost s u := by
    have same : grantsAtMost s { u with lifts := s.lifts } := .of_eq (by rw [hu])
    refine { same with otherLifts := fun y hy => ⟨?_, (same.otherLifts y hy).2⟩, carriages := fun y => ?_ }
    · rw [hl, if_neg]; rw [side_ix_inj]; intro e; exact hy (e ▸ hp)
    · rw [hl]; split
      · exact ⟨(hf _).2.1, (hf _).2.2.1, (hf _).2.2.2.2⟩
      · exact ⟨rfl, rfl, rfl⟩
  rcases h with h | ⟨g, hg, h⟩
  · rw [h]; exact hju
  · rw [h]; refine hju.trans (grantsAtMost_grantJob hg ?_)
    rw [hl, if_pos rfl, (hf _).1, hp]

theorem grantsAtMost_reevaluateLift (s : State) (x : Side) : grantsAtMost s (s.reevaluateLift x) := by
  unfold reevaluateLift; split
  · next h => exact grantsAtMost_select h.1
  · exact grantsAtMost.refl s

theorem grantsAtMost_drainCause (n : Nat) (s : State) : grantsAtMost s (s.drainCause n) := by
  induction n generalizing s with
  | zero => exact .of_eq rfl
  | succ n ih =>
    unfold drainCause; split
    · refine grantsAtMost.trans (.of_eq (t := { s.refreshPointers with cause := false }) rfl) ?_
      exact ((grantsAtMost_reevaluateLift _ .a).trans (grantsAtMost_reevaluateLift _ .b)).trans (ih _)
    · exact .of_eq rfl

theorem grantsAtMost_closeEvent (s : State) : grantsAtMost s s.closeEvent :=
  (grantsAtMost_drainCause 4 s).trans (.of_eq (t := (s.drainCause 4).recomputeAttention) rfl)

/-- With no parked request, or in STOPPED, the close of an event moves the pointers and does nothing more. -/
theorem drainCause_quiet (n : Nat) (s : State) (h : (∀ x, (s.lift x).status ≠ .parked) ∨ s.stopped = true) (hn : 2 ≤ n) : s.drainCause n = { s with stations := tab 4 s.stationNow, cause := false } := by
  have hre : ∀ t : State, t.lifts = s.lifts → t.stopped = s.stopped → t.reevaluate = t := by
    intro t h1 h2
    have : ∀ x, t.reevaluateLift x = t := by
      intro x; unfold reevaluateLift; rw [if_neg]
      rintro ⟨a, b⟩
      unfold State.lift at *
      rcases h with h | h
      · rw [h1] at a; exact h x a
      · rw [h2, h] at b; cases b
    unfold reevaluate; rw [this, this]
  have hnow : ∀ u : State, u.stations = tab 4 s.stationNow → u.lists = s.lists → u.records = s.records → tab 4 u.stationNow = tab 4 s.stationNow := by
    intro u h1 h2 h3
    refine ext_nth fun i => ?_
    rw [nth_tab, nth_tab, stationNow_congr (s := s.refreshPointers) h1 h2 h3, stationNow_refresh]
    show nth (tab 4 s.stationNow) i = _
    rw [nth_tab]
  obtain ⟨m, rfl⟩ : ∃ m, n = m + 2 := ⟨n - 2, by omega⟩
  have hr : ∀ u : State, u.stations = tab 4 s.stationNow → u.lists = s.lists → u.records = s.records → u.cause = false → u.refreshPointers = u := by
    intro u h1 h2 h3 h4
    unfold refreshPointers
    rw [hnow u h1 h2 h3, ← h1, h4]; simp
    rw [← h4]
  unfold drainCause; split
  · have e := hre { s.refreshPointers with cause := false } rfl rfl
    have e2 := hr { s.refreshPointers with cause := false } rfl rfl rfl rfl
    refine (congrArg (fun u : State => u.drainCause (m + 1)) e).trans ?_
    unfold drainCause
    rw [e2]
    rfl
  · next hc =>
    unfold refreshPointers at *
    simp at hc
    simp [hc]

end Sys2Proof.Machine.State
end

