-- ==== Sys2Proof/Laws/Table.lean ====
section
/-! SUPPORT. The operations that create no record, and those that do: what each leaves of the form of the tote table. -/

open Sys2Proof Sys2Proof.Machine Sys2Proof.Machine.State

namespace Sys2Proof.Machine

open State

/-- What the form of the table says of a record: its slot and its identity. -/
def slotAndIdent (p : Nat × Record) : Nat × Ident := (p.1, p.2.ident)

/-- The table of `t` holds records of `s` in their slots and under their identities, and none besides. -/
def tableWithin (t s : State) : Prop := (t.records.map slotAndIdent).Sublist (s.records.map slotAndIdent)

theorem tableWithin.refl (s : State) : tableWithin s s := List.Sublist.refl _

theorem tableWithin.trans {s t u : State} (a : tableWithin u t) (b : tableWithin t s) : tableWithin u s := List.Sublist.trans a b

theorem tableWithin_of_eq {s t : State} (h : t.records = s.records) : tableWithin t s := by unfold tableWithin; rw [h]

theorem tableWithin_congr {s t u : State} (h : t.records = s.records) (k : tableWithin s u) : tableWithin t u := (tableWithin_of_eq h).trans k

/-- A table within a legal one is legal. -/
theorem tableLegal_of_within {s t : State} (h : tableWithin t s) (l : s.tableLegal) : t.tableLegal := by
  unfold tableWithin at h
  obtain ⟨a, b, c, d, e⟩ := l
  have m1 : ∀ u : State, u.records.map (·.1) = (u.records.map slotAndIdent).map (·.1) := fun u => by rw [List.map_map]; rfl
  have m2 : ∀ u : State, u.records.map (·.2.ident) = (u.records.map slotAndIdent).map (·.2) := fun u => by rw [List.map_map]; rfl
  have mem : ∀ p ∈ t.records, ∃ q ∈ s.records, slotAndIdent q = slotAndIdent p := fun p hp => List.mem_map.mp (h.subset (List.mem_map_of_mem hp))
  refine ⟨?_, ?_, ?_, ?_, ?_⟩
  · rw [m1] at *; exact a.sublist (h.map _)
  · intro p hp; obtain ⟨q, hq, k⟩ := mem p hp
    have := b q hq; rw [show p.1 = q.1 from (congrArg Prod.fst k).symm]; exact this
  · have := h.length_le; simp at this; omega
  · rw [m2] at *; exact d.sublist (h.map _)
  · intro p hp; obtain ⟨q, hq, k⟩ := mem p hp
    have := e q hq; rw [show p.2.ident = q.2.ident from (congrArg Prod.snd k).symm]; exact this

theorem tableWithin_modRecord (s : State) (i : Ident) (f : Record → Record) (hf : ∀ r, (f r).ident = r.ident) : tableWithin (s.modRecord i f) s := by
  unfold tableWithin modRecord
  have : (s.records.map fun p => if p.2.ident = i then (p.1, f p.2) else p).map slotAndIdent = s.records.map slotAndIdent := by
    rw [List.map_map]; apply List.map_congr_left; intro p _; simp only [Function.comp]; split
    · simp [slotAndIdent, hf]
    · rfl
  exact this ▸ List.Sublist.refl _

theorem tableWithin_retire (s : State) (i : Ident) : tableWithin (s.retire i) s := (List.filter_sublist).map _

theorem tableWithin_foldl {α : Type} (f : State → α → State) (hf : ∀ s a, tableWithin (f s a) s) (l : List α) (s : State) : tableWithin (l.foldl f s) s := by
  induction l generalizing s with
  | nil => exact tableWithin.refl s
  | cons a l ih => exact (ih _).trans (hf s a)

theorem tableWithin_setTransfer (s : State) (i : Ident) (t : Option TransferNumber) : tableWithin (s.setTransfer i t) s := tableWithin_modRecord _ _ _ fun _ => rfl

theorem tableWithin_setPlace (s : State) (i : Ident) (t : Place) : tableWithin (s.setPlace i t) s := tableWithin_modRecord _ _ _ fun _ => rfl

theorem tableWithin_hold (s : State) (i : Ident) (t : Hold) : tableWithin (s.hold i t) s := tableWithin_modRecord s i (fun r => { r with place := .held t, transfer := none }) fun _ => rfl

theorem tableWithin_openTransfer (s : State) (g : Grant) : tableWithin (s.openTransfer g) s := by
  unfold openTransfer
  refine tableWithin_congr (s := ((s.openSlot g.slot (s.openedBy g)).reserve g.taker g.totes).enlist g.slot g.totes) (by simp) (tableWithin.trans (tableWithin_foldl _ (fun s a => tableWithin_setTransfer _ _ _) g.totes _) (tableWithin_of_eq (by simp)))

theorem tableWithin_unlist (s : State) (l : List Ident) : tableWithin (s.unlist l) s := tableWithin_foldl _ (fun _ _ => tableWithin_setTransfer _ _ _) _ _

theorem tableWithin_joinTaker (s : State) (t : Taker) (l : List Ident) : tableWithin (s.joinTaker t l) s := by
  unfold joinTaker; split
  · exact (tableWithin_foldl _ (fun _ _ => tableWithin_setPlace _ _ _) _ _).trans (tableWithin_of_eq (by simp))
  · exact (tableWithin_foldl _ (fun _ _ => tableWithin_setPlace _ _ _) _ _).trans (tableWithin_of_eq (by simp))
  · exact tableWithin_foldl _ (fun _ _ => tableWithin_retire _ _) _ _
  · exact tableWithin.refl s

theorem tableWithin_commit (s : State) (i : Fin 34) (o : Open) : tableWithin (s.commit i o) s := by
  unfold commit
  refine tableWithin_congr (s := ((((s.unlist o.totes).leaveGiver o.giver o.totes).release o.taker o.granted).loadTaken o).joinTaker o.taker o.totes) (by simp) (tableWithin.trans (tableWithin_joinTaker _ _ _) (tableWithin_congr (s := s.unlist o.totes) (by simp) (tableWithin_unlist s o.totes)))

theorem tableWithin_abort (s : State) (i : Fin 34) (o : Open) : tableWithin (s.abort i o) s := by
  unfold abort
  refine tableWithin_congr (s := s.unlist o.totes) (by simp)  (tableWithin_unlist s o.totes)

theorem tableWithin_fail (s : State) (i : Fin 34) (o : Open) (w : FailReason) : tableWithin (s.fail i o w) s := by
  unfold fail
  refine tableWithin_congr (s := (s.leaveGiver o.giver o.totes).holdTotes o w) (by simp) (tableWithin.trans (tableWithin_foldl _ (fun _ _ => tableWithin_hold _ _ _) _ _) (tableWithin_of_eq (by simp)))

theorem tableWithin_advance (s : State) (i : Fin 34) (o : Open) : tableWithin (s.advance i o) s := by
  unfold advance; split
  · exact (tableWithin_commit _ _ _).trans (tableWithin_of_eq (by simp))
  · exact tableWithin_of_eq (by simp)

theorem tableWithin_judgeLane (s : State) (i : Fin 34) (r : LaneReport) : tableWithin (s.judgeLane i r) s := by
  unfold judgeLane; (repeat' split) <;> first | exact tableWithin.refl _ | exact tableWithin_advance _ _ _ | exact tableWithin_fail _ _ _ _

theorem tableWithin_judgeCarriage (s : State) (i : Fin 34) (r : CarriageReport) : tableWithin (s.judgeCarriage i r) s := by
  unfold judgeCarriage; (repeat' split) <;> first | exact tableWithin.refl _ | exact tableWithin_advance _ _ _ | exact tableWithin_fail _ _ _ _

theorem tableWithin_takeDone (s : State) (i : Fin 34) : tableWithin (s.takeDone i) s := by
  unfold takeDone; (repeat' split) <;> try exact tableWithin.refl _
  next o _ _ =>
  have h1 : ∀ (u : State) k, tableWithin (u.judgeLatestLane i k) u := by
    intro u k; unfold judgeLatestLane; split
    · exact (tableWithin_judgeLane _ _ _)
    · exact tableWithin.refl _
  have h2 : ∀ (u : State) k, tableWithin (u.judgeLatestCarriage i k) u := by
    intro u k; unfold judgeLatestCarriage; split
    · exact (tableWithin_judgeCarriage _ _ _)
    · exact tableWithin.refl _
  unfold judgeLatest
  exact (h2 _ _).trans ((h1 _ _).trans (tableWithin_advance _ _ _))

theorem tableWithin_takeAborted (s : State) (i : Fin 34) : tableWithin (s.takeAborted i) s := by
  unfold takeAborted; (repeat' split) <;> first | exact tableWithin.refl _ | exact tableWithin_abort _ _ _ | exact tableWithin_fail _ _ _ _

theorem tableWithin_strikeOff (s : State) (i : Fin 34) (t : Ident) : tableWithin (s.strikeOff i t) s := by
  unfold strikeOff; (repeat' split) <;> first | exact tableWithin.refl _ | exact tableWithin_advance _ _ _

theorem tableWithin_exitFault (s : State) (x : Side) (i t : Ident) : tableWithin (s.exitFault x i t) s := by
  unfold exitFault
  refine tableWithin_congr (s := (s.leaveGiver (.carriage x) [i]).hold i { reason := faultReason t, giver := .carriage x, taker := .exit }) (by simp) ((tableWithin_hold _ _ _).trans (tableWithin_of_eq (by simp)))

theorem tableWithin_exitMatch (s : State) (x : Side) (i : Ident) : tableWithin (s.exitMatch x i) s := by
  unfold exitMatch; split
  · exact ((tableWithin_retire _ _).trans (tableWithin_of_eq (by simp)))
  · refine tableWithin_congr (s := (s.leaveGiver (.carriage x) [i]).retire i) (by simp) ((tableWithin_retire _ _).trans (tableWithin_of_eq (by simp)))

theorem tableWithin_grantJob (s : State) (x : Side) (g : Grant) : tableWithin (s.grantJob x g) s := by
  unfold grantJob; refine tableWithin_congr (s := s.openTransfer g) (by simp) (tableWithin_openTransfer s g)

theorem tableWithin_select (s : State) (x : Side) : tableWithin (s.select x).1 s := by
  obtain ⟨u, f, hf, hu, h⟩ := select_cases s x
  rcases h with h | ⟨g, hg, h⟩
  · rw [h]; exact tableWithin_of_eq (by rw [hu])
  · rw [h]; exact (tableWithin_grantJob _ _ _).trans (tableWithin_of_eq (by rw [hu]))

theorem tableWithin_drainCause (n : Nat) (s : State) : tableWithin (s.drainCause n) s := by
  have hr : ∀ (s : State) x, tableWithin (s.reevaluateLift x) s := by
    intro s x; unfold reevaluateLift; split
    · exact tableWithin_select _ _
    · exact tableWithin.refl _
  induction n generalizing s with
  | zero => exact tableWithin_of_eq rfl
  | succ n ih => unfold drainCause; split
                 · exact (ih _).trans ((hr _ _).trans ((hr _ _).trans (tableWithin_of_eq rfl)))
                 · exact tableWithin_of_eq rfl

theorem tableWithin_closeEvent (s : State) : tableWithin s.closeEvent s := (tableWithin_of_eq (s := s.drainCause 4) rfl).trans (tableWithin_drainCause 4 s)

theorem tableWithin_reportFrom {s : State} (n : Stop) (x : LaneName) (r : LaneReport) : tableWithin (s.reportFrom n x r) s := by
  unfold reportFrom
  split
  · next l _ =>
    unfold takeLaneReport judgeReport
    split
    · exact (tableWithin_judgeLane _ _ _).trans (tableWithin_of_eq rfl)
    · exact tableWithin_of_eq (by simp)
  · exact tableWithin.refl _

theorem tableWithin_grantClaim (s : State) (l : Level) (g : Grant) : tableWithin (s.grantClaim l g) s := by
  unfold grantClaim; refine tableWithin_congr (s := (s.unpend l).openTransfer g) (by simp) ((tableWithin_openTransfer _ g).trans (tableWithin_of_eq (by simp)))

theorem tableWithin_unsequence (s : State) (r : Record) : tableWithin (s.unsequence r) s := by
  unfold unsequence; split <;> exact tableWithin_modRecord s r.ident (fun x => { x with entry := none }) fun _ => rfl

/-- The lowest free slot is free, and lies below the number of records above the start. -/
theorem lowestFree_spec : ∀ (l : List (Nat × Record)) (k : Nat), (l.map (·.1)).Pairwise (· < ·) → (∀ p ∈ l, k ≤ p.1) →
    k ≤ lowestFree l k ∧ lowestFree l k ≤ k + l.length ∧ ∀ p ∈ l, p.1 ≠ lowestFree l k
  | [], k, _, _ => ⟨Nat.le_refl _, by simp [lowestFree], by simp⟩
  | p :: rest, k, h, hk => by
    rw [List.map_cons, List.pairwise_cons] at h
    unfold lowestFree
    split
    · next e =>
      have := lowestFree_spec rest (k+1) h.2 (fun q hq => by have := h.1 q.1 (List.mem_map_of_mem hq); omega)
      refine ⟨by omega, by simp; omega, ?_⟩
      intro q hq
      rcases List.mem_cons.mp hq with rfl | hq
      · omega
      · exact this.2.2 q hq
    · next e =>
      refine ⟨Nat.le_refl _, by simp, ?_⟩
      intro q hq
      rcases List.mem_cons.mp hq with rfl | hq
      · exact e
      · have := h.1 q.1 (List.mem_map_of_mem hq); have := hk p (List.mem_cons_self); omega

theorem insertSlot_perm (k : Nat) (r : Record) : ∀ l, (insertSlot k r l).Perm ((k, r) :: l)
  | [] => List.Perm.refl _
  | p :: rest => by
    unfold insertSlot; split
    · exact List.Perm.refl _
    · exact ((insertSlot_perm k r rest).cons p).trans (List.Perm.swap ..)

theorem insertSlot_sorted (k : Nat) (r : Record) : ∀ l : List (Nat × Record), (l.map (·.1)).Pairwise (· < ·) → (∀ p ∈ l, p.1 ≠ k) → ((insertSlot k r l).map (·.1)).Pairwise (· < ·)
  | [], _, _ => by simp [insertSlot]
  | p :: rest, h, hn => by
    rw [List.map_cons, List.pairwise_cons] at h
    unfold insertSlot; split
    · next e =>
      simp only [List.map_cons, List.pairwise_cons]
      refine ⟨?_, h.1, h.2⟩
      intro a ha
      rcases List.mem_cons.mp ha with rfl | ha
      · exact e
      · exact Nat.lt_trans e (h.1 a ha)
    · next e =>
      simp only [List.map_cons, List.pairwise_cons]
      refine ⟨?_, insertSlot_sorted k r rest h.2 fun q hq => hn q (List.mem_cons_of_mem _ hq)⟩
      intro a ha
      obtain ⟨q, hq, rfl⟩ := List.mem_map.mp ha
      rcases List.mem_cons.mp ((insertSlot_perm k r rest).mem_iff.mp hq) with rfl | hq
      · have := hn p (List.mem_cons_self); simp at *; omega
      · exact h.1 q.1 (List.mem_map_of_mem hq)

theorem ident_ne_of_lookup_none {s : State} {i : Ident} (h : s.lookup i = none) : ∀ p ∈ s.records, p.2.ident ≠ i := by
  unfold State.lookup at h; simp at h
  intro p hp; exact h p.1 p.2 hp

/-- A record created under a new identity while a slot is free keeps the table in its form. -/
theorem tableLegal_create {s : State} {r : Record} (l : s.tableLegal) (hi : r.ident ≠ 0) (hn : s.lookup r.ident = none) (hl : s.records.length < 512) : (s.create r).tableLegal := by
  obtain ⟨a, b, c, d, e⟩ := l
  have sp := lowestFree_spec s.records 0 a (fun _ _ => Nat.zero_le _)
  have pm := insertSlot_perm (lowestFree s.records 0) r s.records
  have hlt : lowestFree s.records 0 < 512 := by omega
  refine ⟨insertSlot_sorted _ _ _ a sp.2.2, ?_, ?_, ?_, ?_⟩
  · intro p hp
    rcases List.mem_cons.mp (pm.mem_iff.mp hp) with rfl | hp
    · exact hlt
    · exact b p hp
  · show (insertSlot _ _ _).length ≤ 512
    rw [pm.length_eq]; simp; omega
  · show ((insertSlot _ _ _).map _).Nodup
    rw [(pm.map _).nodup_iff]
    simp only [List.map_cons, List.nodup_cons]
    refine ⟨?_, d⟩
    intro hm
    obtain ⟨q, hq, e⟩ := List.mem_map.mp hm
    exact ident_ne_of_lookup_none hn q hq e
  · intro p hp
    rcases List.mem_cons.mp (pm.mem_iff.mp hp) with rfl | hp
    · exact hi
    · exact e p hp

theorem isNone_create (s : State) (r : Record) (i : Ident) (h : r.ident ≠ i) : ((s.create r).lookup i).isNone = (s.lookup i).isNone := by
  unfold State.lookup; simp only [Option.isNone_map]
  have pm := insertSlot_perm (lowestFree s.records 0) r s.records
  rw [Bool.eq_iff_iff]
  simp only [Option.isNone_iff_eq_none, List.find?_eq_none]
  show (∀ x ∈ insertSlot _ _ _, _) ↔ _
  constructor
  · intro hh x hx; exact hh x (pm.mem_iff.mpr (List.mem_cons_of_mem _ hx))
  · intro hh x hx
    rcases List.mem_cons.mp (pm.mem_iff.mp hx) with rfl | hx
    · simpa using h
    · exact hh x hx

theorem isNone_modRecord (s : State) (i j : Ident) (f : Record → Record) (hf : ∀ r, (f r).ident = r.ident) : ((s.modRecord i f).lookup j).isNone = (s.lookup j).isNone := by
  have : (s.modRecord i f).lookup j = if i = j then (s.lookup j).map f else s.lookup j := by
    exact lookup_modRecord _ _ _ _ hf
  rw [this]; split <;> simp

/-- Entries of distinct identities, as many new ones as there are free slots, keep the table in its form. -/
theorem tableLegal_addEntries (l : Fin 16) : ∀ (es : List NewEntry) (s : State), (es.map (·.ident)).Nodup → (∀ e ∈ es, e.ident ≠ 0) →
    s.records.length + (es.filter fun e => (s.lookup e.ident).isNone).length ≤ 512 → s.tableLegal → (s.addEntries l es).tableLegal
  | [], s, _, _, _, h => h
  | e :: es, s, hn, h0, hl, h => by
    rw [List.map_cons, List.nodup_cons] at hn
    have ne : ∀ d ∈ es, e.ident ≠ d.ident := fun d hd he => hn.1 (he ▸ List.mem_map_of_mem hd)
    show ((s.addEntry l e).addEntries l es).tableLegal
    have hf : ∀ u : State, (∀ d ∈ es, (u.lookup d.ident).isNone = (s.lookup d.ident).isNone) →
        (es.filter fun e => (u.lookup e.ident).isNone) = es.filter fun e => (s.lookup e.ident).isNone := by
      intro u hu; exact List.filter_congr fun d hd => hu d hd
    have fin : (s.addEntry l e).tableLegal → (∀ d ∈ es, ((s.addEntry l e).lookup d.ident).isNone = (s.lookup d.ident).isNone) →
        (s.addEntry l e).records.length ≤ s.records.length + (if (s.lookup e.ident).isNone then 1 else 0) → ((s.addEntry l e).addEntries l es).tableLegal := by
      intro a b c
      refine tableLegal_addEntries l es _ hn.2 (fun d hd => h0 d (List.mem_cons_of_mem _ hd)) ?_ a
      rw [hf _ b]
      rw [List.filter_cons] at hl
      split at hl <;> rename_i hh
      · rw [if_pos hh] at c; simp at hl; omega
      · rw [if_neg hh] at c; omega
    cases hli : s.list l with
    | none =>
      have e1 : s.addEntry l e = s := by unfold addEntry; rw [hli]
      rw [e1] at fin ⊢
      exact fin h (fun _ _ => rfl) (by omega)
    | some r =>
      cases hlo : s.lookup e.ident with
      | some q =>
        have e1 : (s.addEntry l e).records = (s.modRecord e.ident fun y => { y with entry := some ⟨l, r.entries.length + 1⟩, pref := some e.pref, weight := some e.weight }).records := by
          unfold addEntry; rw [hli]; dsimp only; unfold attach
          rw [show ∀ x, (s.setList l x).lookup e.ident = some q from fun _ => hlo]; rfl
        refine fin (tableLegal_of_within (tableWithin_congr e1 (tableWithin_modRecord _ _ _ fun _ => rfl)) h) ?_ ?_
        · intro d hd
          have : (s.addEntry l e).lookup d.ident = (s.modRecord e.ident fun y => { y with entry := some ⟨l, r.entries.length + 1⟩, pref := some e.pref, weight := some e.weight }).lookup d.ident := by
            unfold State.lookup; rw [e1]
          rw [this]; exact isNone_modRecord _ _ _ _ (fun _ => rfl)
        · rw [e1]; simp [modRecord]
      | none =>
        have e1 : (s.addEntry l e).records = (s.create (e.record ⟨l, r.entries.length + 1⟩)).records := by
          unfold addEntry; rw [hli]; dsimp only; unfold attach
          rw [show ∀ x, (s.setList l x).lookup e.ident = none from fun _ => hlo]; rfl
        rw [List.filter_cons, hlo] at hl
        simp at hl
        have lc := tableLegal_create (r := e.record ⟨l, r.entries.length + 1⟩) h (h0 e (List.mem_cons_self)) hlo (by omega)
        refine fin (tableLegal_of_within (tableWithin_of_eq e1) lc) ?_ ?_
        · intro d hd
          have : (s.addEntry l e).lookup d.ident = (s.create (e.record ⟨l, r.entries.length + 1⟩)).lookup d.ident := by
            unfold State.lookup; rw [e1]
          rw [this, isNone_create _ _ _ (ne d hd)]
        · rw [e1, hlo]
          show (insertSlot _ _ _).length ≤ _
          rw [(insertSlot_perm _ _ _).length_eq]; simp

/-- When no entry check refuses, no entry fails any of them. -/
theorem of_firstEntryRefusal_none {es : List NewEntry} {checks : List ((NewEntry → Bool) × Code)}
    (h : firstEntryRefusal es checks = none) : ∀ c ∈ checks, es.findIdx? c.1 = none := by
  induction checks with
  | nil => simp
  | cons c rest ih =>
    obtain ⟨fails, code⟩ := c
    unfold firstEntryRefusal at h
    split at h
    · cases h
    · next hn => exact List.forall_mem_cons.mpr ⟨hn, ih h⟩

/-- What the entry checks leave when none of them fails. -/
theorem of_entryRefusal_none {s : State} {es : List NewEntry} (h : s.entryRefusal es = none) : (es.map (·.ident)).Nodup ∧
    (es.filter fun e => (s.lookup e.ident).isNone).length ≤ 512 - s.records.length := by
  have passed := of_firstEntryRefusal_none h
  have h1 := passed _ List.mem_cons_self
  have h5 := passed ((fun _ => decide (s.freeSlots < (es.filter fun e => (s.lookup e.ident).isNone).length)), .tableFull)
    (by simp)
  constructor
  · rw [List.findIdx?_eq_none_iff] at h1
    rw [List.nodup_iff_count_le_one]
    intro a
    by_cases ha : a ∈ es.map (·.ident)
    · obtain ⟨e, he, rfl⟩ := List.mem_map.mp ha
      have := h1 e he
      unfold entryDuplicate at this
      rw [Bool.or_eq_false_iff, Bool.or_eq_false_iff] at this
      have := of_decide_eq_false this.1.1
      rw [List.count_eq_length_filter, List.filter_map, List.length_map]
      have e2 : (es.filter ((fun x => x == e.ident) ∘ fun x => x.ident)) = es.filter fun x => x.ident == e.ident := rfl
      rw [e2]; omega
    · rw [List.count_eq_zero.mpr ha]; omega
  · rw [List.findIdx?_eq_none_iff] at h5
    cases es with
    | nil => simp
    | cons e es =>
      have := h5 e List.mem_cons_self
      simp only [decide_eq_false_iff_not, Nat.not_lt] at this
      exact this

theorem tableWithin_skip (s : State) (ref : EntryRef) (i : Ident) : tableWithin (s.skip ref i) s := by
  unfold State.skip
  refine tableWithin_congr (s := (s.setEntryState ref .skipped).unsequenceTote i) (by simp) (tableWithin.trans (t := s.setEntryState ref .skipped) ?_ (tableWithin_of_eq (by simp)))
  unfold unsequenceTote; split
  · exact tableWithin_unsequence _ _
  · exact tableWithin.refl _

theorem tableWithin_settleExit (s : State) (r : Record) (e : EntryState) : tableWithin (s.settleExit r e) s := by
  unfold settleExit; split
  · exact tableWithin_retire _ _
  · exact tableWithin_congr (s := s.retire r.ident) (by simp) (tableWithin_retire _ _)

theorem tableWithin_finishHeld (s : State) (r : Record) (e : EntryState) : tableWithin (s.finishHeld r e) s := by
  unfold finishHeld; split
  · exact tableWithin_retire _ _
  · exact tableWithin_congr (s := s.retire r.ident) (by simp) (tableWithin_retire _ _)

theorem tableWithin_resolve (s : State) (r : Record) (p : Placement) : tableWithin (s.resolve r p) s := by
  have h : ∀ q, tableWithin (s.setPlace r.ident q) s := fun q => tableWithin_setPlace _ _ _
  unfold State.resolve; split
  · exact h _
  · next l _ => exact tableWithin_congr (s := s.setPlace r.ident (.lane l)) (by simp) (h _)
  · next x => exact tableWithin_congr (s := s.setPlace r.ident (.entry x)) (by simp) (h _)
  · next x => exact tableWithin_congr (s := s.setPlace r.ident (.carriage x)) (by simp) (h _)
  · next x => exact tableWithin_congr (s := (s.loadEntry r.ident).setPlace r.ident (.carriage x)) (by simp) ((tableWithin_setPlace _ _ _).trans (tableWithin_of_eq (by simp)))
  · exact tableWithin_retire _ _
  · exact tableWithin_finishHeld _ _ _
  · exact tableWithin_finishHeld _ _ _

theorem newEntry_ident_ne_zero {as : List EntryArg} {es : List NewEntry} (h : NewEntry.ofArgs as = some es) : ∀ e ∈ es, e.ident ≠ 0 := by
  induction as generalizing es with
  | nil => cases h; simp
  | cons a as ih =>
    unfold NewEntry.ofArgs at h
    split at h
    · next x xs hx hxs =>
      cases h
      intro e he
      rcases List.mem_cons.mp he with rfl | he
      · unfold NewEntry.ofArg at hx
        (repeat' split at hx) <;> first | (cases hx; done) | (cases hx; assumption)
      · exact ih hxs e he
    · cases h

end Sys2Proof.Machine
end

