-- ==== Sys2Proof/Laws/Tick.lean ====
section
/-! SUPPORT. The expiries that are due, and which of them is taken. -/

open Sys2Proof Sys2Proof.Machine Sys2Proof.Machine.State

namespace Sys2Proof.Machine

theorem mem_allPorts (p : Port) : p ∈ allPorts := by
  unfold allPorts
  cases p with
  | stop n => simp
  | lift x => cases x <;> simp
  | front => simp

namespace State

/-! ### One kind of timer each -/

theorem mem_due_slot (s : State) (i : Fin 34) (c : Instr) : c ∈ (s.slot i).due i s.stopped ↔
    ∃ o, (s.slot i).opened = some o ∧ o.paused = false ∧ o.timer = 0 ∧
      (c = .motionTimeout i ∧ o.confirming = false ∨
        o.confirming = true ∧ s.stopped = false ∧
          (c = .confirmTimeout i ∧ o.kind ≠ .exitUnload ∨ c = .exitReadWindowExpiry i ∧ o.kind = .exitUnload)) := by
  unfold Slot.due
  cases ho : (s.slot i).opened with
  | none => simp
  | some o =>
    dsimp only
    cases h1 : o.paused <;> by_cases h2 : o.timer = 0 <;> cases h3 : o.confirming <;> cases h4 : s.stopped <;>
      by_cases h5 : o.kind = .exitUnload <;> simp [h1, h2, h3, h5]

theorem mem_dueLane (s : State) (k : LaneId) (c : Instr) :
    c ∈ s.dueLane k ↔ c = .settleExpiry k ∧ (s.lane k).condition = .settling 0 := by
  unfold dueLane; split <;> simp [*]

theorem mem_dueLinks (s : State) (c : Instr) : c ∈ s.dueLinks ↔ ∃ p, c = .linkLost p ∧ (s.link p).status = .up 0 := by
  unfold dueLinks
  simp only [List.mem_map, List.mem_filter, mem_allPorts, true_and, beq_iff_eq]
  exact exists_congr fun p => by rw [and_comm, eq_comm]

theorem mem_dueEntry (s : State) (x : Side) (c : Instr) : c ∈ s.dueEntry x ↔ ∃ a, c = .entryAged x ∧
    (s.queue x).age = some a ∧ 10 * s.settings.params.entryAgeLimit ≤ a ∧ (s.queue x).aged = false := by
  unfold dueEntry headAged
  cases h : (s.queue x).age with
  | none => simp
  | some a =>
    by_cases h1 : 10 * s.settings.params.entryAgeLimit ≤ a <;> cases h2 : (s.queue x).aged <;> simp [h1]

/-- In hard reset nothing is due. -/
theorem due_inReset {s : State} (h : s.inReset = true) : s.due = [] := by unfold due; rw [if_pos h]

/-! ### Which one is taken -/

theorem nextExpiry_none {s : State} : s.nextExpiry = none ↔ s.due = [] := by
  unfold nextExpiry
  cases s.due with
  | nil => simp
  | cons c l => cases l <;> simp

/-- The expiry that is taken is due, and only the choice among several moves the count of free values. -/
theorem nextExpiry_some {s t : State} {c : Instr} (h : s.nextExpiry = some (c, t)) :
    c ∈ s.due ∧ ∃ n, t = { s with fresh := n } ∧ (s.due.length = 1 → n = s.fresh) := by
  unfold nextExpiry at h
  cases hd : s.due with
  | nil => rw [hd] at h; cases h
  | cons d l =>
    rw [hd] at h
    cases l with
    | nil => cases h; exact ⟨by simp, s.fresh, rfl, fun _ => rfl⟩
    | cons e rest =>
      obtain ⟨rfl, rfl⟩ := Prod.mk.inj (Option.some.inj h)
      have hlt : Config.expiryPick s.fresh (rest.length + 2) % (rest.length + 2) < (d :: e :: rest).length :=
        Nat.mod_lt _ (by simp)
      refine ⟨?_, s.fresh + 1, rfl, fun h1 => by simp at h1⟩
      rw [List.getD_eq_getElem?_getD, List.getElem?_eq_getElem hlt]
      exact List.getElem_mem hlt

/-- What a step on an empty queue can do. -/
theorem step_idle {s : State} (h : s.pending = []) :
    (∃ c n, c ∈ s.due ∧ step s = exec c { s with fresh := n } ∧ (s.due.length = 1 → n = s.fresh)) ∨
    (s.due = [] ∧ step s = .next s.tick) := by
  cases he : s.nextExpiry with
  | none => exact .inr ⟨nextExpiry_none.mp he, by simp only [step, h, he]⟩
  | some ct =>
    obtain ⟨c, t⟩ := ct
    obtain ⟨hc, n, rfl, hn⟩ := nextExpiry_some he
    exact .inl ⟨c, n, hc, by simp only [step, h, he], hn⟩

end State

end Sys2Proof.Machine
end

