-- ==== Sys2Proof/Tests/Slice0.lean ====
section
/-! SUPPORT. Tests: the ill-formed commands that the check refuses, decodings written out byte by byte, small steps on one
aisle at work, and for every obligation a state and operands that meet its hypotheses. -/

open Sys2Proof Sys2Proof.Machine

namespace Sys2Proof.Tests

set_option Elab.async false

/-! ### An aisle at work -/

def lane1 (n : LaneName) : LaneId := { level := 0, name := n }

def tote (i : Ident) (d : Direction) (p : Place) : Record :=
  { ident := i, direction := d, place := p, level := 0, pref := if d = .outbound then some .a else none
    weight := some 1, entry := none, transfer := none }

def failedHold (g : Giver) (t : Taker) : Place := .held { reason := .failed .motionTimeout, giver := g, taker := t }

def exitHold : Place := .held { reason := .exitNoRead, giver := .carriage .b, taker := .exit }

def row (i : Ident) (x : EntryState) : Entry := { ident := i, level := 0, pref := .a, weight := 1, state := x }

/-- Lift B's EXIT_UNLOAD of tote 5. -/
def unload : Open :=
  { kind := .exitUnload, confirming := true, totes := [5], granted := 1, giver := .carriage .b, taker := .exit
    laneWatch := none, carriageWatch := some { start := 1, target := 0, mark := false }
    timer := 30, paused := false, reads := 0 }

/-- Level 1's SHUTTLE_PUT of tote 8 into A-OUT. -/
def put1 : Open :=
  { kind := .shuttlePut, confirming := false, totes := [8], granted := 1, giver := .rack 0, taker := .lane (lane1 .aOut)
    laneWatch := some { start := 1, target := 2, mark := false }, carriageWatch := none
    timer := 80, paused := false, reads := 0 }

/-- Level 1 in AUTO, level 2 in MANUAL, level 3 DRAINING, the others OFF; a tote in each kind of place; a list of two entries
at station 1, which is stalled; both lifts READY, lift B with tote 5; the link of stop 1 UP. -/
def world : State :=
  let s : State := { State.reset with
    records :=
      [(0, tote 1 .inbound .expected), (1, tote 2 .inbound (.entry .a)), (2, tote 3 .inbound (.lane (lane1 .aIn))),
       (3, { tote 4 .outbound (.lane (lane1 .aOut)) with entry := some ⟨0, 1⟩ }),
       (4, tote 5 .outbound (.carriage .b)), (5, tote 6 .inbound (failedHold (.lane (lane1 .aIn)) .shuttle)),
       (6, { tote 7 .outbound exitHold with entry := some ⟨0, 2⟩ }), (7, tote 8 .outbound .expected)]
    opening := 1 }
  let s := (s.setContents (lane1 .aIn) [3]).setContents (lane1 .aOut) [4]
  let s := (s.modLevel 0 fun x => { x with mode := .auto }).modLevel 1 fun x => { x with mode := .manual }
  let s := s.modLevel 2 fun x => { x with mode := .draining }
  let s := (s.modLift .a fun x => { x with status := .ready }).modLift .b fun x => { x with status := .ready, contents := [5] }
  let s := s.modQueue .a fun x => { x with contents := [2], age := some 0 }
  let s := s.setList 0 (some { station := 0, opening := 1, closed := false, entries := [row 4 .pending, row 7 .exitHeld] })
  let s := s.modStation 0 fun x => { x with queue := [0], stalled := true, nextLoad := .withheld, nextExit := .entry ⟨0, 1⟩ }
  s.modLink (.stop 0) fun x => { x with status := .up 10 }

/-- The world with level 1's put open, and with lift B's unload open. -/
def putting : State :=
  ((((world.modSlot 0 fun x => { x with generation := 1, opened := some put1 }).setClaimState 0 .working).setTransfer 8
    (some ⟨0, 1⟩)).modLane (lane1 .aOut) fun x => { x with reserved := 1 })

def unloading : State :=
  (((world.modSlot 33 fun x => { x with generation := 1, opened := some unload }).setLift .b .working).setTransfer 5
    (some ⟨33, 1⟩))

/-- The world with a claim of level 2's shuttle pending. -/
def waiting : State :=
  (world.setClaimState 1 .awaitingApproval).pend { level := 1, claim := .put 8, timer := 300 }

def stoppedWorld : State := world.setLine true

def after (c : Instr) (s : State) : State :=
  match exec c s with
  | .next t => t
  | .fault _ => s
  | .refused _ => s

/-- The state after one step. -/
def stepped (s : State) : State :=
  match step s with
  | .next t => t
  | .fault _ => s
  | .refused _ => s

def codeAfter (c : Instr) (s : State) : Option Code := (after c s).buffer.map (·.code)

/-! ### Ill-formed commands are refused by the check -/

theorem test_wf_scan : (Instr.auditScan 0 ⟨[1, 2, 3, 4], [], [], []⟩).wf = false ∧
    (Instr.auditScan 0 ⟨[], [1, 2, 3, 4], [], []⟩).wf = false ∧ (Instr.auditScan 0 ⟨[], [], [1, 2, 3, 4], []⟩).wf = false ∧
    (Instr.auditScan 0 ⟨[], [], [], [1, 2, 3, 4]⟩).wf = false ∧ (Instr.auditScan 35 ⟨[1, 2, 3], [], [], [4]⟩).wf = true := by
  decide

theorem test_wf_claim : (Instr.approveClaim 1 0 (.side 0)).wf = false ∧ (Instr.denyClaim 1 1 (.identity 5)).wf = false ∧
    (Instr.approveClaim 1 1 (.identity 5)).wf = false ∧ (Instr.denyClaim 1 0 (.side 1)).wf = false ∧
    (Instr.approveClaim 1 0 (.identity 5)).wf = true ∧ (Instr.denyClaim 1 1 (.side 1)).wf = true := by
  decide

theorem test_wf_direct : (Instr.directLift 0 4 1 none).wf = false ∧ (Instr.directLift 0 3 1 (some 1)).wf = false ∧
    (Instr.directLift 0 4 1 (some 2)).wf = true ∧ (Instr.directLift 0 3 1 none).wf = true := by
  decide

theorem test_wf_location : (Instr.declareTote 1 0 1 0 0 (.noForm 0)).wf = false ∧
    (Instr.declareTote 1 0 1 0 0 (.noForm 1)).wf = false ∧ (Instr.declareTote 1 0 1 0 0 (.noForm 2)).wf = false ∧
    (Instr.declareTote 1 0 1 0 0 (.noForm 3)).wf = true := by
  decide

theorem test_wf_entries : (Instr.openList 1 (List.replicate 36 ⟨1, 1, 0, 0⟩)).wf = false ∧
    (Instr.appendEntries 0 (List.replicate 36 ⟨1, 1, 0, 0⟩)).wf = false ∧
    (Instr.openList 1 (List.replicate 35 ⟨1, 1, 0, 0⟩)).wf = true := by
  decide +kernel

/-! ### Bytes written out from R156 to R159, R164, R165, R170 and R171 -/

theorem test_check_words :
    crc8 [0x31, 0x32, 0x33, 0x34, 0x35, 0x36, 0x37, 0x38, 0x39] = 0xF4 ∧
    crc16 [0x31, 0x32, 0x33, 0x34, 0x35, 0x36, 0x37, 0x38, 0x39] = 0x29B1 := by
  decide +kernel

theorem test_requests_of_tables_and_levels :
    requestOfBytes [1, 4, 0, 0, 156, 181, 185] = .readTote 40117 ∧ requestOfBytes [2, 2, 2, 0, 208] = .walk 512 ∧
    requestOfBytes [18, 2, 7, 2, 248] = .setLevelMode 7 2 ∧ requestOfBytes [20, 1, 32, 252] = .startAudit 32 ∧
    requestOfBytes [24, 1, 33, 1] = .readTransfer 33 := by
  decide +kernel

theorem test_requests_with_forms :
    requestOfBytes [32, 6, 7, 0, 0, 0, 156, 181, 98] = .approveClaim 7 0 (.identity 40117) ∧
    requestOfBytes [33, 3, 7, 1, 1, 56] = .denyClaim 7 1 (.side 1) ∧
    requestOfBytes [40, 4, 0, 4, 7, 2, 53] = .directLift 0 4 7 (some 2) ∧
    requestOfBytes [40, 3, 1, 3, 7, 6] = .directLift 1 3 7 none ∧
    requestOfBytes [73, 11, 0, 0, 156, 181, 1, 7, 2, 2, 0, 7, 1, 124] = .declareTote 40117 1 7 2 2 (.lane 7 1) := by
  decide +kernel

theorem test_requests_of_the_other_units :
    requestOfBytes [48, 1, 1, 243] = .readEntry 1 ∧
    requestOfBytes [56, 8, 1, 0, 0, 156, 181, 7, 2, 2, 253] = .openList 1 [⟨40117, 7, 2, 2⟩] ∧
    requestOfBytes [72, 5, 0, 0, 156, 181, 2, 113] = .resolveHold 40117 2 ∧ requestOfBytes [80, 0, 12] = .readLinks ∧
    requestOfBytes [98, 3, 7, 2, 88, 225] = .setParameter 7 600 ∧ requestOfBytes [114, 2, 40, 3, 199] = .setEventMask 40 3 := by
  decide +kernel

theorem test_requests_turned_away :
    requestOfBytes [97, 0, 0] = .unknownRequest .checkError ∧ requestOfBytes [85, 0, 77] = .unknownRequest .unknownRequest ∧
    requestOfBytes [97, 1, 1, 188] = .unknownRequest .badLength ∧ requestOfBytes [97, 251] = .unknownRequest .badLength := by
  decide +kernel

theorem test_frames_of_level_nodes :
    receive (.stop 0) 10 [195, 1, 1, 4, 4, 5, 6, 7, 126, 73] =
      [.beacon 0 ⟨0, true⟩ ⟨1, true⟩ ⟨2, true⟩ ⟨3, true⟩] ∧
    receive (.stop 35) 8 [195, 36, 2, 2, 3, 1, 86, 196] = [.laneState 35 .bOut ⟨1, false⟩] ∧
    receive (.stop 6) 10 [195, 7, 3, 4, 0, 0, 156, 181, 5, 148] = [.claimPut 6 40117] ∧
    receive (.stop 6) 7 [195, 7, 4, 1, 1, 42, 61] = [.claimTake 6 .b] ∧
    receive (.stop 6) 8 [195, 7, 6, 2, 6, 255, 139, 119] = [.aborted (.node 6) 6 255] ∧
    receive (.stop 6) 14 [195, 7, 7, 8, 0, 1, 0, 0, 156, 181, 0, 0, 236, 116] =
      [.auditScan 6 ⟨[], [40117], [], []⟩] := by
  decide +kernel

theorem test_frames_of_lifts_and_front :
    receive (.lift .a) 8 [195, 40, 5, 2, 32, 9, 94, 127] = [.done (.lift .a) 32 9] ∧
    receive (.lift .b) 7 [195, 41, 8, 1, 15, 43, 134] = [.carriageState .b ⟨.seated, .seated⟩] ∧
    receive (.lift .a) 6 [195, 40, 9, 0, 89, 99] = [.jobRequest .a] ∧
    receive .front 13 [195, 50, 10, 7, 0, 0, 0, 156, 181, 255, 1, 53, 212] = [.arrival 0 40117 255 1] ∧
    receive .front 11 [195, 50, 11, 5, 1, 0, 0, 156, 181, 240, 195] = [.exitRead 1 40117] := by
  decide +kernel

theorem test_frames_turned_away :
    receive (.stop 6) 10 [195, 8, 3, 4, 0, 0, 156, 181, 143, 125] = [.wrongNode (.stop 6)] ∧
    receive (.stop 6) 6 [195, 7, 9, 0, 243, 148] = [.foreignFrame (.stop 6)] ∧
    receive (.stop 6) 7 [195, 7, 4, 1, 2, 26, 94] = [.malformedFrame (.stop 6)] ∧
    receive (.stop 6) 6 [195, 7, 9, 0, 243, 149] =
      [.discardedFrame ⟨.stop 6, [195, 7, 9, 0, 243, 149]⟩] ∧
    unfinished 9 [195, 7, 9, 0, 243, 149, 195, 7, 9] = [195, 7, 9] := by
  decide +kernel

theorem test_bytes_that_leave :
    ({ code := .ok, body := .identity Config.partCode Config.revision } : Response).bytes = [0, 3, 10, 54, 3, 51] ∧
    (OutFrame.status true).bytes .front = [195, 255, 128, 1, 1, 215, 41] ∧
    (OutFrame.job 32 1 .liftTake 1 (some 6) (some .aOut) [40117]).bytes (.lift .a) =
      [195, 40, 130, 10, 32, 1, 4, 1, 7, 1, 0, 0, 156, 181, 13, 130] := by
  decide +kernel

/-! ### Small steps -/

theorem test_step_takes_the_front :
    stepped { world with pending := [.collect .asserts] } = { world with chip := .asserted 0xB0 } := by
  decide +kernel

/-- Lane B-IN of level 1 one tick before the end of its settle time. -/
def settling1 : State := world.modLane (lane1 .bIn) fun x => { x with condition := .settling 1 }

/-- The tick brings the timer to zero; the expiry is the next step, and no time goes by in it. -/
theorem test_tick_of_a_settle_time :
    let t := stepped settling1
    let u := stepped t
    (t.lane (lane1 .bIn)).condition = .settling 0 ∧ t.pending = [] ∧ t.due = [.settleExpiry (lane1 .bIn)] ∧
    t.statusPeriod = 1 ∧ (u.lane (lane1 .bIn)).condition = .clear ∧ u.due = [] ∧ u.statusPeriod = 1 ∧
    (u.queue .a).age = some 1 := by
  decide +kernel

/-- The silence timer of stop 1 stands at zero, and the head of queue A at its limit. -/
def silent1 : State := world.modLink (.stop 0) fun x => { x with status := .up 0 }
def aged1 : State := world.modQueue .a fun x => { x with age := some 600 }

/-- An expiry that an event taken first has undone is not due any more (R113, R114, R160). -/
theorem test_an_undone_expiry_is_not_taken :
    silent1.due = [.linkLost (.stop 0)] ∧ (after (.laneState 0 .aIn ⟨1, true⟩) silent1).due = [] ∧
    aged1.due = [.entryAged .a] ∧ (aged1.setQueue .a []).due = [] ∧ (aged1.setQueue .a [1]).due = [] := by
  decide +kernel

/-- An event between the assertion of chip select and its release shows only in the next transaction (R168). -/
theorem test_status_byte_is_taken_at_the_assertion :
    let s := after .stopAsserted (after (.collect .asserts) world)
    let t := after (.readTote 3) s
    s.statusByte = 0xB8 ∧ t.portOut = [0xB0] ∧ t.shiftedOut 0 = 0xB0 ∧ t.shiftedOut 1 = 0 ∧
    (after (.collect (.polls 3)) t).portOut = [0xBA] := by
  decide +kernel

/-- The report before agreed when it arrived, so a report that disagrees with what was declared since is flagged (R88). -/
theorem test_a_report_is_compared_when_it_arrives :
    let empty (s : State) : State := after (.carriageState .a ⟨.empty, .empty⟩) s
    let s := empty (world.setLift .a .disabled)
    let t := empty { after (.declareTote 50 0 5 4 9 (.carriage 0)) s with buffer := none }
    s.raised (.lift .a .carriageMismatch) = false ∧ (t.lift .a).contents = [50] ∧
    t.raised (.lift .a .carriageMismatch) = true ∧
    (empty { t with flags := world.flags }).raised (.lift .a .carriageMismatch) = false := by
  decide +kernel

theorem test_read_tote : (after (.readTote 3) world).buffer =
    some { code := .ok, body := .tote { record := tote 3 .inbound (.lane (lane1 .aIn)), position := some 1 } } := by
  decide +kernel

theorem test_announce_and_cancel :
    ((after (.announceInbound 99 32) world).lookup 99).map (·.level) = some 31 ∧
    ((after (.cancelRecord 1) world).lookup 1) = none ∧ codeAfter (.cancelRecord 2) world = some .wrongState := by
  decide +kernel

theorem test_levels :
    codeAfter (.setLevelMap 1 33) world = some .wrongState ∧ (after (.setLevelMap 32 33) world).stopOf 31 = some 32 ∧
    (after (.setLevelMode 1 0) world).buffer = some { code := .ok, body := .mode .off } ∧
    (after (.setLevelMode 1 0) putting).buffer = some { code := .ok, body := .mode .draining } ∧
    ((after (.startAudit 1) world).level 0).scan = some 30 := by
  decide +kernel

theorem test_a_put_is_claimed_confirmed_and_committed :
    let s := after (.claimPut 0 8) world
    let t := after (.laneState 0 .aOut ⟨2, true⟩) (after (.done (.node 0) 0 1) s)
    ((s.link (.stop 0)).order.getLast?, s.claimState 0) = (some (.grant 0 1 .shuttlePut .aOut 8), .working) ∧
    (t.lane (lane1 .aOut)).contents = [4, 8] ∧ (t.lane (lane1 .aOut)).condition = .settling 3 ∧
    (t.slot 0).lastEnd = .committed ∧ (t.lookup 8).map (·.place) = some (.lane (lane1 .aOut)) := by
  decide +kernel

theorem test_a_put_fails_in_time :
    let t := after (.motionTimeout 0) putting
    (t.lookup 8).map (·.place) = some (failedHold (.rack 0) (.lane (lane1 .aOut))) ∧
    (t.lane (lane1 .aOut)).condition = .blocked .confirmFail ∧ (t.level 0).streak = 1 ∧
    t.raised (.level 0 .transferFailed) = true ∧ t.raised (.aisle .holdRaised) = true := by
  decide +kernel

theorem test_a_job_is_granted :
    ((after (.jobRequest .a) world).lift .a).reserved = [⟨.inbound, 1⟩] ∧
    ((after (.jobRequest .a) world).link (.lift .a)).order.getLast? =
      some (.job 32 1 .entryLoad 1 none none [2]) := by
  decide +kernel

theorem test_an_arrival_joins_its_queue :
    ((after (.arrival 1 1 4 0) world).queue .b) = { contents := [1], age := some 0, aged := false, rejection := none } ∧
    ((after (.arrival 1 9 4 0) world).queue .b).rejection = some ⟨9, .noRecord, .weight 4⟩ := by
  decide +kernel

theorem test_an_exit_read_matches_or_not :
    (after (.exitRead 1 5) unloading).lookup 5 = none ∧
    ((after (.exitRead 1 6) unloading).lookup 5).map (·.place) =
      some (.held { reason := .exitMismatch, giver := .carriage .b, taker := .exit }) ∧
    (after (.exitRead 0 5) unloading).unsolicited = some (.a, 5) := by
  decide +kernel

theorem test_lists :
    (after (.openList 4 [⟨8, 1, 2, 1⟩, ⟨200, 2, 0, 4⟩]) world).buffer = some { code := .ok, body := .opened 1 2 } ∧
    (after (.openList 4 [⟨8, 2, 2, 1⟩]) world).buffer = some { code := .wrongLevel, body := .position 1 } ∧
    codeAfter (.abortList 0) world = some .busy ∧
    ((after (.skipEntry 0 1) world).station 0).nextExit = .endOfList 0 ∧
    ((after (.confirmExit 7) world).station 0).stalled = false := by
  decide +kernel

theorem test_recovery :
    (after (.resolveHold 6 1) world).lookup 6 = none ∧ ((after (.resolveHold 6 0) world).lane (lane1 .aIn)).contents = [6, 3] ∧
    codeAfter (.resolveHold 7 2) world = some .wrongState ∧
    ((after (.declareTote 50 0 5 4 9 (.lane 5 0)) world).lane ⟨4, .aIn⟩).contents = [50] := by
  decide +kernel

theorem test_links_and_events :
    ((after (.linkLost (.stop 0)) world).level 0).fenced = true ∧
    ((after (.frontBeacon) world).link .front).status = .up 10 ∧
    (after (.readClearEvents 0) world).buffer = some { code := .ok, body := .events 1 0 } ∧
    nth (after (.readClearEvents 0) world).flags 0 = 0 ∧ (after (.setParameter 7 600) world).settings.params.entryAgeLimit = 600 ∧
    codeAfter (.setParameter 10 3) world = some .outOfRange := by
  decide +kernel

theorem test_the_stop :
    (after .stopAsserted waiting).approvals = [] ∧ (after .stopAsserted waiting).claimState 1 = .idle ∧
    (((after .stopAsserted putting).slot 0).opened.map (·.paused)) = some true ∧
    codeAfter (.approveClaim 2 0 (.identity 8)) (waiting.setLine true) = some .stopped := by
  decide +kernel

/-! ### For every obligation with hypotheses: a state and operands that meet them, clause by clause -/

theorem test_ready : world.ready ∧ waiting.ready ∧ putting.ready ∧ unloading.ready ∧ stoppedWorld.ready := by
  decide +kernel

/-- The part in hard reset with the stop line asserted or not. -/
def held (line : Bool) : State := State.inHardReset line .idle 0 []

theorem test_meets_EmptyQueueTicks :
    (held false).pending = [] ∧ (held false).inReset = true ∧ world.pending = [] ∧ world.inReset = false ∧ world.due = [] ∧
    silent1.due.length = 1 ∧ { silent1 with statusPeriod := 0 }.due = [.linkLost (.stop 0), .statusPeriodEnd] ∧
    (world.lane (lane1 .aIn)).condition = .clear ∧ (settling1.lane (lane1 .bIn)).condition = .settling 1 ∧
    (world.link (.stop 0)).status = .up 10 ∧ (world.link .front).status = .down ∧
    (aged1.queue .a).age = some 600 ∧ 10 * aged1.settings.params.entryAgeLimit ≤ 600 ∧ (aged1.queue .a).aged = false := by
  decide +kernel

/-- The timers of transfers, of a scan and of an approval at zero (R49, R50, R42, R79). -/
theorem test_expiries_of_transfers_and_levels :
    (putting.putOpen 0 { put1 with timer := 0 }).due = [.motionTimeout 0] ∧
    (putting.putOpen 0 { put1 with timer := 0, confirming := true }).due = [.confirmTimeout 0] ∧
    (unloading.putOpen 33 { unload with timer := 0 }).due = [.exitReadWindowExpiry 33] ∧
    (putting.putOpen 0 { put1 with timer := 0, paused := true }).due = [] ∧
    (world.modLevel 0 fun x => { x with scan := some 0 }).due = [.scanTimeout 0] ∧
    (world.pend { level := 1, claim := .put 8, timer := 0 }).due = [.approvalTimeout 1] := by
  decide +kernel

theorem test_meets_ResetValues :
    State.reset.stopLine = false ∧ State.reset.chip = .idle ∧ State.reset.fresh = 0 ∧ State.reset.pending = [] :=
  ⟨rfl, rfl, rfl, rfl⟩

theorem test_meets_StepKeepsPointersAndAttentionCurrent : world.current ∧ ∃ t, step world = .next t :=
  ⟨by unfold State.current; decide +kernel, _, rfl⟩

/-- One shuttle at work, one level waiting. -/
theorem test_meets_StepKeepsPartiesEngaged :
    let s := (putting.setClaimState 1 .awaitingApproval).pend { level := 1, claim := .put 8, timer := 300 }
    s.engaged ∧ ∃ t, step s = .next t := by
  refine ⟨⟨?_, by decide +kernel, by decide +kernel⟩, _, rfl⟩
  intro i
  have levels : ∀ i : Fin 34, ∀ l, slotOwner i = .inl l →
      ((((putting.setClaimState 1 .awaitingApproval).pend { level := 1, claim := .put 8, timer := 300 }).claimState l = .working) ↔
      (((putting.setClaimState 1 .awaitingApproval).pend { level := 1, claim := .put 8, timer := 300 }).slot i).opened.isSome) := by
    decide +kernel
  have lifts : ∀ i : Fin 34, 32 ≤ i.val → (putting.slot i).opened = none := by decide +kernel
  unfold State.partyEngaged
  split
  · exact levels i _ (by assumption)
  · next x h =>
    have hi : 32 ≤ i.val := by
      by_contra hlt
      rw [slotOwner, dif_pos (by omega)] at h
      cases h
    have e : (putting.slot i).opened = none := lifts i hi
    show (putting.lift x).status = .working ↔ (putting.slot i).opened.isSome
    rw [e]
    cases x <;> decide +kernel

theorem test_meets_StepKeepsSettingsLegalAndFencesCurrent :
    world.settings.legal ∧ world.fencesCurrent ∧ ∃ t, step world = .next t :=
  ⟨by unfold Settings.legal Params.legal; decide +kernel, by unfold State.fencesCurrent; decide +kernel, _, rfl⟩

theorem test_world_table : world.tableLegal := by unfold State.tableLegal; decide +kernel

theorem test_meets_StepKeepsTableLegal : world.tableLegal ∧ ∃ t, step world = .next t := ⟨test_world_table, _, rfl⟩

/-- Lift A parked, with a tote to load, or with none. -/
def parked : State := world.setLift .a .parked
def parkedIdle : State := parked.setQueue .a []

theorem test_meets_ClosingAnEvent :
    (∀ x, (world.lift x).status ≠ .parked) ∧ stoppedWorld.stopped = true ∧ (parked.lift .b).status ≠ .parked ∧
    world.refreshPointers.cause = false ∧ parked.withCause.refreshPointers.cause = true ∧ parked.withCause.stopped = false ∧
    (parked.lift .a).status = .parked ∧ (parked.select .a).2 = true ∧ (parkedIdle.lift .a).status = .parked ∧
    (parkedIdle.select .a).2 = false ∧ (world.station 0).nextLoad = world.nextLoadOf 0 ∧
    ((world.modStation 0 fun x => { x with stalled := false }).nextLoadOf 0) ≠ (world.station 0).nextLoad :=
  ⟨by intro x; cases x <;> decide +kernel, by decide +kernel⟩

theorem test_meets_PortBufferAndOverrun :
    let full := world.told .ok (.mode .auto)
    (requestParts (.readTote 1)).isSome ∧ full.hearsPort ∧ full.buffer.isSome ∧ (collected full.buffer).length = 4 ∧
    3 < (collected full.buffer).length ∧ world.ready ∧ world.buffer = none ∧ world.hearsPort ∧ world.chip = .idle ∧
    (after (.collect .asserts) world).chip = .asserted 0xB0 ∧ (after .hardReset (after (.collect .asserts) world)).chip = .abandoned ∧
    (after .resetRelease (after .hardReset (after (.collect .asserts) world))).inReset = false ∧
    (after .resetRelease (after .hardReset (after (.collect .asserts) world))).chip = .abandoned := by
  decide +kernel

theorem test_meets_RequestsReadBack :
    (Instr.openList 4 (List.replicate 35 ⟨8, 1, 2, 1⟩)).wf = true ∧
    (requestBytes (.openList 4 (List.replicate 35 ⟨8, 1, 2, 1⟩))).isSome ∧
    (Instr.directLift 0 0 1 (some 7)).wf = true ∧ (Instr.directLift 0 0 1 none).wf = true ∧
    (Instr.approveClaim 1 2 (.side 7)).wf = true ∧ (Instr.declareTote 0 0 1 0 9 (.noForm 255)).wf = true ∧
    (0 : Byte) ≠ 1 ∧ (3 : Byte) ≠ 2 := by
  decide +kernel

theorem test_meets_FramesReadBack :
    (Instr.auditScan 35 ⟨[1, 2, 3], [], [4], [5, 6, 7]⟩).wf = true ∧
    (frameParts (.auditScan 35 ⟨[1, 2, 3], [], [4], [5, 6, 7]⟩)).isSome ∧
    (frameParts (.arrival 255 0 255 255)).isSome ∧ (frameParts (.done (.node 35) 255 255)).isSome := by
  decide

theorem test_meets_ReadToteAndWalk :
    world.tableLegal ∧ world.ready ∧ (9 : Ident) ≠ 0 ∧ (∀ p ∈ world.records, p.2.ident ≠ 9) ∧
    (2, tote 3 .inbound (.lane (lane1 .aIn))) ∈ world.records ∧ (513#16).toNat = 513 ∧
    (512#16).toNat ≤ 512 ∧ (∀ p ∈ world.records, p.1 < (8#16).toNat) ∧
    (7, tote 8 .outbound .expected) ∈ world.records ∧ (7#16).toNat ≤ 7 ∧
    (∀ p ∈ world.records, (7#16).toNat ≤ p.1 → 7 ≤ p.1) :=
  ⟨test_world_table, by decide +kernel⟩

theorem test_meets_AnnounceInboundCreatesOneRecord :
    (0#8).toNat < 1 ∧ 32 < (33#8).toNat ∧ (32#8).toNat = (31 : Level).val + 1 ∧ (1#8).toNat = (0 : Level).val + 1 ∧
    (world.lookup 1).isSome ∧ world.lookup 9 = none ∧ world.records.length < 512 ∧
    512 ≤ (List.replicate 512 (0, tote 1 .inbound .expected)).length ∧
    (({ world with records := List.replicate 512 (0, tote 1 .inbound .expected) } : State).lookup 9) = none := by
  decide +kernel

theorem test_meets_RetargetAndCancelRecord :
    world.lookup 9 = none ∧ world.lookup 4 = some { tote 4 .outbound (.lane (lane1 .aOut)) with entry := some ⟨0, 1⟩ } ∧
    (world.lookup 3).map (·.place.isLane) = some true ∧ (world.lookup 6).map (·.place.isHeld) = some true ∧
    world.lookup 2 = some (tote 2 .inbound (.entry .a)) ∧ (tote 2 .inbound (.entry .a)).transfer = none ∧
    ((world.setTransfer 2 (some ⟨32, 1⟩)).lookup 2).map (·.transfer.isSome) = some true ∧
    world.lookup 1 = some (tote 1 .inbound .expected) ∧ world.lookup 8 = some (tote 8 .outbound .expected) ∧
    (tote 8 .outbound .expected).entry = none ∧ (putting.lookup 8).map (·.transfer.isSome) = some true := by
  decide +kernel

/-- The world with one correction enabled: a read of 9 stands for tote 1. -/
def correcting : State := world.modSettings fun x =>
  { x with corrections := upd x.corrections 3 fun _ => { enabled := true, read := 9, corrected := 1 } }

theorem test_meets_SetCorrectionWritesOneEntry :
    7 < (8#8).toNat ∧ 1 < (2#8).toNat ∧ (7#8).toNat = (7 : Fin 8).val ∧ (3 : Fin 8) ≠ 7 ∧
    (nth correcting.settings.corrections 3).enabled = true ∧ (nth correcting.settings.corrections 3).read = 9 ∧
    (∀ k, k ≠ 7 → (nth correcting.settings.corrections k).enabled = true → (nth correcting.settings.corrections k).read ≠ 10) := by
  decide +kernel

theorem test_meets_ReadsAreCorrectedOnce :
    correcting.settings.legal ∧ (nth correcting.settings.corrections 3).enabled = true ∧
    (nth correcting.settings.corrections 3).read = 9 ∧
    (∀ k, (nth correcting.settings.corrections k).enabled = true → (nth correcting.settings.corrections k).read ≠ 2) ∧
    correcting.correct 9 = correcting.correct 1 ∧ [9, 3].map correcting.correct = [1, 3].map correcting.correct :=
  ⟨by unfold Settings.legal Params.legal; decide +kernel, by decide +kernel⟩

/-- Level 2 mapped, its link LOST. -/
def lost2 : State := waiting.setLink (.stop 1) .lost

theorem test_meets_FenceFollowsItsCauses :
    ((lost2.recomputeFence 1).level 1).fenced ≠ (lost2.level 1).fenced ∧ (lost2.level 1).fenced = false ∧
    lost2.stopOf 1 = some 1 ∧ (lost2.pendingOf 1).isSome ∧ world.pendingOf 1 = none ∧
    ((world.recomputeFence 0).level 0).fenced = (world.level 0).fenced ∧
    ((((lost2.recomputeFence 1).setLink (.stop 1) (.up 10)).recomputeFence 1).level 1).fenced ≠
      ((lost2.recomputeFence 1).level 1).fenced ∧ ((lost2.recomputeFence 1).level 1).fenced = true := by
  decide +kernel

theorem test_meets_SetLevelMapRemapsAnEmptyOffLevel :
    36 < (37#8).toNat ∧ (32#8).toNat = (31 : Level).val + 1 ∧ (36#8).toNat = (35 : Stop).val + 1 ∧
    (world.level 0).mode ≠ .off ∧ (world.level 31).mode = .off ∧ (world.level 31).scan = none ∧
    ((world.setContents ⟨31, .bOut⟩ [9]).lane ⟨31, .bOut⟩).contents ≠ [] ∧
    ((world.modLevel 31 fun x => { x with scan := some 5 }).level 31).scan.isSome ∧
    ((world.blockLane ⟨31, .aIn⟩ .scanTimeout).lane ⟨31, .aIn⟩).condition.isBlocked ∧
    (world.stopOf 0 = some 0) ∧ (∀ k, k ≠ 31 → world.stopOf k ≠ some 35) ∧
    (∀ n ∈ LaneName.all, (world.lane ⟨31, n⟩).contents = [] ∧ (world.lane ⟨31, n⟩).condition.isBlocked = false) := by
  decide +kernel

theorem test_meets_LaneDepthAndFenceSettings :
    3 < (4#8).toNat ∧ (0#8).toNat < 1 ∧ (32#8).toNat = (31 : Level).val + 1 ∧ (3#8).toNat = LaneName.bOut.ix.val ∧
    (3#8).toNat ≤ 3 ∧ 1 ≤ (1#8).toNat ∧ (world.lane (lane1 .aIn)).contents ≠ [] ∧
    (world.level 31).mode = .off ∧ (world.lane ⟨31, .bOut⟩).contents = [] ∧ 1 < (2#8).toNat ∧ (1#8).toNat ≤ 1 := by
  decide +kernel

theorem test_meets_SetLevelModeFollowsTheModeTable :
    2 < (3#8).toNat ∧ (32#8).toNat = (31 : Level).val + 1 ∧ (after (.setLevelMap 32 0) world).stopOf 31 = none ∧
    world.stopOf 0 ≠ none ∧ (world.level 0).mode = .auto ∧ (waiting.level 1).mode = .manual ∧
    (waiting.pendingOf 1).isSome ∧ waiting.stopOf 1 = some 1 ∧ world.modeAskedOff 3 = .off ∧
    (world.level 3).mode = .off ∧ putting.modeAskedOff 0 = .draining := by
  decide +kernel

/-- An audit of level 1, with B-IN blocked. -/
def auditing : State := (world.blockLane (lane1 .bIn) .unexpectedChange).beginAudit 0

theorem test_meets_AuditsStartAndEnd :
    (32#8).toNat = (31 : Level).val + 1 ∧ (after (.setLevelMap 32 0) world).stopOf 31 = none ∧ world.stopOf 0 = some 0 ∧
    (world.link (.stop 0)).status = .up 10 ∧ (world.link (.stop 1)).status = .down ∧ putting.levelTouched 0 = true ∧
    world.levelTouched 0 = false ∧ (world.level 2).mode = .draining ∧ (world.level 0).mode ≠ .draining ∧
    (world.level 0).scan = none ∧ (auditing.level 0).scan.isSome ∧ world.levelAt 35 = none ∧ world.levelAt 0 = some 0 ∧
    (auditing.lane (lane1 .aIn)).condition = .audit ∧ [3] = (auditing.lane (lane1 .aIn)).contents ∧
    [4, 9] ≠ (auditing.lane (lane1 .aOut)).contents ∧ (auditing.lane (lane1 .bIn)).condition.isBlocked ∧
    (auditing.lane (lane1 .bIn)).condition ≠ .audit ∧ (auditing.lane (lane1 .bOut)).condition = .audit := by
  decide +kernel

/-- Lane A-IN of level 1 blocked, with a settled report of 1. -/
def blockedLane : State := (world.blockLane (lane1 .aIn) .confirmFail).modLane (lane1 .aIn) fun x =>
  { x with report := some ⟨1, true⟩ }

theorem test_meets_ClearLaneBlockNeedsAnAgreeingReport :
    3 < (4#8).toNat ∧ (1#8).toNat = (0 : Level).val + 1 ∧ (0#8).toNat = LaneName.aIn.ix.val ∧
    (world.lane (lane1 .aIn)).condition.isBlocked = false ∧ (blockedLane.lane (lane1 .aIn)).condition.isBlocked ∧
    (blockedLane.lane (lane1 .aIn)).report = some ⟨1, true⟩ ∧
    (1 : Fin 4).val = (blockedLane.lane (lane1 .aIn)).contents.length ∧
    ((world.blockLane (lane1 .aIn) .confirmFail).lane (lane1 .aIn)).report = none ∧
    (world.blockLane (lane1 .aIn) .confirmFail).ready ∧ blockedLane.ready := by
  decide +kernel

theorem test_meets_LaneReportsAndSettleTimes :
    world.levelAt 35 = none ∧ world.levelAt 0 = some 0 ∧ putting.slotNaming (lane1 .aOut) = some 0 ∧
    world.slotNaming (lane1 .aIn) = none ∧ (world.lane (lane1 .aIn)).condition = .clear ∧
    (2 : Fin 4).val ≠ (world.lane (lane1 .aIn)).contents.length ∧
    (1 : Fin 4).val = (world.lane (lane1 .aIn)).contents.length ∧
    ((world.startSettle (lane1 .aIn)).lane (lane1 .aIn)).condition = .settling 3 ∧
    (blockedLane.lane (lane1 .aIn)).condition.isBlocked ∧ (auditing.lane (lane1 .aIn)).condition = .audit ∧
    world.busy (lane1 .aIn) = false ∧ putting.busy (lane1 .aOut) = true := by
  decide +kernel

theorem test_meets_ReadLevelAndReadLane :
    32 < (33#8).toNat ∧ 3 < (4#8).toNat ∧ (32#8).toNat = (31 : Level).val + 1 ∧ (1#8).toNat = LaneName.aOut.ix.val ∧
    (∀ i, (world.slot i).namesLane (lane1 .aOut) = false) ∧ (putting.slot 0).namesLane (lane1 .aOut) = true ∧
    (∀ j, (putting.slot j).namesLane (lane1 .aOut) = true → j = 0) := by
  decide +kernel

/-- The grants of level 1's put and take, of lift A's load and of lift B's drop. -/
def putGrant : Grant :=
  { slot := 0, kind := .shuttlePut, totes := [8], giver := .rack 0, taker := .lane (lane1 .aOut) }
def takeGrant : Grant :=
  { slot := 0, kind := .shuttleTake, totes := [3], giver := .lane (lane1 .aIn), taker := .shuttle }
def loadGrant : Grant :=
  { slot := 32, kind := .entryLoad, totes := [2], giver := .entry .a, taker := .carriage .a }
def unloadGrant : Grant :=
  { slot := 33, kind := .exitUnload, totes := [5], giver := .carriage .b, taker := .exit }

theorem test_meets_GrantOpensATransfer :
    (takeGrant.giver = .lane (lane1 .aIn) ∧ takeGrant.taker.isLane = false) ∧
    putGrant.taker = .lane (lane1 .aOut) ∧ putGrant.giver = .rack 0 ∧
    (unloadGrant.giver = .carriage .b ∧ unloadGrant.taker.isCarriage = false) ∧
    (loadGrant.taker = .carriage .a ∧ loadGrant.giver = .entry .a) ∧ loadGrant.totes = [2] ∧ (world.lookup 2).isSome ∧
    slotOwner 31 = .inl 31 ∧ slotOwner 32 = .inr .a ∧ slotOwner 33 = .inr .b ∧ (world.lookup 8).isSome := by
  decide +kernel

/-- Lift A's LIFT_TAKE of the sequenced tote 4, its entry CLAIMED. -/
def taking : State := world.grantJob .a
  { slot := 32, kind := .liftTake, totes := [4], giver := .lane (lane1 .aOut), taker := .carriage .a }

theorem test_meets_CommitMovesTheRecords :
    ((putting.slot 0).opened = some put1 ∧ put1.taker = .lane (lane1 .aOut) ∧ 8 ∈ put1.totes ∧ (putting.lookup 8).isSome) ∧
    (((taking.slot 32).opened.map fun o => (o.kind, o.totes, o.giver, o.taker)) =
      some (.liftTake, [4], .lane (lane1 .aOut), .carriage .a)) ∧
    ((taking.lookup 4).bind (·.entry) = some ⟨0, 1⟩) ∧ taking.entryState ⟨0, 1⟩ = some .claimed ∧
    put1.kind ≠ .liftTake ∧
    (let s := putting.modLevel 0 fun x => { x with mode := .draining }
     s.touches 0 0 = true ∧ (s.level 0).mode = .draining ∧ (s.commit 0 put1).levelTouched 0 = false) ∧
    (putting.level 0).mode ≠ .draining ∧ takeGrant.taker = .shuttle ∧ unloadGrant.taker = .exit ∧
    ((world.openTransfer loadGrant).slot 32).opened.map (fun o => (o.giver, o.totes)) = some (.entry .a, [2]) ∧
    (let c := (world.queue .a).contents.filter fun x => x ∉ loadGrant.totes; c.head? ≠ (world.queue .a).contents.head?) ∧
    (let c := ((world.setQueue .a [2, 1]).queue .a).contents.filter fun x => x ∉ [1]
     c.head? = ((world.setQueue .a [2, 1]).queue .a).contents.head?) := by
  decide +kernel

/-- Lift A's drop into a lane of level 2, which is in MANUAL with a claim pending and a streak of 2. -/
def dropping2 : State :=
  (waiting.modLevel 1 fun x => { x with streak := 2 }).openTransfer
    { slot := 32, kind := .liftDrop, totes := [3], giver := .carriage .a, taker := .lane ⟨1, .aIn⟩ }

theorem test_meets_FailureHoldsTheTotes :
    (putting.slot 0).opened = some put1 ∧ put1.totes ≠ [] ∧ laneNamed put1.giver put1.taker = some (lane1 .aOut) ∧
    (putting.lane (lane1 .aOut)).condition.isBlocked = false ∧
    ((putting.blockLane (lane1 .aOut) .scanTimeout).lane (lane1 .aOut)).condition.isBlocked ∧
    putting.touches 0 0 = true ∧ putting.touches 0 31 = false ∧ slotOwner 0 = .inl 0 ∧
    (unloading.slot 33).opened = some unload ∧ slotOwner 33 = .inr .b ∧
    (let s := putting.modLevel 0 fun x => { x with streak := 2 }
     (s.level 0).mode = .auto ∧ s.settings.params.streakLimit ≤ min 7 ((s.level 0).streak + 1) ∧
       ((s.modLane (lane1 .bIn) fun x => { x with condition := .settling 2 }).lane (lane1 .bIn)).condition = .settling 2) ∧
    (dropping2.slot 32).opened.isSome ∧ dropping2.touches 32 1 = true ∧ (dropping2.level 1).mode = .manual ∧
    dropping2.settings.params.streakLimit ≤ min 7 ((dropping2.level 1).streak + 1) ∧ (dropping2.pendingOf 1).isSome ∧
    dropping2.stopOf 1 = some 1 ∧ (∀ k, k ≠ 1 → dropping2.stopOf k ≠ some 1) ∧
    (let s := putting.modLevel 0 fun x => { x with mode := .draining }
     s.touches 0 0 = true ∧ (s.level 0).mode = .draining ∧ (s.fail 0 put1 .motionTimeout).levelTouched 0 = false) := by
  decide +kernel

/-- Level 1's put with DONE sent, and with its lane's mark. -/
def confirming : State := putting.putOpen 0 { put1 with confirming := true }
def marked : State := putting.putOpen 0 { put1 with confirming := true }.markLane

theorem test_meets_ReportsAreJudgedByTheTable :
    (putting.slot 0).opened = some put1 ∧ put1.laneWatch = some { start := 1, target := 2, mark := false } ∧
    (0 : Fin 4).val < min 1 2 ∧ max 1 2 < (3 : Fin 4).val ∧ min 1 2 ≤ (1 : Fin 4).val ∧ (1 : Fin 4).val ≠ 2 ∧
    (2 : Fin 4).val = 2 ∧ put1.confirming = false ∧
    (confirming.slot 0).opened = some { put1 with confirming := true } ∧ put1.kind ≠ .liftTake ∧
    ((marked.slot 0).opened.bind (·.laneWatch)).map (·.mark) = some true ∧
    (((taking.slot 32).opened.bind (·.laneWatch)) = some { start := 1, target := 0, mark := false }) ∧
    (unloading.slot 33).opened = some unload ∧ unload.carriageWatch = some { start := 1, target := 0, mark := false } ∧
    unload.confirming = true ∧ reportCount ⟨.running, .empty⟩ = none ∧ reportCount ⟨.seated, .seated⟩ = some 2 ∧
    reportCount ⟨.seated, .empty⟩ = some 1 ∧ reportCount ⟨.empty, .empty⟩ = some 0 := by
  decide +kernel

/-- Level 1's slot free after a failure. -/
def failed1 : State := putting.fail 0 put1 .motionTimeout

theorem test_meets_DoneAndAbortedAreAnswered :
    ((putting.takeValid (.stop 0)).senderSlot (.node 0) = some 0 ∧ (0#8).toNat = (0 : Fin 34).val ∧
      1 = ((putting.takeValid (.stop 0)).slot 0).generation ∧ ((putting.takeValid (.stop 0)).slot 0).opened.isSome) ∧
    (putting.takeValid (.stop 35)).senderSlot (.node 35) = none ∧ (33#8).toNat = (33 : Fin 34).val ∧
    ((failed1.takeValid (.stop 0)).slot 0).opened = none ∧
    ((failed1.takeValid (.stop 0)).slot 0).lastEnd = .failed .motionTimeout ∧
    ((world.takeValid (.stop 0)).slot 0).lastEnd = .none ∧ put1.confirming = false ∧
    { put1 with confirming := true }.complete = false ∧
    { unload with confirming := true, totes := [], carriageWatch := none }.complete = true ∧
    (putting.lane (lane1 .aOut)).report = none ∧ unload.kind = .exitUnload ∧ unload.confirming = true ∧ put1.reads = 0 := by
  decide +kernel

theorem test_meets_TransferTimersExpire :
    (world.slot 0).opened = none ∧ (putting.slot 0).opened = some put1 ∧ put1.confirming = false ∧ put1.paused = false ∧
    (confirming.slot 0).opened = some { put1 with confirming := true } ∧ confirming.stopped = false ∧
    ((putting.pauseTimers.slot 0).opened.map (·.paused)) = some true ∧
    (unloading.slot 33).opened = some unload ∧ unload.kind = .exitUnload ∧ unload.giver = .carriage .b ∧
    unload.carriageWatch = some { start := 1, target := 0, mark := false } ∧ unload.confirming = true ∧
    (unload.markCarriage.carriageWatch.map (·.mark)) = some true := by
  decide +kernel

theorem test_meets_ReadTransferAndReadApprovals :
    33 < (34#8).toNat ∧ (33#8).toNat = (33 : Fin 34).val ∧ 31 < (32#8).toNat ∧ (31#8).toNat ≤ 31 := by
  decide

theorem test_meets_ClaimChecksInOrder :
    (world.level 3).mode = .off ∧ (world.level 2).mode = .draining ∧ (world.level 0).mode = .auto ∧
    (waiting.level 1).mode = .manual ∧ ((lost2.recomputeFence 1).level 1).fenced = true ∧ (world.level 0).fenced = false ∧
    (blockedLane.lane (lane1 .aIn)).condition.isBlocked ∧ (auditing.lane (lane1 .aIn)).condition = .audit ∧
    ((world.startSettle (lane1 .aIn)).lane (lane1 .aIn)).condition = .settling 3 ∧
    (world.lane (lane1 .aOut)).condition = .clear ∧ putting.busy (lane1 .aOut) = true ∧ world.busy (lane1 .aOut) = false ∧
    world.lookup 9 = none ∧ (world.lookup 1).map (·.direction) = some .inbound ∧
    world.lookup 8 = some (tote 8 .outbound .expected) ∧ (tote 8 .outbound .expected).level = 0 ∧
    (tote 8 .outbound .expected).pref = some .a ∧ (putting.lookup 8).map (·.transfer.isSome) = some true ∧
    (world.lane (lane1 .bIn)).contents = [] ∧ (world.lane (lane1 .aIn)).contents = [3] ∧
    world.lookup 3 = some (tote 3 .inbound (.lane (lane1 .aIn))) ∧
    ((world.setContents (lane1 .aIn) [4, 3]).lane (lane1 .aIn)).contents = [4, 3] := by
  decide +kernel

/-- The world with level 1 in MANUAL. -/
def manual1 : State := world.modLevel 0 fun x => { x with mode := .manual }

theorem test_meets_ClaimsAreAnsweredAtOnce :
    (world.takeValid (.stop 35)).levelAt 35 = none ∧ (world.takeValid (.stop 0)).levelAt 0 = some 0 ∧
    (putting.takeValid (.stop 0)).claimState 0 ≠ .idle ∧ (stoppedWorld.takeValid (.stop 0)).claimState 0 = .idle ∧
    (stoppedWorld.takeValid (.stop 0)).stopped = true ∧ (world.takeValid (.stop 0)).stopped = false ∧
    (world.takeValid (.stop 0)).judgeClaim 0 (.put 9) = .inl .noRecord ∧
    (world.takeValid (.stop 0)).judgeClaim 0 (.put 8) = .inr putGrant ∧
    (world.takeValid (.stop 0)).judgeClaim 0 (.take .a) = .inr takeGrant ∧
    ((world.takeValid (.stop 0)).level 0).mode ≠ .manual ∧
    (manual1.takeValid (.stop 0)).judgeClaim 0 (.put 8) = .inr putGrant ∧
    ((manual1.takeValid (.stop 0)).level 0).mode = .manual := by
  decide +kernel

/-- Level 1's put of tote 8 pending. -/
def pending1 : State :=
  (manual1.setClaimState 0 .awaitingApproval).pend { level := 0, claim := .put 8, timer := 300 }

theorem test_meets_PendingClaimsEnd :
    1 < (2#8).toNat ∧ (32#8).toNat = (31 : Level).val + 1 ∧ ClaimArg.side 1 = .side (BitVec.ofNat 8 Side.b.ix.val) ∧
    stoppedWorld.stopped = true ∧ world.pendingOf 0 = none ∧
    (pending1.pendingOf 0).map (·.claim) = some (.put 8) ∧ pending1.stopped = false ∧
    (pending1.pendingOf 0).map (·.claim) ≠ some (.take .a) ∧ pending1.judgeClaim 0 (.put 8) = .inr putGrant ∧
    (pending1.retire 8).judgeClaim 0 (.put 8) = .inl .noRecord ∧ pending1.stopOf 0 = some 0 := by
  decide +kernel

/-- Lift A with a directed drop to level 32. -/
def directed : State := world.modLift .a fun x => { x with directed := some (.drop 31) }

theorem test_meets_DirectedJobsArePlacedAndCancelled :
    1 < (2#8).toNat ∧ (5#8) ≠ 3 ∧ (5#8) ≠ 4 ∧ (3#8) ≠ 1 ∧ (3#8) ≠ 2 ∧ (0#8).toNat = Side.a.ix.val ∧ (1#8).toNat = Side.b.ix.val ∧
    (32#8).toNat = (31 : Level).val + 1 ∧ (directed.lift .a).directed.isSome ∧ (world.lift .a).directed = none ∧
    (parked.lift .a).directed = none := by
  decide +kernel

/-- Lift A DISABLED, BLOCKED, with a report that agrees. -/
def reported (x : LiftStatus) : State := (world.setLift .a x).modLift .a fun y => { y with report := some ⟨.empty, .empty⟩ }

theorem test_meets_LiftsAreEnabledAndUnblocked :
    1 < (2#8).toNat ∧ (1#8).toNat = Side.b.ix.val ∧ (world.lift .b).status ≠ .disabled ∧ (world.lift .b).status = .ready ∧
    ((reported .disabled).lift .a).status = .disabled ∧
    ((reported .disabled).lift .a).report.bind reportCount = some ((reported .disabled).lift .a).contents.length ∧
    ((world.setLift .a .disabled).lift .a).report.bind reportCount ≠ some ((world.setLift .a .disabled).lift .a).contents.length ∧
    ((unloading.lift .b).status = .working) ∧ (parked.lift .a).status = .parked ∧
    ((reported .blocked).lift .a).status = .blocked ∧
    ((reported .blocked).lift .a).report.bind reportCount = some ((reported .blocked).lift .a).contents.length ∧
    ((world.setLift .a .blocked).lift .a).report.bind reportCount ≠ some ((world.setLift .a .blocked).lift .a).contents.length := by
  decide +kernel

theorem test_meets_CarriageReportsAreStoredAndCompared :
    ((unloading.takeValid (.lift .b)).lift .b).status = .working ∧ ((world.takeValid (.lift .b)).lift .b).status ≠ .working ∧
    reportCount ⟨.running, .empty⟩ = none ∧ reportCount ⟨.seated, .empty⟩ = some ((world.takeValid (.lift .b)).lift .b).contents.length ∧
    reportCount ⟨.empty, .empty⟩ = some 0 ∧ 0 ≠ ((world.takeValid (.lift .b)).lift .b).contents.length ∧
    (((world.setLift .b .blocked).takeValid (.lift .b)).lift .b).status = .blocked ∧
    ((world.takeValid (.lift .b)).lift .b).status = .ready ∧ ((parked.takeValid (.lift .a)).lift .a).status = .parked ∧
    (((reported .disabled).takeValid (.lift .a)).lift .a).status = .disabled ∧
    (((reported .disabled).takeValid (.lift .a)).lift .a).disputed = false ∧
    (let s := (reported .disabled).takeCarriageReport .a ⟨.seated, .empty⟩
     ((s.takeValid (.lift .a)).lift .a).status = .disabled ∧ ((s.takeValid (.lift .a)).lift .a).disputed = true) := by
  decide +kernel

theorem test_meets_JobRequestsAndGrantedJobs :
    (((world.setLift .a .disabled).takeValid (.lift .a)).lift .a).status = .disabled ∧
    (((world.setLift .a .blocked).takeValid (.lift .a)).lift .a).status = .blocked ∧
    ((unloading.takeValid (.lift .b)).lift .b).status = .working ∧ ((world.takeValid (.lift .a)).lift .a).status = .ready ∧
    (stoppedWorld.takeValid (.lift .a)).stopped = true ∧ ((world.takeValid (.lift .a)).select .a).2 = true ∧
    (((world.setQueue .a []).takeValid (.lift .a)).select .a).2 = false ∧ (parked.lift .a).status = .parked ∧
    laneNamed putGrant.giver putGrant.taker = some (lane1 .aOut) ∧ laneNamed loadGrant.giver loadGrant.taker = none ∧
    loadGrant.kind ≠ .liftTake ∧ (world.lookup 4).bind (·.entry) = some ⟨0, 1⟩ ∧
    world.entryState ⟨0, 1⟩ = some .pending ∧ world.entryState ⟨0, 2⟩ ≠ some .pending ∧
    (world.lookup 7).bind (·.entry) = some ⟨0, 2⟩ ∧ (2 - 1 ≠ 1 - 1) ∧ (Port.front ≠ .lift .a) := by
  decide +kernel

/-- Tote 4's entry is next to load, and tote 4 unsequenced. -/
def flowing : State := (world.setEntryState ⟨0, 2⟩ .delivered).modStation 0 fun x => { x with stalled := false }
def loose4 : State := world.modRecord 4 fun r => { r with entry := none }

/-- Lift B with an inbound tote for level 1. -/
def stuckLift : State := world.setCarriage .b [1]

theorem test_meets_SelectionWalksInOrder :
    (directed.lift .a).directed = some (.drop 31) ∧ (world.lift .a).directed = none ∧
    directed.judgeDirected .a (.drop 31) = .inl .wrongState ∧
    world.walk .a = .job loadGrant ∧ (world.setQueue .a []).walk .a = .nothing ∧
    (let s := stuckLift.modLevel 0 fun x => { x with mode := .off }
     s.walk .b = .stuck ∧ (s.lift .b).stuck = false ∧ ((s.markStuck .b).lift .b).stuck = true) ∧
    (world.lift .b).contents = [5] ∧ stuckLift.carriageDirection .b = some .inbound ∧
    world.carriageDirection .b ≠ some .inbound ∧ (world.lift .a).contents = [] ∧ world.headAged .a = false ∧
    aged1.headAged .a = true ∧ (world.lookup 1).isSome ∧
    stuckLift.findDrop .b 1 = some (stuckLift.dropJob .b (lane1 .bIn)) ∧ (world.queue .a).contents = [2] ∧
    (world.queue .b).contents = [] ∧ ((world.setQueue .a [2, 1]).queue .a).contents = [2, 1] := by
  decide +kernel

/-- Each check of a directed drop, and the job (R92). -/
theorem test_meets_a_directed_drop :
    (world.lift .a).contents = [] ∧ (world.lift .b).contents = [5] ∧ (world.lookup 5).map (·.direction) = some .outbound ∧
    (stuckLift.lift .b).contents = [1] ∧ stuckLift.lookup 1 = some (tote 1 .inbound .expected) ∧
    (stuckLift.level 0).mode = .auto ∧ (stuckLift.level 0).fenced = false ∧
    stuckLift.takerTests (lane1 .bIn) = none ∧
    (stuckLift.blockLane (lane1 .bIn) .confirmFail).takerTests (lane1 .bIn) = some .laneBlocked ∧
    ((stuckLift.modLevel 0 fun x => { x with fenced := true }).level 0).fenced = true ∧
    (stuckLift.level 2).mode = .draining ∧ (stuckLift.level 31).mode = .off ∧
    ((stuckLift.setCarriage .b [1, 3]).lift .b).contents = [1, 3] ∧ (stuckLift.lookup 3).map (·.level) = some 0 := by
  decide +kernel

/-- Each check of a directed take, and the job (R92). -/
theorem test_meets_a_directed_take :
    (world.lift .b).contents ≠ [] ∧ (world.lift .a).contents = [] ∧ (world.level 3).mode = .off ∧
    (world.level 2).mode = .draining ∧ (world.level 0).fenced = false ∧ ((lost2.recomputeFence 1).level 1).fenced = true ∧
    ((lost2.recomputeFence 1).level 1).mode = .manual ∧ world.laneTests (lane1 .aOut) = none ∧
    putting.laneTests (lane1 .aOut) ≠ none ∧ (world.lane (lane1 .aOut)).contents.length < 2 ∧
    1 ≤ (world.lane (lane1 .aOut)).contents.length ∧
    ((world.setContents (lane1 .aOut) [3]).lane (lane1 .aOut)).contents.take 1 = [3] ∧
    (world.lookup 3).map (·.direction) = some .inbound ∧ (world.lane (lane1 .aOut)).contents.take 1 = [4] ∧
    (world.lookup 4).map (fun r => (r.direction, world.eligible r)) = some (.outbound, false) ∧
    (flowing.lookup 4).map (fun r => (r.direction, flowing.eligible r)) = some (.outbound, true) ∧
    flowing.weightSum [4] ≤ flowing.settings.params.carriageLimit ∧
    (flowing.setParam 10 0).settings.params.carriageLimit < (flowing.setParam 10 0).weightSum [4] := by
  decide +kernel

theorem test_meets_TakesStartFromTheFirstCandidate :
    world.chosenLevel .a = none ∧ flowing.chosenLevel .a = some 0 ∧ flowing.candidateAt .a 0 = some (1, 1, 1) ∧
    loose4.candidateAt .a 0 = some (2, 0, 0) ∧ (world.setEntryState ⟨0, 1⟩ .claimed).candidateAt .a 0 = some (0, 1, 1) ∧
    (loose4.lookup 4).bind (·.entry) = none ∧ (world.lookup 4).bind (·.entry) = some ⟨0, 1⟩ ∧ (world.list 0).isSome ∧
    (world.lane (lane1 .aOut)).contents = [4] ∧ (world.level 0).mode = .auto ∧ (world.level 0).fenced = false ∧
    (world.lane (lane1 .aOut)).condition = .clear ∧ world.busy (lane1 .aOut) = false ∧
    (flowing.list 0).map (·.station) = some 0 ∧ flowing.nextLoadOf 0 = .stands (.entry ⟨0, 1⟩) ∧
    flowing.entryState ⟨0, 1⟩ ≠ some .claimed ∧ world.nextLoadOf 0 ≠ .stands (.entry ⟨0, 1⟩) := by
  decide +kernel

theorem test_meets_ArrivalsAndAgedHeads :
    1 < (2#8).toNat ∧ 4 < (5#8).toNat ∧ (5#8) ≠ 255 ∧ 4 < (254#8).toNat ∧ (1#8).toNat = Side.b.ix.val ∧
    (4#8).toNat = (4 : Weight).val ∧
    (world.takeValid .front).arrivalRefusal .b 1 (.weight 4) false = none ∧
    (world.takeValid .front).arrivalRefusal .b 9 (.weight 4) false = some .noRecord ∧
    (stoppedWorld.takeValid .front).stopped = true ∧ (world.takeValid .front).stopped = false ∧
    (world.takeValid .front).lookup 9 = none ∧
    ((world.takeValid .front).lookup 2) = some (tote 2 .inbound (.entry .a)) ∧
    ((world.takeValid .front).lookup 6).map (·.place.isHeld) = some true ∧
    ((world.takeValid .front).lookup 8).map (·.direction) = some .outbound ∧
    ((world.takeValid .front).lookup 1) = some (tote 1 .inbound .expected) ∧
    (world.queue .a).aged = false ∧ (world.queue .a).age = some 0 ∧ (world.queue .b).age = none ∧
    ((world.reachAge .a).queue .a).aged = true := by
  decide +kernel

theorem test_meets_ReadLiftAndReadEntry :
    1 < (2#8).toNat ∧ (1#8).toNat = Side.b.ix.val ∧ (0#8).toNat = Side.a.ix.val ∧ (world.queue .a).contents = [2] ∧
    (world.lookup 2).isSome ∧ (world.openTransfer loadGrant).loadNumber .a = some ⟨32, 1⟩ := by
  decide +kernel

theorem test_meets_PointersAndGates :
    world.firstEntry (fun e => e == .pending) [0] = .entry ⟨0, 1⟩ ∧
    world.firstEntry (fun e => e == .claimed) [0] = .endOfList 0 ∧
    (world.setList 0 none).firstEntry (fun e => e == .claimed) [0] = .atEnd ∧ world.nextLoadOf 0 = .withheld ∧
    flowing.nextLoadOf 0 ≠ .withheld ∧ (tote 8 .outbound .expected).entry = none ∧
    (world.lookup 4).bind (·.entry) = some ⟨0, 1⟩ ∧ world.stationOf ⟨0, 1⟩ = some 0 ∧
    (flowing.lookup 4).map flowing.admissible = some true ∧ (world.lookup 4).map world.admissible = some false ∧
    (flowing.lookup 4).map (·.ident) = some 4 ∧ (world.lookup 5).isSome ∧ (world.lookup 3).isSome := by
  decide +kernel

/-- Entries that fail each check of R133, and none. -/
theorem test_meets_EntryChecksInOrder :
    let e (i : Ident) (l : Level) : NewEntry := { ident := i, level := l, pref := .a, weight := 0 }
    world.entryRefusal [e 9 0, e 4 0] = some (.duplicate, 2) ∧ world.entryRefusal [e 1 0] = some (.wrongState, 1) ∧
    world.entryRefusal [e 9 5, e 8 31] = some (.wrongLevel, 2) ∧
    ((loose4.setTransfer 4 (some ⟨32, 1⟩)).setList 0 none).entryRefusal [e 4 0] = some (.busy, 1) ∧
    512 - ({ world with records := List.replicate 512 (0, tote 1 .inbound .expected) } : State).records.length < 1 ∧
    world.entryRefusal [e 9 0, e 8 0] = none := by
  decide +kernel

theorem test_meets_OpenListMakesAListAndItsRecords :
    (0#8).toNat < 1 ∧ 4 < (5#8).toNat ∧ (4#8).toNat = (3 : StationNo).val + 1 ∧
    (List.replicate 17 (⟨9, 1, 0, 0⟩ : EntryArg)).length = 17 ∧ NewEntry.ofArg ⟨9, 33, 0, 0⟩ = none ∧
    NewEntry.ofArgs [⟨8, 1, 2, 1⟩, ⟨200, 32, 0, 4⟩] = some [⟨8, 0, .either, 1⟩, ⟨200, 31, .a, 4⟩] ∧
    world.list 1 = none ∧ (∀ k : Fin 16, k < 1 → world.list k ≠ none) ∧ world.opening ≠ 65535 ∧
    ({ world with opening := 65535 } : State).opening = 65535 ∧
    (∀ l, ({ world with lists := Vector.replicate 16 (world.list 0) } : State).list l ≠ none) ∧
    world.entryRefusal [⟨8, 1, .either, 1⟩] = some (.wrongLevel, 1) ∧
    world.entryRefusal [⟨8, 0, .either, 1⟩, ⟨200, 31, .a, 4⟩] = none ∧ (world.lookup 8).isSome ∧ world.lookup 200 = none := by
  decide +kernel

theorem test_entries_are_named :
    List.Forall₂ NewEntry.namedBy [⟨8, 0, .either, 1⟩, ⟨200, 31, .a, 4⟩] [⟨8, 1, 2, 1⟩, ⟨200, 32, 0, 4⟩] := by
  unfold NewEntry.namedBy; decide

theorem test_meets_ListsAreExtendedClosedAndCompleted :
    15 < (16#8).toNat ∧ (15#8).toNat = (15 : Fin 16).val ∧ world.list 15 = none ∧
    (world.list 0).map (·.closed) = some false ∧ (world.list 0).map (·.entries.length) = some 2 ∧
    64 < (List.replicate 64 (row 9 .pending)).length + 1 ∧ 63 + 1 ≤ 64 ∧
    world.entryRefusal [⟨8, 0, .a, 0⟩] = none ∧ world.entryRefusal [⟨4, 0, .a, 0⟩] = some (.duplicate, 1) ∧
    (let s := world.setList 0 (some { station := 0, opening := 1, closed := true, entries := [row 4 .delivered, row 7 .skipped] })
     (s.list 0).map (·.closed) = some true ∧
       ((s.list 0).map fun r => r.entries.all fun e => e.state.final) = some true) ∧
    ((world.list 0).map fun r => r.entries.any fun e => !e.state.final) = some true := by
  decide +kernel

theorem test_meets_EntriesAreWithdrawn :
    (15#8).toNat = (15 : Fin 16).val ∧ world.list 15 = none ∧
    ((world.list 0).map fun r => r.entries.any fun e => e.state == .exitHeld) = some true ∧
    ((flowing.list 0).map fun r => r.entries.map (·.state)) = some [.pending, .delivered] ∧
    (flowing.lookup 4).map (·.place) = some (.lane (lane1 .aOut)) ∧
    ((flowing.setPlace 4 .expected).lookup 4).map (fun r => (r.place, r.transfer)) = some (.expected, none) ∧
    64 < (65#8).toNat ∧ (64#8).toNat ≤ 64 ∧ 1 ≤ (1#8).toNat ∧
    ((world.list 0).bind fun r => r.entries[(1#8).toNat - 1]?) = some (row 4 .pending) ∧
    ((world.list 0).bind fun r => r.entries[(2#8).toNat - 1]?) = some (row 7 .exitHeld) ∧
    ((world.list 0).bind fun r => r.entries[(64#8).toNat - 1]?) = none := by
  decide +kernel

theorem test_meets_ExitReadsAreMatched :
    1 < (2#8).toNat ∧ (1#8).toNat = Side.b.ix.val ∧ ((unloading.takeValid .front).slot 33).opened = some unload ∧
    unload.totes = [5] ∧ ((unloading.takeValid .front).slot 32).opened = none ∧
    ((unloading.strikeOff 33 5).slot 33).opened.map (·.totes) = some [] ∧ (unloading.lookup 5).isSome ∧
    (unloading.lookup 5).bind (·.entry) = none ∧ (world.lookup 4).bind (·.entry) = some ⟨0, 1⟩ ∧
    world.stationOf ⟨0, 1⟩ = some 0 ∧ nth world.settings.reportMode 0 = .list ∧
    nth (after (.setReportMode 1 0) world).settings.reportMode 0 = .each := by
  decide +kernel

theorem test_meets_RecordsHeldAtTheExitAreSettled :
    world.lookup 9 = none ∧ (world.lookup 6).map (·.place) = some (failedHold (.lane (lane1 .aIn)) .shuttle) ∧
    (world.lookup 7) = some { tote 7 .outbound exitHold with entry := some ⟨0, 2⟩ } ∧ world.stationOf ⟨0, 2⟩ = some 0 ∧
    ((world.modRecord 7 fun r => { r with entry := none }).lookup 7).bind (·.entry) = none ∧
    (world.station 0).stalled = true ∧ (world.station 1).stalled = false ∧ world.hasExitHeld 0 = true ∧
    ((world.setEntryState ⟨0, 2⟩ .delivered).hasExitHeld 0 = false) := by
  decide +kernel

theorem test_meets_StationsAreReadAndTheirModeSet :
    4 < (5#8).toNat ∧ (4#8).toNat = (3 : StationNo).val + 1 ∧ (1#8).toNat = (0 : StationNo).val + 1 ∧
    (world.station 0).queue = [0] ∧ (world.list 0).isSome ∧ 15 < (16#8).toNat ∧ (0#8).toNat < 1 ∧ 64 < (65#8).toNat ∧
    (0#8).toNat = (0 : Fin 16).val ∧ (64#8).toNat ≤ 64 ∧ world.list 15 = none ∧ 1 < (2#8).toNat := by
  decide +kernel

/-- Tote 6 held with another giver and taker. -/
def heldBy (g : Giver) (t : Taker) : State := world.setPlace 6 (failedHold g t)

theorem test_meets_ResolveHoldPlacesTheRecord :
    2 < (3#8).toNat ∧ (2#8).toNat ≤ 2 ∧ world.lookup 9 = none ∧ (world.lookup 7).map (·.place) = some exitHold ∧
    ((heldBy (.rack 0) (.lane (lane1 .aOut))).lookup 6).map (·.place) = some (failedHold (.rack 0) (.lane (lane1 .aOut))) ∧
    (putting.busy (lane1 .aOut) = true) ∧ (world.busy (lane1 .aOut) = false) ∧
    (world.depth (lane1 .aOut) = 2 ∧ (world.lane (lane1 .aOut)).contents.length = 1 ∧
      ((world.setContents (lane1 .aOut) [4, 9]).lane (lane1 .aOut)).contents.length = 2) ∧
    ((heldBy (.entry .a) (.carriage .a)).queue .a).contents = [2] ∧
    ((world.openTransfer loadGrant).slot 32).opened.map (·.kind) = some .entryLoad ∧
    ((world.setQueue .a [2, 9, 10, 11]).queue .a).contents.length = 4 ∧
    (unloading.lift .b).status = .working ∧ (world.lift .b).status ≠ .working ∧
    ((world.setCarriage .b [5, 9]).lift .b).contents.length = 2 ∧ world.carriageDirection .b = some .outbound ∧
    world.carriageDirection .a = none ∧ world.settings.params.carriageLimit = 6 ∧
    (failedHold (.lane (lane1 .aIn)) .shuttle).isHeld = true ∧
    (let s := world.modRecord 7 fun r => { r with place := failedHold (.carriage .b) .exit }
     (s.lookup 7).bind (·.entry) = some ⟨0, 2⟩ ∧ s.stationOf ⟨0, 2⟩ = some 0 ∧ s.nextExitOf 0 ≠ .entry ⟨0, 2⟩) ∧
    (let s := (world.modRecord 4 fun r => { r with place := failedHold (.carriage .b) .exit })
     s.nextExitOf 0 = .entry ⟨0, 1⟩) := by
  decide +kernel

theorem test_meets_DeclareToteCreatesTheRecordInPlace :
    1 < (2#8).toNat ∧ 32 < (33#8).toNat ∧ 4 < (5#8).toNat ∧ 2 < (3#8).toNat ∧ (32#8).toNat = (31 : Level).val + 1 ∧
    (4#8).toNat = (4 : Weight).val ∧
    LocArg.lane 32 3 = .lane (BitVec.ofNat 8 ((31 : Level).val + 1)) (BitVec.ofNat 8 LaneName.bOut.ix.val) ∧
    LocArg.carriage 1 = .carriage (BitVec.ofNat 8 Side.b.ix.val) ∧ world.lookup 9 = none ∧ (world.lookup 1).isSome ∧
    world.stopOf 31 ≠ none ∧ (world.level 31).mode = .off ∧ laneDirection .bOut = .outbound ∧ laneDirection .aIn = .inbound ∧
    (world.lane ⟨31, .bOut⟩).contents.length < world.depth ⟨31, .bOut⟩ ∧
    (after (.setLevelMap 32 0) world).stopOf 31 = none ∧ (world.level 0).mode ≠ .off ∧
    ((world.setLift .a .disabled).lift .a).status = .disabled ∧ (world.lift .a).status ≠ .disabled ∧
    (world.lift .a).contents.length < 2 ∧ world.weightSum (world.lift .a).contents + 4 ≤ world.settings.params.carriageLimit ∧
    (world.queue .a).contents.length < 4 ∧ world.records.length < 512 := by
  decide +kernel

theorem test_meets_LinkStatusAndOrder :
    (world.link (.stop 0)).status = .up 10 ∧ (world.link (.stop 1)).status = .down ∧
    (lost2.link (.stop 1)).status = .lost ∧ world.levelAt 0 = some 0 ∧ world.levelAt 35 = none ∧
    (parked.lift .a).status = .parked ∧ (world.lift .a).status ≠ .parked ∧
    (world.link .front).order.any OutFrame.isStatus = false ∧ unfinished 3 [1, 195, 50] = [195, 50] ∧
    (((world.send .front (.status false)).link .front).order = [.resync .hard, .status false]) ∧
    ((world.modLink .front fun x => { x with order := [.status true, .idle], begun := true }).link .front).order =
      [.status true, .idle] := by
  decide +kernel

theorem test_meets_ResetsBringEveryBlockToItsResetValues :
    (held true).inReset = true ∧ world.inReset = false ∧ world.ready ∧ Instr.linkLost .front ≠ .hardReset ∧
    requestParts (.linkLost .front) = none ∧ (requestParts .softReset).isSome ∧ (held true).chip = .idle ∧
    (after (.collect .asserts) (held true)).chip = .abandoned ∧
    (world.link .front).order = [.resync .hard] ∧ ((world.frameGone .front).link .front).order = [] ∧
    ((world.modLink .front fun x => { x with begun := true }).link .front).begun = true := by
  decide +kernel

theorem test_meets_TheAisleStopPausesAndRestarts :
    world.stopLine = false ∧ (held false).inReset = true ∧ stoppedWorld.stopLine = true ∧
    waiting.stopOf 1 = some 1 ∧ (waiting.pendingOf 1).isSome ∧ (held true).stopLine = true ∧
    (world.slot 0).opened = none ∧ (putting.slot 0).opened = some put1 := by
  decide +kernel

theorem test_meets_SetParameterWritesOneValue :
    10 < (11#8).toNat ∧ (10#8).toNat = 10 ∧ (3#16).toNat < 4 ∧ 8 < (9#16).toNat ∧ 4 ≤ (4#16).toNat ∧ (8#16).toNat ≤ 8 ∧
    world.weightSum (world.lift .b).contents = 1 ∧
    (let s := world.modLift .a fun x => { x with reserved := [⟨.inbound, 4⟩, ⟨.inbound, 2⟩] }
     (4#16).toNat < s.weightSum (s.lift .a).contents + ((s.lift .a).reserved.map fun y => y.weight.val).sum) ∧
    (600#16).toNat ≤ 600 ∧ 5 ≤ (5#16).toNat ∧ (world.queue .a).age = some 0 ∧ 0 < 10 * (5#16).toNat ∧
    (let s := world.modQueue .a fun x => { x with age := some 50 }
     (s.queue .a).aged = false ∧ (s.queue .a).age = some 50 ∧ 10 * (5#16).toNat ≤ 50) := by
  decide +kernel

theorem test_meets_EventsAreClearedAndMasked :
    40 < (41#8).toNat ∧ (40#8).toNat = (40 : Fin 41).val ∧ (1 : Fin 41) = levelGroup 0 ∧ (32 : Fin 41) = levelGroup 31 ∧
    (∀ l, (33 : Fin 41) ≠ levelGroup l) ∧ (0x80#8) &&& ~~~0x7F ≠ 0 ∧ (0x7F#8) &&& ~~~0x7F = 0 ∧
    (4#8) &&& ~~~0x03 ≠ 0 ∧ (3#8) &&& ~~~0x03 = 0 ∧ 1 < (2#8).toNat := by
  decide +kernel

end Sys2Proof.Tests
end

