-- ==== Sys2Proof/Proofs/Outcomes.lean ====
section
/-! How a property passes from the effect of a command to the outcome of a step: what an answer changes, what every command
that only reads leaves, and the step itself. -/

open Sys2Proof Sys2Proof.Machine Sys2Proof.Machine.State

namespace Sys2Proof.Machine

/-! ### What an answer changes -/

/-- A property holds of the state that an answer leaves, if it changes anything. -/
def Answer.holds (P : State → Prop) (a : Answer) : Prop := ∀ u r, a = .changed u r → P u

namespace Answer

variable {P Q : State → Prop}

@[simp] theorem holds_unchanged (r : Response) : (Answer.unchanged r).holds P := fun _ _ h => by cases h

@[simp] theorem holds_changed (s : State) (r : Response) : (Answer.changed s r).holds P ↔ P s :=
  ⟨fun h => h s r rfl, fun h _ _ e => by cases e; exact h⟩

@[simp] theorem holds_refuse (c : Code) : (Answer.refuse c).holds P := holds_unchanged _

@[simp] theorem holds_reply (b : Body) : (Answer.reply b).holds P := holds_unchanged _

@[simp] theorem holds_refuseEntry (c : Code × Nat) : (refuseEntry c).holds P := holds_unchanged _

@[simp] theorem holds_accept (s : State) : (Answer.accept s).holds P ↔ P s := holds_changed _ _

@[simp] theorem holds_acceptWith (s : State) (b : Body) : (Answer.acceptWith s b).holds P ↔ P s := holds_changed _ _

theorem holds_mono {a : Answer} (hpq : ∀ u, P u → Q u) (h : a.holds P) : a.holds Q := fun u r e => hpq u (h u r e)

/-- A checked request changes something only once all its checks have passed. -/
theorem holds_checked {checks : List (Bool × Code)} {go : Answer} (h : (∀ c ∈ checks, c.1 = false) → go.holds P) :
    (Answer.checked checks go).holds P := fun u r e => by
  obtain ⟨hgo, hchecks⟩ := checked_changed e
  exact h hchecks u r hgo

theorem holds_withRecord {s : State} {i : Ident} {go : Record → Answer}
    (h : ∀ r, s.lookup i = some r → (go r).holds P) : (s.withRecord i go).holds P := by
  unfold State.withRecord
  repeat' split
  · simp
  · simp
  · next r hr => exact h r hr

theorem holds_withLevel {b : Byte} {go : Level → Answer} (h : ∀ l, (go l).holds P) : (withLevel b go).holds P := by
  unfold withLevel; split
  · simp
  · exact h _

theorem holds_withLane {b n : Byte} {go : LaneId → Answer} (h : ∀ k, (go k).holds P) : (withLane b n go).holds P := by
  unfold withLane; split
  · exact h _
  · simp

theorem holds_withLift {b : Byte} {go : Side → Answer} (h : ∀ x, (go x).holds P) : (withLift b go).holds P := by
  unfold withLift; split
  · simp
  · exact h _

theorem holds_withList {b : Byte} {go : Fin 16 → Answer} (h : ∀ l, (go l).holds P) : (withList b go).holds P := by
  unfold withList; split
  · simp
  · exact h _

theorem holds_withUsed {s : State} {l : Fin 16} {go : ReleaseList → Answer} (h : ∀ r, s.list l = some r → (go r).holds P) :
    (s.withUsed l go).holds P := by
  unfold State.withUsed; split
  · simp
  · next r hr => exact h r hr

theorem holds_withStation {b : Byte} {go : StationNo → Answer} (h : ∀ n, (go n).holds P) : (withStation b go).holds P := by
  unfold withStation; split
  · simp
  · exact h _

theorem holds_withGroup {b : Byte} {go : Fin 41 → Answer} (h : ∀ g, (go g).holds P) : (withGroup b go).holds P := by
  unfold withGroup; split
  · simp
  · exact h _

end Answer

/-! ### The kinds of command -/

/-- The requests that answer without changing anything, with what answers them (R12, R13, R17, R44, R67, R82, R105, R115, R140,
R166, R170, R172, R174, R177, R178). -/
inductive Reads : Instr → (State → Answer) → Prop
  | unknown (why : PortError) : Reads (.unknownRequest why) fun _ => .refuse (PortError.code why)
  | tote (i : Ident) : Reads (.readTote i) (readTote i)
  | walk (start : BitVec 16) : Reads (.walk start) (walkTable start)
  | corrections : Reads .readCorrections readCorrections
  | level (l : Byte) : Reads (.readLevel l) (readLevel l)
  | lane (l n : Byte) : Reads (.readLane l n) (readLane l n)
  | transfer (i : Byte) : Reads (.readTransfer i) (readTransfer i)
  | approvals (first : Byte) : Reads (.readApprovals first) (readApprovals first)
  | lift (x : Byte) : Reads (.readLift x) (readLift x)
  | entry (x : Byte) : Reads (.readEntry x) (readEntry x)
  | station (n : Byte) : Reads (.readStation n) (readStation n)
  | list (l first : Byte) : Reads (.readList l first) (readList l first)
  | links : Reads .readLinks fun s => .reply (.links (s.links.map (·.status)))
  | identify : Reads .identify fun _ => .reply (.identity Config.partCode Config.revision)
  | params : Reads .readParameters fun s => .reply (.params s.settings.params)
  | events (g : Byte) : Reads (.readEvents g) (readEvents g)
  | summary : Reads .readSummary fun s => .reply (.summary (tab 41 s.summaryByte))

/-- The requests that may change the state, with what answers them. -/
inductive Changes : Instr → (State → Answer) → Prop
  | announce (i : Ident) (b : Byte) : Changes (.announceInbound i b) (announceInbound i b)
  | retarget (i : Ident) (b : Byte) : Changes (.retarget i b) (retarget i b)
  | cancelRecord (i : Ident) : Changes (.cancelRecord i) (cancelRecord i)
  | correction (e on : Byte) (i j : Ident) : Changes (.setCorrection e on i j) (setCorrection e on i j)
  | levelMap (l n : Byte) : Changes (.setLevelMap l n) (setLevelMap l n)
  | laneDepth (l n d : Byte) : Changes (.setLaneDepth l n d) (setLaneDepth l n d)
  | levelMode (l m : Byte) : Changes (.setLevelMode l m) (setLevelMode l m)
  | fenceOnLoss (l on : Byte) : Changes (.setFenceOnLoss l on) (setFenceOnLoss l on)
  | audit (l : Byte) : Changes (.startAudit l) (startAudit l)
  | laneBlock (l n : Byte) : Changes (.clearLaneBlock l n) (clearLaneBlock l n)
  | approve (l k : Byte) (arg : ClaimArg) : Changes (.approveClaim l k arg) (approveClaim l k arg)
  | deny (l k : Byte) (arg : ClaimArg) : Changes (.denyClaim l k arg) (denyClaim l k arg)
  | direct (x k l : Byte) (count : Option Byte) : Changes (.directLift x k l count) (directLift x k l count)
  | cancelDirected (x : Byte) : Changes (.cancelDirected x) (cancelDirected x)
  | liftEnable (x on : Byte) : Changes (.setLiftEnable x on) (setLiftEnable x on)
  | liftBlock (x : Byte) : Changes (.clearLiftBlock x) (clearLiftBlock x)
  | openList (n : Byte) (as : List EntryArg) : Changes (.openList n as) (openList n as)
  | append (l : Byte) (as : List EntryArg) : Changes (.appendEntries l as) (appendEntries l as)
  | closeList (l : Byte) : Changes (.closeList l) (closeList l)
  | abortList (l : Byte) : Changes (.abortList l) (abortListRequest l)
  | skip (l k : Byte) : Changes (.skipEntry l k) (skipEntry l k)
  | confirmExit (i : Ident) : Changes (.confirmExit i) (settleRequest i .delivered)
  | declareMissing (i : Ident) : Changes (.declareMissing i) (settleRequest i .missing)
  | reportMode (n m : Byte) : Changes (.setReportMode n m) (setReportMode n m)
  | resolve (i : Ident) (d : Byte) : Changes (.resolveHold i d) (resolveHold i d)
  | declareTote (i : Ident) (d l w p : Byte) (loc : LocArg) : Changes (.declareTote i d l w p loc) (declareTote i d l w p loc)
  | softReset : Changes .softReset fun s => .accept s.afterSoftReset
  | parameter (n : Byte) (v : BitVec 16) : Changes (.setParameter n v) (setParameter n v)
  | clearEvents (g : Byte) : Changes (.readClearEvents g) (readClearEvents g)
  | mask (g m : Byte) : Changes (.setEventMask g m) (setEventMask g m)
  | summaryEnable (on : Byte) : Changes (.setSummaryEnable on) (setSummaryEnable on)

/-- The valid frames, with the port each comes in by and what its owning block does with it (R158). -/
inductive Frames : Instr → Port → (State → State) → Prop
  | beacon (n : Stop) (a b c d : LaneReport) : Frames (.beacon n a b c d) (.stop n) fun s =>
      (((s.reportFrom n .aIn a).closeEvent.reportFrom n .aOut b).closeEvent.reportFrom n .bIn c).closeEvent.reportFrom n .bOut d
  | laneState (n : Stop) (x : LaneName) (r : LaneReport) : Frames (.laneState n x r) (.stop n) fun s => s.reportFrom n x r
  | claimPut (n : Stop) (i : Ident) : Frames (.claimPut n i) (.stop n) fun s => s.claimFrom n (.put i)
  | claimTake (n : Stop) (x : Side) : Frames (.claimTake n x) (.stop n) fun s => s.claimFrom n (.take x)
  | done (x : Sender) (i g : Byte) : Frames (.done x i g) x.port fun s => s.answerParty x i g State.takeDone
  | aborted (x : Sender) (i g : Byte) : Frames (.aborted x i g) x.port fun s => s.answerParty x i g State.takeAborted
  | auditScan (n : Stop) (x : Scan) : Frames (.auditScan n x) (.stop n) fun s => match s.levelAt n with
      | some l => s.takeScan l x
      | none => s
  | liftBeacon (x : Side) (r : CarriageReport) : Frames (.liftBeacon x r) (.lift x) fun s => s.takeCarriageReport x r
  | carriageState (x : Side) (r : CarriageReport) : Frames (.carriageState x r) (.lift x) fun s => s.takeCarriageReport x r
  | jobRequest (x : Side) : Frames (.jobRequest x) (.lift x) fun s => s.takeJobRequest x
  | frontBeacon : Frames .frontBeacon .front fun s => s
  | arrival (b : Byte) (i : Ident) (w p : Byte) : Frames (.arrival b i w p) .front fun s => s.takeArrival b i w p
  | exitRead (b : Byte) (i : Ident) : Frames (.exitRead b i) .front fun s => match Side.ofByte b with
      | some x => s.takeExitRead x (s.correct i)
      | none => s
  | foreign (p : Port) : Frames (.foreignFrame p) p fun s => s
  | malformed (p : Port) : Frames (.malformedFrame p) p fun s => s

/-- The expiries and the other events that are no valid frame, with their effect. -/
inductive Events : Instr → (State → State) → Prop
  | wrongNode (p : Port) : Events (.wrongNode p) fun s => (s.hear p []).raiseWrongNode p
  | motionTimeout (i : Fin 34) : Events (.motionTimeout i) fun s => s.endMotion i
  | confirmTimeout (i : Fin 34) : Events (.confirmTimeout i) fun s => s.endWindow i
  | readWindow (i : Fin 34) : Events (.exitReadWindowExpiry i) fun s => s.endReadWindow i
  | settle (k : LaneId) : Events (.settleExpiry k) fun s => s.endSettle k
  | scan (l : Level) : Events (.scanTimeout l) fun s => s.timeOutAudit l
  | approval (l : Level) : Events (.approvalTimeout l) fun s => s.endClaim l .timeout
  | linkLost (p : Port) : Events (.linkLost p) fun s => s.loseLink p
  | aged (x : Side) : Events (.entryAged x) fun s => s.reachAge x
  | statusPeriod : Events .statusPeriodEnd State.endStatusPeriod
  | frameLeaves (p : Port) : Events (.frameLeavesLink p) fun s => s.frameGone p

theorem Reads.exec_eq {c : Instr} {f : State → Answer} (h : Reads c f) (s : State) : exec c s = request f s := by
  cases h <;> rfl

theorem Changes.exec_eq {c : Instr} {f : State → Answer} (h : Changes c f) (s : State) : exec c s = request f s := by
  cases h <;> rfl

theorem Frames.exec_eq {c : Instr} {p : Port} {f : State → State} (h : Frames c p f) (s : State) : exec c s = frame p f s := by
  cases h <;> rfl

theorem Events.exec_eq {c : Instr} {f : State → State} (h : Events c f) (s : State) : exec c s = event f s := by
  cases h <;> rfl

/-- The commands that are neither a request nor an event: the lines, the port's other transactions, and bytes that are no frame. -/
inductive Others : Instr → Prop
  | hardReset : Others .hardReset
  | resetRelease : Others .resetRelease
  | stopAsserted : Others .stopAsserted
  | stopReleased : Others .stopReleased
  | collect (act : PortAct) : Others (.collect act)
  | discarded (run : Incoming) : Others (.discardedFrame run)

/-- Every command is of one of these kinds. -/
theorem instr_kinds (c : Instr) : (∃ f, Reads c f) ∨ (∃ f, Changes c f) ∨ (∃ p f, Frames c p f) ∨ (∃ f, Events c f) ∨
    Others c := by
  cases c
  case unknownRequest | readTote | walk | readCorrections | readLevel | readLane | readTransfer | readApprovals | readLift
      | readEntry | readStation | readList | readLinks | identify | readParameters | readEvents | readSummary =>
    exact .inl ⟨_, by constructor⟩
  case beacon | laneState | claimPut | claimTake | done | aborted | auditScan | liftBeacon | carriageState | jobRequest
      | frontBeacon | arrival | exitRead | foreignFrame | malformedFrame =>
    exact .inr (.inr (.inl ⟨_, _, by constructor⟩))
  case wrongNode | motionTimeout | confirmTimeout | exitReadWindowExpiry | settleExpiry | scanTimeout | approvalTimeout
      | linkLost | entryAged | statusPeriodEnd | frameLeavesLink =>
    exact .inr (.inr (.inr (.inl ⟨_, by constructor⟩)))
  case hardReset | resetRelease | stopAsserted | stopReleased | collect | discardedFrame =>
    exact .inr (.inr (.inr (.inr (by constructor))))
  all_goals exact .inr (.inl ⟨_, by constructor⟩)

/-- A request that only reads changes nothing. -/
theorem Reads.holds {c : Instr} {f : State → Answer} (h : Reads c f) (P : State → Prop) (s : State) : (f s).holds P := by
  cases h with
  | unknown | corrections | links | identify | params | summary => exact Answer.holds_unchanged _
  | tote => exact Answer.holds_withRecord fun _ _ => Answer.holds_reply _
  | walk => unfold walkTable; (repeat' split) <;> simp
  | level => exact Answer.holds_withLevel fun _ => Answer.holds_reply _
  | lane => exact Answer.holds_withLane fun _ => Answer.holds_reply _
  | transfer => unfold readTransfer; split <;> simp
  | approvals => unfold readApprovals; split <;> simp
  | lift => exact Answer.holds_withLift fun _ => Answer.holds_reply _
  | entry => unfold readEntry; split <;> simp
  | station => exact Answer.holds_withStation fun _ => Answer.holds_reply _
  | list =>
    refine Answer.holds_withList fun _ => ?_
    split
    · simp
    · exact Answer.holds_withUsed fun _ _ => Answer.holds_reply _
  | events => exact Answer.holds_withGroup fun _ => Answer.holds_reply _

/-! ### Properties that every command keeps -/

/-- A property that reads neither the port, the queue of commands nor the count of free values, and that the close of an event,
the effect of every command and a tick keep. -/
structure KeptByCommands (P : State → Prop) : Prop where
  unread : ∀ s o b v c n q, P s →
    P { s with portOut := o, buffer := b, overrun := v, chip := c, fresh := n, pending := q }
  close : ∀ s, P s → P s.closeEvent
  changes : ∀ c f s, Changes c f → P s → (f s).holds P
  valid : ∀ s p, P s → P (s.takeValid p)
  frames : ∀ c p f s, Frames c p f → P s → P (f s)
  events : ∀ c f s, Events c f → P s → P (f s)
  hardReset : ∀ s, P s → P (State.inHardReset s.stopLine s.chip s.fresh s.pending)
  leaveReset : ∀ s, P s → P s.leaveReset
  setLine : ∀ s line, P s → P (s.setLine line)
  assertStop : ∀ s, P s → P s.assertStop
  releaseStop : ∀ s, P s → P s.releaseStop
  hear : ∀ s p bytes, P s → P (s.hear p bytes)
  count : ∀ s, P s → P s.count

namespace KeptByCommands

variable {P : State → Prop} (hP : KeptByCommands P)
include hP

theorem port (s : State) (o : List Byte) (b : Option Response) (v : Bool) (c : ChipSelect) (h : P s) :
    P { s with portOut := o, buffer := b, overrun := v, chip := c } := hP.unread s o b v c s.fresh s.pending h

theorem afterOthers {c : Instr} {s t : State} (hc : Others c) (h : P s) (e : exec c s = .next t) : P t := by
  cases hc with
  | hardReset => cases e; exact hP.hardReset s h
  | resetRelease =>
    cases e; split
    · exact hP.leaveReset s h
    · exact h
  | stopAsserted =>
    cases e; repeat' split
    · exact h
    · exact hP.setLine s true h
    · exact hP.close _ (hP.assertStop s h)
  | stopReleased =>
    cases e; repeat' split
    · exact hP.setLine s false h
    · exact hP.close _ (hP.releaseStop s h)
    · exact h
  | collect => exact transaction_inv hP.port h e
  | discarded run =>
    cases e; unfold State.discard; split
    · exact h
    · exact hP.hear s _ _ h

theorem afterExec {c : Instr} {s t : State} (h : P s) (e : exec c s = .next t) : P t := by
  rcases instr_kinds c with ⟨f, hc⟩ | ⟨f, hc⟩ | ⟨p, f, hc⟩ | ⟨f, hc⟩ | hc
  · exact request_inv hP.port hP.close h (hc.holds P s) ((hc.exec_eq s).symm.trans e)
  · exact request_inv hP.port hP.close h (hP.changes c f s hc h) ((hc.exec_eq s).symm.trans e)
  · exact event_inv (f := fun s => f (s.takeValid p)) hP.close h (hP.frames c p f _ hc (hP.valid s p h)) ((hc.exec_eq s).symm.trans e)
  · exact event_inv hP.close h (hP.events c f s hc h) ((hc.exec_eq s).symm.trans e)
  · exact hP.afterOthers hc h e

/-- Such a property is kept by every step. -/
theorem afterStep {s t : State} (h : P s) (e : step s = .next t) : P t := by
  cases hq : s.pending with
  | cons c rest =>
    have hs : step s = exec c { s with pending := rest } := by simp only [step, hq]
    exact hP.afterExec (hP.unread s s.portOut s.buffer s.overrun s.chip s.fresh rest h) (hs ▸ e)
  | nil =>
    rcases step_idle hq with ⟨c, n, -, hs, -⟩ | ⟨-, hs⟩
    · exact hP.afterExec (hP.unread s s.portOut s.buffer s.overrun s.chip n s.pending h) (hs ▸ e)
    · have : s.tick = t := by rw [hs] at e; injection e
      subst this
      unfold State.tick
      split
      · exact h
      · exact hP.count s h

end KeptByCommands

end Sys2Proof.Machine
end

