-- ==== Sys2Proof/Proofs/Effects.lean ====
section
/-! What a request that is accepted can do to the state, with what its checks have established: said once for every law that
requests keep. -/

open Sys2Proof Sys2Proof.Machine Sys2Proof.Machine.State

namespace Sys2Proof.Machine

/-- A new record may be created: its identity is none of the table's and not 0, and a slot is free (R6, R7). -/
structure MayCreate (s : State) (i : Ident) : Prop where
  notZero : i ≠ 0
  new : s.lookup i = none
  room : s.records.length < 512

/-- The entries of a request have passed R132 and R133. -/
def MayEnter (s : State) (es : List NewEntry) : Prop := s.entryRefusal es = none ∧ ∃ as, NewEntry.ofArgs as = some es

/-- A correction entry may be written: when it is enabled its two values are not 0, and no other enabled entry has its read
value (R17). -/
def MayCorrect (s : State) (e : Fin 8) (c : Correction) : Prop :=
  c.enabled = true → c.read ≠ 0 ∧ c.corrected ≠ 0 ∧
    ∀ k, k ≠ e → (nth s.settings.corrections k).enabled = true → (nth s.settings.corrections k).read ≠ c.read

/-- The states that an accepted request can leave, before its event is closed. -/
inductive Effect (s : State) : State → Prop
  | created (r : Record) (h : MayCreate s r.ident) : Effect s (s.create r)
  | redirected (r : Record) (l : Level) : Effect s (s.redirect r l)
  | retired (i : Ident) : Effect s (s.retire i)
  | corrected (e : Fin 8) (c : Correction) (h : MayCorrect s e c) :
      Effect s (s.modSettings fun x => { x with corrections := upd x.corrections e fun _ => c })
  | remapped (l : Level) (n : Option Stop) (h : n.isSome → ∀ k, k ≠ l → s.stopOf k ≠ n) : Effect s (s.remap l n)
  | depthSet (k : LaneId) (d : Nat) (h : 1 ≤ d ∧ d ≤ 3) :
      Effect s (s.modSettings fun x => { x with laneDepth := upd x.laneDepth k.ix fun _ => d })
  | modeAsked (l : Level) (m : Mode) : Effect s (s.askMode l m)
  | fenceSet (l : Level) (on : Bool) :
      Effect s ((s.modSettings fun x => { x with fenceOnLoss := upd x.fenceOnLoss l fun _ => on }).recomputeFence l)
  | auditBegun (l : Level) : Effect s (s.beginAudit l)
  | blockCleared (k : LaneId) (f : Lane → Lane) : Effect s (s.modLane k f).withCause
  | claimGranted (l : Level) (g : Grant) : Effect s (s.grantClaim l g)
  | claimEnded (l : Level) (why : Code) : Effect s (s.endClaim l why)
  | directedPlaced (x : Side) (d : Directed) : Effect s (s.placeDirected x d)
  | liftChanged (x : Side) (f : Lift → Lift) : Effect s (s.modLift x f)
  | liftDisabled (x : Side) : Effect s (s.disableLift x)
  | listOpened (n : StationNo) (l : Fin 16) (es : List NewEntry) (h : MayEnter s es) : Effect s (s.openIn n l es)
  | entriesAdded (l : Fin 16) (es : List NewEntry) (h : MayEnter s es) : Effect s (s.addEntries l es)
  | listClosed (l : Fin 16) (r : Option ReleaseList) : Effect s ((s.setList l r).testComplete l)
  | listAborted (l : Fin 16) (r : ReleaseList) : Effect s (s.abortList l r)
  | entrySkipped (ref : EntryRef) (i : Ident) : Effect s (s.skip ref i)
  | exitSettled (r : Record) (e : EntryState) : Effect s (s.settleExit r e)
  | reportModeSet (n : StationNo) (m : ReportMode) :
      Effect s (s.modSettings fun x => { x with reportMode := upd x.reportMode n fun _ => m })
  | holdResolved (r : Record) (p : Placement) : Effect s (s.resolve r p)
  | declared (d : Declaration) (h : MayCreate s d.ident) : Effect s (s.declare d)
  | softReset : Effect s s.afterSoftReset
  | paramWritten (n : Fin 11) (v : Nat) (h : (paramRange n).1 ≤ v ∧ v ≤ (paramRange n).2) : Effect s (s.writeParam n v)
  | eventsCleared (g : Fin 41) : Effect s (s.clearEvents g)
  | maskSet (g : Fin 41) (m : Byte) (h : m &&& ~~~(ownedBits g) = 0) :
      Effect s (s.modSettings fun x => { x with masks := upd x.masks g fun _ => m })
  | summarySet (on : Bool) : Effect s (s.modSettings fun x => { x with summaryEnable := on })

/-! ### What the checks establish -/

theorem lt_recordSlots_of_freeSlots {s : State} (h : (s.freeSlots == 0) = false) : s.records.length < 512 := by
  have : s.freeSlots ≠ 0 := ne_of_beq_false h
  unfold freeSlots Config.recordSlots at this
  omega

theorem lookup_none_of {s : State} {i : Ident} (h : (s.lookup i).isSome = false) : s.lookup i = none := by simpa using h

theorem Declaration.ident_of_ofArgs {i : Ident} {a b w p : Byte} {loc : LocArg} {d : Declaration}
    (h : Declaration.ofArgs i a b w p loc = some d) : d.ident = i ∧ i ≠ 0 := by
  unfold Declaration.ofArgs at h
  repeat' split at h
  · cases h
  · cases h; exact ⟨rfl, ‹¬ i = 0›⟩
  · cases h; exact ⟨rfl, ‹¬ i = 0›⟩
  · cases h
  · cases h

/-! ### One request each -/

section
variable (s : State)

theorem announceInbound_effect (i : Ident) (b : Byte) : (announceInbound i b s).holds (Effect s) := by
  unfold announceInbound
  split
  · exact Answer.holds_refuse _
  · refine Answer.holds_checked fun passed => (Answer.holds_accept _).mpr ?_
    simp only [List.forall_mem_cons] at passed
    obtain ⟨hzero, hnew, hfree, -⟩ := passed
    exact .created _ ⟨ne_of_beq_false hzero, lookup_none_of hnew, lt_recordSlots_of_freeSlots hfree⟩

theorem retarget_effect (i : Ident) (b : Byte) : (retarget i b s).holds (Effect s) := by
  unfold retarget
  split
  · exact Answer.holds_refuse _
  · exact Answer.holds_withRecord fun r _ => Answer.holds_checked fun _ => (Answer.holds_accept _).mpr (.redirected r _)

theorem setCorrection_effect (eb on : Byte) (i j : Ident) : (setCorrection eb on i j s).holds (Effect s) := by
  unfold setCorrection
  split
  · next e on _ _ =>
    refine Answer.holds_checked fun passed => (Answer.holds_accept _).mpr (.corrected e _ fun hon => ?_)
    simp only [List.forall_mem_cons] at passed
    obtain ⟨hvalues, hother, -⟩ := passed
    have hon : on = true := hon
    subst hon
    simp only [Bool.true_and, Bool.or_eq_false_iff, beq_eq_false_iff_ne, List.any_eq_false, List.mem_finRange,
      forall_const, Bool.and_eq_true, bne_iff_ne, beq_iff_eq, not_and] at hvalues hother
    exact ⟨hvalues.1, hvalues.2, fun k hk he => hother k ⟨hk, he⟩⟩
  · exact Answer.holds_refuse _

theorem setLevelMap_effect (lb nb : Byte) : (setLevelMap lb nb s).holds (Effect s) := by
  refine Answer.holds_withLevel fun l => ?_
  split
  · exact Answer.holds_refuse _
  · next n _ =>
    refine Answer.holds_checked fun passed => (Answer.holds_accept _).mpr (.remapped l n fun hn k hk heq => ?_)
    have hother := passed (n.isSome && (List.finRange 32).any (fun k => k != l && s.stopOf k == n), .duplicate) (by simp)
    rw [hn, Bool.true_and, List.any_eq_false] at hother
    exact hother k (List.mem_finRange k) (by simp [hk, heq])

theorem setLaneDepth_effect (lb nb d : Byte) : (setLaneDepth lb nb d s).holds (Effect s) := by
  refine Answer.holds_withLane fun k => Answer.holds_checked fun passed => (Answer.holds_accept _).mpr (.depthSet k _ ?_)
  have hrange := passed (decide (d.toNat < 1) || decide (3 < d.toNat), .outOfRange) (by simp)
  simp only [Bool.or_eq_false_iff, decide_eq_false_iff_not] at hrange
  omega

theorem setLevelMode_effect (lb mb : Byte) : (setLevelMode lb mb s).holds (Effect s) := by
  refine Answer.holds_withLevel fun l => ?_
  repeat' split
  · exact Answer.holds_refuse _
  · exact Answer.holds_refuse _
  · exact (Answer.holds_acceptWith _ _).mpr (.modeAsked l _)

theorem setFenceOnLoss_effect (lb on : Byte) : (setFenceOnLoss lb on s).holds (Effect s) := by
  refine Answer.holds_withLevel fun l => ?_
  split
  · exact Answer.holds_refuse _
  · exact (Answer.holds_accept _).mpr (.fenceSet l _)

theorem startAudit_effect (lb : Byte) : (startAudit lb s).holds (Effect s) := by
  refine Answer.holds_withLevel fun l => ?_
  repeat' split
  · exact Answer.holds_refuse _
  · exact Answer.holds_refuse _
  · exact (Answer.holds_accept _).mpr (.auditBegun l)

theorem approveClaim_effect (b k : Byte) (arg : ClaimArg) : (approveClaim b k arg s).holds (Effect s) := by
  unfold approveClaim
  split
  · refine Answer.holds_checked fun _ => ?_
    unfold approve
    split
    · exact (Answer.holds_acceptWith _ _).mpr (.claimGranted _ _)
    · exact (Answer.holds_changed _ _).mpr (.claimEnded _ _)
  · exact Answer.holds_refuse _

theorem denyClaim_effect (b k : Byte) (arg : ClaimArg) : (denyClaim b k arg s).holds (Effect s) := by
  unfold denyClaim
  split
  · exact Answer.holds_checked fun _ => (Answer.holds_accept _).mpr (.claimEnded _ _)
  · exact Answer.holds_refuse _

theorem directLift_effect (x k l : Byte) (count : Option Byte) : (directLift x k l count s).holds (Effect s) := by
  refine Answer.holds_withLift fun x => ?_
  split
  · exact Answer.holds_refuse _
  · exact Answer.holds_checked fun _ => (Answer.holds_accept _).mpr (.directedPlaced x _)

theorem setLiftEnable_effect (x on : Byte) : (setLiftEnable x on s).holds (Effect s) := by
  refine Answer.holds_withLift fun x => ?_
  have hon : (enableOn s x).holds (Effect s) := by
    unfold enableOn; split
    · exact Answer.holds_checked fun _ => (Answer.holds_accept _).mpr (.liftChanged x _)
    all_goals exact Answer.holds_reply _
  have hoff : (enableOff s x).holds (Effect s) := by
    unfold enableOff; split
    · exact Answer.holds_refuse _
    · exact Answer.holds_reply _
    all_goals exact (Answer.holds_accept _).mpr (.liftDisabled x)
  repeat' split
  · exact Answer.holds_refuse _
  · exact hon
  · exact hoff

theorem openList_effect (n : Byte) (as : List EntryArg) : (openList n as s).holds (Effect s) := by
  unfold openList
  split
  · next es _ ha =>
    repeat' split
    · exact Answer.holds_refuse _
    · exact Answer.holds_refuse _
    · exact Answer.holds_refuse _
    · exact Answer.holds_refuseEntry _
    · next hr => exact (Answer.holds_acceptWith _ _).mpr (.listOpened _ _ es ⟨hr, as, ha⟩)
  · exact Answer.holds_refuse _

theorem appendEntries_effect (l : Byte) (as : List EntryArg) : (appendEntries l as s).holds (Effect s) := by
  refine Answer.holds_withList fun l => ?_
  split
  · exact Answer.holds_refuse _
  · next es ha =>
    split
    · exact Answer.holds_refuse _
    · refine Answer.holds_withUsed fun r _ => ?_
      repeat' split
      · exact Answer.holds_refuse _
      · exact Answer.holds_refuse _
      · exact Answer.holds_refuseEntry _
      · next hr => exact (Answer.holds_acceptWith _ _).mpr (.entriesAdded l es ⟨hr, as, ha⟩)

theorem closeList_effect (l : Byte) : (closeList l s).holds (Effect s) := by
  refine Answer.holds_withList fun l => Answer.holds_withUsed fun r _ => ?_
  split
  · exact Answer.holds_refuse _
  · exact (Answer.holds_accept _).mpr (.listClosed l _)

theorem skipEntry_effect (b k : Byte) : (skipEntry b k s).holds (Effect s) := by
  refine Answer.holds_withList fun l => ?_
  split
  · exact Answer.holds_refuse _
  · refine Answer.holds_withUsed fun r _ => ?_
    repeat' split
    · exact Answer.holds_refuse _
    · exact (Answer.holds_accept _).mpr (.entrySkipped _ _)
    · exact Answer.holds_refuse _

theorem settleRequest_effect (i : Ident) (e : EntryState) : (settleRequest i e s).holds (Effect s) :=
  Answer.holds_withRecord fun r _ => Answer.holds_checked fun _ => (Answer.holds_accept _).mpr (.exitSettled r e)

theorem setReportMode_effect (n m : Byte) : (setReportMode n m s).holds (Effect s) := by
  refine Answer.holds_withStation fun n => ?_
  split
  · exact Answer.holds_refuse _
  · exact (Answer.holds_accept _).mpr (.reportModeSet n _)

theorem resolveHold_effect (i : Ident) (b : Byte) : (resolveHold i b s).holds (Effect s) := by
  unfold resolveHold
  split
  · exact Answer.holds_refuse _
  · refine Answer.holds_withRecord fun r _ => ?_
    repeat' split
    · exact Answer.holds_refuse _
    · exact Answer.holds_checked fun _ => (Answer.holds_accept _).mpr (.holdResolved r _)
    all_goals exact Answer.holds_refuse _

theorem declareTote_effect (i : Ident) (a b w p : Byte) (loc : LocArg) : (declareTote i a b w p loc s).holds (Effect s) := by
  unfold declareTote
  split
  · exact Answer.holds_refuse _
  · next d hd =>
    refine Answer.holds_checked fun passed => (Answer.holds_accept _).mpr (.declared d ?_)
    obtain ⟨rfl, hzero⟩ := Declaration.ident_of_ofArgs hd
    exact ⟨hzero, lookup_none_of (passed _ List.mem_cons_self),
      lt_recordSlots_of_freeSlots (passed (s.freeSlots == 0, .tableFull) (by simp))⟩

theorem setParameter_effect (n : Byte) (v : BitVec 16) : (setParameter n v s).holds (Effect s) := by
  unfold setParameter
  split
  · exact Answer.holds_refuse _
  · next n _ =>
    refine Answer.holds_checked fun passed => (Answer.holds_accept _).mpr (.paramWritten n _ ?_)
    have hrange := passed _ List.mem_cons_self
    simp only [Bool.or_eq_false_iff, decide_eq_false_iff_not] at hrange
    omega

theorem setEventMask_effect (g m : Byte) : (setEventMask g m s).holds (Effect s) := by
  refine Answer.holds_withGroup fun g => Answer.holds_checked fun passed => (Answer.holds_accept _).mpr (.maskSet g m ?_)
  exact by_contra fun hm => absurd (passed _ List.mem_cons_self) (by simpa using hm)

theorem setSummaryEnable_effect (on : Byte) : (setSummaryEnable on s).holds (Effect s) := by
  unfold setSummaryEnable
  split
  · exact Answer.holds_refuse _
  · exact (Answer.holds_accept _).mpr (.summarySet _)

end

/-- What any request that changes the state can do. -/
theorem Changes.effect {c : Instr} {f : State → Answer} (h : Changes c f) (s : State) : (f s).holds (Effect s) := by
  cases h with
  | announce => exact announceInbound_effect s _ _
  | retarget => exact retarget_effect s _ _
  | cancelRecord i =>
    exact Answer.holds_withRecord fun _ _ => Answer.holds_checked fun _ => (Answer.holds_accept _).mpr (.retired i)
  | correction => exact setCorrection_effect s _ _ _ _
  | levelMap => exact setLevelMap_effect s _ _
  | laneDepth => exact setLaneDepth_effect s _ _ _
  | levelMode => exact setLevelMode_effect s _ _
  | fenceOnLoss => exact setFenceOnLoss_effect s _ _
  | audit => exact startAudit_effect s _
  | laneBlock =>
    exact Answer.holds_withLane fun k => Answer.holds_checked fun _ => (Answer.holds_accept _).mpr (.blockCleared k _)
  | approve => exact approveClaim_effect s _ _ _
  | deny => exact denyClaim_effect s _ _ _
  | direct => exact directLift_effect s _ _ _ _
  | cancelDirected | liftBlock =>
    exact Answer.holds_withLift fun x => Answer.holds_checked fun _ => (Answer.holds_accept _).mpr (.liftChanged x _)
  | liftEnable => exact setLiftEnable_effect s _ _
  | openList => exact openList_effect s _ _
  | append => exact appendEntries_effect s _ _
  | closeList => exact closeList_effect s _
  | abortList => exact Answer.holds_withList fun l => Answer.holds_withUsed fun r _ => Answer.holds_checked fun _ =>
      (Answer.holds_accept _).mpr (.listAborted l r)
  | skip => exact skipEntry_effect s _ _
  | confirmExit | declareMissing => exact settleRequest_effect s _ _
  | reportMode => exact setReportMode_effect s _ _
  | resolve => exact resolveHold_effect s _ _
  | declareTote => exact declareTote_effect s _ _ _ _ _ _
  | softReset => exact (Answer.holds_accept _).mpr .softReset
  | parameter => exact setParameter_effect s _ _
  | clearEvents => exact Answer.holds_withGroup fun g => (Answer.holds_acceptWith _ _).mpr (.eventsCleared g)
  | mask => exact setEventMask_effect s _ _
  | summaryEnable => exact setSummaryEnable_effect s _

end Sys2Proof.Machine
end

