-- ==== Sys2Proof/Proofs/TableForm.lean ====
section
/-! Every step keeps the tote table in its form (R5 to R8). -/

open Sys2Proof Sys2Proof.Machine Sys2Proof.Machine.State

namespace Sys2Proof.Machine

/-! ### Requests -/

theorem records_remap (s : State) (l : Level) (n : Option Stop) : (s.remap l n).records = s.records := by
  unfold remap
  rw [(recomputeFence_frame _ _).2.2.1, foldl_records _ fun s k => (forgetReport_frame s k).2.2.1]
  rfl

theorem records_writeParam (s : State) (n : Fin 11) (v : Nat) : (s.writeParam n v).records = s.records := by
  have hset : (s.setParam n v).records = s.records := rfl
  unfold writeParam
  split
  · simp [hset]
  · exact hset

theorem tableWithin_withdraw (s : State) (i : Ident) : tableWithin (s.withdraw i) s := by
  unfold withdraw
  repeat' split
  · exact tableWithin.refl s
  · exact tableWithin_retire s i
  · exact tableWithin_unsequence s _

theorem tableWithin_abortList (s : State) (l : Fin 16) (r : ReleaseList) : tableWithin (s.abortList l r) s :=
  tableWithin_congr (freeList_frame _ _).2.2.1
    (tableWithin_foldl (fun s (e : Entry) => s.withdraw e.ident) (fun s e => tableWithin_withdraw s e.ident) _ s)

theorem tableWithin_redirect (s : State) (r : Record) (l : Level) : tableWithin (s.redirect r l) s := by
  unfold redirect
  split <;> exact tableWithin_modRecord s r.ident (fun x => { x with level := l }) fun _ => rfl

/-- Entries that have passed their checks are added to a legal table. -/
theorem MayEnter.tableLegal {s u : State} {es : List NewEntry} (h : MayEnter s es) (l : Fin 16) (hs : s.tableLegal)
    (hu : u.records = s.records) : (u.addEntries l es).tableLegal := by
  obtain ⟨hr, as, ha⟩ := h
  obtain ⟨hdistinct, hroom⟩ := of_entryRefusal_none hr
  have hlook : ∀ i, u.lookup i = s.lookup i := fun i => by unfold State.lookup; rw [hu]
  refine tableLegal_addEntries l es u hdistinct (newEntry_ident_ne_zero ha) ?_ (tableLegal_of_within (tableWithin_of_eq hu) hs)
  have hlen : s.records.length ≤ 512 := hs.2.2.1
  simp only [hlook, hu]
  omega

theorem tableLegal_of_no_records {s : State} (h : s.records = []) : s.tableLegal := by simp [State.tableLegal, h]

theorem Effect.keeps_tableLegal {s u : State} (e : Effect s u) (h : s.tableLegal) : u.tableLegal := by
  have within : ∀ {v}, tableWithin v s → v.tableLegal := fun hv => tableLegal_of_within hv h
  cases e with
  | created r hr => exact tableLegal_create h hr.notZero hr.new hr.room
  | declared d hd =>
    exact tableLegal_of_within (tableWithin_of_eq (joinLocation_frame _ _ _).2.2.1)
      (tableLegal_create (r := d.record) h hd.notZero hd.new hd.room)
  | listOpened n l es he => exact he.tableLegal l h (by simp)
  | entriesAdded l es he => exact he.tableLegal l h rfl
  | softReset => exact tableLegal_of_no_records rfl
  | redirected r l => exact within (tableWithin_redirect s r l)
  | retired i => exact within (tableWithin_retire s i)
  | claimGranted l g => exact within (tableWithin_grantClaim s l g)
  | listAborted l r => exact within (tableWithin_abortList s l r)
  | entrySkipped ref i => exact within (tableWithin_skip s ref i)
  | exitSettled r e => exact within (tableWithin_settleExit s r e)
  | holdResolved r p => exact within (tableWithin_resolve s r p)
  | remapped l n => exact within (tableWithin_of_eq (records_remap s l n))
  | paramWritten n v => exact within (tableWithin_of_eq (records_writeParam s n v))
  | fenceSet l on => exact within (tableWithin_of_eq (recomputeFence_frame _ _).2.2.1)
  | corrected | depthSet | blockCleared | liftChanged | reportModeSet | maskSet | summarySet => exact h
  | modeAsked | auditBegun | claimEnded | directedPlaced | liftDisabled | listClosed | eventsCleared =>
    exact within (tableWithin_of_eq (by simp))

/-! ### Events create no record -/

theorem tableWithin_takeValid (s : State) (p : Port) : tableWithin (s.takeValid p) s := tableWithin_of_eq (by simp)

theorem tableWithin_claimFrom (s : State) (n : Stop) (c : Claim) : tableWithin (s.claimFrom n c) s := by
  unfold claimFrom receiveClaim
  repeat' split
  · exact tableWithin_of_eq (by simp)
  · exact tableWithin_of_eq (by simp)
  · exact tableWithin_of_eq (by simp)
  · exact tableWithin_of_eq (by simp)
  · exact tableWithin_grantClaim s _ _
  · exact tableWithin_of_eq rfl

theorem tableWithin_answerParty (s : State) (x : Sender) (i g : Byte) {act : State → Fin 34 → State}
    (h : ∀ u k, tableWithin (act u k) u) : tableWithin (s.answerParty x i g act) s := by
  unfold answerParty
  split
  · exact (h _ _).trans (tableWithin_of_eq rfl)
  · exact tableWithin_of_eq rfl
  · exact tableWithin_of_eq rfl

theorem tableWithin_takeCarriageReport (s : State) (x : Side) (r : CarriageReport) :
    tableWithin (s.takeCarriageReport x r) s := by
  unfold takeCarriageReport judgeOrCompare
  repeat' split
  · exact (tableWithin_judgeCarriage _ _ _).trans (tableWithin_of_eq rfl)
  · exact tableWithin_of_eq (by simp)
  · exact tableWithin_of_eq rfl

theorem tableWithin_takeJobRequest (s : State) (x : Side) : tableWithin (s.takeJobRequest x) s := by
  have parked : ∀ u : State, tableWithin (u.park x) u := fun u => tableWithin_of_eq rfl
  have selected : tableWithin (s.selectOrPark x) s := by
    unfold selectOrPark
    repeat' split
    · exact parked s
    · exact tableWithin_select s x
    · exact (parked _).trans (tableWithin_select s x)
  unfold takeJobRequest
  split
  · exact tableWithin_of_eq rfl
  · exact tableWithin_of_eq rfl
  · exact tableWithin_of_eq rfl
  · exact selected
  · exact selected

theorem tableWithin_takeArrival (s : State) (b : Byte) (i : Ident) (w p : Byte) : tableWithin (s.takeArrival b i w p) s := by
  unfold takeArrival judgeArrival
  repeat' split
  · exact tableWithin_of_eq rfl
  · next x k _ _ _ _ =>
    exact tableWithin_modRecord s _ (fun r => { r with place := .entry x, weight := k.class }) fun _ => rfl
  · exact tableWithin_of_eq rfl

theorem tableWithin_takeExitRead (s : State) (x : Side) (i : Ident) : tableWithin (s.takeExitRead x i) s := by
  unfold takeExitRead
  repeat' split
  · exact tableWithin_of_eq rfl
  · exact (tableWithin_strikeOff _ _ _).trans (tableWithin_exitMatch s x _)
  · exact (tableWithin_strikeOff _ _ _).trans (tableWithin_exitFault s x _ _)

theorem tableWithin_endReadWindow (s : State) (i : Fin 34) : tableWithin (s.endReadWindow i) s := by
  have missed : ∀ o x, tableWithin (s.missReads i o x) s := fun o x =>
    (tableWithin_commit _ _ _).trans (tableWithin_foldl _ (fun s t => tableWithin_exitFault s x t 0) _ s)
  unfold endReadWindow
  repeat' split
  · exact tableWithin.refl s
  · exact tableWithin.refl s
  · exact missed _ _
  · exact tableWithin_fail s i _ _
  · exact tableWithin.refl s
  · exact tableWithin.refl s

theorem tableWithin_endMotion (s : State) (i : Fin 34) : tableWithin (s.endMotion i) s := by
  unfold endMotion
  repeat' split
  · exact tableWithin.refl s
  · exact tableWithin.refl s
  · exact tableWithin_fail s i _ _

theorem tableWithin_endWindow (s : State) (i : Fin 34) : tableWithin (s.endWindow i) s := by
  unfold endWindow
  repeat' split
  · exact tableWithin.refl s
  · exact tableWithin.refl s
  · exact tableWithin_fail s i _ _

theorem tableWithin_assertStop (s : State) : tableWithin s.assertStop s := by
  unfold assertStop
  refine tableWithin_congr (foldl_records (fun u (p : PendingClaim) => u.endClaim p.level .stopped)
    (fun u p => (endClaim_frame u p.level .stopped).2.2.1) _ _) (tableWithin_of_eq ?_)
  simp [setLine]

theorem tableWithin_releaseStop (s : State) : tableWithin s.releaseStop s := tableWithin_of_eq (by simp [releaseStop, setLine])

theorem Frames.within {c : Instr} {p : Port} {f : State → State} (h : Frames c p f) (s : State) : tableWithin (f s) s := by
  cases h with
  | beacon n a b c d =>
    exact (tableWithin_reportFrom n .bOut d).trans ((tableWithin_closeEvent _).trans ((tableWithin_reportFrom n .bIn c).trans
      ((tableWithin_closeEvent _).trans ((tableWithin_reportFrom n .aOut b).trans ((tableWithin_closeEvent _).trans
        (tableWithin_reportFrom n .aIn a))))))
  | laneState n x r => exact tableWithin_reportFrom n x r
  | claimPut | claimTake => exact tableWithin_claimFrom s _ _
  | done => exact tableWithin_answerParty s _ _ _ tableWithin_takeDone
  | aborted => exact tableWithin_answerParty s _ _ _ tableWithin_takeAborted
  | auditScan n x =>
    dsimp only; split
    · exact tableWithin_of_eq (by simp)
    · exact tableWithin.refl s
  | liftBeacon | carriageState => exact tableWithin_takeCarriageReport s _ _
  | jobRequest => exact tableWithin_takeJobRequest s _
  | arrival => exact tableWithin_takeArrival s _ _ _ _
  | exitRead b i =>
    dsimp only; split
    · exact tableWithin_takeExitRead s _ _
    · exact tableWithin.refl s
  | frontBeacon | foreign | malformed => exact tableWithin.refl s

theorem Events.within {c : Instr} {f : State → State} (h : Events c f) (s : State) : tableWithin (f s) s := by
  cases h with
  | motionTimeout i => exact tableWithin_endMotion s i
  | confirmTimeout i => exact tableWithin_endWindow s i
  | readWindow i => exact tableWithin_endReadWindow s i
  | statusPeriod | frameLeaves => exact tableWithin_of_eq rfl
  | wrongNode | settle | scan | approval | linkLost | aged => exact tableWithin_of_eq (by simp)

/-! ### The law and the step -/

theorem tableLegal_kept : KeptByCommands State.tableLegal where
  unread _ _ _ _ _ _ _ h := h
  close s h := tableLegal_of_within (tableWithin_closeEvent s) h
  changes _ _ s hc h := Answer.holds_mono (fun _ e => e.keeps_tableLegal h) (hc.effect s)
  valid s p h := tableLegal_of_within (tableWithin_takeValid s p) h
  frames _ _ _ s hc h := tableLegal_of_within (hc.within s) h
  events _ _ s hc h := tableLegal_of_within (hc.within s) h
  hardReset _ _ := tableLegal_of_no_records rfl
  leaveReset _ h := h
  setLine _ _ h := h
  assertStop s h := tableLegal_of_within (tableWithin_assertStop s) h
  releaseStop s h := tableLegal_of_within (tableWithin_releaseStop s) h
  hear _ _ _ h := h
  count _ h := h

/-- Settles O9: of the commands three requests create records, after their checks, the resets empty the table, and every other
command leaves no record in it that was not there. -/
theorem stepKeepsTableLegal : Obligations.StepKeepsTableLegal := fun _ _ h e => tableLegal_kept.afterStep h e

end Sys2Proof.Machine
end

