-- ==== Sys2Proof/Proofs/Fences.lean ====
section
/-! Every step keeps the settings legal (R17, R20, R21, R172, R176), and with them every fence as R38 says. -/

open Sys2Proof Sys2Proof.Machine Sys2Proof.Machine.State

namespace Sys2Proof.Machine

/-! ### What no fence notices -/

/-- From `s` to `t` nothing moves that R38 reads or writes: the settings, the fences, and which stops' links are LOST. -/
structure sameFences (s t : State) : Prop where
  settings : t.settings = s.settings
  fenced : ∀ l, (t.level l).fenced = (s.level l).fenced
  lost : ∀ n, (t.link (.stop n)).status = .lost ↔ (s.link (.stop n)).status = .lost

namespace sameFences

theorem refl (s : State) : sameFences s s := ⟨rfl, fun _ => rfl, fun _ => Iff.rfl⟩

theorem trans {s t u : State} (a : sameFences s t) (b : sameFences t u) : sameFences s u :=
  ⟨b.settings.trans a.settings, fun l => (b.fenced l).trans (a.fenced l), fun n => (b.lost n).trans (a.lost n)⟩

theorem of_status {s t : State} (hs : t.settings = s.settings) (hl : t.levels = s.levels)
    (hk : ∀ p, (t.link p).status = (s.link p).status) : sameFences s t :=
  ⟨hs, fun l => by unfold State.level; rw [hl], fun n => by rw [hk]⟩

theorem of_eq {s t : State} (hs : t.settings = s.settings) (hl : t.levels = s.levels) (hk : t.links = s.links) :
    sameFences s t := of_status hs hl fun p => by unfold State.link; rw [hk]

theorem fencesCurrent {s t : State} (h : sameFences s t) (hf : s.fencesCurrent) : t.fencesCurrent := by
  intro l
  have hstop : t.stopOf l = s.stopOf l := by unfold stopOf; rw [h.settings]
  rw [h.fenced, hf l, h.settings, hstop]
  simp only [h.lost]

theorem foldl {α : Type} {f : State → α → State} (hf : ∀ s a, sameFences s (f s a)) (l : List α) (s : State) :
    sameFences s (l.foldl f s) := by
  induction l generalizing s with
  | nil => exact refl s
  | cons a l ih => exact (hf s a).trans (ih _)

theorem modLevel (s : State) (l : Level) {f : LevelState → LevelState} (hf : ∀ x, (f x).fenced = x.fenced) :
    sameFences s (s.modLevel l f) := by
  refine ⟨rfl, fun k => ?_, fun _ => Iff.rfl⟩
  rw [level_modLevel]; split
  · exact hf _
  · rfl

theorem modLink (s : State) (p : Port) {f : Link → Link} (hf : ∀ x, (f x).status = x.status) :
    sameFences s (s.modLink p f) := by
  refine of_status rfl rfl fun q => ?_
  rw [link_modLink]; split
  · exact hf _
  · rfl

theorem modLane (s : State) (k : LaneId) (f : Lane → Lane) : sameFences s (s.modLane k f) := of_eq rfl rfl rfl

theorem modLift (s : State) (x : Side) (f : Lift → Lift) : sameFences s (s.modLift x f) := of_eq rfl rfl rfl

theorem raise (s : State) (f : Flag) : sameFences s (s.raise f) := of_eq rfl rfl rfl

theorem withCause (s : State) : sameFences s s.withCause := of_eq rfl rfl rfl

theorem send (s : State) (p : Port) (f : OutFrame) : sameFences s (s.send p f) := modLink s p fun _ => rfl

theorem sendLevel (s : State) (l : Level) (f : OutFrame) : sameFences s (s.sendLevel l f) := by
  unfold State.sendLevel; split
  · exact send s _ f
  · exact refl s

theorem endClaim (s : State) (l : Level) (why : Code) : sameFences s (s.endClaim l why) :=
  of_status (by simp) (by simp) (status_endClaim s l why)

/-! ### A level's mode, and the end of a transfer -/

theorem cutSettles (s : State) (l : Level) (old : Mode) : sameFences s (s.cutSettles l old) :=
  of_eq (by simp) (by simp) (by simp)

theorem overtake (s : State) (l : Level) (old new : Mode) : sameFences s (s.overtake l old new) := by
  unfold State.overtake; split
  · exact endClaim s l _
  · exact refl s

theorem changeMode (s : State) (l : Level) (m : Mode) : sameFences s (s.changeMode l m) := by
  unfold State.changeMode; split
  · exact refl s
  · refine trans (trans (trans (modLevel _ _ ?_) (cutSettles _ _ _)) (overtake _ _ _ _)) (withCause _)
    exact fun _ => rfl

theorem askMode (s : State) (l : Level) (m : Mode) : sameFences s (s.askMode l m) := changeMode s l _

theorem testDrain (s : State) (l : Level) : sameFences s (s.testDrain l) := by
  unfold State.testDrain; split
  · exact (changeMode s l .off).trans (raise _ _)
  · exact refl s

theorem testStreak (s : State) (l : Level) : sameFences s (s.testStreak l) := by
  unfold State.testStreak; split
  · exact (askMode s l .off).trans (raise _ _)
  · exact refl s

theorem afterEnd (s : State) (ls : List Level) : sameFences s (s.afterEnd ls) :=
  (foldl testDrain ls s).trans (of_eq rfl rfl rfl)

theorem clearStreak (s : State) (l : Level) : sameFences s (s.clearStreak l) := modLevel s l fun _ => rfl

theorem raiseStreak (s : State) (l : Level) : sameFences s (s.raiseStreak l) := modLevel s l fun _ => rfl

theorem freeSlot (s : State) (i : Fin 34) (e : LastEnd) : sameFences s (s.freeSlot i e) := of_eq rfl rfl rfl

theorem partyFree (s : State) (i : Fin 34) (failed : Bool) : sameFences s (s.partyFree i failed) :=
  of_eq (by simp) (by simp) (by simp)

theorem commit (s : State) (i : Fin 34) (o : Open) : sameFences s (s.commit i o) := by
  unfold State.commit
  refine trans (trans (trans (trans ?_ (foldl clearStreak _ _)) (freeSlot _ _ _)) (partyFree _ _ _)) (afterEnd _ _)
  exact of_eq (by simp) (by simp) (by simp)

theorem abort (s : State) (i : Fin 34) (o : Open) : sameFences s (s.abort i o) := by
  unfold State.abort
  refine trans (trans (trans ?_ (freeSlot _ _ _)) (partyFree _ _ _)) (afterEnd _ _)
  exact of_eq (by simp) (by simp) (by simp)

theorem raiseFailed (s : State) (i : Fin 34) (o : Open) : sameFences s (s.raiseFailed i o) :=
  of_eq (by simp) (by simp) (by simp)

theorem fail (s : State) (i : Fin 34) (o : Open) (why : FailReason) : sameFences s (s.fail i o why) := by
  unfold State.fail
  refine trans (trans (trans (trans (trans (trans ?_ (foldl raiseStreak _ _)) (raiseFailed _ _ _)) (freeSlot _ _ _))
    (partyFree _ _ _)) (foldl testStreak _ _)) (afterEnd _ _)
  exact of_eq (by simp) (by simp) (by simp)

/-! ### Judgements -/

theorem advance (s : State) (i : Fin 34) (o : Open) : sameFences s (s.advance i o) := by
  have put : sameFences s (s.putOpen i o) := of_eq rfl rfl rfl
  unfold State.advance; split
  · exact put.trans (commit _ i o)
  · exact put

theorem judgeLane (s : State) (i : Fin 34) (r : LaneReport) : sameFences s (s.judgeLane i r) := by
  unfold State.judgeLane
  repeat' split
  · exact refl s
  · exact refl s
  · exact refl s
  · exact advance s i _
  · exact fail s i _ _
  · exact advance s i _
  · exact refl s

theorem judgeCarriage (s : State) (i : Fin 34) (r : CarriageReport) : sameFences s (s.judgeCarriage i r) := by
  unfold State.judgeCarriage
  repeat' split
  · exact refl s
  · exact refl s
  · exact advance s i _
  · exact fail s i _ _
  · exact refl s
  · exact refl s

theorem judgeReport (s : State) (k : LaneId) (r : LaneReport) : sameFences s (s.judgeReport k r) := by
  unfold State.judgeReport; split
  · exact judgeLane s _ r
  · exact of_eq (by simp) (by simp) (by simp)

theorem reportFrom (s : State) (n : Stop) (x : LaneName) (r : LaneReport) : sameFences s (s.reportFrom n x r) := by
  unfold State.reportFrom; split
  · exact (modLane s _ _).trans (judgeReport _ _ r)
  · exact refl s

theorem takeDone (s : State) (i : Fin 34) : sameFences s (s.takeDone i) := by
  have latestLane : ∀ (u : State) k, sameFences u (u.judgeLatestLane i k) := fun u k => by
    unfold judgeLatestLane; split
    · exact judgeLane u i _
    · exact refl u
  have latestCarriage : ∀ (u : State) x, sameFences u (u.judgeLatestCarriage i x) := fun u x => by
    unfold judgeLatestCarriage; split
    · exact judgeCarriage u i _
    · exact refl u
  unfold State.takeDone
  repeat' split
  · exact refl s
  · exact refl s
  · exact (advance s i _).trans ((latestLane _ _).trans (latestCarriage _ _))

theorem takeAborted (s : State) (i : Fin 34) : sameFences s (s.takeAborted i) := by
  unfold State.takeAborted
  repeat' split
  · exact refl s
  · exact fail s i _ _
  · exact abort s i _

theorem answerParty (s : State) (x : Sender) (i g : Byte) {act : State → Fin 34 → State}
    (h : ∀ u k, sameFences u (act u k)) : sameFences s (s.answerParty x i g act) := by
  unfold State.answerParty; split
  · exact (send s _ _).trans (h _ _)
  · exact send s _ _
  · exact send s _ _

theorem exitFault (s : State) (x : Side) (i j : Ident) : sameFences s (s.exitFault x i j) :=
  of_eq (by simp) (by simp) (by simp)

theorem takeExitRead (s : State) (x : Side) (i : Ident) : sameFences s (s.takeExitRead x i) := by
  have strike : ∀ (u : State) j t, sameFences u (u.strikeOff j t) := fun u j t => by
    unfold strikeOff; split
    · exact refl u
    · exact advance u j _
  unfold State.takeExitRead
  repeat' split
  · exact of_eq rfl rfl rfl
  · exact (of_eq (by simp) (by simp) (by simp)).trans (strike _ _ _)
  · exact (exitFault s x _ i).trans (strike _ _ _)

theorem endMotion (s : State) (i : Fin 34) : sameFences s (s.endMotion i) := by
  unfold State.endMotion
  repeat' split
  · exact refl s
  · exact refl s
  · exact fail s i _ _

theorem endWindow (s : State) (i : Fin 34) : sameFences s (s.endWindow i) := by
  unfold State.endWindow
  repeat' split
  · exact refl s
  · exact refl s
  · exact fail s i _ _

theorem missReads (s : State) (i : Fin 34) (o : Open) (x : Side) : sameFences s (s.missReads i o x) :=
  (foldl (fun u t => exitFault u x t 0) o.totes s).trans (commit _ _ _)

theorem endReadWindow (s : State) (i : Fin 34) : sameFences s (s.endReadWindow i) := by
  unfold State.endReadWindow
  repeat' split
  · exact refl s
  · exact refl s
  · exact missReads s i _ _
  · exact fail s i _ _
  · exact refl s
  · exact refl s

/-! ### Claims, lifts, audits and the close of an event -/

theorem grantClaim (s : State) (l : Level) (g : Grant) : sameFences s (s.grantClaim l g) := by
  unfold State.grantClaim
  refine (of_eq (t := (s.unpend l).openTransfer g) (by simp) (by simp) (by simp)).trans ?_
  unfold sendGrant; split
  · exact sendLevel _ _ _
  · exact refl _
  · exact refl _

theorem placeClaim (s : State) (l : Level) (c : Claim) : sameFences s (s.placeClaim l c) := by
  unfold State.placeClaim
  refine trans (trans ?_ (sendLevel _ _ _)) (raise _ _)
  exact of_eq rfl rfl rfl

theorem claimFrom (s : State) (n : Stop) (c : Claim) : sameFences s (s.claimFrom n c) := by
  unfold State.claimFrom receiveClaim
  repeat' split
  · exact sendLevel s _ _
  · exact sendLevel s _ _
  · exact sendLevel s _ _
  · exact placeClaim s _ _
  · exact grantClaim s _ _
  · exact send s _ _

theorem dropParked (s : State) (x : Side) (to_ : LiftStatus) (why : Code) : sameFences s (s.dropParked x to_ why) := by
  have set : sameFences s (s.setLift x to_) := modLift s x _
  unfold State.dropParked; split
  · exact set.trans (send _ _ _)
  · exact set

theorem disagree (s : State) (x : Side) (before : Bool) : sameFences s (s.disagree x before) := by
  have dispute := (dropParked s x .blocked .blocked).trans (raise _ (.lift x .carriageMismatch))
  unfold State.disagree
  repeat' split
  · exact dispute
  · exact dispute
  · exact refl s
  · exact raise s _
  · exact refl s
  · exact refl s

theorem judgeOrCompare (s : State) (x : Side) (r : CarriageReport) (before : Bool) :
    sameFences s (s.judgeOrCompare x r before) := by
  unfold State.judgeOrCompare
  repeat' split
  · exact judgeCarriage s _ r
  · exact disagree s x before
  · exact refl s

theorem takeCarriageReport (s : State) (x : Side) (r : CarriageReport) : sameFences s (s.takeCarriageReport x r) :=
  (modLift s x _).trans (judgeOrCompare _ x r _)

theorem select (s : State) (x : Side) : sameFences s (s.select x).1 := by
  obtain ⟨u, f, -, hu, hsel⟩ := select_cases s x
  have walked : sameFences s u := by rw [hu]; exact of_eq rfl rfl rfl
  rcases hsel with hsel | ⟨g, -, hsel⟩
  · rw [hsel]; exact walked
  · rw [hsel]
    refine walked.trans ?_
    unfold grantJob sendJob
    exact (of_eq (t := (u.openTransfer g).claimTaken g) (by simp) (by simp) (by simp)).trans (send _ _ _)

theorem takeJobRequest (s : State) (x : Side) : sameFences s (s.takeJobRequest x) := by
  have parked : ∀ u : State, sameFences u (u.park x) := fun u => (modLift u x _).trans (send _ _ _)
  have selected : sameFences s (s.selectOrPark x) := by
    unfold selectOrPark
    repeat' split
    · exact parked s
    · exact select s x
    · exact (select s x).trans (parked _)
  unfold State.takeJobRequest; split
  · exact send s _ _
  · exact send s _ _
  · exact send s _ _
  · exact selected
  · exact selected

theorem takeArrival (s : State) (b : Byte) (i : Ident) (w p : Byte) : sameFences s (s.takeArrival b i w p) := by
  unfold State.takeArrival judgeArrival
  repeat' split
  · unfold rejectArrival; exact (send s _ _).trans (of_eq rfl rfl rfl)
  · unfold acceptArrival; exact (send s _ _).trans (of_eq rfl rfl rfl)
  · exact send s _ _

theorem endAudit (s : State) (l : Level) : sameFences s (s.endAudit l) :=
  (modLevel s l (f := fun x => { x with scan := none }) fun _ => rfl).trans (of_eq rfl rfl rfl)

theorem takeScan (s : State) (l : Level) (x : Scan) : sameFences s (s.takeScan l x) := by
  unfold State.takeScan; split
  · exact refl s
  · exact (foldl (fun u k => of_eq (by simp) (by simp) (by simp)) _ s).trans (endAudit _ l)

theorem timeOutAudit (s : State) (l : Level) : sameFences s (s.timeOutAudit l) := by
  unfold State.timeOutAudit; split
  · exact refl s
  · exact (foldl (fun u k => of_eq (by simp) (by simp) (by simp)) _ s).trans (endAudit _ l)

theorem beginAudit (s : State) (l : Level) : sameFences s (s.beginAudit l) := by
  unfold State.beginAudit
  exact (foldl (fun u k => of_eq (t := u.joinAudit k) rfl rfl rfl) (lanesOf l) s).trans
    ((modLevel _ l (f := fun x => { x with scan := some s.settings.params.scanLimit }) fun _ => rfl).trans (sendLevel _ l _))

theorem status_putStatus (x : Link) (begins stopped : Bool) : (x.putStatus begins stopped).status = x.status := by
  unfold Link.putStatus; (repeat' split) <;> rfl

theorem sendStatus (s : State) : sameFences s s.sendStatus :=
  of_status rfl rfl fun p => by simp [State.sendStatus, State.link, status_putStatus]

theorem closeEvent (s : State) : sameFences s s.closeEvent := by
  have grants := grantsAtMost_closeEvent s
  refine ⟨by simp, fun l => by unfold State.level; rw [grants.levels], fun n => by rw [grants.stopLinks]⟩

/-- At a tick no level's fence and no link's being LOST changes. -/
theorem count (s : State) : sameFences s s.count := by
  refine ⟨rfl, fun l => ?_, fun n => ?_⟩
  · simp only [State.count, State.level, nth_map]; rfl
  · simp only [State.count, State.link, nth_map, Link.tick]
    cases (nth s.links (Port.stop n).ix).status <;> simp

end sameFences

/-! ### Changes of a link's status -/

theorem settings_setLink (s : State) (p : Port) (x : LinkStatus) : (s.setLink p x).settings = s.settings := rfl

/-- A link that was not LOST and is set UP again changes no fence. -/
theorem sameFences_setLink_up {s : State} {p : Port} (h : (s.link p).status ≠ .lost) (n : Nat) :
    sameFences s (s.setLink p (.up n)) := by
  refine ⟨rfl, fun _ => rfl, fun m => ?_⟩
  unfold setLink
  rw [link_modLink]
  split
  · next hp => subst hp; simpa using h
  · rfl

theorem fencesCurrent_takeValid {s : State} (p : Port) (hl : s.settings.legal) (h : s.fencesCurrent) :
    (s.takeValid p).fencesCurrent := by
  have heard : sameFences s (s.hear p []) := sameFences.modLink s p fun _ => rfl
  have hf := heard.fencesCurrent h
  unfold takeValid bringUp
  split
  · next hup => exact (sameFences_setLink_up (by rw [hup]; simp) _).fencesCurrent hf
  · exact (sameFences.send _ _ _).fencesCurrent (fencesCurrent_linkChanged p _ hl hf)
  · exact fencesCurrent_linkChanged p _ hl hf

theorem fencesCurrent_loseLink {s : State} (p : Port) (hl : s.settings.legal) (h : s.fencesCurrent) :
    (s.loseLink p).fencesCurrent := by
  have unpark : ∀ u : State, sameFences u (u.unpark p) := fun u => .of_eq (by simp) (by simp) (by simp)
  unfold loseLink
  split
  · exact (unpark _).fencesCurrent (fencesCurrent_linkChanged p _ hl h)
  · exact h
  · exact h

/-! ### Changes of the settings -/

/-- A fence reads no settings but the level map and the fence-on-loss settings. -/
theorem fencesCurrent_settings {s : State} {x : Settings} (hm : x.levelMap = s.settings.levelMap)
    (hf : x.fenceOnLoss = s.settings.fenceOnLoss) (h : s.fencesCurrent) : State.fencesCurrent { s with settings := x } := by
  intro l
  have := h l
  unfold stopOf at this ⊢
  show (s.level l).fenced = true ↔ ∃ n, nth x.levelMap l = some n ∧ (s.link (.stop n)).status = .lost ∧
    nth x.fenceOnLoss l = true
  rw [hm, hf]; exact this

/-- New settings that change the mapping or the fence-on-loss setting of one level at most, and the recomputation of its fence. -/
theorem fencesCurrent_recompute_settings {s : State} {x : Settings} (l : Level)
    (hm : ∀ k, k ≠ l → nth x.levelMap k = nth s.settings.levelMap k)
    (hf : ∀ k, k ≠ l → nth x.fenceOnLoss k = nth s.settings.fenceOnLoss k) (h : s.fencesCurrent) {u : State}
    (hu : sameFences { s with settings := x } u) : (u.recomputeFence l).fencesCurrent := by
  rw [fencesCurrent_iff] at h
  refine fencesCurrent_recomputeFence l fun k hk => ?_
  rw [hu.fenced]
  refine (h k).trans ?_
  have hmap : u.stopOf k = s.stopOf k := by unfold stopOf; rw [hu.settings]; exact hm k hk
  have hlost : ∀ n, ((u.link (.stop n)).status == .lost) = ((s.link (.stop n)).status == .lost) := fun n =>
    Bool.eq_iff_iff.mpr (beq_iff_eq.trans ((hu.lost n).trans beq_iff_eq.symm))
  unfold fenceOf
  rw [hmap, hu.settings]
  cases s.stopOf k with
  | none => rfl
  | some n => dsimp only; rw [hlost, hf k hk]

theorem fencesCurrent_remap {s : State} (l : Level) (n : Option Stop) (h : s.fencesCurrent) : (s.remap l n).fencesCurrent := by
  unfold remap
  refine fencesCurrent_recompute_settings (x := { s.settings with levelMap := upd s.settings.levelMap l fun _ => n }) l
    (fun k hk => nth_upd_ne _ _ _ _ (Ne.symm hk)) (fun _ _ => rfl) h ?_
  exact sameFences.foldl (fun u k => sameFences.modLane u k _) _ _

theorem fencesCurrent_fenceSet {s : State} (l : Level) (on : Bool) (h : s.fencesCurrent) :
    ((s.modSettings fun x => { x with fenceOnLoss := upd x.fenceOnLoss l fun _ => on }).recomputeFence l).fencesCurrent :=
  fencesCurrent_recompute_settings (x := { s.settings with fenceOnLoss := upd s.settings.fenceOnLoss l fun _ => on }) l
    (fun _ _ => rfl) (fun _ hk => nth_upd_ne _ _ _ _ (Ne.symm hk)) h (.refl _)

theorem settings_remap (s : State) (l : Level) (n : Option Stop) :
    (s.remap l n).settings = { s.settings with levelMap := upd s.settings.levelMap l fun _ => n } := by
  unfold remap
  rw [(recomputeFence_frame _ _).1, foldl_settings _ fun s k => (forgetReport_frame s k).1]
  rfl

theorem sameFences_writeParam (s : State) (n : Fin 11) (v : Nat) : sameFences (s.setParam n v) (s.writeParam n v) := by
  unfold writeParam; split
  · exact .of_eq (by simp) (by simp) (by simp)
  · exact .refl _

/-! ### The settings stay legal -/

section
variable {x : Settings} (h : x.legal)
include h

theorem Settings.legal_corrections (e : Fin 8) (c : Correction)
    (hc : c.enabled = true → c.read ≠ 0 ∧ c.corrected ≠ 0 ∧
      ∀ k, k ≠ e → (nth x.corrections k).enabled = true → (nth x.corrections k).read ≠ c.read) :
    Settings.legal { x with corrections := upd x.corrections e fun _ => c } := by
  obtain ⟨hmap, hvalues, hdistinct, hrest⟩ := h
  refine ⟨hmap, fun a ha => ?_, fun a b hab ha hb => ?_, hrest⟩
  · simp only [nth_upd] at ha ⊢
    split at ha
    · next hea => rw [if_pos hea]; exact ⟨(hc ha).1, (hc ha).2.1⟩
    · next hea => rw [if_neg hea]; exact hvalues a ha
  · simp only [nth_upd] at ha hb ⊢
    by_cases hea : e = a
    · subst hea
      rw [if_pos rfl] at ha
      rw [if_neg hab] at hb
      rw [if_pos rfl, if_neg hab]
      exact ((hc ha).2.2 b (Ne.symm hab) hb).symm
    · rw [if_neg hea] at ha ⊢
      by_cases heb : e = b
      · subst heb
        rw [if_pos rfl] at hb ⊢
        exact (hc hb).2.2 a hab ha
      · rw [if_neg heb] at hb ⊢
        exact hdistinct a b hab ha hb

theorem Settings.legal_levelMap (l : Level) (n : Option Stop) (hn : n.isSome → ∀ k, k ≠ l → nth x.levelMap k ≠ n) :
    Settings.legal { x with levelMap := upd x.levelMap l fun _ => n } := by
  obtain ⟨hmap, hrest⟩ := h
  refine ⟨fun a b hab ha => ?_, hrest⟩
  simp only [nth_upd] at ha ⊢
  by_cases hla : l = a
  · subst hla
    rw [if_pos rfl] at ha
    rw [if_pos rfl, if_neg hab]
    exact (hn ha b (Ne.symm hab)).symm
  · rw [if_neg hla] at ha ⊢
    split
    · next hlb => exact fun heq => hn (heq ▸ ha) a (fun c => hla c.symm) heq
    · exact hmap a b hab ha

theorem Settings.legal_laneDepth (k : LaneId) (d : Nat) (hd : 1 ≤ d ∧ d ≤ 3) :
    Settings.legal { x with laneDepth := upd x.laneDepth k.ix fun _ => d } := by
  obtain ⟨hmap, hvalues, hdistinct, hdepth, hrest⟩ := h
  refine ⟨hmap, hvalues, hdistinct, fun j => ?_, hrest⟩
  simp only [nth_upd]
  split
  · exact hd
  · exact hdepth j

theorem Settings.legal_masks (g : Fin 41) (m : Byte) (hm : m &&& ~~~(ownedBits g) = 0) :
    Settings.legal { x with masks := upd x.masks g fun _ => m } := by
  obtain ⟨hmap, hvalues, hdistinct, hdepth, hmasks, hparams⟩ := h
  refine ⟨hmap, hvalues, hdistinct, hdepth, fun j => ?_, hparams⟩
  simp only [nth_upd]
  split
  · next hg => subst hg; exact hm
  · exact hmasks j

end

theorem Params.legal_set {p : Params} (h : p.legal) (n : Fin 11) (v : Nat) (hv : (paramRange n).1 ≤ v ∧ v ≤ (paramRange n).2) :
    (p.set n v).legal := by
  unfold Params.legal at *
  fin_cases n <;> simp only [Params.set, paramRange] at hv ⊢ <;> omega

theorem Settings.legal_default : Settings.default.legal := by
  refine ⟨fun a b hab _ heq => hab ?_, fun a ha => ?_, fun a b _ ha => ?_, fun k => ?_, fun g => ?_, ?_⟩
  · simp only [Settings.default, nth_tab, Option.some.injEq] at heq
    exact Fin.castLE_injective _ heq
  · simp [Settings.default] at ha
  · simp [Settings.default] at ha
  · simp [Settings.default]
  · simp [Settings.default]
  · simp [Settings.default, Params.default, Params.legal]

/-! ### The law and the step -/

/-- The settings are legal, and so long as `F` the fences are current. -/
def settingsAndFences (F : Prop) (s : State) : Prop := s.settings.legal ∧ (F → s.fencesCurrent)

namespace settingsAndFences

variable {F : Prop} {s t : State}

theorem of_same (h : settingsAndFences F s) (e : sameFences s t) : settingsAndFences F t :=
  ⟨by rw [e.settings]; exact h.1, fun hF => e.fencesCurrent (h.2 hF)⟩

theorem of_settings (h : settingsAndFences F s) {x : Settings} (hx : x.legal) (hm : x.levelMap = s.settings.levelMap)
    (hf : x.fenceOnLoss = s.settings.fenceOnLoss) : settingsAndFences F { s with settings := x } :=
  ⟨hx, fun hF => fencesCurrent_settings hm hf (h.2 hF)⟩

/-- Right after a reset no level is fenced and no link is LOST. -/
theorem of_reset (hl : t.settings.legal) (hf : ∀ l, (t.level l).fenced = false)
    (hk : ∀ n, (t.link (.stop n)).status = .down) : settingsAndFences F t :=
  ⟨hl, fun _ l => by simp [hf, hk]⟩

theorem softReset (h : settingsAndFences F s) : settingsAndFences F s.afterSoftReset := by
  refine of_reset h.1 (fun l => ?_) fun n => ?_
  · simp [State.afterSoftReset, State.inHardReset, State.level, LevelState.initial]
  · simp only [State.afterSoftReset, State.link, nth_tab]
    unfold Link.softReset
    (repeat' split) <;> rfl

theorem writeParam (h : settingsAndFences F s) (n : Fin 11) (v : Nat)
    (hv : (paramRange n).1 ≤ v ∧ v ≤ (paramRange n).2) : settingsAndFences F (s.writeParam n v) := by
  obtain ⟨⟨hmap, hvalues, hdistinct, hdepth, hmasks, hparams⟩, -⟩ := id h
  have set : settingsAndFences F (s.setParam n v) :=
    h.of_settings ⟨hmap, hvalues, hdistinct, hdepth, hmasks, Params.legal_set hparams n v hv⟩ rfl rfl
  exact set.of_same (sameFences_writeParam s n v)

theorem effect (h : settingsAndFences F s) (e : Effect s t) : settingsAndFences F t := by
  cases e with
  | corrected e c hc => exact h.of_settings (Settings.legal_corrections h.1 e c hc) rfl rfl
  | remapped l n hn =>
    exact ⟨by rw [settings_remap]; exact Settings.legal_levelMap h.1 l n hn, fun hF => fencesCurrent_remap l n (h.2 hF)⟩
  | depthSet k d hd => exact h.of_settings (Settings.legal_laneDepth h.1 k d hd) rfl rfl
  | fenceSet l on =>
    exact ⟨by rw [(recomputeFence_frame _ _).1]; exact h.1, fun hF => fencesCurrent_fenceSet l on (h.2 hF)⟩
  | reportModeSet | summarySet => exact h.of_settings h.1 rfl rfl
  | maskSet g m hm => exact h.of_settings (Settings.legal_masks h.1 g m hm) rfl rfl
  | paramWritten n v hv => exact h.writeParam n v hv
  | softReset => exact h.softReset
  | modeAsked l m => exact h.of_same (.askMode s l m)
  | auditBegun l => exact h.of_same (.beginAudit s l)
  | claimGranted l g => exact h.of_same (.grantClaim s l g)
  | claimEnded l why => exact h.of_same (.endClaim s l why)
  | liftDisabled x => exact h.of_same ((sameFences.dropParked s x _ _).trans (.modLift _ _ _))
  | eventsCleared g =>
    have cleared : sameFences s (s.clearGroup g) := .of_eq rfl rfl rfl
    refine h.of_same ?_
    unfold clearEvents; split
    · exact cleared.trans (.clearStreak _ _)
    · exact cleared
  | created | retired | blockCleared | liftChanged => exact h.of_same (.of_eq rfl rfl rfl)
  | redirected r l => refine h.of_same ?_; unfold redirect; split <;> exact .of_eq rfl rfl rfl
  | listClosed => exact h.of_same (.of_eq (by simp) (by simp) (by simp))
  | directedPlaced | listOpened | entriesAdded | listAborted | entrySkipped | exitSettled | holdResolved | declared =>
    exact h.of_same (.of_eq (by simp) (by simp) (by simp))

theorem takeValid (h : settingsAndFences F s) (p : Port) : settingsAndFences F (s.takeValid p) :=
  ⟨by simpa using h.1, fun hF => fencesCurrent_takeValid p h.1 (h.2 hF)⟩

end settingsAndFences

theorem Frames.sameFences {c : Instr} {p : Port} {f : State → State} (h : Frames c p f) (s : State) :
    sameFences s (f s) := by
  cases h with
  | beacon =>
    exact ((((((sameFences.reportFrom s _ _ _).trans (.closeEvent _)).trans (.reportFrom _ _ _ _)).trans
      (.closeEvent _)).trans (.reportFrom _ _ _ _)).trans (.closeEvent _)).trans (.reportFrom _ _ _ _)
  | laneState => exact .reportFrom s _ _ _
  | claimPut | claimTake => exact .claimFrom s _ _
  | done => exact .answerParty s _ _ _ .takeDone
  | aborted => exact .answerParty s _ _ _ .takeAborted
  | auditScan n x =>
    dsimp only; split
    · exact .takeScan s _ x
    · exact .refl s
  | liftBeacon | carriageState => exact .takeCarriageReport s _ _
  | jobRequest => exact .takeJobRequest s _
  | arrival => exact .takeArrival s _ _ _ _
  | exitRead b i =>
    dsimp only; split
    · exact .takeExitRead s _ _
    · exact .refl s
  | frontBeacon | foreign | malformed => exact .refl s

theorem Events.settingsAndFences {F : Prop} {c : Instr} {f : State → State} (hc : Events c f) {s : State}
    (h : settingsAndFences F s) : settingsAndFences F (f s) := by
  cases hc with
  | wrongNode p =>
    have heard : sameFences s (s.hear p []) := .modLink s p fun _ => rfl
    exact h.of_same (heard.trans (.of_eq (by simp) (by simp) (by simp)))
  | motionTimeout => exact h.of_same (.endMotion s _)
  | confirmTimeout => exact h.of_same (.endWindow s _)
  | readWindow => exact h.of_same (.endReadWindow s _)
  | settle | aged => exact h.of_same (.of_eq (by simp) (by simp) (by simp))
  | scan => exact h.of_same (.timeOutAudit s _)
  | approval => exact h.of_same (.endClaim s _ _)
  | linkLost p => exact ⟨by simpa using h.1, fun hF => fencesCurrent_loseLink p h.1 (h.2 hF)⟩
  | statusPeriod => exact h.of_same ((sameFences.sendStatus s).trans (.of_eq rfl rfl rfl))
  | frameLeaves p => exact h.of_same (.modLink s p fun _ => rfl)

theorem sameFences_setLine_told (s : State) (line : Bool) :
    sameFences s ((s.setLine line).raise (.aisle .stopChange)).sendStatus := by
  refine sameFences.trans ?_ (.sendStatus _)
  exact .of_eq rfl rfl rfl

theorem sameFences_assertStop (s : State) : sameFences s s.assertStop := by
  have paused : sameFences s (((s.setLine true).raise (.aisle .stopChange)).sendStatus.pauseTimers) := by
    refine (sameFences_setLine_told s true).trans ?_
    exact .of_eq rfl rfl rfl
  exact paused.trans (sameFences.foldl (fun u (p : PendingClaim) => sameFences.endClaim u p.level .stopped) s.approvals _)

theorem sameFences_releaseStop (s : State) : sameFences s s.releaseStop := by
  refine (sameFences_setLine_told s false).trans ?_
  exact .of_eq rfl rfl rfl

theorem sameFences_leaveReset (s : State) : sameFences s s.leaveReset :=
  .of_status rfl rfl fun p => by simp [leaveReset, State.link]

theorem settingsAndFences_kept (F : Prop) : KeptByCommands (settingsAndFences F) where
  unread _ _ _ _ _ _ _ h := h
  close s h := h.of_same (.closeEvent s)
  changes _ _ s hc h := Answer.holds_mono (fun _ e => h.effect e) (hc.effect s)
  valid _ p h := h.takeValid p
  frames _ _ _ s hc h := h.of_same (hc.sameFences s)
  events _ _ _ hc h := hc.settingsAndFences h
  hardReset s _ := .of_reset Settings.legal_default
    (fun l => by simp [State.inHardReset, State.level, LevelState.initial])
    (fun n => by simp [State.inHardReset, State.link, Link.initial])
  leaveReset s h := h.of_same (sameFences_leaveReset s)
  setLine _ _ h := h
  assertStop s h := h.of_same (sameFences_assertStop s)
  releaseStop s h := h.of_same (sameFences_releaseStop s)
  hear s p _ h := h.of_same (.modLink s p fun _ => rfl)
  count s h := h.of_same (.count s)

/-- Settles O8: the settings change only after the checks of their requests, and a fence is recomputed wherever its level's
mapping, its setting or the status of its stop's link changes. -/
theorem stepKeepsSettingsLegalAndFencesCurrent : Obligations.StepKeepsSettingsLegalAndFencesCurrent := fun s _ hl e =>
  (settingsAndFences_kept s.fencesCurrent).afterStep ⟨hl, id⟩ e

end Sys2Proof.Machine
end

