-- ==== Sys2Proof/Proofs/Reset.lean ====
section
/-! The state after reset (R6, R17, R19, R21, R32, R45, R66, R68, R83, R106, R116, R172), and the laws that hold in it. -/

open Sys2Proof Sys2Proof.Machine Sys2Proof.Machine.State

namespace Sys2Proof.Machine

/-! ### How it comes about -/

/-- With the stop line released, chip select not asserted, no free value asked for and an empty queue, HARD_RESET and then
RESET_RELEASE bring the part to the state after reset (log 5). -/
theorem leaveReset_inHardReset : (State.inHardReset false .idle 0 []).leaveReset = State.reset := by
  have hlinks : (tab 39 fun i => { nth (State.inHardReset false .idle 0 []).links i with
      order := (nth (State.inHardReset false .idle 0 []).links i).order ++ [OutFrame.resync .hard] }) =
      Vector.replicate 39 { Link.initial with order := [.resync .hard] } :=
    ext_nth fun i => by simp [State.inHardReset, Link.initial]
  unfold leaveReset
  rw [hlinks]
  rfl

/-! ### What it holds -/

section
open State

theorem reset_lane (k : LaneId) : reset.lane k = Lane.initial := nth_replicate _ _

theorem reset_level (l : Level) : reset.level l = LevelState.initial := nth_replicate _ _

theorem reset_slot (i : Fin 34) : reset.slot i = Slot.initial 0 := nth_replicate _ _

theorem reset_claimState (l : Level) : reset.claimState l = .idle := nth_replicate _ _

theorem reset_lift (x : Side) : reset.lift x = Lift.initial := nth_replicate _ _

theorem reset_queue (x : Side) : reset.queue x = EntryQueue.initial := nth_replicate _ _

theorem reset_station (n : StationNo) : reset.station n = Station.initial := nth_replicate _ _

theorem reset_list (l : Fin 16) : reset.list l = none := nth_replicate _ _

theorem reset_link (p : Port) : reset.link p = { Link.initial with order := [.resync .hard] } := nth_replicate _ _

theorem reset_depth (k : LaneId) : reset.depth k = 2 := nth_replicate _ _

theorem reset_flags (g : Fin 41) : nth reset.flags g = if g = 0 then 1 else 0 := by
  show nth resetFlags g = _
  simp only [resetFlags, nth_upd, nth_replicate, eq_comm]

theorem reset_stopOf (l : Level) : reset.stopOf l = some (l.castLE (by omega)) := nth_tab _ _

end

/-! ### The laws in it -/

theorem reset_current : State.reset.current := by
  refine ⟨fun n => ?_, rfl, rfl⟩
  have hqueue : (State.reset.station n).queue = [] := by rw [reset_station]; rfl
  have hexit : State.reset.nextExitOf n = .atEnd := by rw [nextExitOf, hqueue]; rfl
  have hload : State.reset.nextLoadOf n = .stands .atEnd := by
    rw [nextLoadOf, withheld, hasLooseClaim, hqueue, reset_station]; rfl
  rw [stationNow, hload, hexit, reset_station]; rfl

theorem reset_engaged : State.reset.engaged := engaged_initial rfl rfl rfl fun i => by rw [reset_slot]; rfl

theorem reset_fencesCurrent : State.reset.fencesCurrent := fun l => by
  simp [reset_level, reset_link, LevelState.initial, Link.initial]

/-- Settles O4: the two commands by computation but for the links' orders, the values register by register. -/
theorem resetValues : Obligations.ResetValues := by
  refine ⟨fun s hline hchip hfresh hpending => ⟨_, rfl, rfl, ?_⟩, ⟨rfl, rfl, rfl, rfl, rfl, rfl, rfl, rfl, rfl, rfl, rfl, rfl⟩,
    reset_lane, reset_depth, fun l => ⟨reset_level l, ?_, nth_replicate _ _, reset_claimState l⟩, reset_slot,
    fun x => ⟨reset_lift x, reset_queue x⟩, fun n => ⟨reset_station n, nth_replicate _ _⟩, reset_list, reset_link,
    fun g => ⟨reset_flags g, nth_replicate _ _⟩, rfl, nth_replicate _, rfl⟩
  · rw [hline, hchip, hfresh, hpending]
    exact congrArg Host.Outcome.next leaveReset_inHardReset
  · rw [reset_stopOf]; rfl

/-- Settles O5. -/
theorem lawsHoldAtReset : Obligations.LawsHoldAtReset :=
  ⟨reset_current, reset_engaged, Settings.legal_default, reset_fencesCurrent, tableLegal_of_no_records rfl⟩

end Sys2Proof.Machine
end

