-- ==== Sys2Proof/Proofs/ToteTable.lean ====
section
/-! The tote table's commands and the correction of reads (R12 to R18). -/

open Sys2Proof Sys2Proof.Machine Sys2Proof.Machine.State

namespace Sys2Proof.Machine

/-! ### Requests of a part that is ready -/

theorem Reads.ready {c : Instr} {f : State → Answer} (h : Reads c f) {s : State} (hs : s.ready) :
    exec c s = .next (s.answered (f s)) := (h.exec_eq s).trans (request_ready hs f)

theorem Changes.ready {c : Instr} {f : State → Answer} (h : Changes c f) {s : State} (hs : s.ready) :
    exec c s = .next (s.answered (f s)) := (h.exec_eq s).trans (request_ready hs f)

/-! ### The first checks of a request that names one tote -/

theorem withRecord_zero (s : State) (go : Record → Answer) : s.withRecord 0 go = .refuse .outOfRange := if_pos rfl

theorem withRecord_none {s : State} {i : Ident} (hi : i ≠ 0) (h : s.lookup i = none) (go : Record → Answer) :
    s.withRecord i go = .refuse .noRecord := by rw [State.withRecord, if_neg hi, h]

theorem withRecord_some {s : State} {i : Ident} {r : Record} (hi : i ≠ 0) (h : s.lookup i = some r) (go : Record → Answer) :
    s.withRecord i go = go r := by rw [State.withRecord, if_neg hi, h]

/-! ### The record that holds an identity -/

theorem lookup_eq_none_iff {s : State} {i : Ident} : s.lookup i = none ↔ ∀ p ∈ s.records, p.2.ident ≠ i :=
  ⟨ident_ne_of_lookup_none, fun h => by
    rw [State.lookup, Option.map_eq_none_iff, List.find?_eq_none]
    exact fun p hp => by simpa using h p hp⟩

/-- In a table where no identity stands twice, every record is the one that its identity finds (R7, R11). -/
theorem lookup_of_mem {s : State} {k : Nat} {r : Record} (hs : s.tableLegal) (h : (k, r) ∈ s.records) :
    s.lookup r.ident = some r := by
  obtain ⟨-, -, -, hnodup, -⟩ := hs
  obtain ⟨p, hp⟩ : ∃ p, s.records.find? (fun p => p.2.ident == r.ident) = some p :=
    Option.isSome_iff_exists.mp (List.find?_isSome.mpr ⟨(k, r), h, beq_self_eq_true _⟩)
  have hpi : p.2.ident = r.ident := eq_of_beq (List.find?_some (p := fun p : Nat × Record => p.2.ident == r.ident) hp)
  have : p = (k, r) := List.inj_on_of_nodup_map hnodup (List.mem_of_find?_eq_some hp) h hpi
  rw [State.lookup, hp, this]; rfl

/-- In a table whose slots rise, the first record at or above a start is the one in the lowest such slot (R13). -/
theorem find?_slot_of_least {l : List (Nat × Record)} (hl : (l.map (·.1)).Pairwise (· < ·)) {start k : Nat} {r : Record}
    (hk : start ≤ k) (h : (k, r) ∈ l) (hleast : ∀ p ∈ l, start ≤ p.1 → k ≤ p.1) :
    l.find? (fun p => decide (start ≤ p.1)) = some (k, r) := by
  obtain ⟨q, hq⟩ : ∃ q, l.find? (fun p => decide (start ≤ p.1)) = some q :=
    Option.isSome_iff_exists.mp (List.find?_isSome.mpr ⟨(k, r), h, decide_eq_true hk⟩)
  obtain ⟨hstart, before, behind, rfl, hbefore⟩ := List.find?_eq_some_iff_append.mp hq
  rw [hq]
  have hkq : k ≤ q.1 := hleast q (by simp) (of_decide_eq_true hstart)
  rcases List.mem_append.mp h with hm | hm
  · have := hbefore _ hm; simp [hk] at this
  · rcases List.mem_cons.mp hm with heq | hm
    · rw [heq]
    · rw [List.map_append, List.map_cons, List.pairwise_append, List.pairwise_cons] at hl
      have : q.1 < k := hl.2.1.1 k (List.mem_map_of_mem (f := (·.1)) hm)
      omega

/-! ### READ_TOTE and WALK (R12, R13) -/

theorem readTote_some {s : State} {i : Ident} {r : Record} (hi : i ≠ 0) (h : s.lookup i = some r) :
    readTote i s = .reply (.tote (s.viewOf r)) := withRecord_some hi h _

theorem walkTable_of_find {s : State} {start : BitVec 16} {p : Nat × Record} (hs : start.toNat ≤ 512)
    (h : s.records.find? (fun p => decide (start.toNat ≤ p.1)) = some p) :
    walkTable start s = .reply (.walked p.1 (s.viewOf p.2)) := by
  unfold walkTable
  rw [if_neg (show ¬ Config.recordSlots < start.toNat from not_lt.mpr hs), h]

theorem walkTable_end {s : State} {start : BitVec 16} (hs : start.toNat ≤ 512)
    (h : ∀ p ∈ s.records, p.1 < start.toNat) : walkTable start s = .refuse .end_ := by
  have hnone : s.records.find? (fun p => decide (start.toNat ≤ p.1)) = none :=
    List.find?_eq_none.mpr fun p hp => by simpa using h p hp
  unfold walkTable
  rw [if_neg (show ¬ Config.recordSlots < start.toNat from not_lt.mpr hs), hnone]

theorem walkTable_out {s : State} {start : BitVec 16} (hs : 512 < start.toNat) : walkTable start s = .refuse .outOfRange :=
  if_pos hs

/-- Settles O14. -/
theorem readToteAndWalk : Obligations.ReadToteAndWalk := by
  refine ⟨fun s i hs => ?_, fun s start hs hl => ?_⟩
  · rw [Reads.ready (.tote i) hs]
    refine ⟨fun hi => ?_, fun hi hnone => ?_, fun hi k r hl hm hr => ⟨s.positionOf r, ?_, ?_⟩⟩
    · subst hi; rw [readTote, withRecord_zero, answered_refuse]
    · rw [readTote, withRecord_none hi (lookup_eq_none_iff.mpr hnone), answered_refuse]
    · rw [readTote_some hi (hr ▸ lookup_of_mem hl hm), answered_reply]; rfl
    · subst hr
      refine ⟨fun x hx => ?_, fun l hx => ?_, fun x hx => ?_, fun hx => ?_, fun h hx => ?_⟩ <;> rw [positionOf, hx]
  · rw [Reads.ready (.walk start) hs]
    obtain ⟨hrising, hslots, -, -, -⟩ := id hl
    refine ⟨fun hout => ?_, fun hle hend => ?_, fun heq => ?_, fun k r hk hm hleast => ⟨s.positionOf r, ?_, fun hr => ?_⟩⟩
    · rw [walkTable_out hout, answered_refuse]
    · rw [walkTable_end hle hend, answered_refuse]
    · rw [walkTable_end heq.le fun p hp => heq ▸ hslots p hp, answered_refuse]
    · have hlt : k < 512 := hslots _ hm
      rw [walkTable_of_find (hk.trans hlt.le) (find?_slot_of_least hrising hk hm hleast), answered_reply]; rfl
    · rw [Reads.ready (.tote r.ident) hs, readTote_some hr (lookup_of_mem hl hm), answered_reply]; rfl

/-! ### ANNOUNCE_INBOUND (R6, R7, R14) -/

/-- Every slot below the lowest free one, from the start up, is occupied (R6). -/
theorem exists_slot_of_lt_lowestFree {l : List (Nat × Record)} {k j : Nat} (hkj : k ≤ j) (hj : j < lowestFree l k) :
    ∃ p ∈ l, p.1 = j := by
  induction l generalizing k with
  | nil => exact absurd hj (by simp only [lowestFree]; omega)
  | cons p rest ih =>
    rw [lowestFree] at hj
    split at hj
    · next hp =>
      rcases hkj.eq_or_lt with rfl | hlt
      · exact ⟨p, List.mem_cons_self, hp⟩
      · obtain ⟨q, hq, hqj⟩ := ih hlt hj
        exact ⟨q, List.mem_cons_of_mem _ hq, hqj⟩
    · omega

theorem createdIn_create {s : State} (hs : s.tableLegal) (r : Record) : CreatedIn s.records (s.create r).records r := by
  obtain ⟨hrising, -⟩ := hs
  obtain ⟨-, -, hfree⟩ := lowestFree_spec s.records 0 hrising fun _ _ => Nat.zero_le _
  exact ⟨lowestFree s.records 0, hfree, fun j hj => exists_slot_of_lt_lowestFree (Nat.zero_le j) hj,
    insertSlot_sorted _ r _ hrising hfree, fun p => (insertSlot_perm _ r _).mem_iff.trans List.mem_cons⟩

theorem announceInbound_level {i : Ident} {b : Byte} {l : Level} (hi : i ≠ 0) (hb : b.toNat = l.val + 1) (s : State) :
    announceInbound i b s = if (s.lookup i).isSome then .refuse .duplicate
      else if 512 ≤ s.records.length then .refuse .tableFull else .accept (s.create (Record.announced i l)) := by
  have hfree : (s.freeSlots == 0) = decide (512 ≤ s.records.length) := by
    rw [Bool.eq_iff_iff, beq_iff_eq, decide_eq_true_iff, freeSlots, Config.recordSlots]; omega
  rw [announceInbound, Level.ofByte_of hb]
  simp only [Answer.checked_cons, Answer.checked_nil, beq_false_of_ne hi, hfree, Bool.false_eq_true, if_false,
    decide_eq_true_eq]

/-- Settles O15. -/
theorem announceInboundCreatesOneRecord : Obligations.AnnounceInboundCreatesOneRecord := by
  intro s i b hs
  rw [Changes.ready (.announce i b) hs]
  refine ⟨fun hout => ?_, fun l hi hb => ?_⟩
  · rw [← answered_refuse]
    congr 2
    rcases hout with rfl | hout
    · unfold announceInbound; split
      · rfl
      · simp
    · rw [announceInbound, Level.ofByte_out hout]
  · rw [announceInbound_level hi hb]
    refine ⟨fun hdup => ?_, fun hnew hfull => ?_, fun hnew hroom hl => ⟨_, createdIn_create hl (Record.announced i l), ?_⟩⟩
    · rw [if_pos hdup, answered_refuse]
    · rw [hnew, if_neg (by simp), if_pos hfull, answered_refuse]
    · rw [hnew, if_neg (by simp), if_neg (by omega), answered_accept]; rfl

/-! ### RETARGET and CANCEL_RECORD (R15, R16) -/

theorem retarget_out {i : Ident} {b : Byte} (h : i = 0 ∨ b.toNat < 1 ∨ 32 < b.toNat) (s : State) :
    retarget i b s = .refuse .outOfRange := by
  rcases h with rfl | h
  · unfold retarget; split
    · rfl
    · exact withRecord_zero s _
  · rw [retarget, Level.ofByte_out h]

theorem redirect_eq (s : State) (r : Record) (l : Level) : s.redirect r l = { s with
    records := s.records.map fun p => if p.2.ident = r.ident then (p.1, { p.2 with level := l }) else p
    cause := s.cause || r.place.isCarriage } := by
  unfold redirect
  cases r.place.isCarriage
  · rw [Bool.or_false]; rfl
  · rw [Bool.or_true]; rfl

theorem isExpected_iff (p : Place) : p.isExpected = true ↔ p = .expected := by cases p <;> simp [Place.isExpected]

/-- Settles O16. -/
theorem retargetAndCancelRecord : Obligations.RetargetAndCancelRecord := by
  refine ⟨fun s i b hs => ?_, fun s i hs => ?_⟩
  · rw [Changes.ready (.retarget i b) hs]
    refine ⟨fun hout => ?_, fun l hi hb => ⟨fun hnone => ?_, fun r hr => ⟨fun hstate => ?_, fun hd hlane hheld =>
      ⟨fun hbusy => ?_, fun hidle => ?_⟩⟩⟩⟩
    · rw [retarget_out hout, answered_refuse]
    all_goals rw [retarget, Level.ofByte_of hb]; dsimp only
    · rw [withRecord_none hi hnone, answered_refuse]
    all_goals rw [withRecord_some hi hr]
    · have hbad : (r.direction == .outbound || r.place.isLane || r.place.isHeld) = true := by
        simpa [or_assoc] using hstate
      rw [Answer.checked_cons, if_pos hbad, answered_refuse]
    · simp [hd, hlane, hheld, hbusy]
    · rw [redirect_eq, lookup_ident hr]
      simp [hd, hlane, hheld, hidle]
  · rw [Changes.ready (.cancelRecord i) hs]
    refine ⟨fun hi => ?_, fun hi hnone => ?_, fun hi r hr => ⟨fun hstate => ?_, fun hexp hseq => ⟨fun hbusy => ?_, fun hidle => ?_⟩⟩⟩
    · subst hi; rw [cancelRecord, withRecord_zero, answered_refuse]
    · rw [cancelRecord, withRecord_none hi hnone, answered_refuse]
    all_goals rw [cancelRecord, withRecord_some hi hr]
    · have hbad : (!r.place.isExpected || (r.direction == .outbound && r.entry.isSome)) = true := by
        simpa [← isExpected_iff] using hstate
      rw [Answer.checked_cons, if_pos hbad, answered_refuse]
    all_goals
      have hgood : (!r.place.isExpected || (r.direction == .outbound && r.entry.isSome)) = false := by
        rcases hseq with hseq | hseq <;> simp [(isExpected_iff _).mpr hexp, hseq]
      rw [Answer.checked_cons, hgood, if_neg Bool.false_ne_true, Answer.checked_cons]
    · rw [if_pos hbusy, answered_refuse]
    · rw [hidle]; rfl

/-! ### SET_CORRECTION (R17) -/

theorem setCorrection_out {eb on : Byte} (h : 7 < eb.toNat ∨ 1 < on.toNat) (i j : Ident) (s : State) :
    setCorrection eb on i j s = .refuse .outOfRange := by
  unfold setCorrection
  rcases h with h | h
  · rw [correctionOfByte_out h]
  · rw [settingOfByte_out h]; split
    · next hon => cases hon
    · rfl

theorem settingOfByte_zero : settingOfByte 0 = some true := rfl

/-- Settles O17. -/
theorem setCorrectionWritesOneEntry : Obligations.SetCorrectionWritesOneEntry := by
  intro s eb on i j hs
  rw [Changes.ready (.correction eb on i j) hs]
  refine ⟨fun hout => ?_, fun e he => ⟨fun hon hzero => ?_, fun hon hi hj hdup => ?_, fun hon hi hj hnew => ?_, fun hoff => ?_⟩⟩
  · rw [setCorrection_out hout, answered_refuse]
  all_goals rw [setCorrection, correctionOfByte_of he]
  · subst hon
    have hbad : (i == 0 || j == 0) = true := by simpa using hzero
    rw [settingOfByte_zero]; dsimp only
    rw [Answer.checked_cons, Bool.true_and, if_pos hbad, answered_refuse]
  · subst hon
    have hbad : ((List.finRange 8).any fun k =>
        k != e && (nth s.settings.corrections k).enabled && (nth s.settings.corrections k).read == i) = true := by
      obtain ⟨k, hke, hk, hread⟩ := hdup
      exact List.any_eq_true.mpr ⟨k, List.mem_finRange k, by simp [hke, hk, hread]⟩
    rw [settingOfByte_zero]; dsimp only
    rw [Answer.checked_cons, beq_false_of_ne hi, beq_false_of_ne hj, if_neg (by simp), Answer.checked_cons, Bool.true_and,
      if_pos hbad, answered_refuse]
  · subst hon
    have hgood : ((List.finRange 8).any fun k =>
        k != e && (nth s.settings.corrections k).enabled && (nth s.settings.corrections k).read == i) = false :=
      List.any_eq_false.mpr fun k _ hk => by
        simp only [Bool.and_eq_true, bne_iff_ne, beq_iff_eq] at hk
        exact hnew k hk.1.1 hk.1.2 hk.2
    rw [settingOfByte_zero]; dsimp only
    rw [Answer.checked_cons, beq_false_of_ne hi, beq_false_of_ne hj, if_neg (by simp), Answer.checked_cons, Bool.true_and,
      hgood, if_neg (by simp), Answer.checked_nil, answered_accept]
    rfl
  · subst hoff
    rfl

/-! ### The correction of reads (R18) -/

theorem correct_of_settings {s t : State} (h : t.settings = s.settings) (i : Ident) : t.correct i = s.correct i := by
  unfold correct; rw [h]

/-- A read value of an enabled entry is corrected by that entry, since no other enabled entry has it (R17). -/
theorem correct_enabled {s : State} (hl : s.settings.legal) {k : Fin 8}
    (hk : (nth s.settings.corrections k).enabled = true) :
    s.correct (nth s.settings.corrections k).read = (nth s.settings.corrections k).corrected := by
  obtain ⟨-, -, hdistinct, -⟩ := hl
  unfold correct
  split
  · next j hj =>
    have hfound := List.find?_some hj
    simp only [Bool.and_eq_true, beq_iff_eq] at hfound
    by_cases hjk : j = k
    · rw [hjk]
    · exact absurd hfound.2 (hdistinct j k hjk hfound.1 hk)
  · next hnone =>
    have := List.find?_eq_none.mp hnone k (List.mem_finRange k)
    simp [hk] at this

theorem correct_of_no_entry {s : State} {i : Ident}
    (h : ∀ k, (nth s.settings.corrections k).enabled = true → (nth s.settings.corrections k).read ≠ i) : s.correct i = i := by
  have hnone : ((List.finRange 8).find? fun k =>
      (nth s.settings.corrections k).enabled && (nth s.settings.corrections k).read == i) = none :=
    List.find?_eq_none.mpr fun k _ => by simpa using h k
  unfold correct; rw [hnone]

/-- An event whose effect is the same has the same outcome. -/
theorem frame_congr {p : Port} {f g : State → State} {s : State} (h : f (s.takeValid p) = g (s.takeValid p)) :
    frame p f s = frame p g s := by
  have : (f (s.takeValid p)).closeEvent = (g (s.takeValid p)).closeEvent := congrArg _ h
  show Host.Outcome.next (if s.inReset then s else (f (s.takeValid p)).closeEvent) = _
  rw [this]; rfl

theorem correct_takeValid (s : State) (p : Port) (i : Ident) : (s.takeValid p).correct i = s.correct i :=
  correct_of_settings (by simp) i

theorem takeArrival_congr {s : State} {i j : Ident} (h : s.correct i = s.correct j) (x w p : Byte) :
    s.takeArrival x i w p = s.takeArrival x j w p := by
  unfold takeArrival; rw [h]

/-- A scan acts by the corrected reads of each lane alone. -/
theorem takeScan_congr {s : State} {x y : Scan} (h : ∀ n, (scannedIn x n).map s.correct = (scannedIn y n).map s.correct)
    (l : Level) : s.takeScan l x = s.takeScan l y := by
  unfold State.takeScan
  simp only [h]

/-- Settles O18. -/
theorem readsAreCorrectedOnce : Obligations.ReadsAreCorrectedOnce := by
  refine ⟨fun s i k hl hk hi => hi ▸ correct_enabled hl hk, fun s i h => correct_of_no_entry h, fun s hl => ?_,
    fun s i j x w p h => ⟨?_, ?_⟩, fun s n x y hai hao hbi hbo => ?_⟩
  · obtain ⟨-, hvalues, -⟩ := hl
    exact correct_of_no_entry fun k hk => (hvalues k hk).1
  · rw [(Frames.arrival x i w p).exec_eq, (Frames.arrival x j w p).exec_eq]
    refine frame_congr (takeArrival_congr ?_ x w p)
    rwa [correct_takeValid, correct_takeValid]
  · rw [(Frames.exitRead x i).exec_eq, (Frames.exitRead x j).exec_eq]
    refine frame_congr ?_
    simp only [correct_takeValid, h]
  · rw [(Frames.auditScan n x).exec_eq, (Frames.auditScan n y).exec_eq]
    refine frame_congr ?_
    have hcorrect : (s.takeValid (.stop n)).correct = s.correct := funext (correct_takeValid s _)
    split
    · refine takeScan_congr (fun m => ?_) _
      rw [hcorrect]
      cases m
      · exact hai
      · exact hao
      · exact hbi
      · exact hbo
    · rfl

end Sys2Proof.Machine
end

