-- ==== Sys2Proof/Proofs/Withdrawals.lean ====
section
/-! The withdrawal of lists and entries (R3, R136, R137). -/

open Sys2Proof Sys2Proof.Machine Sys2Proof.Machine.State

namespace Sys2Proof.Machine

/-! ### Requests on a list -/

theorem withList_out {b : Byte} (h : 15 < b.toNat) (go : Fin 16 → Answer) : withList b go = .refuse .outOfRange := by
  rw [withList, listOfByte_out h]

theorem withList_of {b : Byte} {l : Fin 16} (h : b.toNat = l.val) (go : Fin 16 → Answer) : withList b go = go l := by
  rw [withList, listOfByte_of h]

theorem withUsed_none {s : State} {l : Fin 16} (h : s.list l = none) (go : ReleaseList → Answer) :
    s.withUsed l go = .refuse .wrongState := by rw [State.withUsed, h]

theorem withUsed_some {s : State} {l : Fin 16} {r : ReleaseList} (h : s.list l = some r) (go : ReleaseList → Answer) :
    s.withUsed l go = go r := by rw [State.withUsed, h]

/-! ### A record that becomes unsequenced (R137) -/

theorem unsequence_eq (s : State) (r : Record) : s.unsequence r = { s with
    records := s.records.map fun p => if p.2.ident = r.ident then (p.1, { p.2 with entry := none }) else p
    cause := s.cause || r.place.isLane } := by
  unfold unsequence
  cases r.place.isLane
  · rw [Bool.or_false]; rfl
  · rw [Bool.or_true]; rfl

theorem unsequenceTote_eq (s : State) (i : Ident) : s.unsequenceTote i = { s with
    records := s.records.map fun p => if p.2.ident = i then (p.1, { p.2 with entry := none }) else p
    cause := s.cause || (s.lookup i).any fun x => x.place.isLane } := by
  unfold unsequenceTote
  cases h : s.lookup i with
  | some r => dsimp only; rw [unsequence_eq, lookup_ident h]; rfl
  | none =>
    have hrecords : (s.records.map fun p => if p.2.ident = i then (p.1, { p.2 with entry := none }) else p) = s.records :=
      (List.map_congr_left fun p hp => if_neg (lookup_eq_none_iff.mp h p hp)).trans (List.map_id _)
    rw [hrecords]; simp

/-! ### The record of a withdrawn entry (R136) -/

/-- What becomes of the record of a PENDING entry when its list is withdrawn: an EXPECTED one that no transfer lists is retired,
any other becomes unsequenced. -/
def withdrawnRecord (r : Record) : Option Record :=
  if r.place.isExpected && r.transfer.isNone then none else some { r with entry := none }

theorem withdrawnRecord_of_expected {r : Record} (hp : r.place = .expected) (ht : r.transfer = none) :
    withdrawnRecord r = none := by simp [withdrawnRecord, hp, ht, Place.isExpected]

theorem withdrawnRecord_of_entered {r : Record} (h : r.place ≠ .expected ∨ r.transfer.isSome) :
    withdrawnRecord r = some { r with entry := none } := by
  refine if_neg fun hc => ?_
  rw [Bool.and_eq_true, isExpected_iff, Option.isNone_iff_eq_none] at hc
  rcases h with h | h
  · exact h hc.1
  · rw [hc.2] at h; cases h

theorem withdrawnRecord_bind_self (x : Option Record) :
    (x.bind withdrawnRecord).bind withdrawnRecord = x.bind withdrawnRecord := by
  cases x with
  | none => rfl
  | some r =>
    rw [Option.bind_some]
    by_cases h : (r.place.isExpected && r.transfer.isNone) = true
    · rw [withdrawnRecord, if_pos h]; rfl
    · have hstay : withdrawnRecord r = some { r with entry := none } := if_neg h
      rw [hstay, Option.bind_some]
      exact if_neg h

theorem lookup_withdraw (s : State) (i j : Ident) :
    (s.withdraw i).lookup j = if i = j then (s.lookup j).bind withdrawnRecord else s.lookup j := by
  unfold withdraw
  cases h : s.lookup i with
  | none =>
    dsimp only
    split
    · next hij => subst hij; rw [h]; rfl
    · rfl
  | some r =>
    dsimp only
    split
    · next hout =>
      rw [lookup_retire]
      split
      · next hij => subst hij; rw [h, Option.bind_some, withdrawnRecord, if_pos hout]
      · rfl
    · next hstay =>
      have hlook : (s.unsequence r).lookup j = (s.modRecord i fun x => { x with entry := none }).lookup j := by
        rw [unsequence_eq, lookup_ident h]; rfl
      rw [hlook, lookup_modRecord s i j (fun x => { x with entry := none }) fun _ => rfl]
      split
      · next hij => subst hij; rw [h, Option.bind_some, withdrawnRecord, if_neg hstay]; rfl
      · rfl

/-- A withdrawal writes the record table and the cause of re-evaluation alone. -/
theorem withdraw_rest (s : State) (i : Ident) :
    s.withdraw i = { s with records := (s.withdraw i).records, cause := (s.withdraw i).cause } := by
  unfold withdraw
  repeat' split
  · rfl
  · rfl
  · rw [unsequence_eq]

theorem withdraw_cause_stays {s : State} (h : s.cause = true) (i : Ident) : (s.withdraw i).cause = true := by
  unfold withdraw
  repeat' split
  · exact h
  · exact h
  · rw [unsequence_eq]; simp [h]

/-- The withdrawal of a record in LANE is a cause of re-evaluation (R101, R136). -/
theorem withdraw_cause_of_lane {s : State} {i : Ident} {x : Record} (h : s.lookup i = some x) (hx : x.place.isLane = true) :
    (s.withdraw i).cause = true := by
  have hexp : x.place.isExpected = false := by cases hp : x.place <;> simp_all [Place.isLane, Place.isExpected]
  unfold withdraw
  rw [h]; dsimp only
  rw [hexp, if_neg (by simp), unsequence_eq, hx]
  exact Bool.or_true _

/-! ### The withdrawal of a list (R136) -/

section
variable (es : List Entry)

theorem lookup_foldl_withdraw (s : State) (j : Ident) : (es.foldl (fun s e => s.withdraw e.ident) s).lookup j =
    if j ∈ es.map (·.ident) then (s.lookup j).bind withdrawnRecord else s.lookup j := by
  induction es generalizing s with
  | nil => simp
  | cons e es ih =>
    rw [List.foldl_cons, ih, lookup_withdraw, List.map_cons]
    by_cases he : e.ident = j
    · subst he; simp [withdrawnRecord_bind_self]
    · simp [he, Ne.symm he]

theorem foldl_withdraw_rest (s : State) : let t := es.foldl (fun s e => s.withdraw e.ident) s
    t = { s with records := t.records, cause := t.cause } := by
  induction es generalizing s with
  | nil => rfl
  | cons e es ih =>
    refine (ih (s.withdraw e.ident)).trans ?_
    rw [List.foldl_cons, withdraw_rest s e.ident]

theorem foldl_withdraw_cause_stays {s : State} (h : s.cause = true) :
    (es.foldl (fun s e => s.withdraw e.ident) s).cause = true := by
  induction es generalizing s with
  | nil => exact h
  | cons e es ih => exact ih (withdraw_cause_stays h e.ident)

theorem foldl_withdraw_cause_of_lane {s : State} {e : Entry} {x : Record} (he : e ∈ es) (h : s.lookup e.ident = some x)
    (hx : x.place.isLane = true) : (es.foldl (fun s e => s.withdraw e.ident) s).cause = true := by
  induction es generalizing s x with
  | nil => cases he
  | cons a es ih =>
    rcases List.mem_cons.mp he with rfl | he
    · exact foldl_withdraw_cause_stays es (withdraw_cause_of_lane h hx)
    · have hlook := lookup_withdraw s a.ident e.ident
      rw [h] at hlook
      by_cases ha : a.ident = e.ident
      · have hin : x.place ≠ .expected := fun hc => by rw [hc] at hx; cases hx
        rw [if_pos ha, Option.bind_some, withdrawnRecord_of_entered (.inl hin)] at hlook
        exact ih he hlook hx
      · rw [if_neg ha] at hlook
        exact ih he hlook hx

end

/-- The opening counter returns to 0 when no list slot is in use (R117). -/
theorem testOpening_eq (s : State) :
    s.testOpening = { s with opening := if ∀ k, s.list k = none then 0 else s.opening } := by
  have hempty : s.lists.toList.all Option.isNone = true ↔ ∀ k, s.list k = none := by
    rw [List.all_eq_true]
    constructor
    · intro hnone k
      exact Option.isNone_iff_eq_none.mp (hnone _ (by simp [State.list, nth]))
    · intro hnone x hx
      obtain ⟨k, hk, rfl⟩ := List.getElem_of_mem hx
      rw [Option.isNone_iff_eq_none]
      exact hnone ⟨k, by simpa using hk⟩
  unfold testOpening
  by_cases hnone : ∀ k, s.list k = none
  · rw [if_pos (hempty.mpr hnone), if_pos hnone]
  · rw [if_neg (fun hc => hnone (hempty.mp hc)), if_neg hnone]

theorem lists_setList_none_iff (s : State) (l : Fin 16) :
    (∀ k, (s.setList l none).list k = none) ↔ ∀ k, k ≠ l → s.list k = none := by
  refine forall_congr' fun k => ?_
  rw [list_setList]
  by_cases hk : l = k
  · simp [hk]
  · simp [hk, Ne.symm hk]

theorem freeList_eq {s : State} {l : Fin 16} {r : ReleaseList} (h : s.list l = some r) : s.freeList l = { s with
    lists := s.lists.set l.val none
    stations := s.stations.set r.station.val
      { s.station r.station with queue := (s.station r.station).queue.filter fun k => k ≠ l }
    opening := if ∀ k, k ≠ l → s.list k = none then 0 else s.opening } := by
  have hopening := if_congr (lists_setList_none_iff s l) (rfl : (0 : Nat) = 0) (rfl : s.opening = s.opening)
  unfold freeList
  rw [h]; dsimp only
  rw [testOpening_eq, ← hopening]
  rfl

/-! ### ABORT_LIST (R136) -/

theorem underWay_iff (e : EntryState) : e.underWay = true ↔ e = .claimed ∨ e = .loaded ∨ e = .exitHeld := by
  cases e <;> simp [EntryState.underWay]

theorem any_underWay_iff (es : List Entry) : (es.any fun e => e.state.underWay) = true ↔
    ∃ e ∈ es, e.state = .claimed ∨ e.state = .loaded ∨ e.state = .exitHeld := by
  simp only [List.any_eq_true, underWay_iff]

theorem abortListRequest_used {s : State} {b : Byte} {l : Fin 16} {r : ReleaseList} (hl : b.toNat = l.val)
    (hr : s.list l = some r) : abortListRequest b s =
      .checked [(r.entries.any fun e => e.state.underWay, .busy)] (.accept (s.abortList l r)) := by
  rw [abortListRequest, withList_of hl, withUsed_some hr]

section
variable (s : State) (l : Fin 16) (r : ReleaseList)

theorem abortList_eq (h : s.list l = some r) : s.abortList l r = { s with
    records := (s.abortList l r).records, cause := (s.abortList l r).cause
    lists := s.lists.set l.val none
    stations := s.stations.set r.station.val
      { s.station r.station with queue := (s.station r.station).queue.filter fun k => k ≠ l }
    opening := if ∀ k, k ≠ l → s.list k = none then 0 else s.opening } := by
  unfold abortList
  generalize hes : (r.entries.filter fun e => e.state == .pending) = es
  have hrest := foldl_withdraw_rest es s
  generalize es.foldl (fun s e => s.withdraw e.ident) s = t at hrest ⊢
  have hlist : ∀ k, t.list k = s.list k := fun k => by rw [hrest]; rfl
  rw [freeList_eq ((hlist l).trans h)]
  simp only [hlist]
  rw [hrest]
  rfl

theorem abortList_cause : (s.abortList l r).cause =
    ((r.entries.filter fun e => e.state == .pending).foldl (fun s e => s.withdraw e.ident) s).cause := by
  unfold abortList; simp

theorem lookup_abortList (j : Ident) : (s.abortList l r).lookup j =
    if ∃ e ∈ r.entries, e.state = .pending ∧ e.ident = j then (s.lookup j).bind withdrawnRecord else s.lookup j := by
  have hmem : j ∈ (r.entries.filter fun e => e.state == .pending).map (·.ident) ↔
      ∃ e ∈ r.entries, e.state = .pending ∧ e.ident = j := by simp [and_assoc]
  have hfree : (s.abortList l r).lookup j =
      ((r.entries.filter fun e => e.state == .pending).foldl (fun s e => s.withdraw e.ident) s).lookup j := by
    unfold abortList lookup; simp
  rw [hfree, lookup_foldl_withdraw]
  exact if_congr hmem rfl rfl

end

theorem abort_of_free {s : State} {b : Byte} {l : Fin 16} (hs : s.ready) (hl : b.toNat = l.val) (h : s.list l = none) :
    exec (.abortList b) s = .next (s.told .wrongState .empty) := by
  rw [Changes.ready (.abortList b) hs, abortListRequest, withList_of hl, withUsed_none h]; rfl

theorem abort_of_underWay {s : State} {b : Byte} {l : Fin 16} {r : ReleaseList} (hs : s.ready) (hl : b.toNat = l.val)
    (h : s.list l = some r) (hbusy : ∃ e ∈ r.entries, e.state = .claimed ∨ e.state = .loaded ∨ e.state = .exitHeld) :
    exec (.abortList b) s = .next (s.told .busy .empty) := by
  rw [Changes.ready (.abortList b) hs, abortListRequest_used hl h, (any_underWay_iff _).mpr hbusy]; rfl

theorem abort_of_idle {s : State} {b : Byte} {l : Fin 16} {r : ReleaseList} (hs : s.ready) (hl : b.toNat = l.val)
    (h : s.list l = some r)
    (hidle : ∀ e ∈ r.entries, e.state ≠ .claimed ∧ e.state ≠ .loaded ∧ e.state ≠ .exitHeld) :
    exec (.abortList b) s = .next (s.doneWith (s.abortList l r) .empty) := by
  have hnone : (r.entries.any fun e => e.state.underWay) = false := by
    rw [Bool.eq_false_iff, Ne, any_underWay_iff]
    rintro ⟨e, he, hstate⟩
    have := hidle e he
    tauto
  rw [Changes.ready (.abortList b) hs, abortListRequest_used hl h, hnone]; rfl

/-! ### SKIP_ENTRY (R137) -/

theorem list_modify_eq_set {α : Type} {xs : List α} {k : Nat} {x : α} (f : α → α) (h : xs[k]? = some x) :
    xs.modify k f = xs.set k (f x) := by rw [List.modify_eq_set_getElem?, h]; rfl

theorem skip_eq {s : State} {l : Fin 16} {k : Nat} {r : ReleaseList} {e : Entry} (h : s.list l = some r)
    (he : r.entries[k - 1]? = some e) : s.skip { list := l, rank := k } e.ident = ({ s with
      lists := s.lists.set l.val (some { r with entries := r.entries.set (k - 1) { e with state := .skipped } })
      records := s.records.map fun p => if p.2.ident = e.ident then (p.1, { p.2 with entry := none }) else p
      cause := s.cause || (s.lookup e.ident).any fun x => x.place.isLane } : State).testComplete l := by
  unfold skip setEntryState modEntry
  rw [h]; dsimp only
  rw [unsequenceTote_eq, list_modify_eq_set _ he]
  rfl

theorem rank_in_range {k : Byte} (h₁ : 1 ≤ k.toNat) (h₂ : k.toNat ≤ 64) :
    ¬ (k.toNat < 1 ∨ Config.listEntries < k.toNat) := by unfold Config.listEntries; omega

theorem skip_out {s : State} {b k : Byte} (hs : s.ready) (h : 15 < b.toNat ∨ k.toNat < 1 ∨ 64 < k.toNat) :
    exec (.skipEntry b k) s = .next (s.told .outOfRange .empty) := by
  rw [Changes.ready (.skip b k) hs, skipEntry]
  by_cases hb : 15 < b.toNat
  · rw [withList_out hb]; rfl
  · have hrank : k.toNat < 1 ∨ Config.listEntries < k.toNat := h.resolve_left hb
    rw [withList_of (l := ⟨b.toNat, by omega⟩) rfl, if_pos hrank]; rfl

theorem skip_wrongState {s : State} {b k : Byte} {l : Fin 16} (hs : s.ready) (hl : b.toNat = l.val)
    (h₁ : 1 ≤ k.toNat) (h₂ : k.toNat ≤ 64) (h : ∀ r e, s.list l = some r → r.entries[k.toNat - 1]? = some e →
      e.state ≠ .pending ∧ e.state ≠ .claimed) : exec (.skipEntry b k) s = .next (s.told .wrongState .empty) := by
  rw [Changes.ready (.skip b k) hs, skipEntry, withList_of hl, if_neg (rank_in_range h₁ h₂)]
  cases hr : s.list l with
  | none => rw [withUsed_none hr]; rfl
  | some r =>
    rw [withUsed_some hr]
    cases he : r.entries[k.toNat - 1]? with
    | none => rfl
    | some e =>
      dsimp only
      rw [if_neg (not_or.mpr (h r e hr he))]; rfl

theorem skip_accepted {s : State} {b k : Byte} {l : Fin 16} {r : ReleaseList} {e : Entry} (hs : s.ready)
    (hl : b.toNat = l.val) (h₁ : 1 ≤ k.toNat) (h₂ : k.toNat ≤ 64) (hr : s.list l = some r)
    (he : r.entries[k.toNat - 1]? = some e) (hstate : e.state = .pending ∨ e.state = .claimed) :
    exec (.skipEntry b k) s = .next (s.doneWith (s.skip { list := l, rank := k.toNat } e.ident) .empty) := by
  rw [Changes.ready (.skip b k) hs, skipEntry, withList_of hl, if_neg (rank_in_range h₁ h₂), withUsed_some hr, he]
  dsimp only
  rw [if_pos hstate]; rfl

/-- Settles O49: the withdrawal of a list frees its slot and applies `withdrawnRecord` to the tote of each PENDING entry. -/
theorem entriesAreWithdrawn : Obligations.EntriesAreWithdrawn := by
  refine ⟨fun s b hs => ⟨fun hb => ?_, fun l hl => ⟨abort_of_free hs hl, fun r hr =>
      ⟨abort_of_underWay hs hl hr, fun hidle => ⟨s.abortList l r, abort_of_idle hs hl hr hidle, abortList_eq s l r hr,
        fun i hi => ?_, fun e x he hpending hx => ?_⟩⟩⟩⟩,
    fun s b k hs => ⟨skip_out hs, fun l hl h₁ h₂ => ⟨skip_wrongState hs hl h₁ h₂, fun r e hr he hstate => ?_⟩⟩⟩
  · rw [Changes.ready (.abortList b) hs, abortListRequest, withList_out hb]; rfl
  · rw [lookup_abortList, if_neg]
    rintro ⟨e, he, hpending, heq⟩
    exact hi e he hpending heq
  · have hlook : (s.abortList l r).lookup e.ident = withdrawnRecord x := by
      rw [lookup_abortList, if_pos ⟨e, he, hpending, rfl⟩, hx, Option.bind_some]
    refine ⟨fun hp ht => hlook.trans (withdrawnRecord_of_expected hp ht), fun hin =>
      ⟨hlook.trans (withdrawnRecord_of_entered hin), fun hlane => ?_⟩⟩
    rw [abortList_cause]
    exact foldl_withdraw_cause_of_lane _ (List.mem_filter.mpr ⟨he, beq_iff_eq.mpr hpending⟩) hx hlane
  · rw [skip_accepted hs hl h₁ h₂ hr he hstate, skip_eq hr he]

end Sys2Proof.Machine
end

