-- ==== Sys2Proof/Proofs/Failure.lean ====
section
/-! The failure of a transfer (R61 to R63): its state when the transfer has ended, and what the tests of the levels that it
touched then make of that state. -/

open Sys2Proof Sys2Proof.Machine Sys2Proof.Machine.State

namespace Sys2Proof.Machine.State

theorem lookup_of_records {s t : State} (h : s.records = t.records) (i : Ident) : s.lookup i = t.lookup i := by
  unfold lookup; rw [h]

theorem lane_of_lanes {s t : State} (h : s.lanes = t.lanes) (k : LaneId) : s.lane k = t.lane k := congrArg (nth · k.ix) h

theorem lift_of_lifts {s t : State} (h : s.lifts = t.lifts) (y : Side) : s.lift y = t.lift y := congrArg (nth · y.ix) h

theorem queue_of_entries {s t : State} (h : s.entries = t.entries) (y : Side) : s.queue y = t.queue y :=
  congrArg (nth · y.ix) h

theorem level_of_levels {s t : State} (h : s.levels = t.levels) (l : Level) : s.level l = t.level l := congrArg (nth · l) h

theorem slot_of_slots {s t : State} (h : s.slots = t.slots) (i : Fin 34) : s.slot i = t.slot i := congrArg (nth · i) h

theorem claimState_of_claims {s t : State} (h : s.claims = t.claims) (l : Level) : s.claimState l = t.claimState l :=
  congrArg (nth · l) h

theorem link_of_links {s t : State} (h : s.links = t.links) (p : Port) : s.link p = t.link p := congrArg (nth · p.ix) h

theorem pendingOf_of_approvals {s t : State} (h : s.approvals = t.approvals) (l : Level) : s.pendingOf l = t.pendingOf l := by
  unfold pendingOf; rw [h]

theorem stopOf_of_settings {s t : State} (h : s.settings = t.settings) (l : Level) : s.stopOf l = t.stopOf l := by
  unfold stopOf; rw [h]

/-- An operation that changes no lane's condition and no flag raises nothing. -/
theorem raises.of_conditions {s t : State} (hc : ∀ k, (t.lane k).condition = (s.lane k).condition)
    (hf : t.flags = s.flags) : raises s t fun _ => False := by
  refine ⟨fun k h => by rw [hc]; exact h, fun g => ?_⟩
  rw [raised_congr hf]
  constructor
  · exact .inl
  · rintro (h | ⟨k, _, hblocked, hclear⟩ | h)
    · exact h
    · rw [hc, hclear] at hblocked; cases hblocked
    · exact h.elim

/-- A failure once its transfer has ended, before the tests of the levels that it touched (R36, R63). -/
def failEnded (s : State) (i : Fin 34) (o : Open) (why : FailReason) : State :=
  ((((((((s.leaveGiver o.giver o.totes).holdTotes o why).release o.taker o.granted).blockNamed o).raiseStreaks
    (s.levelsTouched i)).raiseFailed i o).freeSlot i (.failed why)).partyFree i true)

/-- A failure of the transfer in a slot switches a level of the mode `m` off (R36). -/
def failOff (s : State) (i : Fin 34) (l : Level) (m : Mode) : Prop :=
  s.touches i l = true ∧ (s.level l).mode = m ∧ s.settings.params.streakLimit ≤ min 7 ((s.level l).streak + 1)

section
variable (s : State) (i : Fin 34) (o : Open) (why : FailReason)

theorem fail_eq : s.fail i o why =
    ((s.failEnded i o why).testStreaks (s.levelsTouched i)).afterEnd (s.levelsTouched i) := rfl

/-! ### The state when the transfer has ended -/

@[simp] theorem failEnded_frame : (s.failEnded i o why).settings = s.settings ∧
    (s.failEnded i o why).approvals = s.approvals ∧ (s.failEnded i o why).links = s.links := by unfold failEnded; simp

theorem lookup_failEnded (x : Ident) : (s.failEnded i o why).lookup x = if x ∈ o.totes
    then (s.lookup x).map (fun r => { r with
      place := .held { reason := .failed why, giver := o.giver, taker := o.taker }, transfer := none })
    else s.lookup x := by
  have hheld : (s.failEnded i o why).records = ((s.leaveGiver o.giver o.totes).holdTotes o why).records := by
    unfold failEnded; simp
  rw [lookup_of_records hheld, lookup_holdTotes, lookup_of_records (t := s) (by simp)]

theorem idents_failEnded :
    (s.failEnded i o why).records.map (fun p => (p.1, p.2.ident)) = s.records.map fun p => (p.1, p.2.ident) := by
  have hheld : (s.failEnded i o why).records = ((s.leaveGiver o.giver o.totes).holdTotes o why).records := by
    unfold failEnded; simp
  rw [hheld, idents_holdTotes]; simp

theorem lane_failEnded (k : LaneId) : (s.failEnded i o why).lane k = { s.lane k with
    contents := if o.giver = .lane k then (s.lane k).contents.filter (fun x => x ∉ o.totes) else (s.lane k).contents
    reserved := (s.lane k).reserved - if o.taker = .lane k then o.granted else 0
    condition := if laneNamed o.giver o.taker = some k ∧ (s.lane k).condition.isBlocked = false
      then .blocked .confirmFail else (s.lane k).condition } := by
  have hblocked : (s.failEnded i o why).lanes =
      ((((s.leaveGiver o.giver o.totes).holdTotes o why).release o.taker o.granted).blockNamed o).lanes := by
    unfold failEnded; simp
  have hheld : ((s.leaveGiver o.giver o.totes).holdTotes o why).lane k = (s.leaveGiver o.giver o.totes).lane k :=
    lane_of_lanes (by simp) k
  rw [lane_of_lanes hblocked, lane_blockNamed, lane_release, hheld, lane_leaveGiver]

theorem lift_failEnded (y : Side) : (s.failEnded i o why).lift y = { (s.leaveGiver o.giver o.totes).lift y with
    status := if slotOwner i = .inr y then .blocked else (s.lift y).status
    reserved := if o.taker = .carriage y then [] else (s.lift y).reserved } := by
  have hreleased : (((((((s.leaveGiver o.giver o.totes).holdTotes o why).release o.taker o.granted).blockNamed
      o).raiseStreaks (s.levelsTouched i)).raiseFailed i o).freeSlot i (.failed why)).lifts =
      (((s.leaveGiver o.giver o.totes).holdTotes o why).release o.taker o.granted).lifts := by simp
  have hheld : ((s.leaveGiver o.giver o.totes).holdTotes o why).lift y = (s.leaveGiver o.giver o.totes).lift y :=
    lift_of_lifts (by simp) y
  unfold failEnded
  rw [lift_partyFree, lift_of_lifts hreleased, lift_release, hheld, lift_leaveGiver]
  rfl

theorem queue_failEnded (y : Side) : (s.failEnded i o why).queue y = (s.leaveGiver o.giver o.totes).queue y :=
  queue_of_entries (by unfold failEnded; simp) y

theorem level_failEnded (l : Level) : (s.failEnded i o why).level l = { s.level l with
    streak := if s.touches i l then min 7 ((s.level l).streak + 1) else (s.level l).streak } := by
  have hraised : (s.failEnded i o why).levels = (((((s.leaveGiver o.giver o.totes).holdTotes o why).release o.taker
      o.granted).blockNamed o).raiseStreaks (s.levelsTouched i)).levels := by unfold failEnded; simp
  have hstart : ((((s.leaveGiver o.giver o.totes).holdTotes o why).release o.taker o.granted).blockNamed o).level l =
      s.level l := level_of_levels (by simp) l
  have hfold := level_foldl_modLevel (fun x => { x with streak := min 7 (x.streak + 1) }) _ (levelsTouched_nodup s i)
    ((((s.leaveGiver o.giver o.totes).holdTotes o why).release o.taker o.granted).blockNamed o) l
  rw [hstart] at hfold
  rw [level_of_levels hraised]
  refine hfold.trans ?_
  by_cases h : s.touches i l = true
  · rw [if_pos (mem_levelsTouched.mpr h), if_pos h]
  · rw [if_neg (fun c => h (mem_levelsTouched.mp c)), if_neg h]

theorem claimState_failEnded (l : Level) : (s.failEnded i o why).claimState l =
    if slotOwner i = .inl l then .idle else s.claimState l := by
  unfold failEnded
  rw [claimState_partyFree, claimState_of_claims (t := s) (by simp)]

theorem slot_failEnded (j : Fin 34) : (s.failEnded i o why).slot j =
    if i = j then { s.slot j with lastEnd := .failed why, opened := none } else s.slot j := by
  have hstart : (((((((s.leaveGiver o.giver o.totes).holdTotes o why).release o.taker o.granted).blockNamed
      o).raiseStreaks (s.levelsTouched i)).raiseFailed i o)).slot j = s.slot j := slot_of_slots (by simp) j
  have hfree : (s.failEnded i o why).slots = ((((((((s.leaveGiver o.giver o.totes).holdTotes o why).release o.taker
      o.granted).blockNamed o).raiseStreaks (s.levelsTouched i)).raiseFailed i o)).freeSlot i (.failed why)).slots := by
    unfold failEnded; simp
  rw [slot_of_slots hfree, slot_freeSlot, hstart]

theorem raises_streaks_then_failed (ls : List Level) : raises s ((s.raiseStreaks ls).raiseFailed i o) fun g =>
    (∃ y, g = .lift y .transferFailed ∧ slotOwner i = .inr y) ∨
    ∃ l, g = .level l .transferFailed ∧ (slotOwner i = .inl l ∨
      (laneNamed o.giver o.taker).map (·.level) = some l ∧ ∀ k, slotOwner i ≠ .inl k) :=
  ((raises.of_eq (by simp) (by simp)).trans (raises_raiseFailed (s.raiseStreaks ls) i o)).congr fun g => by
    simp only [false_or]

theorem raises_failEnded : raises s (s.failEnded i o why) fun g => (g = .aisle .holdRaised ∧ o.totes ≠ []) ∨
    (∃ y, g = .lift y .transferFailed ∧ slotOwner i = .inr y) ∨
    ∃ l, g = .level l .transferFailed ∧ (slotOwner i = .inl l ∨
      (laneNamed o.giver o.taker).map (·.level) = some l ∧ ∀ k, slotOwner i ≠ .inl k) := by
  have hleft : ∀ k, ((s.leaveGiver o.giver o.totes).lane k).condition = (s.lane k).condition := fun k => by
    rw [lane_leaveGiver]
  have hfreed : raises s (((s.leaveGiver o.giver o.totes).holdTotes o why).release o.taker o.granted) fun g =>
      g = .aisle .holdRaised ∧ o.totes ≠ [] := by
    refine (((raises.of_conditions hleft (by simp)).trans (raises_holdTotes _ o why)).trans
      (raises.of_conditions (fun k => ?_) ?_)).congr fun g => by simp only [false_or, or_false]
    · rw [lane_release]
    · simp
  have hfailed := (hfreed.trans (raises_blockNamed _ o)).trans (raises_streaks_then_failed _ i o (s.levelsTouched i))
  refine (hfailed.trans (raises.of_eq (t := s.failEnded i o why) ?_ ?_)).congr fun g => by simp only [or_false]
  all_goals unfold failEnded; simp

/-! ### The switch-off tests -/

/-- The switch-off test of a level has its condition exactly where the failure brings its streak to the limit (R35, R36). -/
theorem reached_failEnded (l : Level) (m : Mode) :
    l ∈ s.levelsTouched i ∧ ((s.failEnded i o why).level l).mode = m ∧
      (s.failEnded i o why).settings.params.streakLimit ≤ ((s.failEnded i o why).level l).streak ↔ s.failOff i l m := by
  unfold failOff
  rw [mem_levelsTouched, level_failEnded, (failEnded_frame s i o why).1]
  refine and_congr_right fun htouched => ?_
  rw [if_pos htouched]

theorem switchesOff_failEnded (l : Level) :
    l ∈ s.levelsTouched i ∧ (s.failEnded i o why).switchesOff l ↔ s.failOff i l .auto ∨ s.failOff i l .manual := by
  unfold switchesOff
  rw [← reached_failEnded s i o why, ← reached_failEnded s i o why]
  tauto

theorem manualOff_failEnded (l : Level) :
    l ∈ s.levelsTouched i ∧ (s.failEnded i o why).manualOff l ↔ s.failOff i l .manual := reached_failEnded s i o why l .manual

theorem slots_fail : (s.fail i o why).slots = (s.failEnded i o why).slots := by rw [fail_eq]; simp

theorem levelTouched_fail (l : Level) : (s.fail i o why).levelTouched l = (s.failEnded i o why).levelTouched l :=
  levelTouched_of_slots (slots_fail s i o why) l

theorem lookup_fail (x : Ident) : (s.fail i o why).lookup x = (s.failEnded i o why).lookup x :=
  lookup_of_records (by rw [fail_eq]; simp) x

theorem idents_fail :
    (s.fail i o why).records.map (fun p => (p.1, p.2.ident)) = s.records.map fun p => (p.1, p.2.ident) := by
  have hrecords : (s.fail i o why).records = (s.failEnded i o why).records := by rw [fail_eq]; simp
  rw [hrecords, idents_failEnded]

theorem lift_fail (y : Side) : (s.fail i o why).lift y = (s.failEnded i o why).lift y :=
  lift_of_lifts (by rw [fail_eq]; simp) y

theorem queue_fail (y : Side) : (s.fail i o why).queue y = (s.leaveGiver o.giver o.totes).queue y :=
  (queue_of_entries (by rw [fail_eq]; simp) y).trans (queue_failEnded s i o why y)

theorem slot_fail (j : Fin 34) : (s.fail i o why).slot j =
    if i = j then { s.slot j with lastEnd := .failed why, opened := none } else s.slot j :=
  (slot_of_slots (slots_fail s i o why) j).trans (slot_failEnded s i o why j)

theorem claimState_fail (l : Level) : (s.fail i o why).claimState l =
    ((s.failEnded i o why).testStreaks (s.levelsTouched i)).claimState l := claimState_of_claims (by rw [fail_eq]; simp) l

theorem link_fail (p : Port) : (s.fail i o why).link p =
    ((s.failEnded i o why).testStreaks (s.levelsTouched i)).link p := link_of_links (by rw [fail_eq]; simp) p

theorem approvals_fail : (s.fail i o why).approvals =
    ((s.failEnded i o why).testStreaks (s.levelsTouched i)).approvals := by rw [fail_eq]; simp

/-! ### Lanes -/

/-- A failure cuts the settle times of the levels that it switches off from AUTO, and touches no other lane after its end. -/
theorem lane_fail (k : LaneId) :
    (s.failOff i k.level .auto → isSettling ((s.failEnded i o why).lane k).condition = true →
      (s.fail i o why).lane k = { (s.failEnded i o why).lane k with condition := (s.failEnded i o why).cutCondition k }) ∧
    (¬ s.failOff i k.level .auto ∨ isSettling ((s.failEnded i o why).lane k).condition = false →
      (s.fail i o why).lane k = (s.failEnded i o why).lane k) := by
  have hlanes : (s.fail i o why).lanes = ((s.failEnded i o why).testStreaks (s.levelsTouched i)).lanes := by
    rw [fail_eq]; simp
  have htests := lane_testStreaks _ (levelsTouched_nodup s i) (s.failEnded i o why) k
  rw [lane_of_lanes hlanes, htests]
  constructor
  · intro hoff hsettling
    obtain ⟨hmem, hmode, hstreak⟩ := (reached_failEnded s i o why k.level .auto).mpr hoff
    rw [if_pos ⟨hmem, hmode, hstreak, hsettling⟩]
  · intro hkeep
    rw [if_neg]
    rintro ⟨hmem, hmode, hstreak, hsettling⟩
    rcases hkeep with hoff | hnot
    · exact hoff ((reached_failEnded s i o why k.level .auto).mp ⟨hmem, hmode, hstreak⟩)
    · rw [hnot] at hsettling; cases hsettling

theorem lane_fail_but_condition (k : LaneId) : (s.fail i o why).lane k =
    { (s.failEnded i o why).lane k with condition := ((s.fail i o why).lane k).condition } := by
  obtain ⟨hcut, hkept⟩ := lane_fail s i o why k
  by_cases hoff : s.failOff i k.level .auto
  · cases hsettling : isSettling ((s.failEnded i o why).lane k).condition
    · rw [hkept (.inr hsettling)]
    · rw [hcut hoff hsettling]
  · rw [hkept (.inl hoff)]

/-- What a failure leaves of a lane besides its condition (R25, R61). -/
theorem laneLists_fail (k : LaneId) :
    ((s.fail i o why).lane k).contents = (if o.giver = .lane k then (s.lane k).contents.filter (fun x => x ∉ o.totes)
      else (s.lane k).contents) ∧
    ((s.fail i o why).lane k).reserved = (s.lane k).reserved - (if o.taker = .lane k then o.granted else 0) ∧
    ((s.fail i o why).lane k).report = (s.lane k).report ∧
    ((s.fail i o why).lane k).discrepancy = (s.lane k).discrepancy := by
  rw [lane_fail_but_condition, lane_failEnded]
  exact ⟨rfl, rfl, rfl, rfl⟩

theorem condition_fail_named (k : LaneId) (h : laneNamed o.giver o.taker = some k) :
    ((s.fail i o why).lane k).condition =
      if (s.lane k).condition.isBlocked then (s.lane k).condition else .blocked .confirmFail := by
  have hended : ((s.failEnded i o why).lane k).condition =
      if (s.lane k).condition.isBlocked then (s.lane k).condition else .blocked .confirmFail := by
    rw [lane_failEnded]; cases (s.lane k).condition.isBlocked <;> simp [h]
  have hnot : isSettling ((s.failEnded i o why).lane k).condition = false := by
    rw [hended]; cases (s.lane k).condition <;> rfl
  rw [(lane_fail s i o why k).2 (.inr hnot), hended]

theorem condition_failEnded_other (k : LaneId) (h : laneNamed o.giver o.taker ≠ some k) :
    ((s.failEnded i o why).lane k).condition = (s.lane k).condition := by
  rw [lane_failEnded]; exact if_neg fun c => h c.1

theorem cutCondition_eq (k : LaneId) : s.cutCondition k =
    if (s.lane k).report.any fun r => r.settled && !s.busy k && r.count.val != (s.lane k).contents.length
    then .blocked .unexpectedChange else .clear := by
  unfold cutCondition
  cases (s.lane k).report with
  | none => rfl
  | some r => rw [Option.any_some, Option.any_some, Bool.and_right_comm]

theorem condition_fail_cut (k : LaneId) (h : laneNamed o.giver o.taker ≠ some k) (hoff : s.failOff i k.level .auto)
    {m : Nat} (hm : (s.lane k).condition = .settling m) : ((s.fail i o why).lane k).condition =
      if (s.lane k).report.any fun r => r.settled && !(s.fail i o why).busy k &&
        r.count.val != ((s.fail i o why).lane k).contents.length
      then .blocked .unexpectedChange else .clear := by
  have hsettling : isSettling ((s.failEnded i o why).lane k).condition = true := by
    rw [condition_failEnded_other s i o why k h, hm]; rfl
  have hlane := (lane_fail s i o why k).1 hoff hsettling
  have hreport : ((s.failEnded i o why).lane k).report = (s.lane k).report := by rw [lane_failEnded]
  rw [hlane, cutCondition_eq, hreport, busy_of_slots (slots_fail s i o why)]

theorem condition_fail_kept (k : LaneId) (h : laneNamed o.giver o.taker ≠ some k)
    (hkept : ¬ s.failOff i k.level .auto ∨ ∀ m, (s.lane k).condition ≠ .settling m) :
    ((s.fail i o why).lane k).condition = (s.lane k).condition := by
  have hended := condition_failEnded_other s i o why k h
  refine ((congrArg Lane.condition ((lane_fail s i o why k).2 (hkept.imp_right fun hnot => ?_)))).trans hended
  rw [hended, Bool.eq_false_iff]
  intro hsettling
  obtain ⟨m, hm⟩ := isSettling_of hsettling
  exact hnot m hm

/-! ### Lifts -/

theorem liftContents_fail (y : Side) : ((s.fail i o why).lift y).contents =
    if o.giver = .carriage y then (s.lift y).contents.filter (fun x => x ∉ o.totes) else (s.lift y).contents := by
  rw [lift_fail, lift_failEnded]
  exact contents_leaveGiver ..

theorem liftState_fail (y : Side) : (s.fail i o why).lift y = { s.lift y with
    status := if slotOwner i = .inr y then .blocked else (s.lift y).status
    contents := ((s.fail i o why).lift y).contents
    stuck := if ((s.fail i o why).lift y).contents = (s.lift y).contents then (s.lift y).stuck else false
    reserved := if o.taker = .carriage y then [] else (s.lift y).reserved } := by
  rw [lift_fail, lift_failEnded]
  dsimp only
  rw [← stuck_leaveGiver, lift_leaveGiver]

/-! ### Levels -/

/-- The drain tests at the end of a failure change the mode alone of a level (R34, R63). -/
theorem level_fail_tests (l : Level) : (s.fail i o why).level l =
    let x := ((s.failEnded i o why).testStreaks (s.levelsTouched i)).level l
    { x with mode := if s.touches i l = true ∧ x.mode = .draining ∧ (s.fail i o why).levelTouched l = false
        then .off else x.mode } := by
  have hdrains := level_foldl_testDrain (s.levelsTouched i) ((s.failEnded i o why).testStreaks (s.levelsTouched i)) l
  have htouched : (s.fail i o why).levelTouched l =
      ((s.failEnded i o why).testStreaks (s.levelsTouched i)).levelTouched l :=
    levelTouched_of_slots (by rw [fail_eq]; simp) l
  rw [htouched]
  simp only [mem_levelsTouched] at hdrains
  exact hdrains

theorem level_fail (l : Level) : (s.fail i o why).level l = { s.level l with
    streak := if s.touches i l then min 7 ((s.level l).streak + 1) else (s.level l).streak
    mode := ((s.fail i o why).level l).mode } := by
  rw [level_fail_tests, level_testStreaks, level_failEnded]

/-- The mode of a level after the switch-off tests, where the failure switches it off and where it does not (R36). -/
theorem mode_testStreaks_failEnded (l : Level) :
    (s.failOff i l .auto ∨ s.failOff i l .manual →
      (((s.failEnded i o why).testStreaks (s.levelsTouched i)).level l).mode =
        if (s.fail i o why).levelTouched l then .draining else .off) ∧
    (¬ s.failOff i l .auto → ¬ s.failOff i l .manual →
      (((s.failEnded i o why).testStreaks (s.levelsTouched i)).level l).mode = (s.level l).mode) := by
  have hmode : ((s.failEnded i o why).level l).mode = (s.level l).mode := by rw [level_failEnded]
  rw [level_testStreaks, levelTouched_fail]
  constructor
  · intro hoff
    obtain ⟨hmem, hmodes, hstreak⟩ := (switchesOff_failEnded s i o why l).mpr hoff
    exact if_pos ⟨hmem, hmodes, hstreak⟩
  · intro hauto hmanual
    refine (if_neg fun hc => ?_).trans hmode
    exact ((switchesOff_failEnded s i o why l).mp hc).elim hauto hmanual

theorem mode_fail (l : Level) : ((s.fail i o why).level l).mode =
    let m := (((s.failEnded i o why).testStreaks (s.levelsTouched i)).level l).mode
    if s.touches i l = true ∧ m = .draining ∧ (s.fail i o why).levelTouched l = false then .off else m := by
  rw [level_fail_tests]

theorem mode_fail_off (l : Level) (h : s.failOff i l .auto ∨ s.failOff i l .manual) :
    ((s.fail i o why).level l).mode = if (s.fail i o why).levelTouched l then .draining else .off := by
  rw [mode_fail, (mode_testStreaks_failEnded s i o why l).1 h]
  cases (s.fail i o why).levelTouched l <;> simp

theorem not_failOff_of_draining {l : Level} (h : (s.level l).mode = .draining) :
    ¬ s.failOff i l .auto ∧ ¬ s.failOff i l .manual := by
  unfold failOff; rw [h]; simp

theorem mode_fail_drained (l : Level) (h : s.touches i l = true ∧ (s.level l).mode = .draining ∧
    (s.fail i o why).levelTouched l = false) : ((s.fail i o why).level l).mode = .off := by
  obtain ⟨hauto, hmanual⟩ := not_failOff_of_draining s i h.2.1
  rw [mode_fail, (mode_testStreaks_failEnded s i o why l).2 hauto hmanual]
  exact if_pos h

theorem mode_fail_kept (l : Level) (hauto : ¬ s.failOff i l .auto) (hmanual : ¬ s.failOff i l .manual)
    (h : ¬ (s.touches i l = true ∧ (s.level l).mode = .draining ∧ (s.fail i o why).levelTouched l = false)) :
    ((s.fail i o why).level l).mode = (s.level l).mode := by
  rw [mode_fail, (mode_testStreaks_failEnded s i o why l).2 hauto hmanual]
  exact if_neg h

/-- The levels that the drain tests of a failure bring to OFF were DRAINING before it: no level that it switches off is left
DRAINING without a transfer that touches it (R34, R36). -/
theorem drains_testStreaks_failEnded (l : Level) :
    (((s.failEnded i o why).testStreaks (s.levelsTouched i)).level l).mode = .draining ∧
      (s.fail i o why).levelTouched l = false ↔
    (s.level l).mode = .draining ∧ (s.fail i o why).levelTouched l = false := by
  obtain ⟨hswitched, hother⟩ := mode_testStreaks_failEnded s i o why l
  refine and_congr_left fun hfree => ?_
  by_cases hoff : s.failOff i l .auto ∨ s.failOff i l .manual
  · rw [hswitched hoff, hfree]
    refine iff_of_false (by simp) fun hdraining => ?_
    obtain ⟨hauto, hmanual⟩ := not_failOff_of_draining s i hdraining
    exact hoff.elim hauto hmanual
  · obtain ⟨hauto, hmanual⟩ := not_or.mp hoff
    rw [hother hauto hmanual]

/-! ### Pending claims -/

theorem pendingOf_failEnded (l : Level) : (s.failEnded i o why).pendingOf l = s.pendingOf l :=
  pendingOf_of_approvals (failEnded_frame s i o why).2.1 l

theorem stopOf_failEnded (l : Level) : (s.failEnded i o why).stopOf l = s.stopOf l :=
  stopOf_of_settings (failEnded_frame s i o why).1 l

/-- What a failure makes of the pending claims, of the claim states and of the links to the stops (R36, R80). -/
theorem claims_fail :
    (∀ p, p ∈ (s.fail i o why).approvals ↔ p ∈ s.approvals ∧ ¬ s.failOff i p.level .manual) ∧
    (s.fail i o why).approvals.Sublist s.approvals ∧
    (∀ l, (slotOwner i = .inl l ∨ (s.failOff i l .manual ∧ (s.pendingOf l).isSome) →
        (s.fail i o why).claimState l = .idle) ∧
      (slotOwner i ≠ .inl l → (s.failOff i l .manual → s.pendingOf l = none) →
        (s.fail i o why).claimState l = s.claimState l)) ∧
    (∀ p, (∀ l n, s.failOff i l .manual → (s.pendingOf l).isSome → s.stopOf l = some n → p ≠ .stop n) →
      (s.fail i o why).link p = s.link p) ∧
    (∀ l n, s.failOff i l .manual → (s.pendingOf l).isSome → s.stopOf l = some n → (∀ k, k ≠ l → s.stopOf k ≠ some n) →
      (s.fail i o why).link (.stop n) = { s.link (.stop n) with order := (s.link (.stop n)).order ++
        [.refuse (if (s.fail i o why).levelTouched l then .levelDraining else .levelOff)] }) := by
  obtain ⟨-, happrovals, hlinks⟩ := failEnded_frame s i o why
  have htests := claims_testStreaks (s.levelsTouched i) (levelsTouched_nodup s i) (s.failEnded i o why)
  simp only [manualOff_failEnded, pendingOf_failEnded, stopOf_failEnded, happrovals, link_of_links hlinks,
    ← levelTouched_fail, ← approvals_fail, ← claimState_fail, ← link_fail] at htests
  obtain ⟨hmem, hsub, hclaims, hkept, hrefused⟩ := htests
  refine ⟨hmem, hsub, fun l => ⟨?_, fun howner hnone => ?_⟩, fun p hp => hkept p fun l hoff hpending hstop => ?_, hrefused⟩
  · rintro (howner | hoff)
    · rw [claimState_fail]
      exact claimState_testStreaks_idle _ _ _ ((claimState_failEnded ..).trans (if_pos howner))
    · exact (hclaims l).1 hoff
  · refine ((hclaims l).2 ?_).trans ((claimState_failEnded ..).trans (if_neg howner))
    rintro ⟨hoff, hpending⟩
    rw [hnone hoff] at hpending; cases hpending
  · obtain ⟨n, hn, rfl⟩ := Option.map_eq_some_iff.mp hstop
    exact hp l n hoff hpending hn rfl

/-! ### Flags -/

/-- The flags that a failure raises (R27, R34, R36, R61, R62). -/
theorem raised_fail (g : Flag) : (s.fail i o why).raised g = true ↔ s.raised g = true ∨
    (g = .aisle .holdRaised ∧ o.totes ≠ []) ∨
    (∃ k, g = .level k.level .laneBlocked ∧ ((s.fail i o why).lane k).condition.isBlocked = true ∧
      (s.lane k).condition.isBlocked = false) ∨
    (∃ y, g = .lift y .transferFailed ∧ slotOwner i = .inr y) ∨
    (∃ l, g = .level l .transferFailed ∧ (slotOwner i = .inl l ∨
      (laneNamed o.giver o.taker).map (·.level) = some l ∧ ∀ k, slotOwner i ≠ .inl k)) ∨
    (∃ l, g = .level l .autoOff ∧ (s.failOff i l .auto ∨ s.failOff i l .manual)) ∨
    ∃ l, g = .level l .modeChange ∧ s.touches i l = true ∧ (s.level l).mode = .draining ∧
      (s.fail i o why).levelTouched l = false := by
  have hsteps := ((raises_failEnded s i o why).trans (raises_testStreaks _ (s.levelsTouched i))).trans
    (raises_afterEnd _ (s.levelsTouched i))
  have hoff : (∃ l ∈ s.levelsTouched i, g = .level l .autoOff ∧ (s.failEnded i o why).switchesOff l) ↔
      ∃ l, g = .level l .autoOff ∧ (s.failOff i l .auto ∨ s.failOff i l .manual) := by
    simp only [← switchesOff_failEnded s i o why, and_left_comm]
  have hdrained : (∃ l ∈ s.levelsTouched i, g = .level l .modeChange ∧
      (((s.failEnded i o why).testStreaks (s.levelsTouched i)).level l).mode = .draining ∧
      ((s.failEnded i o why).testStreaks (s.levelsTouched i)).levelTouched l = false) ↔
      ∃ l, g = .level l .modeChange ∧ s.touches i l = true ∧ (s.level l).mode = .draining ∧
        (s.fail i o why).levelTouched l = false := by
    have htouched : ∀ l, ((s.failEnded i o why).testStreaks (s.levelsTouched i)).levelTouched l =
        (s.fail i o why).levelTouched l := fun l => levelTouched_of_slots (by rw [fail_eq]; simp) l
    simp only [htouched, drains_testStreaks_failEnded, mem_levelsTouched, and_left_comm]
  have reorder (a b c d e f g : Prop) : a ∨ b ∨ ((c ∨ d ∨ e) ∨ f) ∨ g ↔ a ∨ c ∨ b ∨ d ∨ e ∨ f ∨ g := by tauto
  have hfail := hsteps.raised g
  rw [hoff, hdrained, ← fail_eq] at hfail
  exact hfail.trans (reorder ..)

/-! ### What a failure leaves alone -/

theorem fail_rest : s.fail i o why = { s with
    records := (s.fail i o why).records, lanes := (s.fail i o why).lanes, lifts := (s.fail i o why).lifts
    entries := (s.fail i o why).entries, levels := (s.fail i o why).levels, slots := (s.fail i o why).slots
    claims := (s.fail i o why).claims, approvals := (s.fail i o why).approvals, links := (s.fail i o why).links
    flags := (s.fail i o why).flags, cause := true } := by
  obtain ⟨-, -, hstations, hlists, hopening, hunsolicited, hattention, hfresh⟩ := fail_frame s i o why
  exact eq_of_fields (kept_fail s i o why) rfl rfl rfl rfl rfl rfl rfl rfl hstations hlists hopening hunsolicited rfl rfl
    hattention rfl hfresh

end
end Sys2Proof.Machine.State

namespace Sys2Proof.Machine

/-- Settles O29: a failure brings its transfer to its end (`failEnded`), and the tests of the levels that it touched then change
conditions, modes and pending claims alone. -/
theorem failureHoldsTheTotes : Obligations.FailureHoldsTheTotes := by
  intro s i o why _ t off drained
  obtain ⟨happrovals, hsub, hclaims, hlinks, hrefused⟩ := claims_fail s i o why
  refine ⟨fun x hx => ?_, fun x r hx hr => ?_, idents_fail s i o why, fun k => ?_, fun y =>
    ⟨liftState_fail s i o why y, liftContents_fail s i o why y⟩, fun y => ?_, fun l => ?_, happrovals, hsub, hlinks, hrefused,
    raised_fail s i o why, (slot_fail s i o why i).trans (if_pos rfl),
    fun j hj => (slot_fail s i o why j).trans (if_neg (Ne.symm hj)), fail_rest s i o why⟩
  · exact (lookup_fail ..).trans ((lookup_failEnded ..).trans (if_neg hx))
  · refine (lookup_fail ..).trans ((lookup_failEnded ..).trans ?_)
    rw [if_pos hx, hr, Option.map_some]
  · obtain ⟨hcontents, hreserved, hreport, hdiscrepancy⟩ := laneLists_fail s i o why k
    exact ⟨hcontents, hreserved, hreport, hdiscrepancy, condition_fail_named s i o why k, fun hother =>
      ⟨fun m hoff hm => condition_fail_cut s i o why k hother hoff hm, condition_fail_kept s i o why k hother⟩⟩
  · have hqueue : t.queue y = (s.leaveGiver o.giver o.totes).queue y := queue_fail s i o why y
    rw [hqueue]
    exact queues_leaveGiver ..
  · have hlevel := level_fail s i o why l
    exact ⟨(hclaims l).1, (hclaims l).2, by rw [hlevel], by rw [hlevel], by rw [hlevel], mode_fail_off s i o why l,
      mode_fail_drained s i o why l, mode_fail_kept s i o why l⟩

end Sys2Proof.Machine
end

