-- ==== Sys2Proof/Proofs/EmptyQueue.lean ====
section
/-! An empty queue (log 2): the expiries that are due (R30, R39, R49, R55, R57, R76, R114, R160, R162), and the tick that every
timer takes when none is. -/

open Sys2Proof Sys2Proof.Machine Sys2Proof.Machine.State

namespace Sys2Proof.Machine.State

/-! ### The expiries that are due -/

theorem mem_dueSlots (s : State) (c : Instr) : c ∈ s.dueSlots ↔ ∃ i, c ∈ (s.slot i).due i s.stopped := by
  unfold dueSlots; simp

/-- Which expiry of a slot is due: that of its motion time, of its confirmation window or of its read window (R49, R55, R57). -/
theorem exists_mem_due_slot (s : State) (c : Instr) : (∃ i, c ∈ (s.slot i).due i s.stopped) ↔
    (∃ i o, c = .motionTimeout i ∧ (s.slot i).opened = some o ∧ o.paused = false ∧ o.timer = 0 ∧ o.confirming = false) ∨
    (∃ i o, c = .confirmTimeout i ∧ (s.slot i).opened = some o ∧ o.paused = false ∧ o.timer = 0 ∧
      o.confirming = true ∧ s.stopped = false ∧ o.kind ≠ .exitUnload) ∨
    (∃ i o, c = .exitReadWindowExpiry i ∧ (s.slot i).opened = some o ∧ o.paused = false ∧ o.timer = 0 ∧
      o.confirming = true ∧ s.stopped = false ∧ o.kind = .exitUnload) := by
  simp only [mem_due_slot]
  constructor
  · rintro ⟨i, o, ho, hpaused, htimer, ⟨hc, hgranted⟩ | ⟨hconfirming, hrunning, ⟨hc, hkind⟩ | ⟨hc, hkind⟩⟩⟩
    · exact .inl ⟨i, o, hc, ho, hpaused, htimer, hgranted⟩
    · exact .inr (.inl ⟨i, o, hc, ho, hpaused, htimer, hconfirming, hrunning, hkind⟩)
    · exact .inr (.inr ⟨i, o, hc, ho, hpaused, htimer, hconfirming, hrunning, hkind⟩)
  · rintro (⟨i, o, hc, ho, hpaused, htimer, hgranted⟩ | ⟨i, o, hc, ho, hpaused, htimer, hconfirming, hrunning, hkind⟩ |
      ⟨i, o, hc, ho, hpaused, htimer, hconfirming, hrunning, hkind⟩)
    · exact ⟨i, o, ho, hpaused, htimer, .inl ⟨hc, hgranted⟩⟩
    · exact ⟨i, o, ho, hpaused, htimer, .inr ⟨hconfirming, hrunning, .inl ⟨hc, hkind⟩⟩⟩
    · exact ⟨i, o, ho, hpaused, htimer, .inr ⟨hconfirming, hrunning, .inr ⟨hc, hkind⟩⟩⟩

theorem mem_dueLanes (s : State) (l : Level) (c : Instr) : c ∈ (lanesOf l).flatMap s.dueLane ↔
    ∃ k : LaneId, k.level = l ∧ c = .settleExpiry k ∧ (s.lane k).condition = .settling 0 := by
  simp only [List.mem_flatMap, mem_lanesOf, mem_dueLane]

theorem pendingOf_any_timer (s : State) (l : Level) : (s.pendingOf l).any (fun p => p.timer == 0) = true ↔
    ∃ p, s.pendingOf l = some p ∧ p.timer = 0 := by
  cases s.pendingOf l <;> simp

theorem mem_dueLevel (s : State) (l : Level) (c : Instr) : c ∈ s.dueLevel l ↔
    (∃ k : LaneId, k.level = l ∧ c = .settleExpiry k ∧ (s.lane k).condition = .settling 0) ∨
    (c = .scanTimeout l ∧ (s.level l).scan = some 0) ∨
    ∃ p, c = .approvalTimeout l ∧ s.pendingOf l = some p ∧ p.timer = 0 := by
  unfold dueLevel
  rw [List.mem_append, List.mem_append, mem_dueLanes, List.mem_ite_nil_right, List.mem_ite_nil_right, pendingOf_any_timer,
    List.mem_singleton, List.mem_singleton, or_assoc]
  simp only [exists_and_left, and_comm]

theorem mem_dueLevels (s : State) (c : Instr) : c ∈ (List.finRange 32).flatMap s.dueLevel ↔
    (∃ k, c = .settleExpiry k ∧ (s.lane k).condition = .settling 0) ∨
    (∃ l, c = .scanTimeout l ∧ (s.level l).scan = some 0) ∨
    ∃ l p, c = .approvalTimeout l ∧ s.pendingOf l = some p ∧ p.timer = 0 := by
  simp only [List.mem_flatMap, List.mem_finRange, true_and, mem_dueLevel, exists_or]
  refine or_congr ⟨fun ⟨_, k, _, h⟩ => ⟨k, h⟩, fun ⟨k, h⟩ => ⟨_, k, rfl, h⟩⟩ Iff.rfl

theorem mem_due {s : State} (h : s.inReset = false) (c : Instr) : c ∈ s.due ↔
    (∃ i, c ∈ (s.slot i).due i s.stopped) ∨ c ∈ (List.finRange 32).flatMap s.dueLevel ∨ c ∈ s.dueLinks ∨
      (∃ x, c ∈ s.dueEntry x) ∨ (c = .statusPeriodEnd ∧ s.statusPeriod = 0) := by
  have hsides : (∃ x, c ∈ s.dueEntry x) ↔ c ∈ s.dueEntry .a ∨ c ∈ s.dueEntry .b :=
    ⟨fun ⟨x, hx⟩ => by cases x; exacts [.inl hx, .inr hx], fun hx => hx.elim (⟨_, ·⟩) (⟨_, ·⟩)⟩
  unfold due
  rw [h, if_neg Bool.false_ne_true, hsides]
  simp only [List.mem_append, mem_dueSlots, List.mem_ite_nil_right, List.mem_singleton, or_assoc, and_comm]

/-! ### The tick -/

theorem nth_map {α : Type} {n : Nat} (v : Vector α n) (f : α → α) (i : Fin n) : nth (v.map f) i = f (nth v i) := by
  simp [nth]

theorem lane_count (s : State) (k : LaneId) : s.count.lane k = (s.lane k).tick := nth_map ..

theorem link_count (s : State) (p : Port) : s.count.link p = (s.link p).tick := nth_map ..

theorem tick_of_settling {x : Lane} {n : Nat} (h : x.condition = .settling n) :
    x.tick = { x with condition := .settling (n - 1) } := by unfold Lane.tick; rw [h]

theorem tick_of_not_settling {x : Lane} (h : ∀ n, x.condition ≠ .settling n) : x.tick = x := by
  obtain ⟨contents, reserved, condition, report, discrepancy⟩ := x
  cases condition with
  | settling n => exact absurd rfl (h n)
  | clear => rfl
  | audit => rfl
  | blocked w => rfl

theorem tick_of_up {x : Link} {n : Nat} (h : x.status = .up n) : x.tick = { x with status := .up (n - 1) } := by
  unfold Link.tick; rw [h]

theorem tick_of_not_up {x : Link} (h : ∀ n, x.status ≠ .up n) : x.tick = x := by
  obtain ⟨status, heard, order, begun⟩ := x
  cases status with
  | up n => exact absurd rfl (h n)
  | down => rfl
  | lost => rfl

end Sys2Proof.Machine.State

namespace Sys2Proof.Machine

/-- Settles O3: `step_idle` tells the two cases apart, and the tick is read member by member. -/
theorem emptyQueueTicks : Obligations.EmptyQueueTicks := by
  refine ⟨fun s hq hr => ?_, fun s hq hdue => ?_, fun s hr c => ?_, fun s hq hr hnone => ?_⟩
  · rcases step_idle hq with ⟨c, n, hc, -⟩ | ⟨-, hstep⟩
    · rw [due_inReset hr] at hc; cases hc
    · rw [hstep, State.tick, if_pos hr]
  · rcases step_idle hq with htaken | ⟨hnone, -⟩
    · exact htaken
    · exact absurd hnone hdue
  · simp only [mem_due hr, exists_mem_due_slot, mem_dueLevels, mem_dueLinks, mem_dueEntry, or_assoc]
  · rcases step_idle hq with ⟨c, n, hc, -⟩ | ⟨-, hstep⟩
    · rw [hnone] at hc; cases hc
    · refine ⟨s.count, by rw [hstep, State.tick, hr, if_neg Bool.false_ne_true], rfl, fun i => nth_map .., fun k n h => ?_,
        fun k h => ?_, fun l => nth_map .., rfl, fun p n h => ?_, fun p h => ?_, fun x => nth_map ..⟩
      · rw [lane_count, tick_of_settling h]
      · rw [lane_count, tick_of_not_settling h]
      · rw [link_count, tick_of_up h]
      · rw [link_count, tick_of_not_up h]

end Sys2Proof.Machine
end

