-- ==== Sys2Proof/Proofs/LevelSettings.lean ====
section
/-! The requests that set levels (R20, R22, R31 to R33, R37) and the fence that follows its causes (R38, R80). -/

open Sys2Proof Sys2Proof.Machine Sys2Proof.Machine.State

namespace Sys2Proof

namespace Machine

/-! ### Requests that name a level or a lane -/

theorem withLevel_of {b : Byte} {l : Level} (h : b.toNat = l.val + 1) (go : Level → Answer) : withLevel b go = go l := by
  rw [withLevel, Level.ofByte_of h]

theorem withLevel_out {b : Byte} (h : b.toNat < 1 ∨ 32 < b.toNat) (go : Level → Answer) :
    withLevel b go = .refuse .outOfRange := by rw [withLevel, Level.ofByte_out h]

/-- What refuses OUT_OF_RANGE for every level refuses so whatever level the byte names. -/
theorem withLevel_refuse {go : Level → Answer} (h : ∀ l, go l = .refuse .outOfRange) (b : Byte) :
    withLevel b go = .refuse .outOfRange := by
  unfold withLevel
  split
  · rfl
  · exact h _

theorem withLane_of {b nb : Byte} {k : LaneId} (h : b.toNat = k.level.val + 1) (hn : nb.toNat = k.name.ix.val)
    (go : LaneId → Answer) : withLane b nb go = go k := by
  rw [withLane, Level.ofByte_of h, LaneName.ofByte_of hn]

theorem withLane_out {b nb : Byte} (h : b.toNat < 1 ∨ 32 < b.toNat ∨ 3 < nb.toNat) (go : LaneId → Answer) :
    withLane b nb go = .refuse .outOfRange := by
  unfold withLane
  split
  · next hl hn =>
    rcases or_assoc.mpr h with h | h
    · rw [Level.ofByte_out h] at hl; cases hl
    · rw [LaneName.ofByte_out h] at hn; cases hn
  · rfl

theorem withLane_refuse {go : LaneId → Answer} (h : ∀ k, go k = .refuse .outOfRange) (b nb : Byte) :
    withLane b nb go = .refuse .outOfRange := by
  unfold withLane
  split
  · exact h _
  · rfl

theorem any_lanesOf (l : Level) (p : LaneId → Bool) :
    (lanesOf l).any p = true ↔ ∃ x, p { level := l, name := x } = true := by
  simp only [List.any_eq_true, mem_lanesOf]
  exact ⟨fun ⟨k, hk, hp⟩ => ⟨k.name, hk ▸ hp⟩, fun ⟨x, hp⟩ => ⟨_, rfl, hp⟩⟩

namespace State

/-! ### Operations made lane by lane -/

/-- Operations along a list, each of which makes of its own lane what it makes of it alone and leaves every other lane. -/
theorem lane_foldl_each {op : State → LaneId → State} {g : LaneId → Lane → Lane}
    (h : ∀ s a k, (op s a).lane k = if a = k then g k (s.lane k) else s.lane k) {ls : List LaneId} (hn : ls.Nodup)
    (s : State) (k : LaneId) : (ls.foldl op s).lane k = if k ∈ ls then g k (s.lane k) else s.lane k := by
  induction ls generalizing s with
  | nil => rfl
  | cons a ls ih =>
    obtain ⟨ha, hls⟩ := List.nodup_cons.mp hn
    rw [List.foldl_cons, ih hls, h]
    by_cases hk : a = k
    · subst hk; rw [if_neg ha, if_pos rfl, if_pos List.mem_cons_self]
    · rw [if_neg hk]
      exact if_congr (by simp [Ne.symm hk]) rfl rfl

/-- Such operations along the four lanes of a level change those lanes, each as it would be alone. -/
theorem lane_foldl_lanesOf {op : State → LaneId → State} {g : LaneId → Lane → Lane}
    (h : ∀ s a k, (op s a).lane k = if a = k then g k (s.lane k) else s.lane k) (s : State) (l : Level) (k : LaneId) :
    ((lanesOf l).foldl op s).lane k = if k.level = l then g k (s.lane k) else s.lane k := by
  rw [lane_foldl_each h (lanesOf_nodup l)]
  exact if_congr mem_lanesOf rfl rfl

/-- Operations on the lanes of a level that touch no event group but the level's. -/
theorem flags_foldl_lanesOf {op : State → LaneId → State} {l : Level} {g : Fin 41}
    (h : ∀ s k, k.level = l → nth (op s k).flags g = nth s.flags g) (s : State) :
    nth ((lanesOf l).foldl op s).flags g = nth s.flags g := by
  have key : ∀ ls : List LaneId, (∀ k ∈ ls, k.level = l) → ∀ s, nth (ls.foldl op s).flags g = nth s.flags g := by
    intro ls
    induction ls with
    | nil => exact fun _ _ => rfl
    | cons a ls ih =>
      intro hls s
      rw [List.foldl_cons, ih (fun k hk => hls k (List.mem_cons_of_mem _ hk)), h _ _ (hls a List.mem_cons_self)]
  exact key _ (fun _ => mem_lanesOf.mp) s

theorem flags_blockLane_ne (s : State) (k : LaneId) (why : BlockReason) {g : Fin 41} (h : g ≠ levelGroup k.level) :
    nth (s.blockLane k why).flags g = nth s.flags g := by
  unfold blockLane
  split
  · rfl
  all_goals exact flags_raise_ne _ _ _ (Ne.symm h)

theorem flags_compareLane_ne (s : State) (k : LaneId) {g : Fin 41} (h : g ≠ levelGroup k.level) :
    nth (s.compareLane k).flags g = nth s.flags g := by
  unfold compareLane
  repeat' split
  · rfl
  · exact flags_blockLane_ne _ _ _ h
  · rfl

theorem flags_endSettle_ne (s : State) (k : LaneId) {g : Fin 41} (h : g ≠ levelGroup k.level) :
    nth (s.endSettle k).flags g = nth s.flags g := by
  unfold endSettle
  split
  · exact flags_compareLane_ne (s.modLane k _) k h
  all_goals rfl

/-! ### Fences (R38, R80) -/

theorem fenceOf_iff (s : State) (l : Level) : s.fenceOf l = true ↔
    ∃ n, s.stopOf l = some n ∧ (s.link (.stop n)).status = .lost ∧ nth s.settings.fenceOnLoss l = true := by
  unfold fenceOf
  cases s.stopOf l <;> simp

theorem fenced_recomputeFence (s : State) (l : Level) : ((s.recomputeFence l).level l).fenced = s.fenceOf l := by
  rw [level_recomputeFence]; exact if_pos rfl

theorem recomputeFence_unchanged {s : State} {l : Level} (h : s.fenceOf l = (s.level l).fenced) : s.recomputeFence l = s :=
  if_pos h

theorem recomputeFence_fences {s : State} {l : Level} (h : s.fenceOf l = true) (hl : (s.level l).fenced = false) :
    s.recomputeFence l = ((s.modLevel l fun x => { x with fenced := true }).withCause).endClaim l .levelFenced := by
  rw [recomputeFence, if_neg (by rw [h, hl]; decide), if_pos h]

theorem recomputeFence_clears {s : State} {l : Level} (h : s.fenceOf l = false) (hl : (s.level l).fenced = true) :
    s.recomputeFence l = (s.modLevel l fun x => { x with fenced := false }).withCause := by
  rw [recomputeFence, if_neg (by rw [h, hl]; decide), if_neg (by rw [h]; decide)]

theorem endClaim_of_none {s : State} {l : Level} (h : s.pendingOf l = none) (why : Code) : s.endClaim l why = s := by
  rw [endClaim, h]; rfl

theorem cause_recomputeFence {s : State} {l : Level} (h : s.fenceOf l ≠ (s.level l).fenced) :
    (s.recomputeFence l).cause = true := by
  cases hl : (s.level l).fenced
  · have hf : s.fenceOf l = true := by simpa [hl] using h
    rw [recomputeFence_fences hf hl]; simp
  · have hf : s.fenceOf l = false := by simpa [hl] using h
    rw [recomputeFence_clears hf hl]; rfl

/-- What a fence that changes leaves alone. -/
theorem recomputeFence_rest {s : State} {l : Level} (h : s.fenceOf l ≠ (s.level l).fenced) : s.recomputeFence l = { s with
    levels := (s.recomputeFence l).levels, claims := (s.recomputeFence l).claims, links := (s.recomputeFence l).links
    approvals := (s.recomputeFence l).approvals, cause := true } := by
  obtain ⟨-, -, hrecords, hlanes, hslots, hlifts, hentries, hstations, hlists, hopening, hunsolicited, hflags, hattention,
    hfresh⟩ := recomputeFence_frame s l
  exact eq_of_fields (kept_recomputeFence s l) hrecords hlanes rfl hslots rfl rfl hlifts hentries hstations hlists hopening
    hunsolicited rfl hflags hattention (cause_recomputeFence h) hfresh

/-- A change of fence that ends no claim leaves the claims, the approvals and the links. -/
theorem recomputeFence_no_claim {s : State} {l : Level} (h : s.fenceOf l ≠ (s.level l).fenced)
    (hno : (s.level l).fenced = true ∨ s.pendingOf l = none) : (s.recomputeFence l).claims = s.claims ∧
      (s.recomputeFence l).approvals = s.approvals ∧ (s.recomputeFence l).links = s.links := by
  cases hl : (s.level l).fenced
  · have hf : s.fenceOf l = true := by simpa [hl] using h
    have hnone : ((s.modLevel l fun x => { x with fenced := true }).withCause).pendingOf l = none :=
      hno.resolve_left (by rw [hl]; decide)
    rw [recomputeFence_fences hf hl, endClaim_of_none hnone]
    exact ⟨rfl, rfl, rfl⟩
  · have hf : s.fenceOf l = false := by simpa [hl] using h
    rw [recomputeFence_clears hf hl]
    exact ⟨rfl, rfl, rfl⟩

/-- A level that becomes fenced loses its pending claim with LEVEL_FENCED (R80). -/
theorem recomputeFence_ends_claim {s : State} {l : Level} {n : Stop} (h : s.fenceOf l = true) (hl : (s.level l).fenced = false)
    (hn : s.stopOf l = some n) (hp : (s.pendingOf l).isSome) : (s.recomputeFence l).claimState l = .idle ∧
      (s.recomputeFence l).approvals = s.approvals.filter (fun p => p.level ≠ l) ∧
      (s.recomputeFence l).link (.stop n) =
        { s.link (.stop n) with order := (s.link (.stop n)).order ++ [.refuse .levelFenced] } := by
  rw [recomputeFence_fences h hl]
  refine ⟨(claimState_endClaim ..).trans (if_pos ⟨rfl, hp⟩), approvals_endClaim .., (link_endClaim ..).trans (if_pos ⟨hp, ?_⟩)⟩
  exact congrArg (Option.map Port.stop) hn

end State

/-- Settles O19: the fence is recomputed as R38 has it, and only a level that becomes fenced has its claim ended. -/
theorem fenceFollowsItsCauses : Obligations.FenceFollowsItsCauses := by
  intro s l
  rw [fenced_recomputeFence]
  refine ⟨fenceOf_iff s l, fun k => by rw [level_recomputeFence], fun k hk => ?_, recomputeFence_unchanged, fun h =>
    ⟨cause_recomputeFence h, recomputeFence_rest h, recomputeFence_no_claim h, fun n hl hn hp => ?_⟩⟩
  · rw [level_recomputeFence, if_neg (Ne.symm hk)]
  · exact recomputeFence_ends_claim (by simpa [hl] using h) hl hn hp

/-! ### SET_LEVEL_MAP (R20) -/

theorem stopArg_out {nb : Byte} (h : 36 < nb.toNat) : stopArg nb = none := by
  rw [stopArg, if_neg (by rintro rfl; exact absurd h (by decide)), Stop.ofByte_out (.inr h)]; rfl

theorem stopArg_of {nb : Byte} {n : Option Stop} (h : n = none ∧ nb = 0 ∨ ∃ m, n = some m ∧ nb.toNat = m.val + 1) :
    stopArg nb = some n := by
  rcases h with ⟨rfl, rfl⟩ | ⟨m, rfl, hm⟩
  · rfl
  · rw [stopArg, if_neg (by rintro rfl; exact absurd hm (by simp)), Stop.ofByte_of hm]; rfl

theorem setLevelMap_out {b nb : Byte} (h : b.toNat < 1 ∨ 32 < b.toNat ∨ 36 < nb.toNat) (s : State) :
    setLevelMap b nb s = .refuse .outOfRange := by
  rcases or_assoc.mpr h with h | h
  · exact withLevel_out h _
  · exact withLevel_refuse (fun l => by rw [stopArg_out h]) b

namespace State

/-- The mapping of a level is written and the latest reports of its lanes are absent, before its fence is recomputed (R20). -/
def mapped (s : State) (l : Level) (n : Option Stop) : State :=
  (lanesOf l).foldl forgetReport (s.modSettings fun x => { x with levelMap := upd x.levelMap l fun _ => n })

theorem remap_eq (s : State) (l : Level) (n : Option Stop) : s.remap l n = (s.mapped l n).recomputeFence l := rfl

theorem lane_forgetReport (s : State) (a k : LaneId) :
    (s.forgetReport a).lane k = if a = k then { s.lane k with report := none } else s.lane k := lane_modLane ..

theorem lane_mapped (s : State) (l : Level) (n : Option Stop) (k : LaneId) :
    (s.mapped l n).lane k = if k.level = l then { s.lane k with report := none } else s.lane k :=
  lane_foldl_lanesOf (g := fun _ x => { x with report := none }) lane_forgetReport _ l k

theorem mapped_rest (s : State) (l : Level) (n : Option Stop) : s.mapped l n = { s with
    lanes := (s.mapped l n).lanes, settings := { s.settings with levelMap := s.settings.levelMap.set l.val n } } := by
  unfold mapped
  refine eq_of_fields ((kept_foldl forgetReport (fun _ _ => rfl) _ _).trans rfl) ?_ rfl ?_ ?_ ?_ ?_ ?_ ?_ ?_ ?_ ?_ ?_ ?_ ?_ ?_ ?_ ?_
  all_goals simp [modSettings]

end State

/-- The five checks of SET_LEVEL_MAP in their order (R20). -/
theorem setLevelMap_level {b nb : Byte} {l : Level} {n : Option Stop} (hb : b.toNat = l.val + 1) (hn : stopArg nb = some n)
    (s : State) : setLevelMap b nb s = .checked
      [((s.level l).mode != .off, .wrongState),
       ((lanesOf l).any (fun k => !(s.lane k).contents.isEmpty) || (s.level l).scan.isSome, .busy),
       ((lanesOf l).any (fun k => (s.lane k).condition.isBlocked), .laneBlocked),
       (n.isSome && (List.finRange 32).any (fun k => k != l && s.stopOf k == n), .duplicate)]
      (.accept (s.remap l n)) := by
  rw [setLevelMap, withLevel_of hb, hn]

theorem holdsTotes_iff (s : State) (l : Level) :
    ((lanesOf l).any (fun k => !(s.lane k).contents.isEmpty) || (s.level l).scan.isSome) = true ↔
      (∃ x, (s.lane { level := l, name := x }).contents ≠ []) ∨ (s.level l).scan.isSome := by
  rw [Bool.or_eq_true, any_lanesOf]; simp

theorem mapsTwice_iff (s : State) (l : Level) (n : Option Stop) :
    (n.isSome && (List.finRange 32).any (fun k => k != l && s.stopOf k == n)) = true ↔
      ∃ k, k ≠ l ∧ n.isSome ∧ s.stopOf k = n := by
  rw [Bool.and_eq_true, List.any_eq_true, ← exists_and_left]
  exact exists_congr fun k => by simp [and_left_comm]

/-- Settles O20. -/
theorem setLevelMapRemapsAnEmptyOffLevel : Obligations.SetLevelMapRemapsAnEmptyOffLevel := by
  intro s b nb hs
  rw [Changes.ready (.levelMap b nb) hs]
  refine ⟨fun hout => ?_, fun l n hb hn => ?_⟩
  · rw [setLevelMap_out hout, answered_refuse]
  · rw [setLevelMap_level hb (stopArg_of hn)]
    simp only [Answer.checked_cons, Answer.checked_nil, mapsTwice_iff, bne_iff_ne]
    refine ⟨fun hmode => ?_, fun hoff => ⟨fun hbusy => ?_, fun hempty hscan => ⟨fun hblocked => ?_, fun hclear =>
      ⟨fun htwice => ?_, fun honce => ⟨s.mapped l n, ?_, mapped_rest s l n, lane_mapped s l n⟩⟩⟩⟩⟩
    · rw [if_pos hmode, answered_refuse]
    all_goals rw [if_neg (not_not.mpr hoff)]
    · rw [if_pos ((holdsTotes_iff s l).mpr hbusy), answered_refuse]
    all_goals rw [if_neg (mt (holdsTotes_iff s l).mp (by simp [hempty, hscan]))]
    · rw [if_pos ((any_lanesOf ..).mpr hblocked), answered_refuse]
    all_goals rw [if_neg (mt (any_lanesOf ..).mp (by simp [hclear]))]
    · rw [if_pos htwice, answered_refuse]
    · rw [if_neg honce, answered_accept, remap_eq]

/-! ### SET_LANE_DEPTH and SET_FENCE_ON_LOSS (R22, R37) -/

theorem setLaneDepth_out {b nb d : Byte} (h : b.toNat < 1 ∨ 32 < b.toNat ∨ 3 < nb.toNat ∨ d.toNat < 1 ∨ 3 < d.toNat)
    (s : State) : setLaneDepth b nb d s = .refuse .outOfRange := by
  have hsplit : (b.toNat < 1 ∨ 32 < b.toNat ∨ 3 < nb.toNat) ∨ (d.toNat < 1 ∨ 3 < d.toNat) := by tauto
  rcases hsplit with hlane | hdepth
  · exact withLane_out hlane _
  · have hbad : (decide (d.toNat < 1) || decide (3 < d.toNat)) = true := by simpa using hdepth
    exact withLane_refuse (fun k => by rw [Answer.checked_cons, if_pos hbad]) b nb

theorem setFenceOnLoss_out {b x : Byte} (h : b.toNat < 1 ∨ 32 < b.toNat ∨ 1 < x.toNat) (s : State) :
    setFenceOnLoss b x s = .refuse .outOfRange := by
  rcases or_assoc.mpr h with h | h
  · exact withLevel_out h _
  · exact withLevel_refuse (fun l => by rw [settingOfByte_out h]) b

/-- Settles O21. -/
theorem laneDepthAndFenceSettings : Obligations.LaneDepthAndFenceSettings := by
  refine ⟨fun s b nb d hs => ?_, fun s b x hs => ?_⟩
  · rw [Changes.ready (.laneDepth b nb d) hs]
    refine ⟨fun hout => ?_, fun k hb hnb h1 h3 => ?_⟩
    · rw [setLaneDepth_out hout, answered_refuse]
    · have hrange : (decide (d.toNat < 1) || decide (3 < d.toNat)) = false := by simp; omega
      rw [setLaneDepth, withLane_of hb hnb, Answer.checked_cons, hrange, if_neg Bool.false_ne_true, Answer.checked_cons,
        Answer.checked_nil]
      refine ⟨fun hstate => ?_, fun hoff hempty => ?_⟩
      · rw [if_pos (by simpa using hstate), answered_refuse]
      · rw [if_neg (by simp [hoff, hempty]), answered_accept]; rfl
  · rw [Changes.ready (.fenceOnLoss b x) hs]
    refine ⟨fun hout => ?_, fun l hb hx => ?_⟩
    · rw [setFenceOnLoss_out hout, answered_refuse]
    · rw [setFenceOnLoss, withLevel_of hb, settingOfByte_le hx, answered_accept]; rfl

/-! ### SET_LEVEL_MODE (R31 to R33, R80) -/

theorem Mode.ofByte_out {b : Byte} (h : 2 < b.toNat) : Mode.ofByte b = none := by
  unfold Mode.ofByte
  rw [if_neg (by rintro rfl; exact absurd h (by decide)), if_neg (by rintro rfl; exact absurd h (by decide)),
    if_neg (by rintro rfl; exact absurd h (by decide))]

theorem setLevelMode_out {b mb : Byte} (h : b.toNat < 1 ∨ 32 < b.toNat ∨ 2 < mb.toNat) (s : State) :
    setLevelMode b mb s = .refuse .outOfRange := by
  rcases or_assoc.mpr h with h | h
  · exact withLevel_out h _
  · exact withLevel_refuse (fun l => by rw [Mode.ofByte_out h]) b

theorem setLevelMode_unmapped {b mb : Byte} {l : Level} {s : State} (hb : b.toNat = l.val + 1) (h1 : 1 ≤ mb.toNat)
    (h2 : mb.toNat ≤ 2) (hs : s.stopOf l = none) : setLevelMode b mb s = .refuse .unmapped := by
  rw [setLevelMode, withLevel_of hb]
  rcases (by omega : mb.toNat = 1 ∨ mb.toNat = 2) with h | h
  all_goals
    rw [byte_eq (by decide) h]
    exact if_pos ⟨by decide, hs⟩

/-- The change that an accepted SET_LEVEL_MODE makes, and the mode that its response carries (R33). -/
theorem setLevelMode_level {b mb : Byte} {l : Level} {s : State} {m : Mode} (hb : b.toNat = l.val + 1)
    (h : (mb = 0 ∧ m = s.modeAskedOff l) ∨ (mb = 1 ∧ m = .manual ∧ s.stopOf l ≠ none) ∨
      (mb = 2 ∧ m = .auto ∧ s.stopOf l ≠ none)) : setLevelMode b mb s = .acceptWith (s.changeMode l m) (.mode m) := by
  have hmode : ((s.changeMode l m).level l).mode = m := by rw [level_changeMode, if_pos rfl]
  have accepts : ∀ asked, Mode.ofByte mb = some asked → ¬ (asked ≠ .off ∧ s.stopOf l = none) →
      s.askMode l asked = s.changeMode l m → setLevelMode b mb s = .acceptWith (s.changeMode l m) (.mode m) := by
    intro asked hasked hmapped hchange
    rw [setLevelMode, withLevel_of hb, hasked]
    dsimp only
    rw [if_neg hmapped, hchange, hmode]
  rcases h with ⟨rfl, rfl⟩ | ⟨rfl, rfl, hs⟩ | ⟨rfl, rfl, hs⟩
  · exact accepts .off rfl (fun c => c.1 rfl) rfl
  · exact accepts .manual rfl (fun c => hs c.2) rfl
  · exact accepts .auto rfl (fun c => hs c.2) rfl

namespace State

theorem changeMode_same {s : State} {l : Level} {m : Mode} (h : m = (s.level l).mode) : s.changeMode l m = s := if_pos h.symm

theorem cause_changeMode {s : State} {l : Level} {m : Mode} (h : m ≠ (s.level l).mode) : (s.changeMode l m).cause = true := by
  rw [changeMode, if_neg (Ne.symm h)]; rfl

theorem changeMode_rest (s : State) (l : Level) (m : Mode) : s.changeMode l m = { s with
    levels := (s.changeMode l m).levels, lanes := (s.changeMode l m).lanes, claims := (s.changeMode l m).claims
    approvals := (s.changeMode l m).approvals, links := (s.changeMode l m).links, flags := (s.changeMode l m).flags
    cause := (s.changeMode l m).cause } := by
  obtain ⟨-, -, hrecords, hslots, hlifts, hentries, hstations, hlists, hopening, hunsolicited, hattention, hfresh⟩ :=
    changeMode_frame s l m
  exact eq_of_fields (kept_changeMode s l m) hrecords rfl rfl hslots rfl rfl hlifts hentries hstations hlists hopening
    hunsolicited rfl rfl hattention rfl hfresh

/-- A level that leaves AUTO has the settle times of its lanes cut short, and no other lane changes (R31). -/
theorem lane_changeMode_settle (s : State) (l : Level) (m : Mode) (k : LaneId) : (s.changeMode l m).lane k =
    if k.level = l ∧ (s.level l).mode = .auto ∧ m ≠ .auto then (s.endSettle k).lane k else s.lane k := by
  rw [lane_changeMode, lane_endSettle]
  by_cases h : k.level = l ∧ (s.level l).mode = .auto ∧ m ≠ .auto
  · simp [h]
  · rw [if_neg h, if_neg fun c => h ⟨c.1, c.2.1, c.2.2.1⟩]

/-- A level that leaves MANUAL loses its pending claim (R80). -/
theorem changeMode_leaves_manual {s : State} {l : Level} {m : Mode} (hm : m ≠ (s.level l).mode)
    (h : (s.level l).mode = .manual) : (s.changeMode l m).pendingOf l = none ∧
      ((s.pendingOf l).isSome → (s.changeMode l m).claimState l = .idle) ∧
      ∀ n, s.stopOf l = some n → (s.pendingOf l).isSome → (s.changeMode l m).link (.stop n) =
        { s.link (.stop n) with order := (s.link (.stop n)).order ++ [.refuse (overtakenBy m)] } := by
  obtain ⟨happrovals, hclaims, hlinks⟩ := claims_changeMode s l m
  have hends : (s.level l).mode = .manual ∧ m ≠ .manual := ⟨h, fun c => hm (c.trans h.symm)⟩
  refine ⟨?_, fun hp => (hclaims l).trans (if_pos ⟨hends, rfl, hp⟩), fun n hn hp =>
    (hlinks _).trans (if_pos ⟨hends, hp, congrArg (Option.map Port.stop) hn⟩)⟩
  rw [pendingOf, happrovals, if_pos hends, List.find?_eq_none]
  intro p hp
  simpa using (List.mem_filter.mp hp).2

theorem changeMode_not_manual {s : State} {l : Level} (m : Mode) (h : (s.level l).mode ≠ .manual) :
    (s.changeMode l m).claims = s.claims ∧ (s.changeMode l m).approvals = s.approvals ∧
      (s.changeMode l m).links = s.links := by
  obtain ⟨happrovals, hclaims, hlinks⟩ := claims_changeMode s l m
  simp only [h, false_and, if_false] at happrovals hclaims hlinks
  exact ⟨ext_nth hclaims, happrovals, links_ext hlinks⟩

theorem flags_changeMode_ne (s : State) (l : Level) (m : Mode) {g : Fin 41} (h : g ≠ levelGroup l) :
    nth (s.changeMode l m).flags g = nth s.flags g := by
  have hcut : ∀ (t : State) (old : Mode), nth (t.cutSettles l old).flags g = nth t.flags g := fun t old => by
    unfold cutSettles
    split
    · exact flags_foldl_lanesOf (fun u k hk => flags_endSettle_ne u k (hk ▸ h)) t
    · rfl
  unfold changeMode
  split
  · rfl
  · have hover : ∀ (t : State) (old : Mode), ((t.overtake l old m).withCause).flags = t.flags := fun t old => by simp
    rw [hover, hcut]; rfl

end State

/-- Settles O22. -/
theorem setLevelModeFollowsTheModeTable : Obligations.SetLevelModeFollowsTheModeTable := by
  intro s b mb hs
  rw [Changes.ready (.levelMode b mb) hs]
  refine ⟨fun hout => ?_, fun l hb => ⟨fun h1 h2 hnone => ?_, fun m hm => ⟨s.changeMode l m, ?_, changeMode_same,
    changeMode_rest s l m, ?_, fun k hk => ?_, lane_changeMode_settle s l m, fun hne => ⟨cause_changeMode hne,
    changeMode_leaves_manual hne⟩, changeMode_not_manual m, fun g hg => flags_changeMode_ne s l m hg⟩⟩, fun l => rfl, rfl, rfl, rfl⟩
  · rw [setLevelMode_out hout, answered_refuse]
  · rw [setLevelMode_unmapped hb h1 h2 hnone, answered_refuse]
  · rw [setLevelMode_level hb hm, answered_acceptWith]
  · rw [level_changeMode, if_pos rfl]
  · rw [level_changeMode, if_neg (Ne.symm hk)]

end Machine
end Sys2Proof
end

