-- ==== Sys2Proof/Proofs/LaneReports.lean ====
section
/-! Lane blocks, readings and reports (R27 to R31, R43, R44). -/

open Sys2Proof Sys2Proof.Machine Sys2Proof.Machine.State

namespace Sys2Proof.Machine

/-! ### CLEAR_LANE_BLOCK (R43) -/

theorem reportAgrees_of {s : State} {k : LaneId} {r : LaneReport} (hr : (s.lane k).report = some r) (hs : r.settled = true)
    (hc : r.count.val = (s.lane k).contents.length) : s.reportAgrees k = true := by
  rw [State.reportAgrees, hr]; simp [hs, hc]

theorem not_reportAgrees_of {s : State} {k : LaneId}
    (h : ∀ r, (s.lane k).report = some r → r.settled = false ∨ r.count.val ≠ (s.lane k).contents.length) :
    s.reportAgrees k = false := by
  unfold State.reportAgrees
  cases hr : (s.lane k).report with
  | none => rfl
  | some r =>
    rcases h r hr with hs | hc
    · simp [hs]
    · simp [hc]

/-- Settles O24. -/
theorem clearLaneBlockNeedsAnAgreeingReport : Obligations.ClearLaneBlockNeedsAnAgreeingReport := by
  intro s b nb hs
  rw [Changes.ready (.laneBlock b nb) hs]
  refine ⟨fun hout => ?_, fun k hb hnb => ?_⟩
  · rw [clearLaneBlock, withLane_out hout, answered_refuse]
  · rw [clearLaneBlock, withLane_of hb hnb, Answer.checked_cons, Answer.checked_cons, Answer.checked_nil]
    refine ⟨fun hfree => ?_, fun hblocked => ⟨fun hdiffers => ?_, fun r hr hsettled hcount => ?_⟩⟩
    · rw [hfree]; rfl
    all_goals rw [hblocked, if_neg (by decide)]
    · rw [not_reportAgrees_of hdiffers]; rfl
    · rw [reportAgrees_of hr hsettled hcount]; rfl

/-! ### READ_LEVEL and READ_LANE (R44) -/

theorem slotNaming_none {s : State} {k : LaneId} (h : ∀ i, (s.slot i).namesLane k = false) : s.slotNaming k = none :=
  List.find?_eq_none.mpr fun i _ => by rw [h i]; decide

theorem slotNaming_unique {s : State} {k : LaneId} {i : Fin 34} (h : (s.slot i).namesLane k = true)
    (hone : ∀ j, (s.slot j).namesLane k = true → j = i) : s.slotNaming k = some i := by
  obtain ⟨j, hj⟩ : ∃ j, s.slotNaming k = some j :=
    Option.isSome_iff_exists.mp (List.find?_isSome.mpr ⟨i, List.mem_finRange i, h⟩)
  rw [hj, hone j (List.find?_some (p := fun j => (s.slot j).namesLane k) hj)]

/-- Settles O26. -/
theorem readLevelAndReadLane : Obligations.ReadLevelAndReadLane := by
  intro s b nb hs
  rw [Reads.ready (.level b) hs, Reads.ready (.lane b nb) hs]
  refine ⟨fun hout => ?_, fun hout => ?_, fun l hb => ?_, fun k hb hnb =>
    ⟨(s.slotNaming k).map s.numberOf, ?_, fun hnone => ?_, fun i hi hone => ?_⟩⟩
  · rw [readLevel, withLevel_out hout, answered_refuse]
  · rw [readLane, withLane_out hout, answered_refuse]
  · rw [readLevel, withLevel_of hb, answered_reply]
  · rw [readLane, withLane_of hb hnb, answered_reply]
  · rw [slotNaming_none hnone]; rfl
  · rw [slotNaming_unique hi hone]; rfl

namespace State

/-! ### The comparison of a lane's report (R29) -/

theorem blockLane_of_blocked {s : State} {k : LaneId} (h : (s.lane k).condition.isBlocked = true) (why : BlockReason) :
    s.blockLane k why = s := by
  unfold blockLane
  cases hc : (s.lane k).condition with
  | blocked w => rfl
  | clear => rw [hc] at h; cases h
  | settling n => rw [hc] at h; cases h
  | audit => rw [hc] at h; cases h

theorem blockLane_of_free {s : State} {k : LaneId} (h : (s.lane k).condition.isBlocked = false) (why : BlockReason) :
    s.blockLane k why = (s.modLane k fun x => { x with condition := .blocked why }).raise (.level k.level .laneBlocked) := by
  unfold blockLane
  cases hc : (s.lane k).condition with
  | blocked w => rw [hc] at h; cases h
  | clear => rfl
  | settling n => rfl
  | audit => rfl

/-- A lane's report says nothing that the comparison acts on. -/
theorem compareLane_agrees {s : State} {k : LaneId} (h : ∀ r, (s.lane k).report = some r → r.settled = false ∨ s.busy k = true ∨
    isSettling (s.lane k).condition = true ∨ r.count.val = (s.lane k).contents.length ∨
    (s.lane k).condition.isBlocked = true) : s.compareLane k = s := by
  unfold compareLane
  cases hr : (s.lane k).report with
  | none => rfl
  | some r =>
    dsimp only
    rcases h r hr with hs | hb | hc | hn | hblocked
    · simp [hs]
    · simp [hb]
    · simp [hc]
    · simp [hn]
    · rw [blockLane_of_blocked hblocked, ite_self]

/-- A settled report of another count blocks a lane that is neither busy nor SETTLING nor BLOCKED. -/
theorem compareLane_differs {s : State} {k : LaneId} {r : LaneReport} (hr : (s.lane k).report = some r)
    (hs : r.settled = true) (hb : s.busy k = false) (hc : isSettling (s.lane k).condition = false)
    (hfree : (s.lane k).condition.isBlocked = false) (hn : r.count.val ≠ (s.lane k).contents.length) : s.compareLane k =
      (s.modLane k fun x => { x with condition := .blocked .unexpectedChange }).raise (.level k.level .laneBlocked) := by
  unfold compareLane
  rw [hr]
  dsimp only
  rw [if_pos (by simp [hs, hb, hc, hn]), blockLane_of_free hfree]

theorem modLane_modLane (s : State) (k : LaneId) (f g : Lane → Lane) :
    (s.modLane k f).modLane k g = s.modLane k fun x => g (f x) := by
  have : upd (upd s.lanes k.ix f) k.ix g = upd s.lanes k.ix fun x => g (f x) := by simp [upd, nth]
  exact congrArg (fun v => { s with lanes := v }) this

/-! ### Lane reports (R28) -/

theorem reportFrom_spare {s : State} {n : Stop} (h : s.levelAt n = none) (x : LaneName) (r : LaneReport) :
    s.reportFrom n x r = s := by rw [reportFrom, h]

theorem reportFrom_level {s : State} {n : Stop} {l : Level} (h : s.levelAt n = some l) (x : LaneName) (r : LaneReport) :
    s.reportFrom n x r = s.takeLaneReport { level := l, name := x } r := by rw [reportFrom, h]

/-- The latest report of a lane is stored, and nothing else (R28). -/
def stored (s : State) (k : LaneId) (r : LaneReport) : State := s.modLane k fun x => { x with report := some r }

theorem takeLaneReport_eq (s : State) (k : LaneId) (r : LaneReport) :
    s.takeLaneReport k r = (s.stored k r).judgeReport k r := rfl

theorem lane_stored (s : State) (k : LaneId) (r : LaneReport) : (s.stored k r).lane k = { s.lane k with report := some r } :=
  (lane_modLane ..).trans (if_pos rfl)

theorem slotNaming_stored (s : State) (k : LaneId) (r : LaneReport) : (s.stored k r).slotNaming k = s.slotNaming k := rfl

theorem busy_stored (s : State) (k : LaneId) (r : LaneReport) : (s.stored k r).busy k = s.busy k := rfl

theorem takeLaneReport_named {s : State} {k : LaneId} {i : Fin 34} (h : s.slotNaming k = some i) (r : LaneReport) :
    s.takeLaneReport k r = (s.stored k r).judgeLane i r := by
  rw [takeLaneReport_eq, judgeReport, slotNaming_stored, h]

theorem takeLaneReport_unnamed {s : State} {k : LaneId} (h : s.slotNaming k = none) (r : LaneReport) :
    s.takeLaneReport k r = (s.stored k r).compareLane k := by
  rw [takeLaneReport_eq, judgeReport, slotNaming_stored, h]

theorem isSettling_iff {c : Condition} : isSettling c = true ↔ ∃ m, c = .settling m := by
  cases c <;> simp [isSettling]

/-- A report that the contents bear out, or that is not to be compared, is stored and no more (R29). -/
theorem compareLane_stored_agrees {s : State} {k : LaneId} {r : LaneReport}
    (h : r.settled = false ∨ (∃ m, (s.lane k).condition = .settling m) ∨ r.count.val = (s.lane k).contents.length ∨
      (s.lane k).condition.isBlocked) : (s.stored k r).compareLane k = s.stored k r := by
  rw [← isSettling_iff] at h
  refine compareLane_agrees fun q hq => ?_
  rw [lane_stored] at hq ⊢
  obtain rfl : r = q := by simpa using hq
  exact h.imp_right .inr

/-- A settled report of another count blocks the lane (R27, R29). -/
theorem compareLane_stored_differs {s : State} {k : LaneId} {r : LaneReport} (hfree : s.slotNaming k = none)
    (hs : r.settled = true) (hc : (s.lane k).condition = .clear ∨ (s.lane k).condition = .audit)
    (hn : r.count.val ≠ (s.lane k).contents.length) : (s.stored k r).compareLane k =
      (s.modLane k fun x => { x with report := some r, condition := .blocked .unexpectedChange }).raise
        (.level k.level .laneBlocked) := by
  have hidle : (s.stored k r).busy k = false := by rw [busy_stored, busy, hfree]; rfl
  have hcondition : isSettling (s.lane k).condition = false ∧ (s.lane k).condition.isBlocked = false := by
    rcases hc with h | h <;> rw [h] <;> exact ⟨rfl, rfl⟩
  rw [compareLane_differs (r := r) (by rw [lane_stored]) hs hidle (by rw [lane_stored]; exact hcondition.1)
    (by rw [lane_stored]; exact hcondition.2) (by rw [lane_stored]; exact hn), stored, modLane_modLane]

/-! ### The end of a settle time (R31) -/

/-- A lane is CLEAR again, before its latest report is compared (R31). -/
def cleared (s : State) (k : LaneId) : State := s.modLane k fun x => { x with condition := .clear }

theorem lane_cleared (s : State) (k : LaneId) : (s.cleared k).lane k = { s.lane k with condition := .clear } :=
  (lane_modLane ..).trans (if_pos rfl)

theorem busy_cleared (s : State) (k : LaneId) : (s.cleared k).busy k = s.busy k := rfl

theorem endSettle_of_settling {s : State} {k : LaneId} {m : Nat} (h : (s.lane k).condition = .settling m) :
    s.endSettle k = ((s.cleared k).compareLane k).withCause := by rw [endSettle, h]; rfl

theorem compareLane_cleared_agrees {s : State} {k : LaneId}
    (h : s.busy k ∨ ∀ r, (s.lane k).report = some r → r.settled = false ∨ r.count.val = (s.lane k).contents.length) :
    (s.cleared k).compareLane k = s.cleared k := by
  refine compareLane_agrees fun r hr => ?_
  rw [lane_cleared] at hr ⊢
  rw [busy_cleared]
  rcases h with hb | h
  · exact .inr (.inl hb)
  · exact (h r hr).imp_right fun hn => .inr (.inr (.inl hn))

theorem compareLane_cleared_differs {s : State} {k : LaneId} {r : LaneReport} (hb : s.busy k = false)
    (hr : (s.lane k).report = some r) (hs : r.settled = true) (hn : r.count.val ≠ (s.lane k).contents.length) :
    (s.cleared k).compareLane k =
      (s.modLane k fun x => { x with condition := .blocked .unexpectedChange }).raise (.level k.level .laneBlocked) := by
  rw [compareLane_differs (r := r) (by rw [lane_cleared]; exact hr) hs (by rw [busy_cleared]; exact hb)
    (by rw [lane_cleared]; rfl) (by rw [lane_cleared]; rfl) (by rw [lane_cleared]; exact hn), cleared, modLane_modLane]

end State

/-- Settles O25: a report is stored, and the comparison then acts on it as R29 says. -/
theorem laneReportsAndSettleTimes : Obligations.LaneReportsAndSettleTimes := by
  refine ⟨⟨fun s n x r hs => ?_, fun s n a b c d hs => ?_, fun s n x r hspare => reportFrom_spare hspare x r,
    fun s n l x r hl => ?_⟩, fun s k hs => ⟨?_, endSettle_of_not s k, fun m hm => ⟨fun hagrees => ?_, fun r hb hr hset hn => ?_⟩⟩⟩
  · rw [(Frames.laneState n x r).exec_eq, frame_out hs]
  · rw [(Frames.beacon n a b c d).exec_eq, frame_out hs]
  · dsimp only
    rw [reportFrom_level hl]
    refine ⟨fun i hi => takeLaneReport_named hi r, fun hnone => ?_⟩
    rw [takeLaneReport_unnamed hnone]
    exact ⟨compareLane_stored_agrees, compareLane_stored_differs hnone⟩
  · rw [(Events.settle k).exec_eq, event_out hs]
  · rw [endSettle_of_settling hm, compareLane_cleared_agrees hagrees]; rfl
  · rw [endSettle_of_settling hm, compareLane_cleared_differs hb hr hset hn]; rfl

end Sys2Proof.Machine
end

