-- ==== Sys2Proof/Proofs/Audits.lean ====
section
/-! Audits: START_AUDIT, the scan that ends an audit and the time that does (R39 to R42; log 4). -/

open Sys2Proof Sys2Proof.Machine Sys2Proof.Machine.State

namespace Sys2Proof.Machine

/-! ### START_AUDIT (R40) -/

theorem LinkStatus.isUp_iff {x : LinkStatus} : x.isUp = true ↔ ∃ m, x = .up m := by cases x <;> simp [LinkStatus.isUp]

theorem Condition.audited_of_blocked {c : Condition} (h : c.isBlocked = true) : c.audited = c := by
  cases c with
  | blocked w => rfl
  | clear => cases h
  | settling n => cases h
  | audit => cases h

theorem Condition.audited_of_free {c : Condition} (h : c.isBlocked = false) : c.audited = .audit := by
  cases c with
  | blocked w => cases h
  | clear => rfl
  | settling n => rfl
  | audit => rfl

theorem startAudit_unmapped {b : Byte} {l : Level} {s : State} (hb : b.toNat = l.val + 1) (h : s.stopOf l = none) :
    startAudit b s = .refuse .unmapped := by rw [startAudit, withLevel_of hb, h]

theorem startAudit_mapped {b : Byte} {l : Level} {n : Stop} {s : State} (hb : b.toNat = l.val + 1)
    (h : s.stopOf l = some n) : startAudit b s =
      if !(s.link (.stop n)).status.isUp || s.levelTouched l || (s.level l).mode == .draining || (s.level l).scan.isSome
      then .refuse .busy else .accept (s.beginAudit l) := by rw [startAudit, withLevel_of hb, h]

theorem mayNotAudit_iff (s : State) (l : Level) (n : Stop) :
    (!(s.link (.stop n)).status.isUp || s.levelTouched l || (s.level l).mode == .draining || (s.level l).scan.isSome) = true ↔
      (∀ m, (s.link (.stop n)).status ≠ .up m) ∨ s.levelTouched l ∨ (s.level l).mode = .draining ∨
        (s.level l).scan.isSome := by
  have hup : (!(s.link (.stop n)).status.isUp) = true ↔ ∀ m, (s.link (.stop n)).status ≠ .up m := by
    rw [Bool.not_eq_true', ← Bool.not_eq_true, LinkStatus.isUp_iff, not_exists]
  rw [Bool.or_eq_true, Bool.or_eq_true, Bool.or_eq_true, hup, beq_iff_eq, or_assoc, or_assoc]

namespace State

theorem lane_joinAudit (s : State) (a k : LaneId) : (s.joinAudit a).lane k =
    if a = k then { s.lane k with condition := (s.lane k).condition.audited } else s.lane k := lane_modLane ..

theorem lane_beginAudit (s : State) (l : Level) (k : LaneId) : (s.beginAudit l).lane k =
    if k.level = l then { s.lane k with condition := (s.lane k).condition.audited } else s.lane k := by
  have hlanes : (s.beginAudit l).lanes = ((lanesOf l).foldl joinAudit s).lanes := by unfold beginAudit; simp
  rw [lane_of_lanes hlanes]
  exact lane_foldl_lanesOf (g := fun _ x => { x with condition := x.condition.audited }) lane_joinAudit s l k

theorem level_beginAudit (s : State) (l k : Level) : (s.beginAudit l).level k =
    if l = k then { s.level k with scan := some s.settings.params.scanLimit } else s.level k := by
  have hlevels : (s.beginAudit l).levels =
      (((lanesOf l).foldl joinAudit s).modLevel l fun x => { x with scan := some s.settings.params.scanLimit }).levels := by
    unfold beginAudit; simp
  have hjoined : ((lanesOf l).foldl joinAudit s).level k = s.level k := level_of_levels (by simp) k
  rw [level_of_levels hlevels, level_modLevel, hjoined]

theorem link_beginAudit {s : State} {l : Level} {n : Stop} (hn : s.stopOf l = some n) (p : Port) :
    (s.beginAudit l).link p = if Port.stop n = p then { s.link p with order := (s.link p).order ++ [.auditRequest] }
      else s.link p := by
  unfold beginAudit
  have hlinks : (((lanesOf l).foldl joinAudit s).modLevel l fun x =>
      { x with scan := some s.settings.params.scanLimit }).link p = s.link p := link_of_links (by simp) p
  have hstop : (((lanesOf l).foldl joinAudit s).modLevel l fun x =>
      { x with scan := some s.settings.params.scanLimit }).stopOf l = some n := (stopOf_of_settings (by simp) l).trans hn
  rw [link_sendLevel, hlinks, hstop]
  exact if_congr (by simp) rfl rfl

theorem beginAudit_rest (s : State) (l : Level) : s.beginAudit l = { s with
    lanes := (s.beginAudit l).lanes, levels := (s.beginAudit l).levels, links := (s.beginAudit l).links } := by
  obtain ⟨-, -, hrecords, hslots, hclaims, happrovals, hlifts, hentries, hstations, hlists, hopening, hunsolicited, hflags,
    hattention, hcause, hfresh⟩ := beginAudit_frame s l
  exact eq_of_fields (kept_beginAudit s l) hrecords rfl rfl hslots hclaims happrovals hlifts hentries hstations hlists
    hopening hunsolicited rfl hflags hattention hcause hfresh

end State

theorem startAudit_begins {s : State} (hs : s.ready) {b : Byte} {l : Level} (hb : b.toNat = l.val + 1) {n : Stop}
    (hn : s.stopOf l = some n) (hup : ∃ m, (s.link (.stop n)).status = .up m) (hfree : s.levelTouched l = false)
    (hmode : (s.level l).mode ≠ .draining) (hscan : (s.level l).scan = none) :
    exec (.startAudit b) s = .next (s.doneWith (s.beginAudit l) .empty) := by
  rw [Changes.ready (.audit b) hs, startAudit_mapped hb hn, if_neg (mt (mayNotAudit_iff s l n).mp ?_), answered_accept]
  rintro (hdown | htouched | hdraining | hrunning)
  · obtain ⟨m, hm⟩ := hup; exact hdown m hm
  · rw [hfree] at htouched; cases htouched
  · exact hmode hdraining
  · rw [hscan] at hrunning; cases hrunning

/-! ### A lane at the end of an audit (R41, R42) -/

/-- What a scan makes of a lane by R41's table: a lane in AUDIT is CLEAR or BLOCKED, a BLOCKED lane has its discrepancy written, and
any other lane takes no part (log 15). -/
def Lane.scanned (x : Lane) (scan : List Ident) : Lane :=
  match x.condition with
  | .audit => if scan = x.contents then { x with condition := .clear, discrepancy := none }
    else { x with condition := .blocked .auditMismatch, discrepancy := some scan }
  | .blocked _ => { x with discrepancy := if scan = x.contents then none else some scan }
  | .clear => x
  | .settling _ => x

namespace Lane

variable {x : Lane} {scan : List Ident}

theorem scanned_match (h : x.condition = .audit) (hs : scan = x.contents) :
    x.scanned scan = { x with condition := .clear, discrepancy := none } := by unfold scanned; rw [h]; exact if_pos hs

theorem scanned_mismatch (h : x.condition = .audit) (hs : scan ≠ x.contents) :
    x.scanned scan = { x with condition := .blocked .auditMismatch, discrepancy := some scan } := by
  unfold scanned; rw [h]; exact if_neg hs

theorem scanned_blocked (h : x.condition.isBlocked = true) :
    x.scanned scan = { x with discrepancy := if scan = x.contents then none else some scan } := by
  unfold scanned
  cases hc : x.condition with
  | blocked w => rfl
  | clear => rw [hc] at h; cases h
  | settling n => rw [hc] at h; cases h
  | audit => rw [hc] at h; cases h

/-- A lane whose audit runs out of time (R42). -/
def timedOut (x : Lane) : Lane := if x.condition = .audit then { x with condition := .blocked .scanTimeout } else x

theorem timedOut_audit (h : x.condition = .audit) : x.timedOut = { x with condition := .blocked .scanTimeout } := if_pos h

theorem timedOut_other (h : x.condition ≠ .audit) : x.timedOut = x := if_neg h

end Lane

namespace State

theorem lane_settleScan (s : State) (a k : LaneId) (scan : List Ident) : (s.settleScan a scan).lane k =
    if a = k then (s.lane k).scanned scan else s.lane k := by
  by_cases hk : a = k
  · subst hk
    rw [if_pos rfl]
    unfold settleScan Lane.scanned
    cases hc : (s.lane a).condition with
    | audit =>
      dsimp only
      split
      · rw [lane_modLane, if_pos rfl]
      · rw [lane_modLane, if_pos rfl, lane_blockLane, if_pos ⟨rfl, by rw [hc]; rfl⟩]
    | blocked w => dsimp only; rw [lane_modLane, if_pos rfl, hc]
    | clear => rfl
    | settling n => rfl
  · rw [if_neg hk]
    unfold settleScan
    split
    · split
      · rw [lane_modLane, if_neg hk]
      · rw [lane_modLane, if_neg hk, lane_blockLane, if_neg fun c => hk c.1]
    · rw [lane_modLane, if_neg hk]
    · rfl
    · rfl

theorem lane_timeOutLane (s : State) (a k : LaneId) : (s.timeOutLane a).lane k =
    if a = k then (s.lane k).timedOut else s.lane k := by
  unfold timeOutLane Lane.timedOut
  by_cases hk : a = k
  · subst hk
    rw [if_pos rfl]
    split
    · next hc => rw [lane_blockLane, if_pos ⟨rfl, by rw [hc]; rfl⟩]
    · rfl
  · rw [if_neg hk]
    split
    · rw [lane_blockLane, if_neg fun c => hk c.1]
    · rfl

theorem flags_settleScan_ne (s : State) (k : LaneId) (scan : List Ident) {g : Fin 41} (h : g ≠ levelGroup k.level) :
    nth (s.settleScan k scan).flags g = nth s.flags g := by
  unfold settleScan
  repeat' split
  · rfl
  · exact flags_blockLane_ne s k .auditMismatch h
  all_goals rfl

theorem flags_timeOutLane_ne (s : State) (k : LaneId) {g : Fin 41} (h : g ≠ levelGroup k.level) :
    nth (s.timeOutLane k).flags g = nth s.flags g := by
  unfold timeOutLane
  split
  · exact flags_blockLane_ne s k .scanTimeout h
  · rfl

/-- An operation that leaves every lane as BLOCKED or not as it was, and every flag, raises nothing. -/
theorem raises.of_blocked {s t : State} (hc : ∀ k, (t.lane k).condition.isBlocked = (s.lane k).condition.isBlocked)
    (hf : t.flags = s.flags) : raises s t fun _ => False := by
  refine ⟨fun k h => (hc k).trans h, fun g => ?_⟩
  rw [raised_congr hf]
  refine ⟨.inl, ?_⟩
  rintro (h | ⟨k, _, hblocked, hfree⟩ | h)
  · exact h
  · rw [hc, hfree] at hblocked; cases hblocked
  · exact h.elim

/-- A change of one lane that leaves it as BLOCKED or not as it was raises nothing. -/
theorem raises_modLane {s : State} {k : LaneId} {f : Lane → Lane}
    (h : (f (s.lane k)).condition.isBlocked = (s.lane k).condition.isBlocked) : raises s (s.modLane k f) fun _ => False := by
  refine raises.of_blocked (fun j => ?_) rfl
  rw [lane_modLane]
  split
  · next hj => subst hj; exact h
  · rfl

theorem raises_settleScan (s : State) (k : LaneId) (scan : List Ident) : raises s (s.settleScan k scan) fun _ => False := by
  unfold settleScan
  split
  · next hc =>
    split
    · exact raises_modLane (by rw [hc]; rfl)
    · exact ((raises_blockLane s k .auditMismatch).trans (raises_modLane rfl)).congr fun g => by simp
  · exact raises_modLane rfl
  · exact raises.of_eq rfl rfl
  · exact raises.of_eq rfl rfl

theorem raises_timeOutLane (s : State) (k : LaneId) : raises s (s.timeOutLane k) fun _ => False := by
  unfold timeOutLane
  split
  · exact raises_blockLane ..
  · exact raises.of_eq rfl rfl

/-! ### The end of an audit (R41, R42) -/

/-- The lanes of a level are settled by its scan, before the audit ends (R41). -/
def scannedLanes (s : State) (l : Level) (scan : Scan) : State :=
  (lanesOf l).foldl (fun t k => t.settleScan k ((scannedIn scan k.name).map s.correct)) s

/-- The lanes of a level are blocked by the time, before the audit ends (R42). -/
def timedOutLanes (s : State) (l : Level) : State := (lanesOf l).foldl timeOutLane s

section
variable {s : State} {l : Level}

theorem takeScan_of_none (h : (s.level l).scan = none) (x : Scan) : s.takeScan l x = s := if_pos (by rw [h]; rfl)

theorem timeOutAudit_of_none (h : (s.level l).scan = none) : s.timeOutAudit l = s := if_pos (by rw [h]; rfl)

theorem takeScan_of_some (h : (s.level l).scan.isSome) (x : Scan) : s.takeScan l x = (s.scannedLanes l x).endAudit l := by
  rw [takeScan, if_neg (by simp [Option.isSome_iff_ne_none.mp h])]; rfl

theorem timeOutAudit_of_some (h : (s.level l).scan.isSome) : s.timeOutAudit l = (s.timedOutLanes l).endAudit l := by
  rw [timeOutAudit, if_neg (by simp [Option.isSome_iff_ne_none.mp h])]; rfl

end

theorem lane_scannedLanes (s : State) (l : Level) (x : Scan) (k : LaneId) : (s.scannedLanes l x).lane k =
    if k.level = l then (s.lane k).scanned ((scannedIn x k.name).map s.correct) else s.lane k :=
  lane_foldl_lanesOf (op := fun t k => t.settleScan k ((scannedIn x k.name).map s.correct))
    (g := fun k y => y.scanned ((scannedIn x k.name).map s.correct))
    (fun t a k => by rw [lane_settleScan]; by_cases hk : a = k <;> simp [hk]) s l k

theorem lane_timedOutLanes (s : State) (l : Level) (k : LaneId) : (s.timedOutLanes l).lane k =
    if k.level = l then (s.lane k).timedOut else s.lane k :=
  lane_foldl_lanesOf (g := fun _ y => y.timedOut) lane_timeOutLane s l k

theorem scannedLanes_rest (s : State) (l : Level) (x : Scan) :
    s.scannedLanes l x = { s with lanes := (s.scannedLanes l x).lanes, flags := (s.scannedLanes l x).flags } := by
  unfold scannedLanes
  refine eq_of_fields (kept_foldl _ (fun _ _ => kept_settleScan ..) _ _) ?_ rfl ?_ ?_ ?_ ?_ ?_ ?_ ?_ ?_ ?_ ?_ ?_ rfl ?_ ?_ ?_
  all_goals simp

theorem timedOutLanes_rest (s : State) (l : Level) :
    s.timedOutLanes l = { s with lanes := (s.timedOutLanes l).lanes, flags := (s.timedOutLanes l).flags } := by
  unfold timedOutLanes
  refine eq_of_fields (kept_foldl _ (fun _ _ => kept_timeOutLane ..) _ _) ?_ rfl ?_ ?_ ?_ ?_ ?_ ?_ ?_ ?_ ?_ ?_ ?_ rfl ?_ ?_ ?_
  all_goals simp

theorem lane_endAudit (s : State) (l : Level) (k : LaneId) : (s.endAudit l).lane k = s.lane k := rfl

/-- An audit that ends after its lanes have been settled changes those lanes, the level's scan timer and flags of the level's group,
AUDIT_DONE among them, and raises a cause (R41, R42). -/
theorem endAudit_settled {s t : State} {l : Level} (hrest : t = { s with lanes := t.lanes, flags := t.flags })
    (hflags : ∀ g, g ≠ levelGroup l → nth t.flags g = nth s.flags g) (hlanes : ∀ k : LaneId, k.level ≠ l → t.lane k = s.lane k) :
    t.endAudit l = { s with
      lanes := (t.endAudit l).lanes, levels := (t.endAudit l).levels, flags := (t.endAudit l).flags, cause := true } ∧
    (t.endAudit l).level l = { s.level l with scan := none } ∧ (∀ k, k ≠ l → (t.endAudit l).level k = s.level k) ∧
    (t.endAudit l).raised (.level l .auditDone) = true ∧
    (∀ g, g ≠ levelGroup l → nth (t.endAudit l).flags g = nth s.flags g) ∧
    (∀ k : LaneId, k.level ≠ l → (t.endAudit l).lane k = s.lane k) := by
  obtain ⟨lanes, flags, rfl⟩ : ∃ lanes flags, t = { s with lanes := lanes, flags := flags } := ⟨_, _, hrest⟩
  refine ⟨rfl, (level_modLevel ..).trans (if_pos rfl), fun k hk => (level_modLevel ..).trans (if_neg (Ne.symm hk)),
    raised_raise_self .., fun g hg => ?_, hlanes⟩
  exact (flags_raise_ne _ _ _ (Ne.symm hg)).trans (hflags g hg)

/-- A lane that the settling of its level's lanes blocks has LANE_BLOCKED raised when the audit has ended (R27). -/
theorem raised_laneBlocked_endAudit {s t : State} {l : Level} {also : Flag → Prop} (h : raises s t also) {k : LaneId}
    (hs : (s.lane k).condition.isBlocked = false) (ht : (t.lane k).condition.isBlocked = true) :
    (t.endAudit l).raised (.level k.level .laneBlocked) = true := by
  have hraised : t.raised (.level k.level .laneBlocked) = true := (h.raised _).mpr (.inr (.inl ⟨k, rfl, ht, hs⟩))
  exact raised_raise (s := t.modLevel l _) _ (raised_of_flags (t := t) rfl hraised)

theorem raises_scannedLanes (s : State) (l : Level) (x : Scan) : raises s (s.scannedLanes l x) fun _ => False :=
  (raises.foldl (inv := fun _ => True) (fun t k _ => ⟨trivial, raises_settleScan t k _⟩) (lanesOf l) trivial).congr (by simp)

theorem raises_timedOutLanes (s : State) (l : Level) : raises s (s.timedOutLanes l) fun _ => False :=
  (raises.foldl (inv := fun _ => True) (fun t k _ => ⟨trivial, raises_timeOutLane t k⟩) (lanesOf l) trivial).congr (by simp)

theorem levelAt_takeValid (s : State) (p : Port) (n : Stop) : (s.takeValid p).levelAt n = s.levelAt n := by
  unfold levelAt stopOf; rw [(takeValid_frame s p).1]

/-- The scan of a lane's level, as it settles that lane (R41). -/
theorem lane_takeScan {s : State} {k : LaneId} (h : (s.level k.level).scan.isSome) (x : Scan) :
    (s.takeScan k.level x).lane k = (s.lane k).scanned ((scannedIn x k.name).map s.correct) := by
  rw [takeScan_of_some h, lane_endAudit, lane_scannedLanes, if_pos rfl]

/-- R41's table, for a lane of the level whose scan is taken. -/
theorem takeScan_settles {s : State} {k : LaneId} {x : Scan} (h : (s.level k.level).scan.isSome) {scan : List Ident}
    (hscan : scan = (scannedIn x k.name).map s.correct) :
    ((s.lane k).condition = .audit → scan = (s.lane k).contents →
      (s.takeScan k.level x).lane k = { s.lane k with condition := .clear, discrepancy := none }) ∧
    ((s.lane k).condition = .audit → scan ≠ (s.lane k).contents →
      (s.takeScan k.level x).lane k = { s.lane k with condition := .blocked .auditMismatch, discrepancy := some scan } ∧
      (s.takeScan k.level x).raised (.level k.level .laneBlocked) = true) ∧
    ((s.lane k).condition.isBlocked → (s.takeScan k.level x).lane k =
      { s.lane k with discrepancy := if scan = (s.lane k).contents then none else some scan }) := by
  have hlane : (s.takeScan k.level x).lane k = (s.lane k).scanned scan := hscan ▸ lane_takeScan h x
  refine ⟨fun hc heq => hlane.trans (Lane.scanned_match hc heq), fun hc hne => ?_,
    fun hblocked => hlane.trans (Lane.scanned_blocked hblocked)⟩
  have hblocked : ((s.scannedLanes k.level x).lane k).condition.isBlocked = true := by
    rw [lane_scannedLanes, if_pos rfl, ← hscan, Lane.scanned_mismatch hc hne, Condition.isBlocked]
  refine ⟨hlane.trans (Lane.scanned_mismatch hc hne), ?_⟩
  rw [takeScan_of_some h]
  exact raised_laneBlocked_endAudit (raises_scannedLanes s k.level x) (by rw [hc, Condition.isBlocked]) hblocked

theorem lane_timeOutAudit {s : State} {k : LaneId} (h : (s.level k.level).scan.isSome) :
    (s.timeOutAudit k.level).lane k = (s.lane k).timedOut := by
  rw [timeOutAudit_of_some h, lane_endAudit, lane_timedOutLanes, if_pos rfl]

/-- A lane still in AUDIT when the time ends the audit is BLOCKED SCAN_TIMEOUT, and no other lane changes (R42). -/
theorem timeOutAudit_blocks {s : State} {k : LaneId} (h : (s.level k.level).scan.isSome) :
    ((s.lane k).condition = .audit → (s.timeOutAudit k.level).lane k =
      { s.lane k with condition := .blocked .scanTimeout } ∧
      (s.timeOutAudit k.level).raised (.level k.level .laneBlocked) = true) ∧
    ((s.lane k).condition ≠ .audit → (s.timeOutAudit k.level).lane k = s.lane k) := by
  refine ⟨fun hc => ?_, fun hc => by rw [lane_timeOutAudit h, Lane.timedOut_other hc]⟩
  have hblocked : ((s.timedOutLanes k.level).lane k).condition.isBlocked = true := by
    rw [lane_timedOutLanes, if_pos rfl, Lane.timedOut_audit hc, Condition.isBlocked]
  refine ⟨by rw [lane_timeOutAudit h, Lane.timedOut_audit hc], ?_⟩
  rw [timeOutAudit_of_some h]
  exact raised_laneBlocked_endAudit (raises_timedOutLanes s k.level) (by rw [hc, Condition.isBlocked]) hblocked

end State

/-- An audit ends by its scan or by its time with the same effect besides its lanes (R41, R42). -/
theorem audit_ends {s u : State} {l : Level} {x : Scan} (h : (s.level l).scan.isSome)
    (hu : u = s.takeScan l x ∨ u = s.timeOutAudit l) :
    u = { s with lanes := u.lanes, levels := u.levels, flags := u.flags, cause := true } ∧
    u.level l = { s.level l with scan := none } ∧ (∀ k, k ≠ l → u.level k = s.level k) ∧
    u.raised (.level l .auditDone) = true ∧ (∀ g, g ≠ levelGroup l → nth u.flags g = nth s.flags g) ∧
    (∀ k : LaneId, k.level ≠ l → u.lane k = s.lane k) := by
  rcases hu with rfl | rfl
  · rw [takeScan_of_some h]
    exact endAudit_settled (scannedLanes_rest s l x)
      (fun g hg => flags_foldl_lanesOf (fun t k hk => flags_settleScan_ne t k _ (hk ▸ hg)) s)
      fun k hk => (lane_scannedLanes ..).trans (if_neg hk)
  · rw [timeOutAudit_of_some h]
    exact endAudit_settled (timedOutLanes_rest s l)
      (fun g hg => flags_foldl_lanesOf (fun t k hk => flags_timeOutLane_ne t k (hk ▸ hg)) s)
      fun k hk => (lane_timedOutLanes ..).trans (if_neg hk)

/-- Settles O23. -/
theorem auditsStartAndEnd : Obligations.AuditsStartAndEnd := by
  refine ⟨fun s b hs => ⟨fun hout => ?_, fun l hb => ⟨fun hnone => ?_, fun n hn => ⟨fun hbusy => ?_,
    fun hup hfree hmode hscan => ⟨s.beginAudit l, startAudit_begins hs hb hn hup hfree hmode hscan, beginAudit_rest s l,
      fun k hk => ?_, fun k hk hblocked => ?_, fun k hk hopen => ?_, ?_, fun k hk => ?_, ?_, fun p hp => ?_⟩⟩⟩⟩,
    fun s l x hnone => ⟨takeScan_of_none hnone x, timeOutAudit_of_none hnone⟩, fun s n x hs => ⟨fun hspare => ?_, fun l hl => ?_⟩,
    fun s l hs => ?_, fun s u l x h hu => audit_ends h hu, fun s k x h => ?_, fun s k h =>
      timeOutAudit_blocks h⟩
  · rw [Changes.ready (.audit b) hs, startAudit, withLevel_out hout, answered_refuse]
  · rw [Changes.ready (.audit b) hs, startAudit_unmapped hb hnone, answered_refuse]
  · rw [Changes.ready (.audit b) hs, startAudit_mapped hb hn, if_pos ((mayNotAudit_iff s l n).mpr hbusy), answered_refuse]
  · rw [lane_beginAudit, if_neg hk]
  · rw [lane_beginAudit, if_pos hk, Condition.audited_of_blocked hblocked]
  · rw [lane_beginAudit, if_pos hk, Condition.audited_of_free hopen]
  · rw [level_beginAudit, if_pos rfl]
  · rw [level_beginAudit, if_neg (Ne.symm hk)]
  · rw [link_beginAudit hn, if_pos rfl]
  · rw [link_beginAudit hn, if_neg (Ne.symm hp)]
  · rw [(Frames.auditScan n x).exec_eq, frame_out hs, levelAt_takeValid, hspare]
  · rw [(Frames.auditScan n x).exec_eq, frame_out hs, levelAt_takeValid, hl]
  · rw [(Events.scan l).exec_eq, event_out hs]
  · intro scan u
    exact takeScan_settles h (scan := scan) rfl

end Sys2Proof.Machine
end

