-- ==== Sys2Proof/Proofs/EventFlags.lean ====
section
/-! The event unit's requests and the attention line (R35, R175 to R177, R179; log 10). -/

open Sys2Proof Sys2Proof.Machine Sys2Proof.Machine.State

namespace Sys2Proof.Machine

theorem withGroup_of {b : Byte} {g : Fin 41} (h : b.toNat = g.val) (go : Fin 41 → Answer) : withGroup b go = go g := by
  rw [withGroup, groupOfByte_of h]

theorem withGroup_out {b : Byte} (h : 40 < b.toNat) (go : Fin 41 → Answer) : withGroup b go = .refuse .outOfRange := by
  rw [withGroup, groupOfByte_out h]

theorem levelOfGroup_levelGroup (l : Level) : levelOfGroup (levelGroup l) = some l := by
  have hl : (levelGroup l).val = l.val + 1 := rfl
  rw [levelOfGroup, dif_pos (by omega)]
  exact congrArg some (Fin.ext (Nat.add_sub_cancel ..))

theorem levelOfGroup_none {g : Fin 41} (h : ∀ l, g ≠ levelGroup l) : levelOfGroup g = none := by
  refine dif_neg fun c => h ⟨g.val - 1, by omega⟩ (Fin.ext ?_)
  show g.val = g.val - 1 + 1
  omega

namespace State

theorem clearEvents_level (s : State) (l : Level) : s.clearEvents (levelGroup l) = { s with
    flags := s.flags.set (levelGroup l).val 0, levels := s.levels.set l.val { s.level l with streak := 0 } } := by
  rw [clearEvents, levelOfGroup_levelGroup]; rfl

theorem clearEvents_other (s : State) {g : Fin 41} (h : ∀ l, g ≠ levelGroup l) :
    s.clearEvents g = { s with flags := s.flags.set g.val 0 } := by
  rw [clearEvents, levelOfGroup_none h]; rfl

/-- The attention line is up while the summary enable is on and some flag is both set and unmasked (R179). -/
theorem attentionValue_iff (s : State) : s.attentionValue = true ↔
    s.settings.summaryEnable = true ∧ ∃ g, nth s.flags g &&& nth s.settings.masks g ≠ 0 := by
  rw [attentionValue, Bool.and_eq_true, List.any_eq_true]
  simp only [List.mem_finRange, true_and, bne_iff_ne]

end State

/-- A mask with a bit that no flag of the group owns is refused (R176). -/
theorem setEventMask_refused {b m : Byte} {g : Fin 41} (h : b.toNat = g.val) (hm : m &&& ~~~(ownedBits g) ≠ 0) (s : State) :
    setEventMask b m s = .refuse .outOfRange := by
  rw [setEventMask, withGroup_of h, Answer.checked_cons, if_pos (bne_iff_ne.mpr hm)]

theorem setEventMask_written {b m : Byte} {g : Fin 41} (h : b.toNat = g.val) (hm : m &&& ~~~(ownedBits g) = 0) (s : State) :
    setEventMask b m s = .accept (s.modSettings fun x => { x with masks := upd x.masks g fun _ => m }) := by
  rw [setEventMask, withGroup_of h, Answer.checked_cons, if_neg (by simp [hm]), Answer.checked_nil]

/-- Settles O59. -/
theorem eventsAreClearedAndMasked : Obligations.EventsAreClearedAndMasked := by
  intro s b m hs
  rw [Reads.ready (.events b) hs, Changes.ready (.clearEvents b) hs, Changes.ready (.mask b m) hs,
    Changes.ready (.summaryEnable m) hs]
  refine ⟨fun hout => ⟨?_, ?_, ?_⟩, fun g hg => ⟨?_, fun l hl => ?_, fun hother => ?_, fun hbad => ?_, fun hgood => ?_⟩,
    fun hout => ?_, fun hon => ?_, fun hoff => ?_, attentionValue_iff s⟩
  · rw [readEvents, withGroup_out hout, answered_refuse]
  · rw [readClearEvents, withGroup_out hout, answered_refuse]
  · rw [setEventMask, withGroup_out hout, answered_refuse]
  · rw [readEvents, withGroup_of hg, answered_reply]; rfl
  · rw [readClearEvents, withGroup_of hg, answered_acceptWith, hl, clearEvents_level]; rfl
  · rw [readClearEvents, withGroup_of hg, answered_acceptWith, clearEvents_other s hother]; rfl
  · rw [setEventMask_refused hg hbad, answered_refuse]
  · rw [setEventMask_written hg hgood, answered_accept]; rfl
  · rw [setSummaryEnable, settingOfByte_out hout, answered_refuse]
  · rw [hon, setSummaryEnable, settingOfByte_zero, answered_accept]; rfl
  · rw [hoff]; rfl

end Sys2Proof.Machine
end

