-- ==== Sys2Proof/Proofs/Grants.lean ====
section
/-! The grant of a transfer (R25, R46 to R49, R86, R94). -/

open Sys2Proof Sys2Proof.Machine Sys2Proof.Machine.State

namespace Sys2Proof.Machine

/-! ### The lane and the carriage that a transfer names (R47) -/

theorem Taker.isLane_of_lane {t : Taker} {k : LaneId} (h : t = .lane k) : t.isLane = true := by rw [h]; rfl

theorem Taker.isCarriage_of_carriage {t : Taker} {x : Side} (h : t = .carriage x) : t.isCarriage = true := by rw [h]; rfl

theorem laneNamed_giver {g : Giver} {k : LaneId} (h : g = .lane k) (t : Taker) : laneNamed g t = some k := by rw [h]; rfl

theorem laneNamed_taker {g : Giver} {t : Taker} {k : LaneId} (hg : ∀ j, g ≠ .lane j) (h : t = .lane k) :
    laneNamed g t = some k := by
  subst h
  cases g with
  | lane j => exact absurd rfl (hg j)
  | carriage x => rfl
  | entry x => rfl
  | rack l => rfl

theorem laneNamed_none {g : Giver} {t : Taker} (hg : ∀ j, g ≠ .lane j) (ht : t.isLane = false) : laneNamed g t = none := by
  cases g with
  | lane j => exact absurd rfl (hg j)
  | carriage x | entry x | rack x =>
    cases t with
    | lane k => cases ht
    | carriage y => rfl
    | shuttle => rfl
    | exit => rfl

theorem carriageNamed_giver {g : Giver} {x : Side} (h : g = .carriage x) (t : Taker) : carriageNamed g t = some x := by
  rw [h]; rfl

theorem carriageNamed_taker {g : Giver} {t : Taker} {x : Side} (hg : ∀ y, g ≠ .carriage y) (h : t = .carriage x) :
    carriageNamed g t = some x := by
  subst h
  cases g with
  | carriage y => exact absurd rfl (hg y)
  | lane k => rfl
  | entry y => rfl
  | rack l => rfl

theorem carriageNamed_none {g : Giver} {t : Taker} (hg : ∀ y, g ≠ .carriage y) (ht : t.isCarriage = false) :
    carriageNamed g t = none := by
  cases g with
  | carriage y => exact absurd rfl (hg y)
  | lane x | entry x | rack x =>
    cases t with
    | carriage y => cases ht
    | lane k => rfl
    | shuttle => rfl
    | exit => rfl

/-- The motion limit of a kind: the shuttles' or the lifts' (R47). -/
theorem Params.motionLimit_eq (p : Params) (k : Kind) : p.motionLimit k =
    if k = .shuttlePut ∨ k = .shuttleTake then p.motionLimitShuttle else p.motionLimitLift := by
  cases k <;> rfl

namespace State

section
variable (s : State) (g : Grant)

/-! ### Start counts and targets (R48) -/

theorem laneWatch_openedBy : (s.openedBy g).laneWatch = (laneNamed g.giver g.taker).map fun k =>
    Watch.ofGrant (s.lane k).contents.length g.totes.length g.taker.isLane := rfl

theorem carriageWatch_openedBy : (s.openedBy g).carriageWatch = (carriageNamed g.giver g.taker).map fun x =>
    Watch.ofGrant (s.lift x).contents.length g.totes.length g.taker.isCarriage := rfl

/-- The watch of the lane that a grant names as giver, or as taker, and of none (R48). -/
theorem laneWatch_openedBy_cases :
    (∀ l, g.giver = .lane l → g.taker.isLane = false → (s.openedBy g).laneWatch = some
      { start := (s.lane l).contents.length, target := (s.lane l).contents.length - g.totes.length, mark := false }) ∧
    (∀ l, (∀ k, g.giver ≠ .lane k) → g.taker = .lane l → (s.openedBy g).laneWatch = some
      { start := (s.lane l).contents.length, target := (s.lane l).contents.length + g.totes.length, mark := false }) ∧
    ((∀ k, g.giver ≠ .lane k) → g.taker.isLane = false → (s.openedBy g).laneWatch = none) := by
  rw [laneWatch_openedBy]
  refine ⟨fun l hgiver htaker => ?_, fun l hgiver htaker => ?_, fun hgiver htaker => ?_⟩
  · rw [laneNamed_giver hgiver, htaker]; rfl
  · rw [laneNamed_taker hgiver htaker, Taker.isLane_of_lane htaker]; rfl
  · rw [laneNamed_none hgiver htaker]; rfl

/-- The watch of the carriage that a grant names as giver, or as taker, and of none (R48). -/
theorem carriageWatch_openedBy_cases :
    (∀ x, g.giver = .carriage x → g.taker.isCarriage = false → (s.openedBy g).carriageWatch = some
      { start := (s.lift x).contents.length, target := (s.lift x).contents.length - g.totes.length, mark := false }) ∧
    (∀ x, (∀ y, g.giver ≠ .carriage y) → g.taker = .carriage x → (s.openedBy g).carriageWatch = some
      { start := (s.lift x).contents.length, target := (s.lift x).contents.length + g.totes.length, mark := false }) ∧
    ((∀ y, g.giver ≠ .carriage y) → g.taker.isCarriage = false → (s.openedBy g).carriageWatch = none) := by
  rw [carriageWatch_openedBy]
  refine ⟨fun x hgiver htaker => ?_, fun x hgiver htaker => ?_, fun hgiver htaker => ?_⟩
  · rw [carriageNamed_giver hgiver, htaker]; rfl
  · rw [carriageNamed_taker hgiver htaker, Taker.isCarriage_of_carriage htaker]; rfl
  · rw [carriageNamed_none hgiver htaker]; rfl

/-! ### What a grant writes -/

theorem timer_openedBy : (s.openedBy g).timer =
    if g.kind = .shuttlePut ∨ g.kind = .shuttleTake then s.settings.params.motionLimitShuttle
    else s.settings.params.motionLimitLift := Params.motionLimit_eq ..

theorem records_openTransfer : (s.openTransfer g).records = s.records.map fun p => if p.2.ident ∈ g.totes
    then (p.1, { p.2 with transfer := some { slot := g.slot, gen := (s.slot g.slot).generation + 1 } }) else p := by
  have hparty : (s.openTransfer g).records =
      (((s.openSlot g.slot (s.openedBy g)).reserve g.taker g.totes).enlist g.slot g.totes).records := by
    unfold openTransfer; simp
  have hstart : ((s.openSlot g.slot (s.openedBy g)).reserve g.taker g.totes).records = s.records := by simp
  have hnumber : ((s.openSlot g.slot (s.openedBy g)).reserve g.taker g.totes).numberOf g.slot =
      { slot := g.slot, gen := (s.slot g.slot).generation + 1 } := by
    have hslot : ((s.openSlot g.slot (s.openedBy g)).reserve g.taker g.totes).slot g.slot =
        (s.openSlot g.slot (s.openedBy g)).slot g.slot := slot_of_slots (by simp) _
    rw [numberOf, hslot, openSlot, slot_modSlot, if_pos rfl]
  rw [hparty, records_enlist, hstart, hnumber]

/-- The places that a grant reserves on a carriage, one for each tote (R86). -/
def placesFor (totes : List Ident) : List Reserved := totes.filterMap fun i => (s.lookup i).map fun r =>
  { direction := r.direction, weight := r.weight.getD 0 }

theorem placesFor_length {totes : List Ident} (h : ∀ i ∈ totes, (s.lookup i).isSome) :
    (s.placesFor totes).length = totes.length := by
  induction totes with
  | nil => rfl
  | cons i totes ih =>
    obtain ⟨r, hr⟩ := Option.isSome_iff_exists.mp (h i List.mem_cons_self)
    have hrest := ih fun j hj => h j (List.mem_cons_of_mem _ hj)
    simpa [placesFor, hr] using hrest

theorem liftState_openTransfer (x : Side) : (s.openTransfer g).lift x = { s.lift x with
    status := if slotOwner g.slot = .inr x then .working else (s.lift x).status
    stuck := if slotOwner g.slot = .inr x then false else (s.lift x).stuck
    reserved := if g.taker = .carriage x then s.placesFor g.totes else (s.lift x).reserved } := by
  rw [lift_openTransfer, lift_reserve]
  by_cases howner : slotOwner g.slot = .inr x <;> by_cases htaker : g.taker = .carriage x <;>
    simp only [howner, htaker, if_true, if_false, placesFor]

theorem openTransfer_rest : s.openTransfer g = { s with
    records := (s.openTransfer g).records, lanes := (s.openTransfer g).lanes, slots := (s.openTransfer g).slots
    claims := (s.openTransfer g).claims, lifts := (s.openTransfer g).lifts } := by
  obtain ⟨-, -, hlevels, happrovals, hentries, hstations, hlists, hopening, hunsolicited, hlinks, hflags, hattention, hcause,
    hfresh⟩ := openTransfer_frame s g
  exact eq_of_fields (kept_openTransfer s g) rfl rfl hlevels rfl rfl happrovals rfl hentries hstations hlists hopening
    hunsolicited hlinks hflags hattention hcause hfresh

end
end State

/-- Settles O27. -/
theorem grantOpensATransfer : Obligations.GrantOpensATransfer := by
  intro s g t
  obtain ⟨hlaneGiver, hlaneTaker, hlaneNone⟩ := laneWatch_openedBy_cases s g
  obtain ⟨hliftGiver, hliftTaker, hliftNone⟩ := carriageWatch_openedBy_cases s g
  refine ⟨⟨s.openedBy g, (slot_openTransfer s g g.slot).trans (if_pos rfl), rfl, rfl, rfl, rfl, rfl, rfl, rfl, rfl,
    timer_openedBy s g, hlaneGiver, hlaneTaker, hlaneNone, hliftGiver, hliftTaker, hliftNone⟩,
    fun i hi => (slot_openTransfer s g i).trans (if_neg (Ne.symm hi)), records_openTransfer s g, fun i r hr => ?_,
    lane_openTransfer s g, claimState_openTransfer s g, fun x => ⟨liftState_openTransfer s g x, fun htaker hall => ?_⟩,
    openTransfer_rest s g⟩
  · refine (lookup_openTransfer s g i).trans ?_
    rw [hr]
    split <;> rfl
  · have hreserved : (t.lift x).reserved = s.placesFor g.totes :=
      (congrArg Lift.reserved (liftState_openTransfer s g x)).trans (if_pos htaker)
    rw [hreserved, placesFor_length s hall]

end Sys2Proof.Machine
end

