-- ==== Sys2Proof/Proofs/Commits.lean ====
section
/-! The commit of a transfer (R30, R34, R35, R58, R63, R85, R94, R107, R113, R124): its state when the transfer has ended, and
what the drain tests of the levels that it touched then make of that state. -/

open Sys2Proof Sys2Proof.Machine Sys2Proof.Machine.State

namespace Sys2Proof.Machine.State

theorem idents_filter_congr {u v : List (Nat × Record)} (totes : List Ident)
    (h : u.map (fun p => (p.1, p.2.ident)) = v.map fun p => (p.1, p.2.ident)) :
    (u.filter fun p => p.2.ident ∉ totes).map (fun p => (p.1, p.2.ident)) =
      (v.filter fun p => p.2.ident ∉ totes).map fun p => (p.1, p.2.ident) := by
  have key : ∀ w : List (Nat × Record), (w.filter fun p => p.2.ident ∉ totes).map (fun p => (p.1, p.2.ident)) =
      (w.map fun p => (p.1, p.2.ident)).filter fun q => q.2 ∉ totes := fun w => by
    rw [List.filter_map]; rfl
  rw [key, key, h]

/-- A commit of which the records have left their giver and the reservation is released (R25, R58). -/
def givenUp (s : State) (o : Open) : State := ((s.unlist o.totes).leaveGiver o.giver o.totes).release o.taker o.granted

/-- A commit whose records have joined their taker, the entries of a LIFT_TAKE being LOADED (R58, R124). -/
def handedOver (s : State) (o : Open) : State := ((s.givenUp o).loadTaken o).joinTaker o.taker o.totes

/-- A commit once its transfer has ended, before the drain tests of the levels that it touched (R34, R63). -/
def commitEnded (s : State) (i : Fin 34) (o : Open) : State :=
  ((((s.handedOver o).settleNamed o).clearStreaks (s.levelsTouched i)).freeSlot i .committed).partyFree i false

/-- A level whose drain a commit brings to its end (R34). -/
def commitDrains (s : State) (i : Fin 34) (o : Open) (l : Level) : Prop :=
  s.touches i l = true ∧ (s.level l).mode = .draining ∧ (s.commit i o).levelTouched l = false

section
variable (s : State) (i : Fin 34) (o : Open)

theorem commit_eq : s.commit i o = (s.commitEnded i o).afterEnd (s.levelsTouched i) := rfl

/-! ### Records -/

theorem records_commit : (s.commit i o).records = (s.handedOver o).records := by
  rw [commit_eq]; unfold commitEnded; simp

theorem records_givenUp : (s.givenUp o).records = (s.unlist o.totes).records := by unfold givenUp; simp

theorem records_loaded : ((s.givenUp o).loadTaken o).records = (s.unlist o.totes).records := by
  rw [← records_givenUp]; simp

/-- A record that leaves its giver loses its reference and keeps all else (R4). -/
theorem lookup_givenUp (x : Ident) : (s.givenUp o).lookup x =
    if x ∈ o.totes then (s.lookup x).map (fun r => { r with transfer := none }) else s.lookup x := by
  rw [lookup_of_records (records_givenUp s o), lookup_unlist]

theorem lookup_loaded (x : Ident) : ((s.givenUp o).loadTaken o).lookup x = (s.givenUp o).lookup x :=
  lookup_of_records (by simp) x

theorem lookup_commit_other {x : Ident} (h : x ∉ o.totes) : (s.commit i o).lookup x = s.lookup x := by
  rw [lookup_of_records (records_commit s i o), handedOver, lookup_joinTaker, lookup_loaded, lookup_givenUp]
  cases o.taker <;> simp [h]

theorem lookup_commit_tote {x : Ident} {r : Record} (h : x ∈ o.totes) (hr : s.lookup x = some r) :
    (s.commit i o).lookup x = match o.taker with
      | .lane l => some { r with place := .lane l, transfer := none }
      | .carriage y => some { r with place := .carriage y, transfer := none }
      | .shuttle => none
      | .exit => some { r with transfer := none } := by
  rw [lookup_of_records (records_commit s i o), handedOver, lookup_joinTaker, lookup_loaded, lookup_givenUp]
  cases o.taker <;> simp [h, hr]

theorem idents_commit (h : o.taker ≠ .shuttle) :
    (s.commit i o).records.map (fun p => (p.1, p.2.ident)) = s.records.map fun p => (p.1, p.2.ident) := by
  rw [records_commit, handedOver, (idents_joinTaker ..).1 h, records_loaded, idents_unlist]

theorem idents_commit_shuttle (h : o.taker = .shuttle) : (s.commit i o).records.map (fun p => (p.1, p.2.ident)) =
    (s.records.filter fun p => p.2.ident ∉ o.totes).map fun p => (p.1, p.2.ident) := by
  rw [records_commit, handedOver, (idents_joinTaker ..).2 h, records_loaded]
  exact idents_filter_congr o.totes (idents_unlist s o.totes)

/-! ### Lanes, lifts and queues -/

theorem lane_handedOver (k : LaneId) : (s.handedOver o).lane k = { s.lane k with
    contents := (if o.giver = .lane k then (s.lane k).contents.filter (fun x => x ∉ o.totes) else (s.lane k).contents) ++
      if o.taker = .lane k then o.totes else []
    reserved := (s.lane k).reserved - if o.taker = .lane k then o.granted else 0 } := by
  have hloaded : ((s.givenUp o).loadTaken o).lane k = (s.givenUp o).lane k := lane_of_lanes (by simp) k
  have hunlisted : (s.unlist o.totes).lane k = s.lane k := lane_of_lanes (by simp) k
  rw [handedOver, lane_joinTaker, hloaded, givenUp, lane_release, lane_leaveGiver, hunlisted]

theorem lane_commit (k : LaneId) : (s.commit i o).lane k = { (s.handedOver o).lane k with
    condition := if laneNamed o.giver o.taker = some k ∧ s.settings.params.settleTime ≠ 0
      then .settling s.settings.params.settleTime else (s.lane k).condition } := by
  have hlanes : (s.commit i o).lanes = ((s.handedOver o).settleNamed o).lanes := by
    rw [commit_eq]; unfold commitEnded; simp
  have hsettings : (s.handedOver o).settings = s.settings := by unfold handedOver givenUp; simp
  rw [lane_of_lanes hlanes, lane_settleNamed, hsettings, lane_handedOver]

/-- A carriage from which the records of its transfer have gone, if it is their giver (R85, R86, R94). -/
theorem lift_givenUp (y : Side) : (s.givenUp o).lift y = { s.lift y with
    contents := ((s.givenUp o).lift y).contents
    stuck := if ((s.givenUp o).lift y).contents = (s.lift y).contents then (s.lift y).stuck else false
    reserved := if o.taker = .carriage y then [] else (s.lift y).reserved } := by
  have hunlisted : (s.unlist o.totes).lift y = s.lift y := lift_of_lifts (by simp) y
  have hcontents : ((s.givenUp o).lift y).contents = (((s.unlist o.totes).leaveGiver o.giver o.totes).lift y).contents := by
    rw [givenUp, lift_release]
  rw [hcontents, givenUp, lift_release, ← hunlisted, ← stuck_leaveGiver, lift_leaveGiver]

theorem contents_givenUp (y : Side) : ((s.givenUp o).lift y).contents =
    if o.giver = .carriage y then (s.lift y).contents.filter (fun x => x ∉ o.totes) else (s.lift y).contents := by
  have hunlisted : (s.unlist o.totes).lift y = s.lift y := lift_of_lifts (by simp) y
  rw [givenUp, lift_release, contents_leaveGiver, hunlisted]

theorem lift_loaded (y : Side) : ((s.givenUp o).loadTaken o).lift y = (s.givenUp o).lift y := lift_of_lifts (by simp) y

theorem contents_handedOver (y : Side) : ((s.handedOver o).lift y).contents =
    (if o.giver = .carriage y then (s.lift y).contents.filter (fun x => x ∉ o.totes) else (s.lift y).contents) ++
      if o.taker = .carriage y then o.totes else [] := by
  rw [handedOver, contents_joinTaker, lift_loaded, contents_givenUp]

theorem lift_handedOver (y : Side) : (s.handedOver o).lift y = { s.lift y with
    contents := ((s.handedOver o).lift y).contents, stuck := ((s.handedOver o).lift y).stuck
    reserved := if o.taker = .carriage y then [] else (s.lift y).reserved } := by
  refine (lift_joinTaker ((s.givenUp o).loadTaken o) o.taker o.totes y).trans ?_
  rw [lift_loaded, lift_givenUp]; rfl

/-- A carriage that is not both giver and taker keeps its stuck mark exactly while its contents stay as they were (R94). -/
theorem stuck_handedOver (y : Side) (h : o.giver ≠ .carriage y ∨ o.taker ≠ .carriage y) : ((s.handedOver o).lift y).stuck =
    if ((s.handedOver o).lift y).contents = (s.lift y).contents then (s.lift y).stuck else false := by
  have hjoined : ((s.handedOver o).lift y).stuck =
      if ((s.handedOver o).lift y).contents = ((s.givenUp o).lift y).contents then ((s.givenUp o).lift y).stuck else false := by
    rw [← lift_loaded]; exact stuck_joinTaker ..
  have hgiven : ((s.givenUp o).lift y).stuck =
      if ((s.givenUp o).lift y).contents = (s.lift y).contents then (s.lift y).stuck else false :=
    congrArg Lift.stuck (lift_givenUp s o y)
  rw [hjoined]
  rcases h with hgiver | htaker
  · have hkept : ((s.givenUp o).lift y).contents = (s.lift y).contents := by rw [contents_givenUp, if_neg hgiver]
    rw [hgiven, hkept, if_pos rfl]
  · have hkept : ((s.handedOver o).lift y).contents = ((s.givenUp o).lift y).contents := by
      rw [contents_handedOver, if_neg htaker, List.append_nil, contents_givenUp]
    rw [if_pos hkept, hgiven, hkept]

theorem lift_commit (y : Side) : (s.commit i o).lift y = { (s.handedOver o).lift y with
    status := if slotOwner i = .inr y then .ready else (s.lift y).status } := by
  have hended : (s.commit i o).lifts = (s.commitEnded i o).lifts := by rw [commit_eq]; simp
  have hfreed : ((((s.handedOver o).settleNamed o).clearStreaks (s.levelsTouched i)).freeSlot i .committed).lift y =
      (s.handedOver o).lift y := lift_of_lifts (by simp) y
  have hstatus : ((s.handedOver o).lift y).status = (s.lift y).status := by rw [lift_handedOver]
  rw [lift_of_lifts hended, commitEnded, lift_partyFree, hfreed, hstatus]
  rfl

theorem contents_commit (y : Side) : ((s.commit i o).lift y).contents = ((s.handedOver o).lift y).contents := by
  rw [lift_commit]

theorem liftState_commit (y : Side) : (s.commit i o).lift y = { s.lift y with
    status := if slotOwner i = .inr y then .ready else (s.lift y).status
    contents := ((s.commit i o).lift y).contents, stuck := ((s.commit i o).lift y).stuck
    reserved := if o.taker = .carriage y then [] else (s.lift y).reserved } := by
  rw [lift_commit, lift_handedOver]

theorem stuck_commit (y : Side) (h : o.giver ≠ .carriage y ∨ o.taker ≠ .carriage y) : ((s.commit i o).lift y).stuck =
    if ((s.commit i o).lift y).contents = (s.lift y).contents then (s.lift y).stuck else false := by
  rw [contents_commit, ← stuck_handedOver s o y h, lift_commit]

theorem queue_commit (y : Side) :
    (o.giver ≠ .entry y → (s.commit i o).queue y = s.queue y) ∧
    (o.giver = .entry y → let c := (s.queue y).contents.filter fun x => x ∉ o.totes
      (c.head? = (s.queue y).contents.head? → (s.commit i o).queue y = { s.queue y with contents := c }) ∧
      (c.head? ≠ (s.queue y).contents.head? → (s.commit i o).queue y = { s.queue y with
        contents := c, age := if c = [] then none else some 0, aged := false })) := by
  have hentries : (s.commit i o).entries = ((s.unlist o.totes).leaveGiver o.giver o.totes).entries := by
    rw [commit_eq]; unfold commitEnded handedOver givenUp; simp
  have hunlisted : (s.unlist o.totes).queue y = s.queue y := queue_of_entries (by simp) y
  have hleft := queues_leaveGiver (s.unlist o.totes) o.giver o.totes y
  rw [hunlisted] at hleft
  rw [queue_of_entries hentries]
  exact hleft

/-! ### Levels, claim states and slots -/

theorem slots_commit : (s.commit i o).slots = (s.commitEnded i o).slots := by rw [commit_eq]; simp

theorem slot_commit (j : Fin 34) : (s.commit i o).slot j =
    if i = j then { s.slot j with lastEnd := .committed, opened := none } else s.slot j := by
  have hended : (s.commitEnded i o).slots =
      ((((s.handedOver o).settleNamed o).clearStreaks (s.levelsTouched i)).freeSlot i .committed).slots := by
    unfold commitEnded; simp
  have hstart : (((s.handedOver o).settleNamed o).clearStreaks (s.levelsTouched i)).slot j = s.slot j :=
    slot_of_slots (by unfold handedOver givenUp; simp) j
  rw [slot_of_slots (slots_commit s i o), slot_of_slots hended, slot_freeSlot, hstart]

theorem claimState_commit (l : Level) : (s.commit i o).claimState l =
    if slotOwner i = .inl l then .idle else s.claimState l := by
  have hended : (s.commit i o).claims = (s.commitEnded i o).claims := by rw [commit_eq]; simp
  have hstart : ((((s.handedOver o).settleNamed o).clearStreaks (s.levelsTouched i)).freeSlot i .committed).claimState l =
      s.claimState l := claimState_of_claims (by unfold handedOver givenUp; simp) l
  rw [claimState_of_claims hended, commitEnded, claimState_partyFree, hstart]

theorem level_commitEnded (l : Level) : (s.commitEnded i o).level l = { s.level l with
    streak := if s.touches i l then 0 else (s.level l).streak } := by
  have hended : (s.commitEnded i o).levels = (((s.handedOver o).settleNamed o).clearStreaks (s.levelsTouched i)).levels := by
    unfold commitEnded; simp
  have hstart : ((s.handedOver o).settleNamed o).level l = s.level l :=
    level_of_levels (by unfold handedOver givenUp; simp) l
  have hfold := level_foldl_modLevel (fun x => { x with streak := 0 }) _ (levelsTouched_nodup s i)
    ((s.handedOver o).settleNamed o) l
  rw [hstart] at hfold
  rw [level_of_levels hended]
  refine hfold.trans ?_
  by_cases h : s.touches i l = true
  · rw [if_pos (mem_levelsTouched.mpr h), if_pos h]
  · rw [if_neg (mt mem_levelsTouched.mp h), if_neg h]

theorem levelTouched_commitEnded (l : Level) : (s.commitEnded i o).levelTouched l = (s.commit i o).levelTouched l :=
  levelTouched_of_slots (slots_commit s i o).symm l

/-- The drain tests at the end of a commit find their condition exactly where a drain comes to its end (R34). -/
theorem drains_commitEnded (l : Level) : l ∈ s.levelsTouched i ∧ ((s.commitEnded i o).level l).mode = .draining ∧
    (s.commitEnded i o).levelTouched l = false ↔ s.commitDrains i o l := by
  rw [mem_levelsTouched, level_commitEnded, levelTouched_commitEnded]; rfl

theorem level_commit (l : Level) : (s.commit i o).level l = { (s.commitEnded i o).level l with
    mode := ((s.commit i o).level l).mode } := by
  have hdrains : (s.commit i o).level l = _ := level_foldl_testDrain (s.levelsTouched i) (s.commitEnded i o) l
  rw [hdrains]

theorem mode_commit (l : Level) : (s.commitDrains i o l → ((s.commit i o).level l).mode = .off) ∧
    (¬ s.commitDrains i o l → ((s.commit i o).level l).mode = (s.level l).mode) := by
  have hdrains : (s.commit i o).level l = _ := level_foldl_testDrain (s.levelsTouched i) (s.commitEnded i o) l
  have hmode : ((s.commitEnded i o).level l).mode = (s.level l).mode := by rw [level_commitEnded]
  rw [hdrains]
  exact ⟨fun h => if_pos ((drains_commitEnded s i o l).mpr h),
    fun h => (if_neg (mt (drains_commitEnded s i o l).mp h)).trans hmode⟩

/-! ### Flags -/

theorem flags_commit (g : Fin 41) :
    (∀ l, s.commitDrains i o l → g = levelGroup l → nth (s.commit i o).flags g = nth s.flags g ||| 0x08) ∧
    ((∀ l, s.commitDrains i o l → g ≠ levelGroup l) → nth (s.commit i o).flags g = nth s.flags g) := by
  have hdrains : nth (s.commit i o).flags g = _ :=
    flags_testDrains (s.levelsTouched i) (levelsTouched_nodup s i) (s.commitEnded i o) g
  have hstart : (s.commitEnded i o).flags = s.flags := by unfold commitEnded handedOver givenUp; simp
  rw [hstart] at hdrains
  rw [hdrains]
  refine ⟨fun l hl hg => if_pos ⟨l, hg, (drains_commitEnded s i o l).mpr hl⟩, fun h => if_neg ?_⟩
  rintro ⟨l, hg, hl⟩
  exact h l ((drains_commitEnded s i o l).mp hl) hg

/-! ### Entries of release lists (R124) -/

theorem lists_commit : (s.commit i o).lists = ((s.givenUp o).loadTaken o).lists := by
  rw [commit_eq]; unfold commitEnded handedOver; simp

theorem lists_givenUp : (s.givenUp o).lists = s.lists := by unfold givenUp; simp

theorem lists_commit_kept (h : o.kind ≠ .liftTake) : (s.commit i o).lists = s.lists := by
  rw [lists_commit, loadTaken, if_neg h, lists_givenUp]

theorem stateless_commit (l : Fin 16) :
    ((s.commit i o).list l).map ReleaseList.stateless = (s.list l).map ReleaseList.stateless := by
  have hlist : ∀ {t u : State}, t.lists = u.lists → t.list l = u.list l := fun h => congrArg (nth · l) h
  rw [hlist (lists_commit s i o), ← hlist (lists_givenUp s o), loadTaken]
  split
  · exact stateless_foldl stateless_loadEntry ..
  · rfl

theorem entryState_commit (h : o.kind = .liftTake) (ref : EntryRef) :
    (s.commit i o).entryState ref = (o.totes.foldl loadEntry (s.givenUp o)).entryState ref := by
  rw [entryState_of_lists (lists_commit s i o), loadTaken, if_pos h]

theorem entryState_commit_loaded (h : o.kind = .liftTake) {x : Ident} {r : Record} {ref : EntryRef} (hx : x ∈ o.totes)
    (hr : s.lookup x = some r) (he : r.entry = some ref) :
    (s.commit i o).entryState ref = (s.entryState ref).map fun _ => .loaded := by
  have hgiven : (s.givenUp o).lookup x = some { r with transfer := none } := by rw [lookup_givenUp, if_pos hx, hr]; rfl
  rw [entryState_commit s i o h, entryState_foldl_loadEntry o.totes _ hx hgiven he, entryState_of_lists (lists_givenUp s o)]

theorem entryState_commit_other (h : o.kind = .liftTake) {ref : EntryRef}
    (hother : ∀ x r e, x ∈ o.totes → s.lookup x = some r → r.entry = some e →
      e.list ≠ ref.list ∨ e.rank - 1 ≠ ref.rank - 1) : (s.commit i o).entryState ref = s.entryState ref := by
  rw [entryState_commit s i o h, entryState_foldl_loadEntry_ne, entryState_of_lists (lists_givenUp s o)]
  intro x q e hx hq he
  rw [lookup_givenUp, if_pos hx, Option.map_eq_some_iff] at hq
  obtain ⟨r, hr, rfl⟩ := hq
  exact hother x r e hx hr he

/-! ### What a commit leaves alone -/

theorem commit_rest : s.commit i o = { s with
    records := (s.commit i o).records, lanes := (s.commit i o).lanes, lifts := (s.commit i o).lifts
    entries := (s.commit i o).entries, lists := (s.commit i o).lists, levels := (s.commit i o).levels
    slots := (s.commit i o).slots, claims := (s.commit i o).claims, flags := (s.commit i o).flags, cause := true } := by
  obtain ⟨-, -, hstations, hopening, hunsolicited, hattention, hfresh⟩ := commit_frame s i o
  obtain ⟨happrovals, hlinks, hcause⟩ := commit_frame' s i o
  exact eq_of_fields (kept_commit s i o) rfl rfl rfl rfl rfl happrovals rfl rfl hstations rfl hopening hunsolicited hlinks rfl
    hattention hcause hfresh

end
end Sys2Proof.Machine.State

namespace Sys2Proof.Machine

/-- Settles O28: a commit hands its records over (`handedOver`) and brings its transfer to its end (`commitEnded`), and the drain
tests of the levels that it touched then change modes and MODE_CHANGE alone. -/
theorem commitMovesTheRecords : Obligations.CommitMovesTheRecords := by
  intro s i o _ t drained
  refine ⟨fun x hx => lookup_commit_other s i o hx, fun x r hx hr => ?_, idents_commit s i o, idents_commit_shuttle s i o,
    fun k => ?_, fun y => ⟨liftState_commit s i o y, (contents_commit s i o y).trans (contents_handedOver s o y),
    stuck_commit s i o y⟩, queue_commit s i o, fun l => ?_, fun g hg => (flags_commit s i o g).2 hg,
    fun hkind x r ref hx hr he => entryState_commit_loaded s i o hkind hx hr he,
    fun hkind ref hother => entryState_commit_other s i o hkind hother, stateless_commit s i o, lists_commit_kept s i o,
    (slot_commit s i o i).trans (if_pos rfl), fun j hj => (slot_commit s i o j).trans (if_neg (Ne.symm hj)),
    commit_rest s i o⟩
  · exact lookup_commit_tote s i o hx hr
  · have hlane : t.lane k = _ := lane_commit s i o k
    rw [hlane, lane_handedOver]
    exact ⟨rfl, rfl, rfl, rfl, rfl⟩
  · have hlevel : t.level l = _ := level_commit s i o l
    obtain ⟨hoff, hkept⟩ := mode_commit s i o l
    refine ⟨claimState_commit s i o l, ?_, fun hl => ⟨hoff hl, (flags_commit s i o _).1 l hl rfl⟩, hkept, ?_, ?_⟩
    all_goals rw [hlevel, level_commitEnded]

end Sys2Proof.Machine
end

