-- ==== Sys2Proof/Proofs/Engaged.lean ====
section
/-! Every step keeps the law that a party is at work exactly while its slot holds an open transfer, and that a level awaits approval
exactly while it has a pending claim (R45, R46, R68, R76, R83, R102). -/

open Sys2Proof Sys2Proof.Machine Sys2Proof.Machine.State

namespace Sys2Proof.Machine

section
variable {s : State}

/-! ### What a request does to the parties -/

theorem engaged_disableLift (x : Side) (hw : (s.lift x).status ≠ .working) (h : s.engaged) : (s.disableLift x).engaged :=
  engaged_modLift x _ (fun _ => rfl) (engaged_dropParked x _ _ hw (by decide) h)

/-- A lift is enabled from DISABLED alone, and disabled from any state but WORKING (R103). -/
theorem engaged_setLiftEnable (xb on : Byte) (h : s.engaged) : (setLiftEnable xb on s).holds State.engaged := by
  refine Answer.holds_withLift fun x => ?_
  have hon : (enableOn s x).holds State.engaged := by
    unfold enableOn; split
    · next hs =>
      exact Answer.holds_checked fun _ => (Answer.holds_accept _).mpr
        (engaged_setLift x .ready (by rw [hs]; decide) (by decide) h)
    all_goals exact Answer.holds_reply _
  have hoff : (enableOff s x).holds State.engaged := by
    unfold enableOff; split
    · exact Answer.holds_refuse _
    · exact Answer.holds_reply _
    all_goals next hs => exact (Answer.holds_accept _).mpr (engaged_disableLift x (by rw [hs]; decide) h)
  repeat' split
  · exact Answer.holds_refuse _
  · exact hon
  · exact hoff

/-- A lift's block is cleared only while it is BLOCKED (R104). -/
theorem engaged_clearLiftBlock (xb : Byte) (h : s.engaged) : (clearLiftBlock xb s).holds State.engaged := by
  refine Answer.holds_withLift fun x => Answer.holds_checked fun passed => (Answer.holds_accept _).mpr ?_
  have hblocked : (s.lift x).status = .blocked := by simpa using passed _ List.mem_cons_self
  exact engaged_setLift x .ready (by rw [hblocked]; decide) (by decide) h

/-- An approved claim goes from the approval list to an open transfer, or is ended (R77). -/
theorem engaged_approveClaim (lb k : Byte) (arg : ClaimArg) (h : s.engaged) : (approveClaim lb k arg s).holds State.engaged := by
  unfold approveClaim
  split
  · refine Answer.holds_checked fun _ => ?_
    unfold approve
    split
    · next hg => exact (Answer.holds_acceptWith _ _).mpr (engaged_grantClaim hg h)
    · exact (Answer.holds_changed _ _).mpr (engaged_endClaim _ _ h)
  · exact Answer.holds_refuse _

theorem engaged_denyClaim (lb k : Byte) (arg : ClaimArg) (h : s.engaged) : (denyClaim lb k arg s).holds State.engaged := by
  unfold denyClaim
  split
  · exact Answer.holds_checked fun _ => (Answer.holds_accept _).mpr (engaged_endClaim _ _ h)
  · exact Answer.holds_refuse _

theorem engaged_placeDirected (x : Side) (d : Directed) (h : s.engaged) : (s.placeDirected x d).engaged := by
  unfold placeDirected
  split
  · exact engaged_frame (s := s.modLift x fun y => { y with directed := some d }) rfl rfl rfl rfl
      (engaged_modLift x _ (fun _ => rfl) h)
  · exact engaged_modLift x _ (fun _ => rfl) h

/-- A resolution changes a carriage's contents and no lift's state (R144 to R149). -/
theorem engaged_resolve (r : Record) (p : Placement) (h : s.engaged) : (s.resolve r p).engaged := by
  refine engaged_congr (by simp) (by simp) (by simp) (fun y => ?_) h
  cases p with
  | expected | lane | queueHead | stored => rfl
  | carriage x atFront => cases atFront <;> exact (status_setCarriage ..).trans (by simp [State.lift])
  | delivered | writtenOff => simp [State.lift, resolve]

theorem engaged_declare (d : Declaration) (h : s.engaged) : (s.declare d).engaged := by
  refine engaged_congr (by simp) (by simp) (by simp) (fun y => ?_) h
  unfold declare joinLocation
  split
  · rfl
  · exact status_setCarriage ..
  · rfl

theorem engaged_remap (l : Level) (n : Option Stop) (h : s.engaged) : (s.remap l n).engaged :=
  engaged_recomputeFence l (engaged_foldl forgetReport (fun _ _ => engaged_frame rfl rfl rfl rfl) _
    (engaged_frame (s := s) rfl rfl rfl rfl h))

theorem engaged_afterSoftReset (s : State) : s.afterSoftReset.engaged :=
  engaged_initial rfl rfl rfl fun i => by simp [afterSoftReset, State.slot, Slot.initial]

/-- No request but those above touches a party or its slot. -/
theorem Changes.engaged {c : Instr} {f : State → Answer} (hc : Changes c f) (h : s.engaged) : (f s).holds State.engaged := by
  cases hc with
  | announce =>
    unfold announceInbound; split
    · exact Answer.holds_refuse _
    · exact Answer.holds_checked fun _ => (Answer.holds_accept _).mpr (engaged_frame rfl rfl rfl rfl h)
  | retarget =>
    unfold Machine.retarget; split
    · exact Answer.holds_refuse _
    · refine Answer.holds_withRecord fun r _ => Answer.holds_checked fun _ => (Answer.holds_accept _).mpr ?_
      unfold redirect; split <;> exact engaged_frame (s := s) rfl rfl rfl rfl h
  | cancelRecord =>
    exact Answer.holds_withRecord fun _ _ => Answer.holds_checked fun _ => (Answer.holds_accept _).mpr
      (engaged_frame rfl rfl rfl rfl h)
  | correction =>
    unfold setCorrection; split
    · exact Answer.holds_checked fun _ => (Answer.holds_accept _).mpr (engaged_frame rfl rfl rfl rfl h)
    · exact Answer.holds_refuse _
  | levelMap =>
    refine Answer.holds_withLevel fun l => ?_
    split
    · exact Answer.holds_refuse _
    · exact Answer.holds_checked fun _ => (Answer.holds_accept _).mpr (engaged_remap l _ h)
  | laneDepth | laneBlock =>
    exact Answer.holds_withLane fun _ => Answer.holds_checked fun _ => (Answer.holds_accept _).mpr
      (engaged_frame rfl rfl rfl rfl h)
  | levelMode =>
    refine Answer.holds_withLevel fun l => ?_
    repeat' split
    · exact Answer.holds_refuse _
    · exact Answer.holds_refuse _
    · exact (Answer.holds_acceptWith _ _).mpr (engaged_askMode l _ h)
  | fenceOnLoss =>
    refine Answer.holds_withLevel fun l => ?_
    split
    · exact Answer.holds_refuse _
    · exact (Answer.holds_accept _).mpr (engaged_recomputeFence l (engaged_frame (s := s) rfl rfl rfl rfl h))
  | audit =>
    refine Answer.holds_withLevel fun l => ?_
    repeat' split
    · exact Answer.holds_refuse _
    · exact Answer.holds_refuse _
    · exact (Answer.holds_accept _).mpr (engaged_frame (s := s) (by simp) (by simp) (by simp) (by simp) h)
  | approve => exact engaged_approveClaim _ _ _ h
  | deny => exact engaged_denyClaim _ _ _ h
  | direct =>
    refine Answer.holds_withLift fun x => ?_
    split
    · exact Answer.holds_refuse _
    · exact Answer.holds_checked fun _ => (Answer.holds_accept _).mpr (engaged_placeDirected x _ h)
  | cancelDirected =>
    exact Answer.holds_withLift fun x => Answer.holds_checked fun _ => (Answer.holds_accept _).mpr
      (engaged_modLift x _ (fun _ => rfl) h)
  | liftEnable => exact engaged_setLiftEnable _ _ h
  | liftBlock => exact engaged_clearLiftBlock _ h
  | openList =>
    unfold Machine.openList
    split
    · repeat' split
      · exact Answer.holds_refuse _
      · exact Answer.holds_refuse _
      · exact Answer.holds_refuse _
      · exact Answer.holds_refuseEntry _
      · exact (Answer.holds_acceptWith _ _).mpr (engaged_frame (s := s) (by simp) (by simp) (by simp) (by simp) h)
    · exact Answer.holds_refuse _
  | append =>
    refine Answer.holds_withList fun l => ?_
    split
    · exact Answer.holds_refuse _
    · split
      · exact Answer.holds_refuse _
      · refine Answer.holds_withUsed fun r _ => ?_
        repeat' split
        · exact Answer.holds_refuse _
        · exact Answer.holds_refuse _
        · exact Answer.holds_refuseEntry _
        · exact (Answer.holds_acceptWith _ _).mpr (engaged_frame (s := s) (by simp) (by simp) (by simp) (by simp) h)
  | closeList =>
    refine Answer.holds_withList fun l => Answer.holds_withUsed fun r _ => ?_
    split
    · exact Answer.holds_refuse _
    · exact (Answer.holds_accept _).mpr (engaged_frame (s := s) (by simp) (by simp) (by simp) (by simp) h)
  | abortList =>
    exact Answer.holds_withList fun l => Answer.holds_withUsed fun r _ => Answer.holds_checked fun _ =>
      (Answer.holds_accept _).mpr (engaged_frame (s := s) (by simp) (by simp) (by simp) (by simp) h)
  | skip =>
    refine Answer.holds_withList fun l => ?_
    split
    · exact Answer.holds_refuse _
    · refine Answer.holds_withUsed fun r _ => ?_
      repeat' split
      · exact Answer.holds_refuse _
      · exact (Answer.holds_accept _).mpr (engaged_frame (s := s) (by simp) (by simp) (by simp) (by simp) h)
      · exact Answer.holds_refuse _
  | confirmExit | declareMissing =>
    exact Answer.holds_withRecord fun r _ => Answer.holds_checked fun _ => (Answer.holds_accept _).mpr
      (engaged_frame (s := s) (by simp) (by simp) (by simp) (by simp) h)
  | reportMode =>
    refine Answer.holds_withStation fun n => ?_
    split
    · exact Answer.holds_refuse _
    · exact (Answer.holds_accept _).mpr (engaged_frame rfl rfl rfl rfl h)
  | resolve =>
    unfold resolveHold; split
    · exact Answer.holds_refuse _
    · refine Answer.holds_withRecord fun r _ => ?_
      repeat' split
      · exact Answer.holds_refuse _
      · exact Answer.holds_checked fun _ => (Answer.holds_accept _).mpr (engaged_resolve r _ h)
      all_goals exact Answer.holds_refuse _
  | declareTote =>
    unfold Machine.declareTote; split
    · exact Answer.holds_refuse _
    · exact Answer.holds_checked fun _ => (Answer.holds_accept _).mpr (engaged_declare _ h)
  | softReset => exact (Answer.holds_accept _).mpr (engaged_afterSoftReset s)
  | parameter =>
    unfold setParameter; split
    · exact Answer.holds_refuse _
    · exact Answer.holds_checked fun _ => (Answer.holds_accept _).mpr (engaged_writeParam _ _ h)
  | clearEvents =>
    exact Answer.holds_withGroup fun g => (Answer.holds_acceptWith _ _).mpr
      (engaged_frame (s := s) (by simp) (by simp) (by simp) (by simp) h)
  | mask =>
    exact Answer.holds_withGroup fun g => Answer.holds_checked fun _ => (Answer.holds_accept _).mpr
      (engaged_frame rfl rfl rfl rfl h)
  | summaryEnable =>
    unfold setSummaryEnable; split
    · exact Answer.holds_refuse _
    · exact (Answer.holds_accept _).mpr (engaged_frame rfl rfl rfl rfl h)

/-! ### What a frame or an expiry does to the parties -/

theorem engaged_answerParty {act : State → Fin 34 → State} (x : Sender) (i g : Byte)
    (hact : ∀ t j, t.engaged → (act t j).engaged) (h : s.engaged) : (s.answerParty x i g act).engaged := by
  unfold answerParty
  split
  · exact hact _ _ (engaged_send _ _ h)
  · exact engaged_send _ _ h
  · exact engaged_send _ _ h

theorem engaged_takeArrival (b : Byte) (i : Ident) (w p : Byte) (h : s.engaged) : (s.takeArrival b i w p).engaged :=
  engaged_frame (s := s) (by simp) (by simp) (by simp) (by simp) h

theorem Frames.engaged {c : Instr} {p : Port} {f : State → State} (hc : Frames c p f) (h : s.engaged) : (f s).engaged := by
  cases hc with
  | beacon n =>
    exact engaged_reportFrom n _ _ (engaged_closeEvent (engaged_reportFrom n _ _ (engaged_closeEvent
      (engaged_reportFrom n _ _ (engaged_closeEvent (engaged_reportFrom n _ _ h))))))
  | laneState => exact engaged_reportFrom _ _ _ h
  | claimPut | claimTake => exact engaged_claimFrom _ _ h
  | done => exact engaged_answerParty _ _ _ (fun _ j => engaged_takeDone j) h
  | aborted => exact engaged_answerParty _ _ _ (fun _ j => engaged_takeAborted j) h
  | auditScan =>
    dsimp only; split
    · exact engaged_frame (s := s) (by simp) (by simp) (by simp) (by simp) h
    · exact h
  | liftBeacon | carriageState => exact engaged_takeCarriageReport _ _ h
  | jobRequest => exact engaged_takeJobRequest _ h
  | arrival => exact engaged_takeArrival _ _ _ _ h
  | exitRead =>
    dsimp only; split
    · exact engaged_takeExitRead _ _ h
    · exact h
  | frontBeacon | foreign | malformed => exact h

theorem engaged_endMotion (i : Fin 34) (h : s.engaged) : (s.endMotion i).engaged := by
  unfold endMotion
  repeat' split
  · exact h
  · exact h
  · next o ho _ => exact engaged_fail i o _ h (by rw [ho]; rfl)

theorem engaged_endWindow (i : Fin 34) (h : s.engaged) : (s.endWindow i).engaged := by
  unfold endWindow
  repeat' split
  · exact h
  · exact h
  · next o ho _ => exact engaged_fail i o _ h (by rw [ho]; rfl)

theorem engaged_missReads (i : Fin 34) (o : Open) (x : Side) (ho : (s.slot i).opened.isSome) (h : s.engaged) :
    (s.missReads i o x).engaged := by
  refine engaged_commit i _ (engaged_foldl _ (fun _ y => engaged_exitFault x y 0) _ h) ?_
  have hslot : (o.totes.foldl (fun t y => t.exitFault x y 0) s).slot i = s.slot i := by simp [State.slot]
  rw [hslot]; exact ho

theorem engaged_endReadWindow (i : Fin 34) (h : s.engaged) : (s.endReadWindow i).engaged := by
  unfold endReadWindow
  split
  · exact h
  · next o ho =>
    have hopen : (s.slot i).opened.isSome := by rw [ho]; rfl
    repeat' split
    · exact h
    · exact engaged_missReads i o _ hopen h
    · exact engaged_fail i o _ h hopen
    · exact h
    · exact h

theorem Events.engaged {c : Instr} {f : State → State} (hc : Events c f) (h : s.engaged) : (f s).engaged := by
  cases hc with
  | motionTimeout i => exact engaged_endMotion i h
  | confirmTimeout i => exact engaged_endWindow i h
  | readWindow i => exact engaged_endReadWindow i h
  | approval l => exact engaged_endClaim l _ h
  | linkLost p => exact engaged_loseLink p h
  | statusPeriod | frameLeaves => exact engaged_frame (s := s) rfl rfl rfl rfl h
  | wrongNode | settle | scan | aged => exact engaged_frame (s := s) (by simp) (by simp) (by simp) (by simp) h

/-! ### The aisle stop and the tick -/

theorem isSome_pauseTimers (i : Fin 34) : (s.pauseTimers.slot i).opened.isSome = (s.slot i).opened.isSome := by
  simp [pauseTimers, State.slot]

theorem isSome_restartTimers (i : Fin 34) : (s.restartTimers.slot i).opened.isSome = (s.slot i).opened.isSome := by
  simp [restartTimers, State.slot]

theorem engaged_assertStop (h : s.engaged) : s.assertStop.engaged :=
  engaged_foldl _ (fun _ (p : PendingClaim) => engaged_endClaim p.level .stopped) _
    (engaged_timers (s := s) rfl rfl rfl (fun _ => isSome_pauseTimers (s := ((s.setLine true).raise _).sendStatus) _) h)

theorem engaged_releaseStop (h : s.engaged) : s.releaseStop.engaged :=
  engaged_timers (s := s) rfl rfl rfl (fun _ => isSome_restartTimers (s := ((s.setLine false).raise _).sendStatus) _) h

/-- A tick writes the time of a pending claim and not its level. -/
theorem pendingOf_count (s : State) (l : Level) : s.count.pendingOf l = (s.pendingOf l).map PendingClaim.tick :=
  List.find?_map ..

theorem engaged_count (h : s.engaged) : s.count.engaged := by
  rw [engaged_iff] at *
  obtain ⟨hlevels, hlifts, hone⟩ := h
  have hslot : ∀ i, (s.count.slot i).opened.isSome = (s.slot i).opened.isSome := fun i => by
    simp [count, State.slot, nth_map, Slot.tick]
  have happrovals : s.count.approvals.map (·.level) = s.approvals.map (·.level) := by
    simp [count, PendingClaim.tick]
  refine ⟨fun l => ?_, fun x => ?_, happrovals ▸ hone⟩
  · unfold shuttleEngaged
    rw [hslot, pendingOf_count, Option.isSome_map]
    exact hlevels l
  · unfold liftEngaged
    rw [hslot]
    exact hlifts x

end

/-! ### The law and the step -/

theorem engaged_kept : KeptByCommands State.engaged where
  unread _ _ _ _ _ _ _ h := h
  close _ h := engaged_closeEvent h
  changes _ _ _ hc h := hc.engaged h
  valid _ p h := engaged_takeValid p h
  frames _ _ _ _ hc h := hc.engaged h
  events _ _ _ hc h := hc.engaged h
  hardReset _ _ := engaged_initial rfl rfl rfl fun i => by simp [inHardReset, State.slot, Slot.initial]
  leaveReset _ h := h
  setLine _ _ h := h
  assertStop _ h := engaged_assertStop h
  releaseStop _ h := engaged_releaseStop h
  hear _ p bytes h := engaged_hear p bytes h
  count _ h := engaged_count h

/-- Settles O7: a grant opens a slot as its party goes to work, the end of a transfer frees both, and a pending claim comes and goes
with its level's claim state; no other command touches any of them. -/
theorem stepKeepsPartiesEngaged : Obligations.StepKeepsPartiesEngaged := fun _ _ h e => engaged_kept.afterStep h e

end Sys2Proof.Machine
end

