-- ==== Sys2Proof/Proofs/Judgements.lean ====
section
/-! The judgement of reports by R53's table (R50, R52 to R54, R56). -/

open Sys2Proof Sys2Proof.Machine Sys2Proof.Machine.State

namespace Sys2Proof.Machine

/-! ### R53's table -/

namespace Watch

section
variable {w : Watch} {n : Nat} (confirming : Bool)

/-- A count outside the range of start count and target is contrary (R52). -/
theorem ruling_of_contrary (h : n < min w.start w.target ∨ max w.start w.target < n) : w.ruling confirming n = .fails := by
  have hjudge : w.judge n = .contrary := by
    unfold judge
    rw [if_neg (by omega), if_neg (by omega)]
  unfold ruling
  rw [hjudge]

/-- A count within the range that is not the target is intermediate (R52). -/
theorem ruling_of_intermediate (hlow : min w.start w.target ≤ n) (hhigh : n ≤ max w.start w.target) (hn : n ≠ w.target) :
    w.ruling confirming n = if confirming && w.mark then .fails else .stored := by
  have hjudge : w.judge n = .intermediate := by
    unfold judge
    rw [if_neg hn, if_pos ⟨hlow, hhigh⟩]
  unfold ruling
  rw [hjudge]
  cases confirming <;> cases w.mark <;> rfl

theorem judge_target : w.judge w.target = .atTarget := if_pos rfl

/-- The target sets the mark of a CONFIRMING transfer that is without it (R53). -/
theorem ruling_of_first_target (hn : n = w.target) (hmark : w.mark = false) : w.ruling true n = .marks := by
  unfold ruling
  rw [hn, judge_target, hmark]

theorem ruling_of_other_target (hn : n = w.target) (h : confirming = false ∨ w.mark = true) :
    w.ruling confirming n = .stored := by
  unfold ruling
  rw [hn, judge_target]
  cases confirming
  · rfl
  · rw [h.resolve_left (by decide)]

/-- Only the target sets a mark. -/
theorem ruling_ne_marks (hn : n ≠ w.target) : w.ruling confirming n ≠ .marks := by
  by_cases hrange : min w.start w.target ≤ n ∧ n ≤ max w.start w.target
  · rw [ruling_of_intermediate confirming hrange.1 hrange.2 hn]
    split <;> decide
  · rw [ruling_of_contrary confirming (by omega)]
    decide

end
end Watch

/-- A transfer is complete when it is CONFIRMING, every mark is present and, for an EXIT_UNLOAD, every tote has been read (R53,
R56). -/
theorem Open.complete_iff (o : Open) : o.complete = true ↔ o.confirming = true ∧
    (∀ w, o.laneWatch = some w → w.mark = true) ∧ (∀ w, o.carriageWatch = some w → w.mark = true) ∧
    (o.kind = .exitUnload → o.totes = []) := by
  have hwatch : ∀ x : Option Watch, x.all (·.mark) = true ↔ ∀ w, x = some w → w.mark = true := fun x => by
    cases x <;> simp
  have htotes : (o.kind != .exitUnload || o.totes.isEmpty) = true ↔ (o.kind = .exitUnload → o.totes = []) := by
    rw [Bool.or_eq_true, bne_iff_ne, List.isEmpty_iff, ← imp_iff_not_or]
  unfold Open.complete
  rw [Bool.and_eq_true, Bool.and_eq_true, Bool.and_eq_true, hwatch, hwatch, htotes, and_assoc, and_assoc]

theorem reportCount_eq (r : CarriageReport) : reportCount r = match r.front, r.back with
    | .empty, .empty => some 0
    | .seated, .empty => some 1
    | .seated, .seated => some 2
    | _, _ => none := by
  unfold reportCount
  cases r.front <;> cases r.back <;> rfl

namespace State

/-! ### What a ruling does -/

/-- What a ruling on a report makes of the transfer in a slot: the one that gains the mark is `marked` (R53). -/
def ruled (s : State) (i : Fin 34) (o marked : Open) : Ruling → State
  | .stored => s
  | .marks => s.advance i marked
  | .fails => s.fail i o .confirmContrary

theorem advance_eq (s : State) (i : Fin 34) (p : Open) : s.advance i p =
    let t : State := { s with slots := s.slots.set i.val { s.slot i with opened := some p } }
    if p.complete then t.commit i p else t := rfl

theorem ruled_ite (s : State) (i : Fin 34) (o marked : Open) (b : Bool) :
    s.ruled i o marked (if b then .fails else .stored) = if b then s.fail i o .confirmContrary else s := by
  cases b <;> rfl

section
variable {s : State} {i : Fin 34} {o : Open} {w : Watch}

/-- A settled lane report is ruled on by the table (R53). -/
theorem judgeLane_settled {r : LaneReport} (ho : (s.slot i).opened = some o) (hw : o.laneWatch = some w)
    (hr : r.settled = true) : s.judgeLane i r = s.ruled i o o.markLane (w.ruling o.confirming r.count.val) := by
  simp only [judgeLane, ho, hw, hr, if_true]
  rfl

/-- An unsettled lane report counts only toward the mark of a LIFT_TAKE's giver lane (R52). -/
theorem judgeLane_unsettled {r : LaneReport} (ho : (s.slot i).opened = some o) (hw : o.laneWatch = some w)
    (hr : r.settled = false) : s.judgeLane i r =
      if o.kind = .liftTake ∧ w.ruling o.confirming r.count.val = .marks then s.advance i o.markLane else s := by
  simp only [judgeLane, ho, hw, hr, Bool.false_eq_true, if_false]

/-- A carriage in motion is judged no further (R52). -/
theorem judgeCarriage_moving {r : CarriageReport} (hr : reportCount r = none) : s.judgeCarriage i r = s := by
  unfold judgeCarriage
  rw [hr]
  cases (s.slot i).opened <;> rfl

theorem judgeCarriage_counted {r : CarriageReport} {n : Nat} (ho : (s.slot i).opened = some o)
    (hw : o.carriageWatch = some w) (hr : reportCount r = some n) :
    s.judgeCarriage i r = s.ruled i o o.markCarriage (w.ruling o.confirming n) := by
  simp only [judgeCarriage, ho, hw, hr]
  rfl

theorem markLane_of (hw : o.laneWatch = some w) : o.markLane = { o with laneWatch := some { w with mark := true } } := by
  rw [Open.markLane, hw]; rfl

theorem markCarriage_of (hw : o.carriageWatch = some w) :
    o.markCarriage = { o with carriageWatch := some { w with mark := true } } := by
  rw [Open.markCarriage, hw]; rfl

/-- At its target an unmarked lane gains its mark, of a settled report or of a LIFT_TAKE's (R52, R53). -/
theorem judgeLane_marks {r : LaneReport} (ho : (s.slot i).opened = some o) (hw : o.laneWatch = some w)
    (hn : r.count.val = w.target) (hr : r.settled = true ∨ o.kind = .liftTake) (hc : o.confirming = true)
    (hmark : w.mark = false) : s.judgeLane i r = s.advance i { o with laneWatch := some { w with mark := true } } := by
  have hruling : w.ruling o.confirming r.count.val = .marks := by rw [hc]; exact Watch.ruling_of_first_target hn hmark
  cases hs : r.settled with
  | true => rw [judgeLane_settled ho hw hs, hruling, ruled, markLane_of hw]
  | false =>
    have htake : o.kind = .liftTake := hr.resolve_left (by simp [hs])
    rw [judgeLane_unsettled ho hw hs, if_pos ⟨htake, hruling⟩, markLane_of hw]

/-- At its target a lane without a mark to gain is left as it is (R53). -/
theorem judgeLane_at_target {r : LaneReport} (ho : (s.slot i).opened = some o) (hw : o.laneWatch = some w)
    (hn : r.count.val = w.target) (h : o.confirming = false ∨ w.mark = true) : s.judgeLane i r = s := by
  have hruling := Watch.ruling_of_other_target o.confirming hn h
  cases hs : r.settled with
  | true => rw [judgeLane_settled ho hw hs, hruling, ruled]
  | false => rw [judgeLane_unsettled ho hw hs, hruling, if_neg (by simp)]

theorem judgeCarriage_marks {r : CarriageReport} (ho : (s.slot i).opened = some o) (hw : o.carriageWatch = some w)
    (hr : reportCount r = some w.target) (hc : o.confirming = true) (hmark : w.mark = false) :
    s.judgeCarriage i r = s.advance i { o with carriageWatch := some { w with mark := true } } := by
  have hruling : w.ruling o.confirming w.target = .marks := by rw [hc]; exact Watch.ruling_of_first_target rfl hmark
  rw [judgeCarriage_counted ho hw hr, hruling, ruled, markCarriage_of hw]

end
end State

/-- Settles O30: a report with a count is ruled on by R53's table, and `ruled` says what each ruling does. -/
theorem reportsAreJudgedByTheTable : Obligations.ReportsAreJudgedByTheTable := by
  refine ⟨fun s i o w r ho hw => ⟨fun hr hn => ?_, fun hr hlow hhigh hn => ?_, fun hn hr hc hmark => ?_,
    fun hn h => judgeLane_at_target ho hw hn h, fun hr hother => ?_⟩, fun s i o w r ho hw => ⟨judgeCarriage_moving,
    fun n hr => ⟨fun hn => ?_, fun hlow hhigh hn => ?_, fun hn hc hmark => ?_, fun hn h => ?_⟩⟩, reportCount_eq,
    Open.complete_iff⟩
  · rw [judgeLane_settled ho hw hr, Watch.ruling_of_contrary _ hn, ruled]
  · rw [judgeLane_settled ho hw hr, Watch.ruling_of_intermediate _ hlow hhigh hn, ruled_ite]
  · rw [judgeLane_marks ho hw hn hr hc hmark, advance_eq]
  · rw [judgeLane_unsettled ho hw hr, if_neg]
    rintro ⟨htake, hmarks⟩
    exact hother.elim (fun h => h htake) fun h => Watch.ruling_ne_marks _ h hmarks
  · rw [judgeCarriage_counted ho hw hr, Watch.ruling_of_contrary _ hn, ruled]
  · rw [judgeCarriage_counted ho hw hr, Watch.ruling_of_intermediate _ hlow hhigh hn, ruled_ite]
  · rw [judgeCarriage_marks ho hw (hr.trans (congrArg some hn)) hc hmark, advance_eq]
  · rw [judgeCarriage_counted ho hw hr, Watch.ruling_of_other_target _ hn h, ruled]

end Sys2Proof.Machine
end

