-- ==== Sys2Proof/Proofs/TransferAnswers.lean ====
section
/-! DONE and ABORTED: the answer to a party, the latest reports that DONE judges, and the end that ABORTED brings (R50, R51, R54,
R63, R64). -/

open Sys2Proof Sys2Proof.Machine Sys2Proof.Machine.State

namespace Sys2Proof.Machine.State

/-! ### The answer to DONE and ABORTED (R64) -/

section
variable {t : State} {x : Sender} {slot gen : Byte} {i : Fin 34}

theorem answerFor_other (h : ∀ i, t.senderSlot x = some i → slot.toNat ≠ i.val ∨ gen ≠ (t.slot i).generation) :
    t.answerFor x slot gen = .stale := by
  unfold answerFor
  cases hx : t.senderSlot x with
  | none => rfl
  | some i =>
    refine if_neg fun hnamed => ?_
    exact (h i hx).elim (fun hslot => hslot hnamed.1) fun hgen => hgen hnamed.2

section
variable (hx : t.senderSlot x = some i) (hslot : slot.toNat = i.val) (hgen : gen = (t.slot i).generation)
include hx hslot hgen

theorem answerFor_open (h : (t.slot i).opened.isSome) : t.answerFor x slot gen = .ack i := by
  obtain ⟨o, ho⟩ := Option.isSome_iff_exists.mp h
  simp only [answerFor, hx, hslot, hgen, true_and, if_true, ho]

theorem answerFor_failed {why : FailReason} (h : (t.slot i).opened = none) (hend : (t.slot i).lastEnd = .failed why) :
    t.answerFor x slot gen = .late := by
  simp only [answerFor, hx, hslot, hgen, true_and, if_true, h, hend]

theorem answerFor_ended (h : (t.slot i).opened = none) (hend : ∀ why, (t.slot i).lastEnd ≠ .failed why) :
    t.answerFor x slot gen = .stale := by
  simp only [answerFor, hx, hslot, hgen, true_and, if_true, h]
  cases he : (t.slot i).lastEnd with
  | failed why => exact absurd he (hend why)
  | none | committed | aborted => rfl

end

variable (act : State → Fin 34 → State)

theorem answerParty_ack (h : t.answerFor x slot gen = .ack i) :
    t.answerParty x slot gen act = act (t.send x.port (.ack slot gen)) i := by rw [answerParty, h]

theorem answerParty_late (h : t.answerFor x slot gen = .late) :
    t.answerParty x slot gen act = t.send x.port (.late slot gen) := by rw [answerParty, h]

theorem answerParty_stale (h : t.answerFor x slot gen = .stale) :
    t.answerParty x slot gen act = t.send x.port (.stale slot gen) := by rw [answerParty, h]

end

/-! ### The latest reports (R50, R54) -/

/-- The judgement of a lane report leaves every lift's latest report. -/
theorem report_judgeLane (s : State) (i : Fin 34) (r : LaneReport) (y : Side) :
    ((s.judgeLane i r).lift y).report = (s.lift y).report := by
  have hcommit : ∀ (u : State) o, ((u.commit i o).lift y).report = (u.lift y).report := fun u o => by
    rw [liftState_commit]
  have hfail : ∀ o, ((s.fail i o .confirmContrary).lift y).report = (s.lift y).report := fun o => by rw [liftState_fail]
  have hadvance : ∀ o, ((s.advance i o).lift y).report = (s.lift y).report := fun o => by
    unfold advance; split
    · exact hcommit (s.putOpen i o) o
    · rfl
  unfold judgeLane
  repeat' split
  · rfl
  · rfl
  · rfl
  · exact hadvance _
  · exact hfail _
  · exact hadvance _
  · rfl

theorem report_judgeLatestLane (s : State) (i : Fin 34) (k : Option LaneId) (y : Side) :
    ((s.judgeLatestLane i k).lift y).report = (s.lift y).report := by
  unfold judgeLatestLane; split
  · exact report_judgeLane ..
  · rfl

theorem judgeLatest_eq (s : State) (i : Fin 34) (o : Open) :
    let u : State := match (laneNamed o.giver o.taker).bind fun k => (s.lane k).report with
      | some r => s.judgeLane i r
      | none => s
    s.judgeLatest i o = match (carriageNamed o.giver o.taker).bind fun y => (s.lift y).report with
      | some r => u.judgeCarriage i r
      | none => u := by
  intro u
  have hu : s.judgeLatestLane i (laneNamed o.giver o.taker) = u := rfl
  have hreport : ∀ y, (u.lift y).report = (s.lift y).report := report_judgeLatestLane s i _
  unfold judgeLatest judgeLatestCarriage
  simp only [hu, hreport] <;> rfl

/-- A slot without an open transfer has nothing to judge. -/
theorem judgeLatest_free {s : State} {i : Fin 34} (h : (s.slot i).opened = none) (o : Open) : s.judgeLatest i o = s := by
  have hlane : s.judgeLatestLane i (laneNamed o.giver o.taker) = s := by
    unfold judgeLatestLane judgeLane; split
    · rw [h]
    · rfl
  rw [judgeLatest, hlane]
  unfold judgeLatestCarriage judgeCarriage
  split
  · rw [h]
  · rfl

theorem judgeLatest_unreported {s : State} {o : Open} (i : Fin 34)
    (hlane : ∀ k, laneNamed o.giver o.taker = some k → (s.lane k).report = none)
    (hlift : ∀ y, carriageNamed o.giver o.taker = some y → (s.lift y).report = none) : s.judgeLatest i o = s := by
  have hnoLane : ((laneNamed o.giver o.taker).bind fun k => (s.lane k).report) = none := Option.bind_eq_none_iff.mpr hlane
  have hnoLift : ((carriageNamed o.giver o.taker).bind fun y => (s.lift y).report) = none :=
    Option.bind_eq_none_iff.mpr hlift
  rw [judgeLatest, judgeLatestLane, hnoLane]
  dsimp only
  rw [judgeLatestCarriage, hnoLift]

/-! ### DONE (R50) -/

section
variable {s : State} {i : Fin 34} {o : Open}

theorem takeDone_confirming (ho : (s.slot i).opened = some o) (hc : o.confirming = true) : s.takeDone i = s := by
  simp only [takeDone, ho, hc, if_true]

theorem takeDone_granted (ho : (s.slot i).opened = some o) (hc : o.confirming = false) :
    s.takeDone i = (s.advance i (s.confirmed o)).judgeLatest i (s.confirmed o) := by
  simp only [takeDone, ho, hc, Bool.false_eq_true, if_false]

/-- A transfer that DONE finds complete commits, and nothing is left to judge. -/
theorem takeDone_complete (ho : (s.slot i).opened = some o) (hc : o.confirming = false)
    (h : (s.confirmed o).complete = true) : s.takeDone i = (s.putOpen i (s.confirmed o)).commit i (s.confirmed o) := by
  have hfree : (((s.putOpen i (s.confirmed o)).commit i (s.confirmed o)).slot i).opened = none := by
    rw [slot_commit, if_pos rfl]
  rw [takeDone_granted ho hc, advance, if_pos h, judgeLatest_free hfree]

theorem takeDone_incomplete (ho : (s.slot i).opened = some o) (hc : o.confirming = false)
    (h : (s.confirmed o).complete = false) :
    s.takeDone i = (s.putOpen i (s.confirmed o)).judgeLatest i (s.confirmed o) := by
  rw [takeDone_granted ho hc, advance, if_neg (by simp [h])]

/-! ### ABORTED (R51) -/

theorem takeAborted_fails (ho : (s.slot i).opened = some o)
    (h : o.confirming = true ∨ (o.kind = .exitUnload ∧ 0 < o.reads)) : s.takeAborted i = s.fail i o .confirmContrary := by
  simp only [takeAborted, ho]
  exact if_pos (by simpa using h)

theorem takeAborted_aborts (ho : (s.slot i).opened = some o) (hc : o.confirming = false)
    (h : o.kind ≠ .exitUnload ∨ o.reads = 0) : s.takeAborted i = s.abort i o := by
  simp only [takeAborted, ho]
  refine if_neg ?_
  rw [hc]
  obtain hkind | hreads := h
  · simp [hkind]
  · simp [hreads]

end

/-- An abort once its transfer has ended, before the drain tests of the levels that it touched (R51, R63). -/
def abortEnded (s : State) (i : Fin 34) (o : Open) : State :=
  (((s.unlist o.totes).release o.taker o.granted).freeSlot i .aborted).partyFree i false

section
variable (s : State) (i : Fin 34) (o : Open)

theorem abort_eq : s.abort i o = (s.abortEnded i o).afterEnd (s.levelsTouched i) := rfl

theorem lookup_abort (x : Ident) : (s.abort i o).lookup x =
    (s.lookup x).map fun r => if x ∈ o.totes then { r with transfer := none } else r := by
  have hunlisted : (s.abort i o).records = (s.unlist o.totes).records := by unfold State.abort; simp
  rw [lookup_of_records hunlisted, lookup_unlist]
  split
  · rfl
  · exact Option.map_id'.symm ▸ rfl

theorem lane_abort (k : LaneId) : (s.abort i o).lane k = { s.lane k with
    reserved := (s.lane k).reserved - if o.taker = .lane k then o.granted else 0 } := by
  have hreleased : (s.abort i o).lanes = ((s.unlist o.totes).release o.taker o.granted).lanes := by unfold State.abort; simp
  have hunlisted : (s.unlist o.totes).lane k = s.lane k := lane_of_lanes (by simp) k
  rw [lane_of_lanes hreleased, lane_release, hunlisted]

theorem lift_abort (y : Side) : (s.abort i o).lift y = { s.lift y with
    status := if slotOwner i = .inr y then .ready else (s.lift y).status
    reserved := if o.taker = .carriage y then [] else (s.lift y).reserved } := by
  have hended : (s.abort i o).lifts = (s.abortEnded i o).lifts := by rw [abort_eq]; simp
  have hreleased : (((s.unlist o.totes).release o.taker o.granted).freeSlot i .aborted).lift y =
      ((s.unlist o.totes).release o.taker o.granted).lift y := lift_of_lifts (by simp) y
  have hunlisted : (s.unlist o.totes).lift y = s.lift y := lift_of_lifts (by simp) y
  rw [lift_of_lifts hended, abortEnded, lift_partyFree, hreleased, lift_release, hunlisted]
  rfl

theorem claimState_abort (l : Level) : (s.abort i o).claimState l =
    if slotOwner i = .inl l then .idle else s.claimState l := by
  have hended : (s.abort i o).claims = (s.abortEnded i o).claims := by rw [abort_eq]; simp
  have hstart : (((s.unlist o.totes).release o.taker o.granted).freeSlot i .aborted).claimState l = s.claimState l :=
    claimState_of_claims (by simp) l
  rw [claimState_of_claims hended, abortEnded, claimState_partyFree, hstart]

/-- An abort leaves the fault streak of every level (R35). -/
theorem streak_abort (l : Level) : ((s.abort i o).level l).streak = (s.level l).streak := by
  have hdrains : (s.abort i o).level l = _ := level_foldl_testDrain (s.levelsTouched i) (s.abortEnded i o) l
  have hended : (s.abortEnded i o).level l = s.level l := level_of_levels (by unfold abortEnded; simp) l
  rw [hdrains, hended]

theorem slot_abort : (s.abort i o).slot i = { s.slot i with lastEnd := .aborted, opened := none } := by
  have hfreed : (s.abort i o).slots = (((s.unlist o.totes).release o.taker o.granted).freeSlot i .aborted).slots := by
    unfold State.abort; simp
  have hstart : ((s.unlist o.totes).release o.taker o.granted).slot i = s.slot i := slot_of_slots (by simp) i
  rw [slot_of_slots hfreed, slot_freeSlot, if_pos rfl, hstart]

theorem abort_rest : s.abort i o = { s with
    records := (s.abort i o).records, lanes := (s.abort i o).lanes, lifts := (s.abort i o).lifts
    levels := (s.abort i o).levels, slots := (s.abort i o).slots, claims := (s.abort i o).claims
    flags := (s.abort i o).flags, cause := true } := by
  obtain ⟨-, -, hentries, hstations, hlists, hopening, hunsolicited, hattention, hfresh⟩ := abort_frame s i o
  obtain ⟨happrovals, hlinks, -, -, hcause⟩ := abort_frame' s i o
  exact eq_of_fields (kept_abort s i o) rfl rfl rfl rfl rfl happrovals rfl hentries hstations hlists hopening hunsolicited
    hlinks rfl hattention hcause hfresh

end

end Sys2Proof.Machine.State

namespace Sys2Proof.Machine

theorem exec_done {s : State} (hs : s.inReset = false) (x : Sender) (slot gen : Byte) : exec (.done x slot gen) s =
    .next ((s.takeValid x.port).answerParty x slot gen State.takeDone).closeEvent :=
  ((Frames.done x slot gen).exec_eq s).trans (frame_out hs ..)

theorem exec_aborted {s : State} (hs : s.inReset = false) (x : Sender) (slot gen : Byte) : exec (.aborted x slot gen) s =
    .next ((s.takeValid x.port).answerParty x slot gen State.takeAborted).closeEvent :=
  ((Frames.aborted x slot gen).exec_eq s).trans (frame_out hs ..)

/-- Settles O31: `answerFor` gives R64's answer, and only an ACK goes on to what DONE or ABORTED does. -/
theorem doneAndAbortedAreAnswered : Obligations.DoneAndAbortedAreAnswered := by
  refine ⟨fun s x slot gen hs => ?_, judgeLatest_eq, fun s i o ho => ⟨takeDone_confirming ho, fun hc => ⟨?_, ?_, ?_⟩,
    takeAborted_fails ho, fun hc h => ⟨takeAborted_aborts ho hc h, lookup_abort s i o, lane_abort s i o, fun y => ?_,
    fun l => ⟨claimState_abort s i o l, streak_abort s i o l⟩, slot_abort s i o, abort_rest s i o⟩⟩⟩
  · dsimp only
    rw [exec_done hs, exec_aborted hs]
    refine ⟨fun hother => ?_, fun i hx hslot hgen => ⟨fun hopen => ?_, fun why hfree hend => ?_, fun hfree hend => ?_⟩⟩
    · have hstale := answerFor_other hother
      rw [answerParty_stale _ hstale, answerParty_stale _ hstale]; exact ⟨rfl, rfl⟩
    · have hack := answerFor_open hx hslot hgen hopen
      rw [answerParty_ack _ hack, answerParty_ack _ hack]; exact ⟨rfl, rfl⟩
    · have hlate := answerFor_failed hx hslot hgen hfree hend
      rw [answerParty_late _ hlate, answerParty_late _ hlate]; exact ⟨rfl, rfl⟩
    · have hstale := answerFor_ended hx hslot hgen hfree hend
      rw [answerParty_stale _ hstale, answerParty_stale _ hstale]; exact ⟨rfl, rfl⟩
  · exact takeDone_complete ho hc
  · exact takeDone_incomplete ho hc
  · intro hincomplete hlane hlift
    exact (takeDone_incomplete ho hc hincomplete).trans
      (judgeLatest_unreported (s := s.putOpen i (s.confirmed o)) (o := s.confirmed o) i hlane hlift)
  · rw [lift_abort]
    exact ⟨rfl, fun h => if_pos h, fun h => if_pos h⟩

end Sys2Proof.Machine
end

