-- ==== Sys2Proof/Proofs/TransferTimers.lean ====
section
/-! The expiries of a transfer's timer, and the readings of the transfer table and of the approval list (R49, R55, R57, R67, R82;
log 4). -/

open Sys2Proof Sys2Proof.Machine Sys2Proof.Machine.State

namespace Sys2Proof.Machine.State

/-! ### What each expiry does -/

section
variable {s : State} {i : Fin 34}

section
variable (h : (s.slot i).opened = none)
include h

theorem endMotion_free : s.endMotion i = s := by simp only [endMotion, h]
theorem endWindow_free : s.endWindow i = s := by simp only [endWindow, h]
theorem endReadWindow_free : s.endReadWindow i = s := by simp only [endReadWindow, h]

end

section
variable {o : Open} (ho : (s.slot i).opened = some o)
include ho

theorem endMotion_eq : s.endMotion i = if o.confirming = true ∨ o.paused = true then s else s.fail i o .motionTimeout := by
  simp only [endMotion, ho, Bool.or_eq_true]

theorem endWindow_eq : s.endWindow i =
    if o.confirming = false ∨ o.paused = true ∨ s.stopped = true ∨ o.kind = .exitUnload then s
    else s.fail i o .confirmTimeout := by
  simp only [endWindow, ho, Bool.or_eq_true, Bool.not_eq_true', decide_eq_true_eq, or_assoc]

theorem endReadWindow_idle (h : o.confirming = false ∨ o.paused = true ∨ s.stopped = true ∨ o.kind ≠ .exitUnload) :
    s.endReadWindow i = s := by
  simp only [endReadWindow, ho, Bool.or_eq_true, Bool.not_eq_true', decide_eq_true_eq, or_assoc]
  exact if_pos h

/-- The read window of an exit goes by the mark of the carriage that unloads (R55, R57). -/
theorem endReadWindow_exit {x : Side} {w : Watch} (hc : o.confirming = true) (hp : o.paused = false) (hs : s.stopped = false)
    (hk : o.kind = .exitUnload) (hg : o.giver = .carriage x) (hw : o.carriageWatch = some w) :
    s.endReadWindow i = if w.mark = true then s.missReads i o x else s.fail i o .confirmTimeout := by
  have hdue : (!o.confirming || o.paused || s.stopped || decide (o.kind ≠ .exitUnload)) = false := by simp [hc, hp, hs, hk]
  simp only [endReadWindow, ho, hw, carriageNamed_giver hg]
  exact if_neg (by simpa using hdue)

end
end
end Sys2Proof.Machine.State

namespace Sys2Proof.Machine

/-! ### The expiries in operation -/

section
variable {s : State} (hs : s.inReset = false) (i : Fin 34)
include hs

theorem exec_motionTimeout : exec (.motionTimeout i) s = .next (s.endMotion i).closeEvent :=
  ((Events.motionTimeout i).exec_eq s).trans (event_out hs _)

theorem exec_confirmTimeout : exec (.confirmTimeout i) s = .next (s.endWindow i).closeEvent :=
  ((Events.confirmTimeout i).exec_eq s).trans (event_out hs _)

theorem exec_exitReadWindowExpiry : exec (.exitReadWindowExpiry i) s = .next (s.endReadWindow i).closeEvent :=
  ((Events.readWindow i).exec_eq s).trans (event_out hs _)

end

/-- Settles O32: each expiry acts on an open transfer of its own phase that is not paused, and on nothing else. -/
theorem transferTimersExpire : Obligations.TransferTimersExpire := by
  intro s i hs
  rw [exec_motionTimeout hs, exec_confirmTimeout hs, exec_exitReadWindowExpiry hs]
  refine ⟨fun hfree => ?_, fun o ho => ⟨fun hc hp => ?_, fun h => ?_, fun hc hp hstop hk => ?_, fun h => ?_,
    fun x w hc hp hstop hk hg hw => ⟨fun hmark => ?_, fun hmark => ?_⟩, fun h => ?_⟩⟩
  · rw [endMotion_free hfree, endWindow_free hfree, endReadWindow_free hfree]
    exact ⟨rfl, rfl, rfl⟩
  · rw [endMotion_eq ho, if_neg (by simp [hc, hp])]
  · rw [endMotion_eq ho, if_pos h]
  · rw [endWindow_eq ho, if_neg (by simp [hc, hp, hstop, hk])]
  · rw [endWindow_eq ho, if_pos h]
  · rw [endReadWindow_exit ho hc hp hstop hk hg hw, if_neg (by simp [hmark])]
  · rw [endReadWindow_exit ho hc hp hstop hk hg hw, if_pos hmark]; rfl
  · rw [endReadWindow_idle ho h]

/-! ### The readings -/

theorem readTransfer_of {b : Byte} {i : Fin 34} (h : b.toNat = i.val) (s : State) :
    readTransfer b s = .reply (.slot (s.slot i)) := by simp only [readTransfer, slotOfByte_of h]

theorem readTransfer_out {b : Byte} (h : 33 < b.toNat) (s : State) : readTransfer b s = .refuse .outOfRange := by
  simp only [readTransfer, slotOfByte_out h]

/-- The pending claims that READ_APPROVALS shows from a first position (R82). -/
def State.approvalPart (s : State) (first : Nat) : List PendingClaim := (s.approvals.drop first).take 16

theorem State.length_approvalPart (s : State) (first : Nat) :
    (s.approvalPart first).length = min 16 (s.approvals.length - first) := by
  rw [approvalPart, List.length_take, List.length_drop]

theorem State.getElem?_approvalPart {s : State} {first n : Nat} (h : n < (s.approvalPart first).length) :
    (s.approvalPart first)[n]? = s.approvals[first + n]? := by
  rw [length_approvalPart] at h
  rw [approvalPart, List.getElem?_take_of_lt (by omega), List.getElem?_drop]

/-- Settles O33: both readings answer with the part of the table that they name, or refuse a name out of range. -/
theorem readTransferAndReadApprovals : Obligations.ReadTransferAndReadApprovals := by
  intro s b hs
  rw [Reads.ready (.transfer b) hs, Reads.ready (.approvals b) hs]
  refine ⟨fun hout => ?_, fun i hi => ?_, fun hout => ?_, fun hin => ⟨s.approvalPart b.toNat, ?_,
    s.length_approvalPart _, fun n => getElem?_approvalPart⟩⟩
  · rw [readTransfer_out hout, answered_refuse]
  · rw [readTransfer_of hi, answered_reply]
  · rw [readApprovals, if_pos hout, answered_refuse]
  · rw [readApprovals, if_neg (by omega), answered_reply]; rfl

end Sys2Proof.Machine
end

