-- ==== Sys2Proof/Proofs/CarriageReports.lean ====
section
/-! A carriage report is stored, and then judged by the lift's transfer or compared with the contents (R87, R88, R102). -/

open Sys2Proof Sys2Proof.Machine Sys2Proof.Machine.State

namespace Sys2Proof.Machine.State

theorem modLift_modLift (s : State) (x : Side) (f g : Lift → Lift) :
    (s.modLift x f).modLift x g = s.modLift x fun y => g (f y) := by
  have : upd (upd s.lifts x.ix f) x.ix g = upd s.lifts x.ix fun y => g (f y) := by simp [upd, nth]
  exact congrArg (fun v => { s with lifts := v }) this

/-- A lift with its latest report, the verdict on it and a state of its own. -/
def withReport (s : State) (x : Side) (r : CarriageReport) (disputed : Bool) (a : LiftStatus) : State := { s with
  lifts := s.lifts.set x.ix.val { s.lift x with report := some r, disputed := disputed, status := a } }

section
variable (s : State) (x : Side) (r : CarriageReport)

theorem lift_withReport (d : Bool) (a : LiftStatus) : (s.withReport x r d a).lift x =
    { s.lift x with report := some r, disputed := d, status := a } :=
  (lift_modLift s x x fun _ => { s.lift x with report := some r, disputed := d, status := a }).trans (if_pos rfl)

theorem setLift_withReport (d : Bool) (a b : LiftStatus) :
    (s.withReport x r d a).setLift x b = s.withReport x r d b :=
  modLift_modLift s x (fun _ => { s.lift x with report := some r, disputed := d, status := a }) fun y => { y with status := b }

theorem takeCarriageReport_eq : s.takeCarriageReport x r =
    (s.withReport x r (s.disputes x r) (s.lift x).status).judgeOrCompare x r (s.lift x).disputed := rfl

end

section
variable {s : State} {x : Side} {r : CarriageReport}

/-! ### The verdict on a report (R88) -/

theorem disputes_working (h : (s.lift x).status = .working) : s.disputes x r = false := by simp [disputes, h]

theorem disputes_agrees (h : reportCount r = none ∨ reportCount r = some (s.lift x).contents.length) :
    s.disputes x r = false := by
  obtain h | h := h <;> simp [disputes, h]

theorem disputes_differs {n : Nat} (h : (s.lift x).status ≠ .working) (hr : reportCount r = some n)
    (hn : n ≠ (s.lift x).contents.length) : s.disputes x r = true := by simp [disputes, h, hr, hn]

/-! ### What a report does -/

theorem takeCarriageReport_working (h : (s.lift x).status = .working) :
    s.takeCarriageReport x r = (s.withReport x r false .working).judgeCarriage (liftSlot x) r := by
  rw [takeCarriageReport_eq, disputes_working h, h]
  exact if_pos (by rw [lift_withReport])

theorem takeCarriageReport_agrees (h : (s.lift x).status ≠ .working)
    (hr : reportCount r = none ∨ reportCount r = some (s.lift x).contents.length) :
    s.takeCarriageReport x r = s.withReport x r false (s.lift x).status := by
  rw [takeCarriageReport_eq, disputes_agrees hr, judgeOrCompare, lift_withReport, if_neg h, if_neg (by simp)]

theorem takeCarriageReport_differs {n : Nat} (h : (s.lift x).status ≠ .working) (hr : reportCount r = some n)
    (hn : n ≠ (s.lift x).contents.length) :
    s.takeCarriageReport x r = (s.withReport x r true (s.lift x).status).disagree x (s.lift x).disputed := by
  rw [takeCarriageReport_eq, disputes_differs h hr hn, judgeOrCompare, lift_withReport, if_neg h, if_pos rfl]

/-! ### What a disagreeing report does (R88, R102) -/

section
variable (s x r) (before : Bool)

theorem disagree_blocked : (s.withReport x r true .blocked).disagree x before = s.withReport x r true .blocked := by
  simp only [disagree, lift_withReport]

theorem disagree_disabled : (s.withReport x r true .disabled).disagree x before =
    if before then s.withReport x r true .disabled else (s.withReport x r true .disabled).raise (.lift x .carriageMismatch) := by
  simp only [disagree, lift_withReport]; rfl

theorem disagree_ready : (s.withReport x r true .ready).disagree x before =
    (s.withReport x r true .blocked).raise (.lift x .carriageMismatch) := by
  simp only [disagree, dropParked, lift_withReport, setLift_withReport, reduceCtorEq, if_false]; rfl

theorem disagree_parked : (s.withReport x r true .parked).disagree x before =
    ((s.withReport x r true .blocked).send (.lift x) (.refuse .blocked)).raise (.lift x .carriageMismatch) := by
  simp only [disagree, dropParked, lift_withReport, setLift_withReport, if_true]; rfl

end
end
end Sys2Proof.Machine.State

namespace Sys2Proof.Machine

/-- Settles O39: the report is stored with its verdict, and only a disagreeing one of a lift that is not WORKING acts further. -/
theorem carriageReportsAreStoredAndCompared : Obligations.CarriageReportsAreStoredAndCompared := by
  intro s x r hs
  refine ⟨?_, ?_, takeCarriageReport_working, fun hidle => ⟨takeCarriageReport_agrees hidle, fun n hr hn => ?_⟩⟩
  · rw [(Frames.carriageState x r).exec_eq, frame_out hs]
  · rw [(Frames.liftBeacon x r).exec_eq, frame_out hs]
  · have hdiffers := takeCarriageReport_differs hidle hr hn
    refine ⟨fun h => ?_, fun h => ?_, fun h => ?_, fun h => ⟨fun hbefore => ?_, fun hbefore => ?_⟩⟩ <;>
      rw [hdiffers, h]
    · rw [disagree_blocked]; rfl
    · rw [disagree_ready]; rfl
    · rw [disagree_parked]; rfl
    · rw [disagree_disabled, hbefore]; rfl
    · rw [disagree_disabled, hbefore]; rfl

end Sys2Proof.Machine
end

