-- ==== Sys2Proof/Proofs/JobRequests.lean ====
section
/-! The answer to a JOB_REQUEST, and what the grant of a job does (R48, R89, R90, R99, R100, R124, R159). -/

open Sys2Proof Sys2Proof.Machine Sys2Proof.Machine.State

namespace Sys2Proof.Machine.State

/-! ### The answer by the lift's state (R89, R100) -/

section
variable {s : State} {x : Side}

theorem takeJobRequest_select (h : (s.lift x).status = .ready ∨ (s.lift x).status = .parked) :
    s.takeJobRequest x = s.selectOrPark x := by
  obtain h | h := h <;> simp only [takeJobRequest, h]

theorem selectOrPark_stopped (h : s.stopped = true) : s.selectOrPark x = s.park x := if_pos h

theorem selectOrPark_granted (h : s.stopped = false) (hjob : (s.select x).2 = true) : s.selectOrPark x = (s.select x).1 := by
  rw [selectOrPark, if_neg (by simp [h]), if_pos hjob]

theorem selectOrPark_none (h : s.stopped = false) (hjob : (s.select x).2 = false) :
    s.selectOrPark x = (s.select x).1.park x := by
  rw [selectOrPark, if_neg (by simp [h]), if_neg (by simp [hjob])]

end

/-! ### The entries that a granted take claims (R124) -/

/-- The record of an identity names the entry that a reference of a rank from 1 names. -/
def namesEntry (s : State) (i : Ident) (ref : EntryRef) : Prop :=
  ∃ r e, s.lookup i = some r ∧ r.entry = some e ∧ e.list = ref.list ∧ e.rank - 1 = ref.rank - 1

theorem namesEntry_iff (s : State) (i : Ident) (ref : EntryRef) : s.namesEntry i ref ↔
    ∃ e, (s.lookup i).bind (·.entry) = some e ∧ e.list = ref.list ∧ e.rank - 1 = ref.rank - 1 := by
  constructor
  · rintro ⟨r, e, hr, he, hsame⟩
    exact ⟨e, Option.bind_eq_some_iff.mpr ⟨r, hr, he⟩, hsame⟩
  · rintro ⟨e, he, hsame⟩
    obtain ⟨r, hr, hre⟩ := Option.bind_eq_some_iff.mp he
    exact ⟨r, e, hr, hre, hsame⟩

theorem entryState_same (s : State) {e ref : EntryRef} (h : e.list = ref.list ∧ e.rank - 1 = ref.rank - 1) :
    s.entryState e = s.entryState ref := by
  unfold entryState entryAt
  rw [h.1, h.2]

section
variable {s : State} {ref : EntryRef}

theorem entryState_claimEntry_pending {i : Ident} (hi : s.namesEntry i ref) (hp : s.entryState ref = some .pending) :
    (s.claimEntry i).entryState ref = some .claimed := by
  obtain ⟨e, he, hsame⟩ := (s.namesEntry_iff i ref).mp hi
  rw [claimEntry, he]
  dsimp only
  rw [if_pos ((s.entryState_same hsame).trans hp), entryState_set, if_pos hsame, hp]
  rfl

theorem entryState_claimEntry_kept {i : Ident} (h : ¬ s.namesEntry i ref ∨ s.entryState ref ≠ some .pending) :
    (s.claimEntry i).entryState ref = s.entryState ref := by
  rw [namesEntry_iff] at h
  unfold claimEntry
  cases he : (s.lookup i).bind (·.entry) with
  | none => rfl
  | some e =>
    dsimp only
    split
    · next hp =>
      rw [entryState_set]
      refine if_neg fun hsame => ?_
      exact h.elim (fun hnone => hnone ⟨e, he, hsame⟩) fun hother => hother ((s.entryState_same hsame).symm.trans hp)
    · rfl

theorem namesEntry_claimEntry (s : State) (i j : Ident) (ref : EntryRef) :
    (s.claimEntry i).namesEntry j ref ↔ s.namesEntry j ref := by
  have hrecords : (s.claimEntry i).records = s.records := by simp
  rw [namesEntry, namesEntry, lookup_of_records hrecords]

/-- An entry that no listed tote names, or that is not PENDING, keeps its state. -/
theorem entryState_foldl_claimEntry_kept (totes : List Ident) {s : State}
    (h : (∀ i ∈ totes, ¬ s.namesEntry i ref) ∨ s.entryState ref ≠ some .pending) :
    (totes.foldl claimEntry s).entryState ref = s.entryState ref := by
  induction totes generalizing s with
  | nil => rfl
  | cons i t ih =>
    have hhead : (s.claimEntry i).entryState ref = s.entryState ref :=
      entryState_claimEntry_kept (h.imp_left fun hnone => hnone i List.mem_cons_self)
    rw [List.foldl_cons, ih, hhead]
    rw [hhead]
    exact h.imp_left fun hnone j hj => mt (s.namesEntry_claimEntry i j ref).mp (hnone j (List.mem_cons_of_mem i hj))

/-- A PENDING entry that a listed tote names becomes CLAIMED. -/
theorem entryState_foldl_claimEntry_pending (totes : List Ident) {s : State} {i : Ident} (hi : i ∈ totes)
    (hname : s.namesEntry i ref) (hp : s.entryState ref = some .pending) :
    (totes.foldl claimEntry s).entryState ref = some .claimed := by
  induction totes generalizing s with
  | nil => cases hi
  | cons j t ih =>
    rw [List.foldl_cons]
    by_cases hj : s.namesEntry j ref
    · have hclaimed := entryState_claimEntry_pending hj hp
      rw [entryState_foldl_claimEntry_kept t (Or.inr (by rw [hclaimed]; decide)), hclaimed]
    · have hin : i ∈ t := (List.mem_cons.mp hi).resolve_left fun h => hj (h ▸ hname)
      exact ih hin ((s.namesEntry_claimEntry j i ref).mpr hname) ((entryState_claimEntry_kept (Or.inl hj)).trans hp)

end

/-! ### The grant of a job (R48, R99) -/

section
variable (s : State) (x : Side) (g : Grant)

theorem namesEntry_openTransfer (i : Ident) (ref : EntryRef) :
    (s.openTransfer g).namesEntry i ref ↔ s.namesEntry i ref := by
  rw [namesEntry_iff, namesEntry_iff, lookup_openTransfer]
  split
  · cases s.lookup i <;> rfl
  · rfl

theorem slot_grantJob : (s.grantJob x g).slot g.slot =
    { s.slot g.slot with generation := (s.slot g.slot).generation + 1, opened := some (s.openedBy g) } := by
  have hopened : (s.grantJob x g).slots = (s.openTransfer g).slots := by unfold grantJob; simp
  rw [slot_of_slots hopened, slot_openTransfer, if_pos rfl]

theorem lists_grantJob : (s.grantJob x g).lists = ((s.openTransfer g).claimTaken g).lists := by unfold grantJob; simp

theorem jobFrame_granted : ((s.openTransfer g).claimTaken g).jobFrame g =
    .job (BitVec.ofNat 8 g.slot.val) ((s.slot g.slot).generation + 1) g.kind g.totes.length
      ((laneNamed g.giver g.taker).bind fun k => s.stopOf k.level) ((laneNamed g.giver g.taker).map (·.name)) g.totes := by
  have hslots : ((s.openTransfer g).claimTaken g).slots = (s.openTransfer g).slots := by simp
  have hsettings : ((s.openTransfer g).claimTaken g).settings = s.settings := by simp
  have hstop : ∀ l, ((s.openTransfer g).claimTaken g).stopOf l = s.stopOf l := stopOf_of_settings hsettings
  simp only [jobFrame, slot_of_slots hslots, slot_openTransfer, if_true, hstop]

theorem link_grantJob (p : Port) : (s.grantJob x g).link p = if .lift x = p
    then { s.link p with order := (s.link p).order ++ [((s.openTransfer g).claimTaken g).jobFrame g] } else s.link p := by
  have hlinks : ((s.openTransfer g).claimTaken g).links = s.links := by simp
  rw [grantJob, sendJob, link_send, link_of_links hlinks]

theorem grantJob_rest : s.grantJob x g =
    { s.openTransfer g with links := (s.grantJob x g).links, lists := (s.grantJob x g).lists } := by
  have hkept : (s.grantJob x g).kept = (s.openTransfer g).kept := by simp
  unfold grantJob at *
  exact eq_of_fields hkept (by simp) (by simp) (by simp) (by simp) (by simp) (by simp) (by simp) (by simp) (by simp) rfl
    (by simp) (by simp) rfl (by simp) (by simp) (by simp) (by simp)

section
variable {s} {x} {g}

theorem claimTaken_other (h : g.kind ≠ .liftTake) : s.claimTaken g = s := if_neg h
theorem claimTaken_take (h : g.kind = .liftTake) : s.claimTaken g = g.totes.foldl claimEntry s := if_pos h

theorem lists_grantJob_other (h : g.kind ≠ .liftTake) : (s.grantJob x g).lists = s.lists := by
  rw [lists_grantJob, claimTaken_other h]; simp

theorem entryState_openTransfer (ref : EntryRef) : (s.openTransfer g).entryState ref = s.entryState ref :=
  entryState_of_lists (by simp) ref

theorem entryState_grantJob (h : g.kind = .liftTake) (ref : EntryRef) :
    (s.grantJob x g).entryState ref = (g.totes.foldl claimEntry (s.openTransfer g)).entryState ref := by
  rw [entryState_of_lists (s.lists_grantJob x g), claimTaken_take h]

theorem entryState_grantJob_kept (h : g.kind = .liftTake) {ref : EntryRef}
    (hkept : (∀ i ∈ g.totes, ¬ s.namesEntry i ref) ∨ s.entryState ref ≠ some .pending) :
    (s.grantJob x g).entryState ref = s.entryState ref := by
  rw [entryState_grantJob h, entryState_foldl_claimEntry_kept, entryState_openTransfer]
  rw [entryState_openTransfer]
  exact hkept.imp_left fun hnone i hi => mt (s.namesEntry_openTransfer g i ref).mp (hnone i hi)

theorem entryState_grantJob_pending (h : g.kind = .liftTake) {i : Ident} {ref : EntryRef} (hi : i ∈ g.totes)
    (hname : s.namesEntry i ref) (hp : s.entryState ref = some .pending) :
    (s.grantJob x g).entryState ref = some .claimed := by
  rw [entryState_grantJob h]
  exact entryState_foldl_claimEntry_pending _ hi ((s.namesEntry_openTransfer g i ref).mpr hname)
    ((entryState_openTransfer ref).trans hp)

end

theorem stateless_grantJob (l : Fin 16) :
    ((s.grantJob x g).list l).map ReleaseList.stateless = (s.list l).map ReleaseList.stateless := by
  have hlist : (s.grantJob x g).list l = ((s.openTransfer g).claimTaken g).list l := congrArg (nth · l) (lists_grantJob s x g)
  have hstart : (s.openTransfer g).list l = s.list l := congrArg (nth · l) (by simp)
  rw [hlist, claimTaken, ← hstart]
  split
  · exact stateless_foldl stateless_claimEntry ..
  · rfl

end
end Sys2Proof.Machine.State

namespace Sys2Proof.Machine

theorem exec_jobRequest {s : State} (hs : s.inReset = false) (x : Side) :
    exec (.jobRequest x) s = .next ((s.takeValid (.lift x)).takeJobRequest x).closeEvent :=
  ((Frames.jobRequest x).exec_eq s).trans (frame_out hs ..)

/-- Settles O40: the lift's state chooses the answer, and a grant is its opened transfer, its claimed entries and its JOB. -/
theorem jobRequestsAndGrantedJobs : Obligations.JobRequestsAndGrantedJobs := by
  refine ⟨fun s x hs => ?_, fun s x g => ?_⟩
  · dsimp only
    rw [exec_jobRequest hs]
    refine ⟨fun h => ?_, fun h => ?_, fun h => ?_, fun h => ?_⟩
    · rw [takeJobRequest, h]
    · rw [takeJobRequest, h]
    · rw [takeJobRequest, h]
    · rw [takeJobRequest_select h]
      refine ⟨fun hstop => ?_, fun hrun hjob => ?_, fun hrun hjob => ?_⟩
      · rw [selectOrPark_stopped hstop]; rfl
      · rw [selectOrPark_granted hrun hjob]
      · rw [selectOrPark_none hrun hjob]; rfl
  · refine ⟨by rw [slot_grantJob], by rw [slot_grantJob, slot_openTransfer, if_pos rfl], fun k hk => ?_, fun hnone => ?_,
      fun p hp => ?_, lists_grantJob_other, stateless_grantJob s x g, fun htake ref hother => ?_,
      fun htake i r ref hi hr he hp => entryState_grantJob_pending htake hi ⟨r, ref, hr, he, rfl, rfl⟩ hp,
      fun htake ref hp => entryState_grantJob_kept htake (Or.inr hp), grantJob_rest s x g⟩
    · rw [link_grantJob, if_pos rfl, jobFrame_granted, hk]; rfl
    · rw [link_grantJob, if_pos rfl, jobFrame_granted, hnone]; rfl
    · rw [link_grantJob, if_neg (Ne.symm hp)]
    · refine entryState_grantJob_kept htake (Or.inl fun i hi => ?_)
      rintro ⟨r, e, hr, he, hlist, hrank⟩
      exact (hother i r e hi hr he).elim (fun h => h hlist) fun h => h hrank

end Sys2Proof.Machine
end

