-- ==== Sys2Proof/Proofs/ExitReads.lean ====
section
/-! Exit reads: the unsolicited one, the match and the fault (R126 to R130, R139). -/

open Sys2Proof Sys2Proof.Machine Sys2Proof.Machine.State

namespace Sys2Proof.Machine.State

/-! ### A tote that leaves its carriage at the exit (R128, R129) -/

section
variable (s : State) (x : Side) (y : Ident)

/-- One tote gone from the carriage that gives it. -/
def departed (s : State) (x : Side) (y : Ident) : State := s.leaveGiver (.carriage x) [y]

theorem lookup_departed (z : Ident) : (s.departed x y).lookup z = s.lookup z := rfl

theorem contents_departed : ((s.departed x y).lift x).contents = (s.lift x).contents.filter fun z => z ≠ y := by
  rw [departed, contents_leaveGiver, if_pos rfl]
  simp only [List.mem_singleton]

end

/-! ### The match (R128) -/

section
variable (s : State) (x : Side) (y : Ident)

theorem records_exitMatch : (s.exitMatch x y).records = ((s.departed x y).retire y).records := by
  unfold exitMatch
  split
  · rfl
  · simp; rfl

theorem lifts_exitMatch : (s.exitMatch x y).lifts = (s.departed x y).lifts := by
  unfold exitMatch
  split
  · rfl
  · simp; rfl

theorem lookup_exitMatch (z : Ident) : (s.exitMatch x y).lookup z = if y = z then none else s.lookup z := by
  rw [lookup_of_records (s.records_exitMatch x y), lookup_retire, lookup_departed]

theorem contents_exitMatch : ((s.exitMatch x y).lift x).contents = (s.lift x).contents.filter fun z => z ≠ y := by
  rw [lift_of_lifts (s.lifts_exitMatch x y), contents_departed]

/-- A match before the test of the list for its completion (R128). -/
def exitDelivered (s : State) (x : Side) (y : Ident) (ref : EntryRef) : State :=
  ((s.departed x y).retire y).finishEntry ref .delivered

theorem stationOf_retired (ref other : EntryRef) (e : EntryState) :
    (((s.departed x y).retire y).setEntryState ref e).stationOf other = s.stationOf other := by
  rw [stationOf_setEntryState]; rfl

theorem settings_retired (ref : EntryRef) (e : EntryState) :
    (((s.departed x y).retire y).setEntryState ref e).settings = s.settings := by
  unfold setEntryState; simp; rfl

theorem entryState_exitDelivered (ref : EntryRef) :
    (s.exitDelivered x y ref).entryState ref = (s.entryState ref).map fun _ => .delivered := by
  have hreported : (s.exitDelivered x y ref).lists = (((s.departed x y).retire y).setEntryState ref .delivered).lists := by
    unfold exitDelivered finishEntry; simp
  rw [entryState_of_lists hreported, entryState_set_self]
  rfl

theorem exitDelivered_rest (ref : EntryRef) : s.exitDelivered x y ref = { s with
    records := ((s.departed x y).retire y).records, lifts := (s.departed x y).lifts
    lists := (s.exitDelivered x y ref).lists, flags := (s.exitDelivered x y ref).flags } := by
  have hkept : (s.exitDelivered x y ref).kept = ((s.departed x y).retire y).kept := kept_finishEntry ..
  obtain ⟨-, -, hrecords, hlanes, hlevels, hslots, hclaims, happrovals, hlifts, hentries, hstations, hopening, hunsolicited,
    hlinks, hattention, hcause, hfresh⟩ := finishEntry_frame ((s.departed x y).retire y) ref .delivered
  exact eq_of_fields hkept hrecords hlanes hlevels hslots hclaims happrovals hlifts hentries hstations rfl hopening
    hunsolicited hlinks rfl hattention hcause hfresh

theorem raiseDelivered_each {s : State} {n : StationNo} (h : nth s.settings.reportMode n = .each) :
    s.raiseDelivered n = s.raise (.station n .delivered) := if_pos h

theorem raiseDelivered_list {s : State} {n : StationNo} (h : nth s.settings.reportMode n = .list) :
    s.raiseDelivered n = s := if_neg (by rw [h]; decide)

section
variable {s x y}

theorem exitMatch_unsequenced (h : (s.lookup y).bind (·.entry) = none) : s.exitMatch x y = (s.departed x y).retire y := by
  rw [exitMatch, h]; rfl

theorem exitMatch_sequenced {ref : EntryRef} (h : (s.lookup y).bind (·.entry) = some ref) :
    s.exitMatch x y = (s.exitDelivered x y ref).testComplete ref.list := by
  rw [exitMatch, h]; rfl

/-- A delivery is reported to its station's group in the station's report mode (R139). -/
theorem exitDelivered_eq {ref : EntryRef} {n : StationNo} (h : s.stationOf ref = some n) : s.exitDelivered x y ref =
    (((s.departed x y).retire y).setEntryState ref .delivered).raiseDelivered n := by
  rw [exitDelivered, finishEntry, reportDelivery, stationOf_retired, h]
  exact if_pos rfl

theorem raised_exitDelivered {ref : EntryRef} {n : StationNo} (h : s.stationOf ref = some n)
    (hmode : nth s.settings.reportMode n = .each) : (s.exitDelivered x y ref).raised (.station n .delivered) = true := by
  rw [exitDelivered_eq h, raiseDelivered_each (by rw [settings_retired]; exact hmode)]
  exact raised_raise_self ..

theorem flags_exitDelivered {ref : EntryRef} {n : StationNo} (h : s.stationOf ref = some n)
    (hmode : nth s.settings.reportMode n = .list) : (s.exitDelivered x y ref).flags = s.flags := by
  rw [exitDelivered_eq h, raiseDelivered_list (by rw [settings_retired]; exact hmode)]
  unfold setEntryState; simp; rfl

end
end

/-! ### The fault (R126, R129) -/

section
variable (s : State) (x : Side) (y read : Ident)

/-- The hold of a tote that left by an exit fault (R129). -/
def faultHold (x : Side) (read : Ident) : Hold := { reason := faultReason read, giver := .carriage x, taker := .exit }

/-- A tote held at the exit, before its entry and its station take the fault (R129). -/
def exitHeld (s : State) (x : Side) (y read : Ident) : State := (s.departed x y).hold y (faultHold x read)

theorem exitFault_eq : s.exitFault x y read = (s.exitHeld x y read).faultEntry ((s.lookup y).bind (·.entry))
    { expected := y, read := read, reason := faultReason read } := rfl

theorem lookup_exitFault (z : Ident) : (s.exitFault x y read).lookup z =
    if y = z then (s.lookup z).map fun r => { r with place := .held (faultHold x read), transfer := none } else s.lookup z := by
  have hrecords : (s.exitFault x y read).records = (s.exitHeld x y read).records := by rw [exitFault_eq]; simp
  rw [lookup_of_records hrecords, exitHeld, lookup_hold, lookup_departed]

theorem contents_exitFault : ((s.exitFault x y read).lift x).contents = (s.lift x).contents.filter fun z => z ≠ y := by
  have hlifts : (s.exitFault x y read).lifts = (s.departed x y).lifts := by rw [exitFault_eq, exitHeld]; simp
  rw [lift_of_lifts hlifts, contents_departed]

theorem raised_faultEntry {s : State} {f : Flag} (ref : Option EntryRef) (e : ExitFault) (h : s.raised f = true) :
    (s.faultEntry ref e).raised f = true := by
  cases ref with
  | none => exact h
  | some ref =>
    have hentry : (s.setEntryState ref .exitHeld).raised f = true := raised_of_flags (by unfold setEntryState; simp) h
    show ((s.setEntryState ref .exitHeld).stallOf ref e).raised f = true
    unfold stallOf
    split
    · exact hentry
    · next n _ => exact raised_raise (.station n .exitFault) hentry

theorem holdRaised_exitFault : (s.exitFault x y read).raised (.aisle .holdRaised) = true :=
  raised_faultEntry _ _ (raised_hold ..)

section
variable {s x y read}

theorem exitFault_unsequenced (h : (s.lookup y).bind (·.entry) = none) : s.exitFault x y read = s.exitHeld x y read := by
  rw [exitFault_eq, h]; rfl

theorem exitHeld_rest : s.exitHeld x y read = { s with
    records := (s.exitHeld x y read).records, lifts := (s.exitHeld x y read).lifts
    flags := (s.exitHeld x y read).flags } := rfl

/-- A sequenced tote's fault stalls the station of its entry (R126). -/
theorem exitFault_sequenced {ref : EntryRef} {n : StationNo} (h : (s.lookup y).bind (·.entry) = some ref)
    (hn : s.stationOf ref = some n) : s.exitFault x y read = ((s.exitHeld x y read).setEntryState ref .exitHeld).stall n
      { expected := y, read := read, reason := faultReason read } := by
  have hstation : ((s.exitHeld x y read).setEntryState ref .exitHeld).stationOf ref = some n := by
    rw [stationOf_setEntryState]; exact hn
  rw [exitFault_eq, h, faultEntry, stallOf, hstation]

variable {ref : EntryRef} {n : StationNo} (h : (s.lookup y).bind (·.entry) = some ref) (hn : s.stationOf ref = some n)
include h hn

theorem entryState_exitFault : (s.exitFault x y read).entryState ref = (s.entryState ref).map fun _ => .exitHeld := by
  have hlists : (s.exitFault x y read).lists = ((s.exitHeld x y read).setEntryState ref .exitHeld).lists := by
    rw [exitFault_sequenced h hn]; rfl
  rw [entryState_of_lists hlists, entryState_set_self]
  rfl

theorem station_exitFault : (s.exitFault x y read).station n = { s.station n with
    stalled := true, fault := some { expected := y, read := read, reason := faultReason read } } := by
  have hstation : ((s.exitHeld x y read).setEntryState ref .exitHeld).station n = s.station n :=
    congrArg (nth · n) (by unfold setEntryState; simp; rfl)
  rw [exitFault_sequenced h hn]
  refine (station_modStation ((s.exitHeld x y read).setEntryState ref .exitHeld) n n _).trans ?_
  rw [if_pos rfl, hstation]

theorem stationRaised_exitFault : (s.exitFault x y read).raised (.station n .exitFault) = true := by
  rw [exitFault_sequenced h hn]
  exact raised_raise_self ..

end

theorem exitFault_rest : s.exitFault x y read = { s with
    records := (s.exitFault x y read).records, lifts := (s.exitFault x y read).lifts
    flags := (s.exitFault x y read).flags, lists := (s.exitFault x y read).lists
    stations := (s.exitFault x y read).stations } := by
  have hlanes : (s.exitFault x y read).lanes = (s.exitHeld x y read).lanes := by rw [exitFault_eq]; simp
  have hentries : (s.exitFault x y read).entries = (s.exitHeld x y read).entries := by rw [exitFault_eq]; simp
  obtain ⟨-, -, hlevels, hslots, hclaims, happrovals, hopening, hunsolicited, hlinks, hattention, hcause, hfresh⟩ :=
    exitFault_frame s x y read
  exact eq_of_fields (kept_exitFault s x y read) rfl hlanes hlevels hslots hclaims happrovals rfl hentries rfl rfl hopening
    hunsolicited hlinks rfl hattention hcause hfresh

end

/-! ### The read (R127) -/

section
variable {s : State} {x : Side}

theorem strikeOff_open {i : Fin 34} {o : Open} (h : (s.slot i).opened = some o) (y : Ident) :
    s.strikeOff i y = s.advance i { o with totes := o.totes.filter fun z => z ≠ y, reads := o.reads + 1 } := by
  simp only [strikeOff, h]

theorem expectedAt_none (h : ∀ o, (s.slot (liftSlot x)).opened = some o → o.kind ≠ .exitUnload ∨ o.totes = []) :
    s.expectedAt x = none := by
  unfold expectedAt
  split
  · next o ho =>
    obtain hkind | htotes := h o ho
    · exact if_neg hkind
    · rw [htotes]; exact ite_self _
  · rfl

theorem expectedAt_some {o : Open} {y : Ident} {rest : List Ident} (ho : (s.slot (liftSlot x)).opened = some o)
    (hkind : o.kind = .exitUnload) (htotes : o.totes = y :: rest) : s.expectedAt x = some y := by
  simp only [expectedAt, ho, hkind, htotes, if_true, List.head?_cons]

theorem takeExitRead_unsolicited (h : s.expectedAt x = none) (i : Ident) :
    s.takeExitRead x i = ({ s with unsolicited := some (x, i) } : State).raise (.aisle .unexpectedTote) := by
  rw [takeExitRead, h]; rfl

theorem takeExitRead_expected {y : Ident} (h : s.expectedAt x = some y) (i : Ident) :
    s.takeExitRead x i = (if i = y then s.exitMatch x y else s.exitFault x y i).strikeOff (liftSlot x) y := by
  rw [takeExitRead, h]
  dsimp only
  split <;> rfl

end
end Sys2Proof.Machine.State

namespace Sys2Proof.Machine

section
variable {s : State} (hs : s.inReset = false) {b : Byte} (read : Ident)
include hs

theorem exec_exitRead_out (h : 1 < b.toNat) : exec (.exitRead b read) s = .next (s.takeValid .front).closeEvent := by
  rw [(Frames.exitRead b read).exec_eq, frame_out hs, Side.ofByte_out h]

theorem exec_exitRead_of {x : Side} (h : b.toNat = x.ix.val) : exec (.exitRead b read) s =
    .next ((s.takeValid .front).takeExitRead x ((s.takeValid .front).correct read)).closeEvent := by
  rw [(Frames.exitRead b read).exec_eq, frame_out hs, Side.ofByte_of h]

end

/-- Settles O50: a read matches, faults or finds nothing expected, and each leaves what its lemmas above say. -/
theorem exitReadsAreMatched : Obligations.ExitReadsAreMatched := by
  refine ⟨fun s xb read hs => ⟨exec_exitRead_out hs read, fun x hx => ⟨fun hnone => ?_, fun o y rest ho hkind htotes => ?_⟩⟩,
    fun s i o y ho => by rw [strikeOff_open ho, advance_eq], fun s x y r hr => ⟨?_, fun z hz => ?_, contents_exitMatch s x y,
    fun hentry => ?_, fun ref n hentry hn => ⟨s.exitDelivered x y ref, ?_, ?_, entryState_exitDelivered s x y ref,
    raised_exitDelivered hn, flags_exitDelivered hn⟩⟩, fun s x y read r hr => ⟨?_, fun z hz => ?_,
    contents_exitFault s x y read, holdRaised_exitFault s x y read, fun hentry => ?_, fun ref n hentry hn => ?_⟩⟩
  · rw [exec_exitRead_of hs read hx, takeExitRead_unsolicited (expectedAt_none hnone)]
  · rw [exec_exitRead_of hs read hx, takeExitRead_expected (expectedAt_some ho hkind htotes)]
  · rw [lookup_exitMatch, if_pos rfl]
  · rw [lookup_exitMatch, if_neg (Ne.symm hz)]
  · have hnone : (s.lookup y).bind (·.entry) = none := by rw [hr]; exact hentry
    rw [exitMatch_unsequenced hnone]; rfl
  · have hsome : (s.lookup y).bind (·.entry) = some ref := by rw [hr]; exact hentry
    exact exitMatch_sequenced hsome
  · rw [records_exitMatch, lifts_exitMatch]
    exact exitDelivered_rest s x y ref
  · rw [lookup_exitFault, if_pos rfl, hr]; rfl
  · rw [lookup_exitFault, if_neg (Ne.symm hz)]
  · have hnone : (s.lookup y).bind (·.entry) = none := by rw [hr]; exact hentry
    rw [exitFault_unsequenced hnone]; exact exitHeld_rest
  · have hsome : (s.lookup y).bind (·.entry) = some ref := by rw [hr]; exact hentry
    exact ⟨entryState_exitFault hsome hn, station_exitFault hsome hn, stationRaised_exitFault hsome hn,
      exitFault_rest s x y read⟩

end Sys2Proof.Machine
end

