-- ==== Sys2Proof/Proofs/AisleStop.lean ====
section
/-! The aisle stop: its assertion pauses the timers and ends the pending claims, its release restarts the timers (R65, R81, R141 to
R143, R162; logs 5, 11 and 12). -/

open Sys2Proof Sys2Proof.Machine Sys2Proof.Machine.State

namespace Sys2Proof.Machine

/-! ### STATUS on a link (R162) -/

namespace Link

/-- The frames of an order other than STATUS (R162). -/
def unstatused (order : List OutFrame) : List OutFrame := order.filter fun f => !f.isStatus

theorem unstatused_status (b : Bool) (rest : List OutFrame) : unstatused (.status b :: rest) = unstatused rest := rfl

theorem unstatused_append_status (order : List OutFrame) (b : Bool) :
    unstatused (order ++ [.status b]) = unstatused order := by
  unfold unstatused
  rw [List.filter_append]
  exact List.append_nil _

theorem unstatused_of_status {f : OutFrame} (h : f.isStatus = true) (rest : List OutFrame) :
    unstatused (f :: rest) = unstatused rest := List.filter_cons_of_neg (by simp [h])

theorem unstatused_cons_congr (f : OutFrame) {a b : List OutFrame} (h : unstatused a = unstatused b) :
    unstatused (f :: a) = unstatused (f :: b) := by
  unfold unstatused at *
  rw [List.filter_cons, List.filter_cons, h]

theorem unstatused_replaced (order : List OutFrame) (b : Bool) :
    unstatused (order.map fun f => if f.isStatus then .status b else f) = unstatused order := by
  induction order with
  | nil => rfl
  | cons f rest ih =>
    rw [List.map_cons]
    split
    · next hf => rw [unstatused_status, unstatused_of_status hf, ih]
    · exact unstatused_cons_congr f ih

theorem mem_replaced {order : List OutFrame} (h : order.any OutFrame.isStatus = true) (b : Bool) :
    .status b ∈ order.map fun f => if f.isStatus then .status b else f := by
  obtain ⟨f, hf, hstatus⟩ := List.any_eq_true.mp h
  exact List.mem_map.mpr ⟨f, hf, if_pos hstatus⟩

section
variable (x : Link) (begins stopped : Bool)

theorem heard_putStatus : (x.putStatus begins stopped).heard = x.heard := by
  unfold putStatus; (repeat' split) <;> rfl

/-- STATUS takes the place of a waiting one, and no other frame is lost or moved (R162). -/
theorem unstatused_putStatus : unstatused (x.putStatus begins stopped).order = unstatused x.order := by
  unfold putStatus
  cases x.order with
  | nil => rfl
  | cons h rest =>
    dsimp only
    split
    · exact unstatused_cons_congr h (unstatused_replaced rest stopped)
    · split
      · next hh =>
        split
        · exact unstatused_cons_congr h (unstatused_append_status rest stopped)
        · exact (unstatused_of_status hh rest).symm
      · exact unstatused_cons_congr h (unstatused_append_status rest stopped)

theorem mem_putStatus : .status stopped ∈ (x.putStatus begins stopped).order := by
  unfold putStatus
  cases x.order with
  | nil => exact List.mem_singleton_self _
  | cons h rest =>
    have hlast : OutFrame.status stopped ∈ h :: (rest ++ [.status stopped]) := by simp
    dsimp only
    split
    · next hany => exact List.mem_cons_of_mem h (mem_replaced hany stopped)
    · split
      · split
        · exact hlast
        · exact List.mem_cons_self
      · exact hlast

end
end Link

namespace State

/-! ### Every pending claim ended (R81) -/

/-- The pending claims of a list's levels ended with REFUSE STOPPED, in the order of the list (R81). -/
def refuseStopped (s : State) (ends : List PendingClaim) : State := ends.foldl (fun t p => t.endClaim p.level .stopped) s

section
variable {s : State} {p : PendingClaim} {ends : List PendingClaim}

theorem refuseStopped_cons : s.refuseStopped (p :: ends) = (s.endClaim p.level .stopped).refuseStopped ends := rfl

theorem pendingOf_endClaim (s : State) (l k : Level) (why : Code) :
    (s.endClaim l why).pendingOf k = if l = k then none else s.pendingOf k :=
  pendingOf_filter s l k _ (approvals_endClaim s l why)

theorem stopOf_endClaim (s : State) (l k : Level) (why : Code) : (s.endClaim l why).stopOf k = s.stopOf k :=
  stopOf_of_settings (by simp) k

theorem approvals_refuseStopped (s : State) (ends : List PendingClaim) :
    (s.refuseStopped ends).approvals = s.approvals.filter fun p => p.level ∉ ends.map (·.level) := by
  induction ends generalizing s with
  | nil => simp [refuseStopped]
  | cons p t ih =>
    rw [refuseStopped_cons, ih, approvals_endClaim, List.filter_filter]
    refine List.filter_congr fun q _ => ?_
    simp only [List.map_cons, List.mem_cons, not_or, Bool.decide_and, ne_eq]
    exact Bool.and_comm ..

theorem claimState_refuseStopped (s : State) (ends : List PendingClaim) (l : Level) :
    (s.refuseStopped ends).claimState l =
      if l ∈ ends.map (·.level) ∧ (s.pendingOf l).isSome then .idle else s.claimState l := by
  induction ends generalizing s with
  | nil => simp [refuseStopped]
  | cons p t ih =>
    rw [refuseStopped_cons, ih, claimState_endClaim, pendingOf_endClaim, List.map_cons]
    by_cases hp : p.level = l
    · subst hp; simp
    · simp [hp, Ne.symm hp]

/-- The refusals go to the end of a link's order. -/
theorem link_refuseStopped (s : State) (ends : List PendingClaim) (q : Port) :
    ∃ more, (s.refuseStopped ends).link q = { s.link q with order := (s.link q).order ++ more } := by
  induction ends generalizing s with
  | nil => exact ⟨[], by rw [List.append_nil]; rfl⟩
  | cons p t ih =>
    obtain ⟨more, hmore⟩ := ih (s.endClaim p.level .stopped)
    rw [refuseStopped_cons, hmore, link_endClaim]
    split
    · exact ⟨.refuse .stopped :: more, by simp⟩
    · exact ⟨more, rfl⟩

theorem link_refuseStopped_other {q : Port}
    (h : ∀ n l, s.stopOf l = some n → (s.pendingOf l).isSome → q ≠ .stop n) : (s.refuseStopped ends).link q = s.link q := by
  induction ends generalizing s with
  | nil => rfl
  | cons p t ih =>
    have hhead : (s.endClaim p.level .stopped).link q = s.link q := by
      rw [link_endClaim, if_neg]
      rintro ⟨hpending, hstop⟩
      obtain ⟨n, hn, rfl⟩ := Option.map_eq_some_iff.mp hstop
      exact h n _ hn hpending rfl
    rw [refuseStopped_cons, ih, hhead]
    intro n l hn hpending
    rw [pendingOf_endClaim] at hpending
    rw [stopOf_endClaim] at hn
    split at hpending
    · cases hpending
    · exact h n l hn hpending

/-- A stop with one level mapped to it gets the one refusal of that level's claim. -/
theorem link_refuseStopped_stop {n : Stop} {l : Level} (hn : s.stopOf l = some n) (hpending : (s.pendingOf l).isSome)
    (honly : ∀ k, k ≠ l → s.stopOf k ≠ some n) (hl : l ∈ ends.map (·.level)) : (s.refuseStopped ends).link (.stop n) =
      { s.link (.stop n) with order := (s.link (.stop n)).order ++ [.refuse .stopped] } := by
  induction ends generalizing s with
  | nil => cases hl
  | cons p t ih =>
    rw [refuseStopped_cons]
    by_cases hp : p.level = l
    · rw [link_refuseStopped_other, hp, link_endClaim, if_pos ⟨hpending, by rw [hn]; rfl⟩]
      intro m k hm hk heq
      obtain rfl : n = m := Port.stop.inj heq
      rw [stopOf_endClaim] at hm
      obtain rfl : k = l := by_contra fun hkl => honly k hkl hm
      rw [pendingOf_endClaim, if_pos hp] at hk
      cases hk
    · have hhead : (s.endClaim p.level .stopped).link (.stop n) = s.link (.stop n) := by
        rw [link_endClaim, if_neg]
        rintro ⟨-, hstop⟩
        obtain ⟨m, hm, heq⟩ := Option.map_eq_some_iff.mp hstop
        exact honly p.level hp (hm.trans (congrArg some (Port.stop.inj heq)))
      rw [ih, hhead]
      · rw [stopOf_endClaim]; exact hn
      · rw [pendingOf_endClaim, if_neg hp]; exact hpending
      · intro k hk; rw [stopOf_endClaim]; exact honly k hk
      · exact (List.mem_cons.mp hl).resolve_left (Ne.symm hp)

theorem refuseStopped_rest (s : State) (ends : List PendingClaim) : s.refuseStopped ends = { s with
    approvals := (s.refuseStopped ends).approvals, claims := (s.refuseStopped ends).claims
    links := (s.refuseStopped ends).links } := by
  have hkept : (s.refuseStopped ends).kept = s.kept := kept_foldl _ (by intros; simp) ..
  unfold refuseStopped at *
  exact eq_of_fields hkept (by simp) (by simp) (by simp) (by simp) rfl rfl (by simp) (by simp) (by simp) (by simp) (by simp)
    (by simp) rfl (by simp) (by simp) (by simp) (by simp)

theorem mem_approvals_of_pending {l : Level} (h : (s.pendingOf l).isSome) : l ∈ s.approvals.map (·.level) := by
  obtain ⟨p, hp, hl⟩ := List.find?_isSome.mp h
  exact List.mem_map.mpr ⟨p, hp, eq_of_beq hl⟩

end

/-! ### The change of the stop line (R141, R162) -/

section
variable (s : State) (line : Bool)

/-- A change of the stop line told: STOP_CHANGE is raised and STATUS goes out on every link (R142, R143). -/
def lineTold (s : State) (line : Bool) : State := ((s.setLine line).raise (.aisle .stopChange)).sendStatus

theorem link_lineTold (p : Port) :
    (s.lineTold line).link p = (s.link p).putStatus (Config.frameBegun s.fresh p.ix.val) line := nth_tab ..

theorem status_lineTold (p : Port) : .status line ∈ ((s.lineTold line).link p).order ∧
    ((s.lineTold line).link p).status = (s.link p).status ∧ ((s.lineTold line).link p).heard = (s.link p).heard ∧
    Link.unstatused ((s.lineTold line).link p).order = Link.unstatused (s.link p).order := by
  rw [link_lineTold]
  exact ⟨Link.mem_putStatus .., sameFences.status_putStatus .., Link.heard_putStatus .., Link.unstatused_putStatus ..⟩

theorem raised_lineTold : (s.lineTold line).raised (.aisle .stopChange) = true :=
  raised_raise_self (s.setLine line) (.aisle .stopChange)

theorem flags_lineTold {g : Fin 41} (h : g ≠ 0) : nth (s.lineTold line).flags g = nth s.flags g :=
  flags_raise_ne (s.setLine line) (.aisle .stopChange) g (Ne.symm h)

theorem slot_pauseTimers (i : Fin 34) : s.pauseTimers.slot i =
    { s.slot i with opened := (s.slot i).opened.map fun o => { o with paused := true } } := nth_tab ..

theorem slot_restartTimers (i : Fin 34) : s.restartTimers.slot i =
    { s.slot i with opened := (s.slot i).opened.map fun o => { o with timer := s.fullTimer o, paused := false } } := nth_tab ..

theorem fullTimer_eq (o : Open) : s.fullTimer o =
    if o.confirming then
      (if o.kind = .exitUnload then s.settings.params.exitReadWindow else s.settings.params.confirmWindow)
    else if o.kind = .shuttlePut ∨ o.kind = .shuttleTake then s.settings.params.motionLimitShuttle
    else s.settings.params.motionLimitLift := by
  have hmotion : s.settings.params.motionLimit o.kind =
      if o.kind = .shuttlePut ∨ o.kind = .shuttleTake then s.settings.params.motionLimitShuttle
      else s.settings.params.motionLimitLift := by cases o.kind <;> rfl
  rw [fullTimer, hmotion]; rfl

/-- The assertion before the pending claims end (R65, R142). -/
def stopTold (s : State) : State := (s.lineTold true).pauseTimers

theorem assertStop_eq : s.assertStop = s.stopTold.refuseStopped s.approvals := rfl

theorem approvals_assertStop : s.assertStop.approvals = [] := by
  rw [assertStop_eq, approvals_refuseStopped, List.filter_eq_nil_iff]
  intro p hp
  simpa using ⟨p, hp, rfl⟩

theorem claimState_assertStop (l : Level) :
    s.assertStop.claimState l = if (s.pendingOf l).isSome then .idle else s.claimState l := by
  rw [assertStop_eq, claimState_refuseStopped]
  exact if_congr (and_iff_right_of_imp mem_approvals_of_pending) rfl rfl

theorem slots_assertStop : s.assertStop.slots = s.stopTold.slots := by rw [assertStop_eq, refuseStopped]; simp

theorem flags_assertStop : s.assertStop.flags = (s.lineTold true).flags := by
  rw [assertStop_eq, refuseStopped]; simp [stopTold]

theorem fresh_assertStop : s.assertStop.fresh = (s.lineTold true).fresh := by
  rw [assertStop_eq, refuseStopped]; simp [stopTold]

theorem assertStop_rest : s.assertStop = { s with
    stopLine := true, stopped := true, slots := s.assertStop.slots, approvals := [], claims := s.assertStop.claims
    links := s.assertStop.links, flags := s.assertStop.flags, fresh := s.assertStop.fresh } := by
  have hrest := refuseStopped_rest s.stopTold s.approvals
  rw [slots_assertStop, flags_assertStop, fresh_assertStop, ← s.approvals_assertStop]
  exact hrest

theorem slot_assertStop (i : Fin 34) : s.assertStop.slot i =
    { s.slot i with opened := (s.slot i).opened.map fun o => { o with paused := true } } := by
  rw [slot_of_slots s.slots_assertStop, stopTold, slot_pauseTimers]
  rfl

theorem status_assertStop (p : Port) : .status true ∈ (s.assertStop.link p).order ∧
    (s.assertStop.link p).status = (s.link p).status ∧ (s.assertStop.link p).heard = (s.link p).heard := by
  obtain ⟨hmem, hstatus, hheard, -⟩ := s.status_lineTold true p
  obtain ⟨more, hmore⟩ := link_refuseStopped s.stopTold s.approvals p
  rw [assertStop_eq, hmore]
  exact ⟨List.mem_append_left more hmem, hstatus, hheard⟩

theorem slot_releaseStop (i : Fin 34) : s.releaseStop.slot i = { s.slot i with
    opened := (s.slot i).opened.map fun o => { o with timer := s.fullTimer o, paused := false } } :=
  slot_restartTimers (s.lineTold false) i

end

section
variable {s : State}

theorem order_assertStop_stop {n : Stop} {l : Level} (hn : s.stopOf l = some n) (hpending : (s.pendingOf l).isSome)
    (honly : ∀ k, k ≠ l → s.stopOf k ≠ some n) :
    (s.assertStop.link (.stop n)).order = ((s.lineTold true).link (.stop n)).order ++ [.refuse .stopped] := by
  rw [assertStop_eq, link_refuseStopped_stop (s := s.stopTold) hn hpending honly (mem_approvals_of_pending hpending)]
  rfl

theorem link_assertStop_other {p : Port} (h : ∀ n l, s.stopOf l = some n → (s.pendingOf l).isSome → p ≠ .stop n) :
    s.assertStop.link p = (s.lineTold true).link p := link_refuseStopped_other (s := s.stopTold) h

end
end State

/-! ### The commands of the stop line -/

section
variable {s : State}

theorem exec_stopAsserted_again (h : s.stopLine = true) : exec .stopAsserted s = .next s := congrArg Host.Outcome.next (if_pos h)

theorem exec_stopReleased_again (h : s.stopLine = false) : exec .stopReleased s = .next s :=
  congrArg Host.Outcome.next (if_neg (by simp [h]))

theorem exec_stopAsserted_eq (h : s.stopLine = false) :
    exec .stopAsserted s = .next (if s.inReset then s.setLine true else s.assertStop.closeEvent) :=
  congrArg Host.Outcome.next (if_neg (by simp [h]))

theorem exec_stopReleased_eq (h : s.stopLine = true) :
    exec .stopReleased s = .next (if s.inReset then s.setLine false else s.releaseStop.closeEvent) :=
  congrArg Host.Outcome.next (if_pos h)

end

/-- Settles O57: the change is told on every link by STATUS alone, and the refusals of the pending claims follow it. -/
theorem theAisleStopPausesAndRestarts : Obligations.TheAisleStopPausesAndRestarts := by
  refine ⟨fun s hline => ⟨fun hr => ?_, fun hr => ⟨s.assertStop, ?_, s.assertStop_rest, ?_, fun g hg => ?_,
    s.slot_assertStop, s.claimState_assertStop, fun n l hn hpending honly => ⟨_, order_assertStop_stop hn hpending honly,
    (s.status_lineTold true (.stop n)).2.2.2⟩, fun p hp => ?_, s.status_assertStop⟩⟩,
    fun s hline => ⟨exec_stopAsserted_again hline, fun hr => ?_, fun hr => ⟨s.releaseStop, ?_, rfl,
    s.raised_lineTold false, fun g => s.flags_lineTold false, fun i hi => ?_, fun i o ho => ?_, s.status_lineTold false⟩⟩,
    fun s => exec_stopReleased_again⟩
  · rw [exec_stopAsserted_eq hline, if_pos hr]; rfl
  · rw [exec_stopAsserted_eq hline, hr]; rfl
  · exact raised_of_flags s.flags_assertStop (s.raised_lineTold true)
  · rw [flags_assertStop]; exact s.flags_lineTold true hg
  · rw [link_assertStop_other hp]
    exact (s.status_lineTold true p).2.2.2
  · rw [exec_stopReleased_eq hline, if_pos hr]; rfl
  · rw [exec_stopReleased_eq hline, hr]; rfl
  · rw [slot_releaseStop, hi, Option.map_none, ← hi]
  · rw [slot_releaseStop, ho, ← fullTimer_eq]; rfl

end Sys2Proof.Machine
end

