-- ==== Sys2Proof/Proofs/Resets.lean ====
section
/-! Hard reset, its release, what the part hears while it is held in it, and soft reset (R66, R141, R163, R167, R173). -/

open Sys2Proof Sys2Proof.Machine Sys2Proof.Machine.State

namespace Sys2Proof.Machine

/-! ### Every request goes through the port, and every event is taken -/

theorem Others.no_request {c : Instr} (h : Others c) : requestParts c = none := by cases h <;> rfl
theorem Frames.no_request {c : Instr} {p : Port} {f : State → State} (h : Frames c p f) : requestParts c = none := by
  cases h <;> rfl
theorem Events.no_request {c : Instr} {f : State → State} (h : Events c f) : requestParts c = none := by cases h <;> rfl

/-- What has the bytes of a request, or fails the port's own checks, is answered through the port (R170). -/
theorem exec_request_eq {c : Instr} (h : (requestParts c).isSome ∨ ∃ why, c = .unknownRequest why) :
    ∃ f, ∀ s, exec c s = request f s := by
  have hnone : requestParts c = none → (∀ why, c ≠ .unknownRequest why) → False := fun hparts hwhy => by
    obtain hsome | ⟨why, rfl⟩ := h
    · rw [hparts] at hsome; cases hsome
    · exact hwhy why rfl
  obtain ⟨f, hc⟩ | ⟨f, hc⟩ | ⟨p, f, hc⟩ | ⟨f, hc⟩ | hc := instr_kinds c
  · exact ⟨f, hc.exec_eq⟩
  · exact ⟨f, hc.exec_eq⟩
  · exact (hnone hc.no_request (by rintro _ rfl; cases hc)).elim
  · exact (hnone hc.no_request (by rintro _ rfl; cases hc)).elim
  · exact (hnone hc.no_request (by rintro _ rfl; cases hc)).elim

theorem Changes.request_bytes {c : Instr} {f : State → Answer} (h : Changes c f) : (requestParts c).isSome := by
  cases h <;> rfl

theorem Reads.request_bytes {c : Instr} {f : State → Answer} (h : Reads c f) :
    (requestParts c).isSome ∨ ∃ why, c = .unknownRequest why := by
  cases h
  case unknown why => exact .inr ⟨why, rfl⟩
  all_goals exact .inl rfl

/-! ### The part held in hard reset (R163, R167) -/

section
variable {s : State} (hs : s.inReset = true)
include hs

theorem not_hearsPort : ¬ s.hearsPort := fun h => by rw [h.1] at hs; cases hs

theorem event_inReset (f : State → State) : event f s = .next s := congrArg Host.Outcome.next (if_pos hs)

/-- No event and no byte of a frame reaches a part held in hard reset. -/
theorem exec_event_inReset {c : Instr} (hhard : c ≠ .hardReset) (hrelease : c ≠ .resetRelease) (hassert : c ≠ .stopAsserted)
    (hfree : c ≠ .stopReleased) (hparts : requestParts c = none) (hwhy : ∀ why, c ≠ .unknownRequest why)
    (hport : ∀ act, c ≠ .collect act) : exec c s = .next s := by
  obtain ⟨f, hc⟩ | ⟨f, hc⟩ | ⟨p, f, hc⟩ | ⟨f, hc⟩ | hc := instr_kinds c
  · obtain hsome | ⟨why, rfl⟩ := hc.request_bytes
    · rw [hparts] at hsome; cases hsome
    · exact absurd rfl (hwhy why)
  · have hsome := hc.request_bytes
    rw [hparts] at hsome; cases hsome
  · exact (hc.exec_eq s).trans (event_inReset hs _)
  · exact (hc.exec_eq s).trans (event_inReset hs f)
  · cases hc with
    | hardReset => exact absurd rfl hhard
    | resetRelease => exact absurd rfl hrelease
    | stopAsserted => exact absurd rfl hassert
    | stopReleased => exact absurd rfl hfree
    | collect act => exact absurd rfl (hport act)
    | discarded run => exact congrArg Host.Outcome.next (if_pos hs)

theorem exec_port_inReset {c : Instr} (h : (requestParts c).isSome ∨ (∃ why, c = .unknownRequest why) ∨
    ∃ n, c = .collect (.collects n) ∨ c = .collect (.polls n)) : exec c s = .next { s with chip := .idle } := by
  have hdeaf := not_hearsPort hs
  have hrequest : ((requestParts c).isSome ∨ ∃ why, c = .unknownRequest why) → exec c s = .next { s with chip := .idle } :=
    fun h => by
      obtain ⟨f, hf⟩ := exec_request_eq h
      rw [hf, request_deaf hdeaf]
  obtain h | h | ⟨n, rfl | rfl⟩ := h
  · exact hrequest (.inl h)
  · exact hrequest (.inr h)
  · exact (execCollect_deaf hdeaf n).1
  · exact (execCollect_deaf hdeaf n).2

theorem exec_asserts_inReset :
    exec (.collect .asserts) s = .next { s with chip := if s.chip = .idle then .abandoned else s.chip } := by
  refine congrArg Host.Outcome.next ((State.assertSelect_eq s).trans ?_)
  rw [hs]; rfl

theorem exec_resetRelease_inReset : exec .resetRelease s = .next s.leaveReset := congrArg Host.Outcome.next (if_pos hs)

end

theorem exec_resetRelease_again {s : State} (hs : s.inReset = false) : exec .resetRelease s = .next s :=
  congrArg Host.Outcome.next (if_neg (by simp [hs]))

theorem link_leaveReset (s : State) (p : Port) :
    s.leaveReset.link p = { s.link p with order := (s.link p).order ++ [.resync .hard] } := nth_tab ..

/-! ### A link at a soft reset (R163, R173; log 3) -/

namespace Link

section
variable (x : Link) (begins : Bool)

theorem softReset_down : (x.softReset begins).status = .down ∧ (x.softReset begins).heard = [] := by
  unfold softReset
  (repeat' split) <;> exact ⟨rfl, rfl⟩

theorem order_softReset_empty (h : x.order = []) : (x.softReset begins).order = [.resync .soft] := by
  simp only [softReset, h]

theorem order_softReset {f : OutFrame} {rest : List OutFrame} (h : x.order = f :: rest) :
    (x.softReset begins).order = if x.begun || begins then [f, .resync .soft] else [.resync .soft] := by
  simp only [softReset, h]
  split <;> rfl

end
end Link

theorem link_afterSoftReset (s : State) (p : Port) :
    s.afterSoftReset.link p = (s.link p).softReset (Config.frameBegun s.fresh p.ix.val) := nth_tab ..

theorem slot_afterSoftReset (s : State) (i : Fin 34) :
    s.afterSoftReset.slot i = { generation := (s.slot i).generation, lastEnd := .none, opened := none } := nth_tab ..

theorem order_afterSoftReset {s : State} {p : Port} {f : OutFrame} {rest : List OutFrame} (h : (s.link p).order = f :: rest) :
    ((s.afterSoftReset.link p).order = [.resync .soft] ∨ (s.afterSoftReset.link p).order = [f, .resync .soft]) ∧
    ((s.link p).begun = true → (s.afterSoftReset.link p).order = [f, .resync .soft]) := by
  rw [link_afterSoftReset, Link.order_softReset _ _ h]
  refine ⟨?_, fun hbegun => if_pos (by rw [hbegun]; rfl)⟩
  split
  · exact .inr rfl
  · exact .inl rfl

/-- Settles O56: a hard reset by computation, the part held in it by the kinds of command, a soft reset link by link. -/
theorem resetsBringEveryBlockToItsResetValues : Obligations.ResetsBringEveryBlockToItsResetValues := by
  refine ⟨fun s => rfl, fun s hs => ⟨⟨s.leaveReset, exec_resetRelease_inReset hs, rfl, link_leaveReset s⟩,
    fun c => exec_event_inReset hs, fun c => exec_port_inReset hs, exec_asserts_inReset hs⟩,
    fun s => exec_resetRelease_again, fun s hs => ⟨s.afterSoftReset, Changes.ready .softReset hs, rfl,
    slot_afterSoftReset s, fun p => ?_⟩⟩
  have hlink := link_afterSoftReset s p
  obtain ⟨hstatus, hheard⟩ := (s.link p).softReset_down (Config.frameBegun s.fresh p.ix.val)
  refine ⟨by rw [hlink, hstatus], by rw [hlink, hheard], fun hempty => ?_, fun f rest h => order_afterSoftReset h⟩
  rw [hlink, Link.order_softReset_empty _ _ hempty]

end Sys2Proof.Machine
end

