-- ==== Sys2Proof/Proofs/HandoverTests.lean ====
section
/-! The tests that claims and lift jobs share: a level's standing (R70, R92) and the lane tests (R72). -/

open Sys2Proof Sys2Proof.Machine Sys2Proof.Machine.State

namespace Sys2Proof.Machine.State

/-! ### A level's standing (R70, R92) -/

section
variable {s : State} {l : Level}

theorem levelStanding_off (h : (s.level l).mode = .off) : s.levelStanding l = some .levelOff := by
  simp only [levelStanding, h]

theorem levelStanding_draining (h : (s.level l).mode = .draining) : s.levelStanding l = some .levelDraining := by
  simp only [levelStanding, h]

theorem levelStanding_working (h : (s.level l).mode = .manual ∨ (s.level l).mode = .auto) :
    s.levelStanding l = if (s.level l).fenced then some .levelFenced else none := by
  obtain h | h := h <;> simp only [levelStanding, h]

theorem levelStanding_fenced (h : (s.level l).mode = .manual ∨ (s.level l).mode = .auto) (hf : (s.level l).fenced = true) :
    s.levelStanding l = some .levelFenced := (levelStanding_working h).trans (if_pos hf)

theorem levelStanding_none (h : (s.level l).mode = .manual ∨ (s.level l).mode = .auto) (hf : (s.level l).fenced = false) :
    s.levelStanding l = none := (levelStanding_working h).trans (if_neg (by simp [hf]))

end

/-! ### The lane tests (R72) -/

section
variable {s : State} {k : LaneId}

theorem laneTests_blocked (h : (s.lane k).condition.isBlocked = true) : s.laneTests k = some .laneBlocked := by
  unfold laneTests
  cases hc : (s.lane k).condition with
  | blocked why => rfl
  | clear | settling m | audit => rw [hc] at h; cases h

theorem laneTests_audit (h : (s.lane k).condition = .audit) : s.laneTests k = some .audit := by simp only [laneTests, h]

theorem laneTests_settling {m : Nat} (h : (s.lane k).condition = .settling m) : s.laneTests k = some .settling := by
  simp only [laneTests, h]

theorem laneTests_clear (h : (s.lane k).condition = .clear) :
    s.laneTests k = if s.busy k then some .laneBusy else none := by simp only [laneTests, h]

theorem takerTests_refused {c : Code} (h : s.laneTests k = some c) : s.takerTests k = some c := by simp only [takerTests, h]

/-- A lane that passes the first four tests is refused as taker only when it has no free place. -/
theorem takerTests_passed (h : s.laneTests k = none) : s.takerTests k =
    if (s.lane k).contents.length + (s.lane k).reserved < s.depth k then none else some .laneFull := by
  simp only [takerTests, h, ← not_lt, ite_not]

end
end Sys2Proof.Machine.State
end

