-- ==== Sys2Proof/Proofs/ClaimChecks.lean ====
section
/-! The checks of a shuttle's claim: the level's standing, the record tests and the lane tests, and the lane of a put (R70 to
R74). -/

open Sys2Proof Sys2Proof.Machine Sys2Proof.Machine.State

namespace Sys2Proof.Machine.State

/-! ### The level's standing before the tests of a kind (R70) -/

section
variable {s : State} {l : Level}

theorem judgeClaim_refused {code : Code} (h : s.levelStanding l = some code) (c : Claim) :
    s.judgeClaim l c = .inl code := by simp only [judgeClaim, h]

theorem judgeClaim_put (h : s.levelStanding l = none) (i : Ident) : s.judgeClaim l (.put i) = s.judgePut l i := by
  simp only [judgeClaim, h]

theorem judgeClaim_take (h : s.levelStanding l = none) (x : Side) : s.judgeClaim l (.take x) = s.judgeTake l x := by
  simp only [judgeClaim, h]

end

/-! ### The record tests of a put (R71) -/

section
variable {s : State} {i : Ident}

theorem judgePut_noRecord (l : Level) (h : s.lookup i = none) : s.judgePut l i = .inl .noRecord := by
  simp only [judgePut, putTests, h]

variable {r : Record} (hr : s.lookup i = some r)
include hr

theorem putTests_eq (l : Level) : s.putTests l i =
    if r.direction = .inbound ∨ r.place ≠ .expected then .inl .wrongState
    else if r.level ≠ l then .inl .wrongLevel
    else if r.transfer.isSome then .inl .busy
    else .inr r := by
  simp only [putTests, hr, Bool.or_eq_true, decide_eq_true_eq, Bool.not_eq_true', ← Bool.not_eq_true, isExpected_iff, ne_eq]

theorem judgePut_wrongState (l : Level) (h : r.direction = .inbound ∨ r.place ≠ .expected) :
    s.judgePut l i = .inl .wrongState := by
  rw [judgePut, putTests_eq hr, if_pos h]

variable (hd : r.direction = .outbound) (hp : r.place = .expected)
include hd hp

theorem judgePut_wrongLevel {l : Level} (hl : r.level ≠ l) : s.judgePut l i = .inl .wrongLevel := by
  rw [judgePut, putTests_eq hr, if_neg (by simp [hd, hp]), if_pos hl]

theorem judgePut_busy {l : Level} (hl : r.level = l) (ht : r.transfer.isSome) : s.judgePut l i = .inl .busy := by
  rw [judgePut, putTests_eq hr, if_neg (by simp [hd, hp]), if_neg (not_not.mpr hl), if_pos ht]

end

/-! ### The lane of a put (R73) -/

/-- The put of a tote in a lane of its level's shuttle (R47). -/
def putJob (l : Level) (i : Ident) (k : LaneId) : Grant :=
  { slot := shuttleSlot l, kind := .shuttlePut, totes := [i], giver := .rack l, taker := .lane k }

/-- A put whose record tests pass is the put in the lane chosen for it, or refused for that lane's reason. -/
theorem judgePut_passed {s : State} {i : Ident} {r : Record} {l : Level} (hr : s.lookup i = some r)
    (hd : r.direction = .outbound) (hp : r.place = .expected) (hl : r.level = l) (ht : r.transfer = none) :
    s.judgePut l i = (s.putLane l r.pref).map id (putJob l i) := by
  rw [judgePut, putTests_eq hr, if_neg (by simp [hd, hp]), if_neg (not_not.mpr hl), if_neg (by simp [ht])]
  dsimp only
  cases s.putLane l r.pref <;> rfl

/-- The one candidate of a put, judged (R72). -/
theorem putJob_onlyLane (s : State) (l : Level) (i : Ident) (k : LaneId) : (s.onlyLane k).map id (putJob l i) =
    match s.takerTests k with
    | some c => .inl c
    | none => .inr (putJob l i k) := by
  unfold onlyLane
  cases s.takerTests k <;> rfl

/-- The choice between the two OUT lanes: the one that passes; of two that pass the one with more free places, A before B;
of two that fail A's reason. -/
theorem putJob_either (s : State) (l : Level) (i : Ident) : (s.putLane l (some .either)).map id (putJob l i) =
    match s.takerTests { level := l, name := .aOut }, s.takerTests { level := l, name := .bOut } with
    | some c, some _ => .inl c
    | some _, none => .inr (putJob l i { level := l, name := .bOut })
    | none, some _ => .inr (putJob l i { level := l, name := .aOut })
    | none, none =>
      if s.freePlaces { level := l, name := .aOut } < s.freePlaces { level := l, name := .bOut }
      then .inr (putJob l i { level := l, name := .bOut }) else .inr (putJob l i { level := l, name := .aOut }) := by
  simp only [putLane]
  cases s.takerTests { level := l, name := .aOut } with
  | none =>
    cases s.takerTests { level := l, name := .bOut } with
    | none => dsimp only; split <;> rfl
    | some c => rfl
  | some c => cases s.takerTests { level := l, name := .bOut } <;> rfl

/-! ### The checks of a take (R74) -/

/-- The take of the head of an IN lane by its level's shuttle (R47). -/
def takeHead (l : Level) (x : Side) (head : Ident) : Grant :=
  { slot := shuttleSlot l, kind := .shuttleTake, totes := [head], giver := .lane { level := l, name := x.inLane }
    taker := .shuttle }

section
variable {s : State} {l : Level} {x : Side}

theorem judgeTake_empty (h : (s.lane { level := l, name := x.inLane }).contents = []) :
    s.judgeTake l x = .inl .laneEmpty := by
  simp only [judgeTake, h]

variable {head : Ident} {rest : List Ident} {r : Record}
  (h : (s.lane { level := l, name := x.inLane }).contents = head :: rest) (hr : s.lookup head = some r)
include h hr

theorem judgeTake_eq : s.judgeTake l x =
    if r.direction = .outbound then .inl .wrongState
    else if r.level ≠ l then .inl .wrongLevel
    else match s.laneTests { level := l, name := x.inLane } with
      | some c => .inl c
      | none => .inr (takeHead l x head) := by
  simp only [judgeTake, h, levelOf, hr, Option.any_some, beq_iff_eq, Option.map_some, ne_eq, Option.some.injEq]
  rfl

theorem judgeTake_wrongState (hd : r.direction = .outbound) : s.judgeTake l x = .inl .wrongState := by
  rw [judgeTake_eq h hr, if_pos hd]

theorem judgeTake_wrongLevel (hd : r.direction = .inbound) (hl : r.level ≠ l) : s.judgeTake l x = .inl .wrongLevel := by
  rw [judgeTake_eq h hr, if_neg (by simp [hd]), if_pos hl]

theorem judgeTake_passed (hd : r.direction = .inbound) (hl : r.level = l) : s.judgeTake l x =
    match s.laneTests { level := l, name := x.inLane } with
    | some c => .inl c
    | none => .inr (takeHead l x head) := by
  rw [judgeTake_eq h hr, if_neg (by simp [hd]), if_neg (not_not.mpr hl)]

end
end Sys2Proof.Machine.State

namespace Sys2Proof.Machine

/-- Settles O34: a claim goes by the first of its checks that fails, and by the lane tests of its lanes when none does. -/
theorem claimChecksInOrder : Obligations.ClaimChecksInOrder := by
  refine ⟨fun s l c => ⟨fun h => judgeClaim_refused (levelStanding_off h) c,
      fun h => judgeClaim_refused (levelStanding_draining h) c,
      fun h hf => judgeClaim_refused (levelStanding_fenced h hf) c⟩,
    fun s k => ⟨fun h => ?_, fun h => ?_, fun ⟨m, h⟩ => ?_, fun h => ⟨fun hbusy => ?_, fun hfree => ?_⟩⟩,
    fun s l i hmode hfence => ?_, fun s l x hmode hfence => ?_⟩
  · have hk := laneTests_blocked h
    exact ⟨takerTests_refused hk, hk⟩
  · have hk := laneTests_audit h
    exact ⟨takerTests_refused hk, hk⟩
  · have hk := laneTests_settling h
    exact ⟨takerTests_refused hk, hk⟩
  · have hk := (laneTests_clear h).trans (if_pos hbusy)
    exact ⟨takerTests_refused hk, hk⟩
  · have hk := (laneTests_clear h).trans (if_neg (by simp [hfree]))
    exact ⟨hk, takerTests_passed hk⟩
  · dsimp only
    rw [judgeClaim_put (levelStanding_none hmode hfence)]
    refine ⟨judgePut_noRecord l, fun r hr => ⟨judgePut_wrongState hr l, fun hd hp => ⟨judgePut_wrongLevel hr hd hp,
      judgePut_busy hr hd hp, fun hl ht => ?_⟩⟩⟩
    rw [judgePut_passed hr hd hp hl ht]
    refine ⟨fun hpref => ?_, fun hpref => ?_, fun hpref => ?_⟩ <;> rw [hpref]
    · exact putJob_onlyLane ..
    · exact putJob_onlyLane ..
    · exact putJob_either ..
  · dsimp only
    rw [judgeClaim_take (levelStanding_none hmode hfence)]
    exact ⟨judgeTake_empty, fun head rest r h hr => ⟨judgeTake_wrongState h hr, judgeTake_wrongLevel h hr,
      judgeTake_passed h hr⟩⟩

end Sys2Proof.Machine
end

