-- ==== Sys2Proof/Proofs/ClaimAnswers.lean ====
section
/-! The answer to a shuttle's claim, and how a pending claim ends (R69, R70, R75 to R79; logs 4 and 10). -/

open Sys2Proof Sys2Proof.Machine Sys2Proof.Machine.State

namespace Sys2Proof.Machine.State

/-! ### The stop of a level (R19) -/

theorem stopOf_of_levelAt {s : State} {n : Stop} {l : Level} (h : s.levelAt n = some l) : s.stopOf l = some n :=
  eq_of_beq (List.find?_some (p := fun l => s.stopOf l == some n) h)

theorem sendLevel_of_stop {s : State} {n : Stop} {l : Level} (h : s.stopOf l = some n) (f : OutFrame) :
    s.sendLevel l f = s.send (.stop n) f := by simp only [sendLevel, h]

/-! ### The grant of a claim (R75) -/

/-- What a claim is granted names one lane and one tote (R47). -/
theorem judgeClaim_names {s : State} {l : Level} {c : Claim} {g : Grant} (h : s.judgeClaim l c = .inr g) :
    ∃ k tote, laneNamed g.giver g.taker = some k ∧ g.totes = [tote] := by
  cases hl : s.levelStanding l with
  | some code => rw [judgeClaim_refused hl] at h; cases h
  | none =>
    cases c with
    | put i =>
      rw [judgeClaim_put hl, judgePut] at h
      repeat' split at h
      all_goals cases h
      exact ⟨_, i, rfl, rfl⟩
    | take x =>
      rw [judgeClaim_take hl, judgeTake] at h
      repeat' split at h
      all_goals cases h
      exact ⟨_, _, rfl, rfl⟩

section
variable (s : State) (l : Level) {g : Grant}

theorem generation_grantClaim : ((s.grantClaim l g).slot g.slot).generation = (s.slot g.slot).generation + 1 := by
  have hslots : (s.grantClaim l g).slots = ((s.unpend l).openTransfer g).slots := by unfold grantClaim; simp
  rw [slot_of_slots hslots, slot_openTransfer, if_pos rfl]
  rfl

theorem grantClaim_eq {k : LaneId} {tote : Ident} (hk : laneNamed g.giver g.taker = some k) (ht : g.totes = [tote]) :
    s.grantClaim l g = ((s.unpend l).openTransfer g).sendLevel l
      (.grant (BitVec.ofNat 8 g.slot.val) ((s.slot g.slot).generation + 1) g.kind k.name tote) := by
  have hgen : (((s.unpend l).openTransfer g).slot g.slot).generation = (s.slot g.slot).generation + 1 := by
    rw [slot_openTransfer, if_pos rfl]; rfl
  simp only [grantClaim, sendGrant, hk, ht, grantFrame, hgen]

end

/-! ### The answer to a claim (R69, R70, R75, R76) -/

theorem claimFrom_spare {s : State} {n : Stop} (h : s.levelAt n = none) (c : Claim) :
    s.claimFrom n c = s.send (.stop n) (.refuse .unmapped) := by simp only [claimFrom, h]

section
variable {s : State} {n : Stop} {l : Level} (hn : s.levelAt n = some l)
include hn

theorem claimFrom_level (c : Claim) : s.claimFrom n c = s.receiveClaim l c := by simp only [claimFrom, hn]

theorem claimFrom_busy (c : Claim) (h : s.claimState l ≠ .idle) :
    s.claimFrom n c = s.send (.stop n) (.refuse .busy) := by
  rw [claimFrom_level hn, receiveClaim, if_pos h, sendLevel_of_stop (stopOf_of_levelAt hn)]

variable (hidle : s.claimState l = .idle)
include hidle

theorem claimFrom_stopped (c : Claim) (h : s.stopped = true) :
    s.claimFrom n c = s.send (.stop n) (.refuse .stopped) := by
  rw [claimFrom_level hn, receiveClaim, if_neg (not_not.mpr hidle), if_pos h, sendLevel_of_stop (stopOf_of_levelAt hn)]

variable (hrun : s.stopped = false)
include hrun

/-- A claim that is heard is answered by its judgement, and on a MANUAL level waits for approval. -/
theorem claimFrom_judged (c : Claim) : s.claimFrom n c = match s.judgeClaim l c with
    | .inl code => s.send (.stop n) (.refuse code)
    | .inr g => if (s.level l).mode = .manual then s.placeClaim l c else s.grantClaim l g := by
  rw [claimFrom_level hn, receiveClaim, if_neg (not_not.mpr hidle), if_neg (by simp [hrun])]
  cases s.judgeClaim l c with
  | inl code => exact sendLevel_of_stop (stopOf_of_levelAt hn) _
  | inr g => rfl

theorem claimFrom_refused {c : Claim} {code : Code} (h : s.judgeClaim l c = .inl code) :
    s.claimFrom n c = s.send (.stop n) (.refuse code) := by
  rw [claimFrom_judged hn hidle hrun, h]

theorem claimFrom_granted {c : Claim} {g : Grant} (h : s.judgeClaim l c = .inr g) (hmode : (s.level l).mode ≠ .manual)
    {k : LaneId} {tote : Ident} (hk : laneNamed g.giver g.taker = some k) (ht : g.totes = [tote]) :
    s.claimFrom n c = ((s.unpend l).openTransfer g).send (.stop n)
      (.grant (BitVec.ofNat 8 g.slot.val) ((s.slot g.slot).generation + 1) g.kind k.name tote) := by
  have hstop : ((s.unpend l).openTransfer g).stopOf l = some n :=
    (stopOf_of_settings (by simp) l).trans (stopOf_of_levelAt hn)
  rw [claimFrom_judged hn hidle hrun, h]
  dsimp only
  rw [if_neg hmode, grantClaim_eq s l hk ht, sendLevel_of_stop hstop]

theorem claimFrom_placed {c : Claim} {g : Grant} (h : s.judgeClaim l c = .inr g) (hmode : (s.level l).mode = .manual) :
    s.claimFrom n c = (((s.setClaimState l .awaitingApproval).pend
      { level := l, claim := c, timer := 10 * s.settings.params.approvalLimit }).send (.stop n) .wait).raise
        (.level l .approvalWaiting) := by
  have hstop : ((s.setClaimState l .awaitingApproval).pend
      { level := l, claim := c, timer := 10 * s.settings.params.approvalLimit }).stopOf l = some n := stopOf_of_levelAt hn
  rw [claimFrom_judged hn hidle hrun, h]
  dsimp only
  rw [if_pos hmode, placeClaim, sendLevel_of_stop hstop]

end

/-! ### The end of a pending claim (R76) -/

theorem endClaim_of_some {s : State} {l : Level} {p : PendingClaim} {n : Stop} (hp : s.pendingOf l = some p)
    (hn : s.stopOf l = some n) (why : Code) : s.endClaim l why = (s.dropClaim l).send (.stop n) (.refuse why) := by
  have hstop : (s.dropClaim l).stopOf l = some n := (stopOf_of_settings (by simp) l).trans hn
  rw [endClaim, if_pos (by rw [hp]; rfl), sendLevel_of_stop hstop]

theorem pendingIs_iff (s : State) (l : Level) (c : Claim) :
    s.pendingIs l c = true ↔ ∃ p, s.pendingOf l = some p ∧ p.claim = c := by
  unfold pendingIs
  cases s.pendingOf l <;> simp

theorem not_pendingIs {s : State} {l : Level} {c : Claim} (h : ∀ p, s.pendingOf l = some p → p.claim ≠ c) :
    s.pendingIs l c = false :=
  eq_false_of_ne_true fun htrue => by
    obtain ⟨p, hp, hc⟩ := (s.pendingIs_iff l c).mp htrue
    exact h p hp hc

end Sys2Proof.Machine.State

namespace Sys2Proof.Machine

/-! ### The claim that a request names (R77; log 10) -/

theorem Claim.ofArg_kind_out {kind : Byte} (h : 1 < kind.toNat) (arg : ClaimArg) : Claim.ofArg kind arg = none := by
  have hkind : Kind.ofByte kind ≠ some .shuttlePut ∧ Kind.ofByte kind ≠ some .shuttleTake := by
    unfold Kind.ofByte
    rw [if_neg (by rintro rfl; exact absurd h (by decide)), if_neg (by rintro rfl; exact absurd h (by decide))]
    constructor
    all_goals (repeat' split) <;> simp
  unfold Claim.ofArg
  split
  · next hput => exact absurd hput hkind.1
  · next htake => exact absurd htake hkind.2
  · rfl

theorem Claim.ofArg_zero (kind : Byte) : Claim.ofArg kind (.identity 0) = none := by
  unfold Claim.ofArg
  split
  · next hi => cases hi; rfl
  · next hi => cases hi
  · rfl

theorem Claim.ofArg_side_out {b : Byte} (h : 1 < b.toNat) (kind : Byte) : Claim.ofArg kind (.side b) = none := by
  unfold Claim.ofArg
  split
  · next hi => cases hi
  · next hi => cases hi; rw [Side.ofByte_out h]; rfl
  · rfl

theorem Claim.ofArg_out {kind : Byte} {arg : ClaimArg}
    (h : 1 < kind.toNat ∨ arg = .identity 0 ∨ ∃ x, arg = .side x ∧ 1 < x.toNat) : Claim.ofArg kind arg = none := by
  obtain h | rfl | ⟨x, rfl, hx⟩ := h
  · exact Claim.ofArg_kind_out h arg
  · exact Claim.ofArg_zero kind
  · exact Claim.ofArg_side_out hx kind

theorem Claim.ofArg_of {kind : Byte} {arg : ClaimArg} {c : Claim}
    (h : (∃ i, kind = 0 ∧ arg = .identity i ∧ i ≠ 0 ∧ c = .put i) ∨
      ∃ x : Side, kind = 1 ∧ arg = .side (BitVec.ofNat 8 x.ix.val) ∧ c = .take x) : Claim.ofArg kind arg = some c := by
  obtain ⟨i, rfl, rfl, hi, rfl⟩ | ⟨x, rfl, rfl, rfl⟩ := h
  · exact if_neg hi
  · cases x <;> rfl

section
variable {b kind : Byte} {arg : ClaimArg}

/-! ### APPROVE_CLAIM and DENY_CLAIM (R77, R78) -/

theorem claimRequests_out (h : b.toNat < 1 ∨ 32 < b.toNat ∨ 1 < kind.toNat ∨ arg = .identity 0 ∨
      ∃ x, arg = .side x ∧ 1 < x.toNat) (s : State) :
    approveClaim b kind arg s = .refuse .outOfRange ∧ denyClaim b kind arg s = .refuse .outOfRange := by
  have hout : Level.ofByte b = none ∨ Claim.ofArg kind arg = none :=
    (or_assoc.mpr h).imp Level.ofByte_out Claim.ofArg_out
  obtain hl | hc := hout
  · simp only [approveClaim, denyClaim, hl, and_self]
  · simp only [approveClaim, denyClaim, hc]
    cases Level.ofByte b <;> exact ⟨rfl, rfl⟩

variable {l : Level} {c : Claim} (hb : Level.ofByte b = some l) (hc : Claim.ofArg kind arg = some c)
include hb hc

theorem approveClaim_eq (s : State) : approveClaim b kind arg s = if s.stopped then .refuse .stopped
    else if s.pendingIs l c then approve s l c else .refuse .wrongState := by
  simp only [approveClaim, hb, hc, Answer.checked_cons, Answer.checked_nil]
  cases s.pendingIs l c <;> rfl

theorem denyClaim_eq (s : State) : denyClaim b kind arg s =
    if s.pendingIs l c then .accept (s.endClaim l .denied) else .refuse .wrongState := by
  simp only [denyClaim, hb, hc, Answer.checked_cons, Answer.checked_nil]
  cases s.pendingIs l c <;> rfl

end

theorem approve_refused {s : State} {l : Level} {c : Claim} {code : Code} (h : s.judgeClaim l c = .inl code) :
    s.answered (approve s l c) = s.answeredBy (s.endClaim l code) code .empty := by
  simp only [approve, h]; rfl

theorem approve_granted {s : State} {l : Level} {c : Claim} {g : Grant} (h : s.judgeClaim l c = .inr g) {k : LaneId}
    {tote : Ident} (hk : laneNamed g.giver g.taker = some k) (ht : g.totes = [tote]) :
    s.answered (approve s l c) = s.doneWith (((s.unpend l).openTransfer g).sendLevel l
      (.grant (BitVec.ofNat 8 g.slot.val) ((s.slot g.slot).generation + 1) g.kind k.name tote))
        (.number { slot := g.slot, gen := (s.slot g.slot).generation + 1 }) := by
  simp only [approve, h, numberOf, generation_grantClaim, answered_acceptWith]
  rw [grantClaim_eq s l hk ht]

/-! ### The claim unit in operation -/

theorem exec_claim {s : State} (hs : s.inReset = false) {n : Stop} {c : Claim} {cmd : Instr}
    (h : (∃ i, c = .put i ∧ cmd = .claimPut n i) ∨ ∃ x, c = .take x ∧ cmd = .claimTake n x) :
    exec cmd s = .next ((s.takeValid (.stop n)).claimFrom n c).closeEvent := by
  obtain ⟨i, rfl, rfl⟩ | ⟨x, rfl, rfl⟩ := h
  · exact ((Frames.claimPut n i).exec_eq s).trans (frame_out hs ..)
  · exact ((Frames.claimTake n x).exec_eq s).trans (frame_out hs ..)

/-- Settles O35: the answer goes by the level of the stop, its claim state, the aisle stop, the checks and the level's mode. -/
theorem claimsAreAnsweredAtOnce : Obligations.ClaimsAreAnsweredAtOnce := by
  intro s n c cmd hs hcmd
  dsimp only
  rw [exec_claim hs hcmd]
  refine ⟨fun hspare => ?_, fun l hn => ⟨fun hbusy => ?_, fun hidle hstop => ?_, fun hidle hrun =>
    ⟨fun code h => ?_, fun g h hmode => ?_, fun g h hmode => ?_⟩⟩⟩
  · rw [claimFrom_spare hspare]
  · rw [claimFrom_busy hn c hbusy]
  · rw [claimFrom_stopped hn hidle c hstop]
  · rw [claimFrom_refused hn hidle hrun h]
  · obtain ⟨k, tote, hk, ht⟩ := judgeClaim_names h
    refine ⟨k, tote, _, hk, ht, rfl, ?_⟩
    rw [claimFrom_granted hn hidle hrun h hmode hk ht]
    rfl
  · rw [claimFrom_placed hn hidle hrun h hmode]
    rfl

/-- Settles O36: the two requests by their checks in order, the time by its event, each through the end of the claim. -/
theorem pendingClaimsEnd : Obligations.PendingClaimsEnd := by
  refine ⟨fun s b kind arg hs => ?_, fun s l hs => ((Events.approval l).exec_eq s).trans (event_out hs _),
    fun s l why => ⟨fun h => endClaim_of_none h why, fun p n hp hn => endClaim_of_some hp hn why⟩⟩
  rw [Changes.ready (.approve b kind arg) hs, Changes.ready (.deny b kind arg) hs]
  refine ⟨fun hout => ?_, fun l c hb hnamed => ?_⟩
  · obtain ⟨happrove, hdeny⟩ := claimRequests_out hout s
    rw [happrove, hdeny]
    exact ⟨rfl, rfl⟩
  · have hl := Level.ofByte_of hb
    have hc := Claim.ofArg_of hnamed
    rw [approveClaim_eq hl hc, denyClaim_eq hl hc]
    refine ⟨fun hstop => ?_, fun hother => ?_, fun p hp hpc => ?_⟩
    · rw [if_pos hstop, answered_refuse]
    · rw [not_pendingIs hother]
      exact ⟨rfl, fun hrun => by rw [hrun]; rfl⟩
    · rw [(s.pendingIs_iff l c).mpr ⟨p, hp, hpc⟩]
      refine ⟨rfl, fun hrun => ?_⟩
      rw [if_neg (show ¬ s.stopped = true by simp [hrun])]
      refine ⟨fun code h => congrArg Host.Outcome.next (approve_refused h), fun g h => ?_⟩
      obtain ⟨k, tote, hk, ht⟩ := judgeClaim_names h
      exact ⟨k, tote, _, hk, ht, rfl, congrArg Host.Outcome.next (approve_granted h hk ht)⟩

end Sys2Proof.Machine
end

