-- ==== Sys2Proof/Proofs/Selection.lean ====
section
/-! The selection for a lift: the directed job with its checks, and the walk over drop, unload, load and take (R72, R86, R90, R92
to R96, R114). -/

open Sys2Proof Sys2Proof.Machine Sys2Proof.Machine.State

namespace Sys2Proof.Machine.State

/-! ### What records say (R86, R114) -/

section
variable {s : State} {i : Ident} {r : Record} (hr : s.lookup i = some r)
include hr

theorem levelOf_of_lookup : s.levelOf i = some r.level := by rw [levelOf, hr]; rfl

theorem weightSum_cons {w : Weight} (hw : r.weight = some w) (rest : List Ident) :
    s.weightSum (i :: rest) = w.val + s.weightSum rest := by
  simp only [weightSum, List.map_cons, List.sum_cons, hr, hw]

end

theorem carriageDirection_empty {s : State} {x : Side} (h : (s.lift x).contents = []) : s.carriageDirection x = none := by
  simp only [carriageDirection, h]

theorem carriageDirection_cons {s : State} {x : Side} {front : Ident} {rest : List Ident}
    (h : (s.lift x).contents = front :: rest) : s.carriageDirection x = (s.lookup front).map (·.direction) := by
  simp only [carriageDirection, h]

theorem headAged_iff (s : State) (x : Side) : s.headAged x = true ↔
    ∃ a, (s.queue x).age = some a ∧ 10 * s.settings.params.entryAgeLimit ≤ a := by
  unfold headAged
  cases (s.queue x).age <;> simp

/-! ### The directed job (R92) -/

theorem select_directed {s : State} {x : Side} {d : Directed} {g : Grant} (h : (s.lift x).directed = some d)
    (hg : s.judgeDirected x d = .inr g) :
    s.select x = ((s.modLift x fun y => { y with directed := none }).grantJob x g, true) := by
  simp only [select, h, hg]

theorem select_discarded {s : State} {x : Side} {d : Directed} {why : Code} (h : (s.lift x).directed = some d)
    (hwhy : s.judgeDirected x d = .inl why) : s.select x = (s.discardDirected x why).selectOn x := by
  simp only [select, h, hwhy]

theorem select_undirected {s : State} {x : Side} (h : (s.lift x).directed = none) : s.select x = s.selectOn x := by
  simp only [select, h]

/-- A judgement that goes by the level's standing and then by lane tests: each refusal in its order, and `P` where the
judgement that is left gives it. -/
theorem judged_in_order {s : State} {l : Level} {tests : Option Code} {judged left : Code ⊕ Grant} {P : Prop}
    (h : judged = ((s.levelStanding l).or tests).elim left .inl) (hleft : judged = left → P) :
    ((s.level l).mode = .off → judged = .inl .levelOff) ∧ ((s.level l).mode = .draining → judged = .inl .levelDraining) ∧
    ((s.level l).mode = .manual ∨ (s.level l).mode = .auto →
      ((s.level l).fenced = true → judged = .inl .levelFenced) ∧
      ((s.level l).fenced = false → (∀ c, tests = some c → judged = .inl c) ∧ (tests = none → P))) := by
  refine ⟨fun hm => ?_, fun hm => ?_, fun hm => ⟨fun hf => ?_, fun hf => ⟨fun c hc => ?_, fun hpass => hleft ?_⟩⟩⟩ <;> rw [h]
  · rw [levelStanding_off hm]; rfl
  · rw [levelStanding_draining hm]; rfl
  · rw [levelStanding_fenced hm hf]; rfl
  · rw [levelStanding_none hm hf, hc]; rfl
  · rw [levelStanding_none hm hf, hpass]; rfl

/-! ### The directed drop (R92) -/

theorem dropTotes_one {s : State} {x : Side} {front : Ident} (h : (s.lift x).contents = [front]) (k : LaneId) :
    s.dropTotes x k = [front] := by
  simp only [dropTotes, h]

theorem dropTotes_two {s : State} {x : Side} {front back : Ident} {rest : List Ident} {r : Record}
    (h : (s.lift x).contents = front :: back :: rest) (hr : s.lookup back = some r) (k : LaneId) :
    s.dropTotes x k = if r.level = k.level ∧ 2 ≤ s.freePlaces k then [front, back] else [front] := by
  simp only [dropTotes, h, levelOf_of_lookup hr, Option.some.injEq]

section
variable {s : State} {x : Side} {l : Level}

theorem directedDrop_empty (h : (s.lift x).contents = []) : s.judgeDirected x (.drop l) = .inl .wrongState := by
  simp only [judgeDirected, judgeDirectedDrop, h]

variable {front : Ident} {rest : List Ident} {r : Record} (h : (s.lift x).contents = front :: rest)
  (hr : s.lookup front = some r)
include h hr

theorem directedDrop_eq : s.judgeDirected x (.drop l) =
    if r.direction = .outbound then .inl .mixedDirection
    else if r.level ≠ l then .inl .wrongLevel
    else ((s.levelStanding l).or (s.takerTests { level := l, name := x.inLane })).elim
      (.inr (s.dropJob x { level := l, name := x.inLane })) .inl := by
  simp only [judgeDirected, judgeDirectedDrop, h, carriageDirection_cons h, hr, levelOf_of_lookup hr, Option.map_some, ne_eq,
    Option.some.injEq]
  cases s.levelStanding l with
  | some c => rfl
  | none => cases s.takerTests { level := l, name := x.inLane } <;> rfl

theorem directedDrop_outbound (hd : r.direction = .outbound) : s.judgeDirected x (.drop l) = .inl .mixedDirection := by
  rw [directedDrop_eq h hr, if_pos hd]

variable (hd : r.direction = .inbound)
include hd

theorem directedDrop_wrongLevel (hl : r.level ≠ l) : s.judgeDirected x (.drop l) = .inl .wrongLevel := by
  rw [directedDrop_eq h hr, if_neg (by simp [hd]), if_pos hl]

/-- An inbound FRONT tote of the level named leaves the judgement to the level's standing and then to the lane tests. -/
theorem directedDrop_tested (hl : r.level = l) : s.judgeDirected x (.drop l) =
    ((s.levelStanding l).or (s.takerTests { level := l, name := x.inLane })).elim
      (.inr (s.dropJob x { level := l, name := x.inLane })) .inl := by
  rw [directedDrop_eq h hr, if_neg (by simp [hd]), if_neg (not_not.mpr hl)]

end

/-! ### The directed take (R92) -/

/-- One or two totes that a take lists are eligible to load, the second behind the first (R92 check 6, R123). -/
def fitToTake (s : State) (x : Side) (totes : List Ident) : Prop :=
  (∀ head, totes = [head] → ∃ h, s.lookup head = some h ∧ s.eligible h = true) ∧
  (∀ head second, totes = [head, second] → ∃ h r, s.lookup head = some h ∧ s.lookup second = some r ∧
    s.eligible h = true ∧ s.eligibleBehind h r (liftSlot x) = true)

theorem takeEligible_one (s : State) (x : Side) (head : Ident) :
    s.takeEligible x [head] = true ↔ s.fitToTake x [head] := by
  simp only [takeEligible, fitToTake, Option.any_eq_true, List.cons.injEq, and_true, forall_eq', reduceCtorEq, and_false,
    false_imp_iff, implies_true]

theorem takeEligible_two (s : State) (x : Side) (head second : Ident) :
    s.takeEligible x [head, second] = true ↔ s.fitToTake x [head, second] := by
  cases hhead : s.lookup head with
  | none => simp [takeEligible, fitToTake, hhead]
  | some h => cases hsecond : s.lookup second <;> simp [takeEligible, fitToTake, hhead, hsecond]

theorem takeEligible_iff {s : State} {x : Side} {totes : List Ident} (h : totes.length = 1 ∨ totes.length = 2) :
    s.takeEligible x totes = true ↔ s.fitToTake x totes := by
  obtain h | h := h
  · obtain ⟨head, rfl⟩ := List.length_eq_one_iff.mp h
    exact takeEligible_one s x head
  · obtain ⟨head, second, rfl⟩ := List.length_eq_two.mp h
    exact takeEligible_two s x head second

theorem any_inbound_iff (s : State) (totes : List Ident) :
    (totes.any fun i => (s.lookup i).any fun r => r.direction == .inbound) = true ↔
      ∃ i ∈ totes, ∃ r, s.lookup i = some r ∧ r.direction = .inbound := by
  simp only [List.any_eq_true, Option.any_eq_true, beq_iff_eq]

theorem not_inbound_of_outbound {s : State} {totes : List Ident}
    (h : ∀ i ∈ totes, ∀ r, s.lookup i = some r → r.direction = .outbound) :
    ¬ ∃ i ∈ totes, ∃ r, s.lookup i = some r ∧ r.direction = .inbound := by
  rintro ⟨i, hi, r, hr, hin⟩
  rw [h i hi r hr] at hin
  cases hin

/-- A lane's first totes judged for a take once the level and the lane have passed (R92 checks 4 to 7). -/
def judgeTotes (s : State) (x : Side) (k : LaneId) (n : Nat) : Code ⊕ Grant :=
  if (s.lane k).contents.length < n then .inl .laneEmpty
  else if ∃ i ∈ (s.lane k).contents.take n, ∃ r, s.lookup i = some r ∧ r.direction = .inbound then .inl .wrongState
  else if s.takeEligible x ((s.lane k).contents.take n) = false then .inl .notEligible
  else if s.settings.params.carriageLimit < s.weightSum ((s.lane k).contents.take n) then .inl .weightLimit
  else .inr (takeJob x k ((s.lane k).contents.take n))

section
variable {s : State} {x : Side} {l : Level}

theorem directedTake_full (h : (s.lift x).contents ≠ []) (n : Nat) :
    s.judgeDirected x (.take l n) = .inl .carriageFull := if_pos (by simpa using h)

theorem directedTake_tested (h : (s.lift x).contents = []) (n : Nat) : s.judgeDirected x (.take l n) =
    ((s.levelStanding l).or (s.laneTests { level := l, name := x.outLane })).elim
      (s.judgeTotes x { level := l, name := x.outLane } n) .inl := by
  simp only [judgeDirected, judgeDirectedTake, judgeTotes, h, List.isEmpty_nil, Bool.not_true, Bool.false_eq_true, if_false,
    any_inbound_iff, Bool.not_eq_true']
  cases s.levelStanding l with
  | some c => rfl
  | none => cases s.laneTests { level := l, name := x.outLane } <;> rfl

end

section
variable {s : State} {x : Side} {k : LaneId} {n : Nat}

theorem judgeTotes_short (h : (s.lane k).contents.length < n) : s.judgeTotes x k n = .inl .laneEmpty := if_pos h

variable (hn : n ≤ (s.lane k).contents.length)
include hn

theorem judgeTotes_inbound (h : ∃ i ∈ (s.lane k).contents.take n, ∃ r, s.lookup i = some r ∧ r.direction = .inbound) :
    s.judgeTotes x k n = .inl .wrongState := by
  rw [judgeTotes, if_neg (not_lt.mpr hn), if_pos h]

variable (hout : ∀ i ∈ (s.lane k).contents.take n, ∀ r, s.lookup i = some r → r.direction = .outbound)
include hout

theorem judgeTotes_unfit (h : s.takeEligible x ((s.lane k).contents.take n) = false) :
    s.judgeTotes x k n = .inl .notEligible := by
  rw [judgeTotes, if_neg (not_lt.mpr hn), if_neg (not_inbound_of_outbound hout), if_pos h]

variable (hfit : s.takeEligible x ((s.lane k).contents.take n) = true)
include hfit

theorem judgeTotes_fit : s.judgeTotes x k n =
    if s.settings.params.carriageLimit < s.weightSum ((s.lane k).contents.take n) then .inl .weightLimit
    else .inr (takeJob x k ((s.lane k).contents.take n)) := by
  rw [judgeTotes, if_neg (not_lt.mpr hn), if_neg (not_inbound_of_outbound hout), if_neg (by simp [hfit])]

end

/-! ### The walk (R90, R93 to R96) -/

section
variable {s : State} {x : Side}

theorem selectOn_job {g : Grant} (h : s.walk x = .job g) : s.selectOn x = (s.grantJob x g, true) := by
  simp only [selectOn, h]

theorem selectOn_nothing (h : s.walk x = .nothing) : s.selectOn x = (s, false) := by simp only [selectOn, h]

theorem selectOn_stuck (h : s.walk x = .stuck) : s.selectOn x = (s.markStuck x, false) := by simp only [selectOn, h]

theorem markStuck_again (h : (s.lift x).stuck = true) : s.markStuck x = s := if_pos h

theorem markStuck_first (h : (s.lift x).stuck = false) :
    s.markStuck x = (s.modLift x fun y => { y with stuck := true }).raise (.lift x .liftStuck) := if_neg (by simp [h])

theorem walk_empty (h : (s.lift x).contents = []) : s.walk x = Found.ofOption (s.findEmpty x) .nothing := by
  simp only [walk, h]

theorem walk_inbound {front : Ident} {rest : List Ident} (h : (s.lift x).contents = front :: rest)
    (hd : s.carriageDirection x = some .inbound) : s.walk x = Found.ofOption (s.findDrop x front) .stuck := by
  simp only [walk, h, hd, if_true]

theorem walk_outbound {front : Ident} {rest : List Ident} (h : (s.lift x).contents = front :: rest)
    (hd : s.carriageDirection x ≠ some .inbound) :
    s.walk x = Found.ofOption (s.findUnload x front rest) .nothing := by
  simp only [walk, h, hd, if_false]

theorem findEmpty_aged (h : s.headAged x = true) : s.findEmpty x = s.findLoad x := if_pos h

theorem findEmpty_young (h : s.headAged x = false) : s.findEmpty x = (s.findTake x).or (s.findLoad x) := by
  rw [findEmpty, if_neg (by simp [h])]
  cases s.findTake x <;> rfl

theorem findDrop_eq {front : Ident} {r : Record} (hr : s.lookup front = some r) : s.findDrop x front =
    if (s.level r.level).mode = .auto ∧ (s.level r.level).fenced = false ∧
      s.takerTests { level := r.level, name := x.inLane } = none
    then some (s.dropJob x { level := r.level, name := x.inLane }) else none := by
  simp only [findDrop, levelOf_of_lookup hr]

/-- The load of totes from an entry queue on its lift (R47). -/
def loadJob (x : Side) (totes : List Ident) : Grant :=
  { slot := liftSlot x, kind := .entryLoad, totes := totes, giver := .entry x, taker := .carriage x }

theorem findLoad_empty (h : (s.queue x).contents = []) : s.findLoad x = none := by
  simp only [findLoad, h, List.isEmpty_nil, if_true]

theorem findLoad_loads (h : (s.queue x).contents ≠ []) : s.findLoad x = some (loadJob x (s.loadTotes x)) :=
  if_neg (by simpa using h)

theorem findLoad_one {head : Ident} (h : (s.queue x).contents = [head]) : s.findLoad x = some (loadJob x [head]) := by
  rw [findLoad_loads (by simp [h])]
  simp only [loadTotes, h]

theorem findLoad_two {head second : Ident} {rest : List Ident} (h : (s.queue x).contents = head :: second :: rest) :
    s.findLoad x = some (loadJob x (if s.weightSum [head, second] ≤ s.settings.params.carriageLimit
      then [head, second] else [head])) := by
  rw [findLoad_loads (by simp [h])]
  simp only [loadTotes, h]

end
end Sys2Proof.Machine.State

namespace Sys2Proof.Machine

/-- Settles O41: the directed job by the checks of its kind, then the walk by what the carriage holds. -/
theorem selectionWalksInOrder : Obligations.SelectionWalksInOrder := by
  refine ⟨⟨fun s x d h => ⟨fun g hg => select_directed h hg, fun why hwhy => select_discarded h hwhy⟩,
      fun s x => select_undirected, fun s x l => ?drop, fun s x l n hn => ?take,
      fun s x k => ⟨fun front h => dropTotes_one h k, fun front back rest r h hr => dropTotes_two h hr k⟩,
      headAged_iff, fun s => ⟨rfl, fun i rest r w hr hw => weightSum_cons hr hw rest⟩,
      fun s x => ⟨carriageDirection_empty, fun front rest => carriageDirection_cons⟩⟩,
    fun s x => ⟨fun g => selectOn_job, selectOn_nothing, fun h hstuck => ?again, fun h hstuck => ?first⟩,
    fun s x front rest h => ⟨fun hd => ?inbound, fun hd => ?outbound⟩,
    fun s x h => ⟨fun haged => ?aged, fun hyoung => ?young⟩, fun s x front r hr => ?found,
    fun s x => ⟨fun head => findLoad_one, fun head second rest => findLoad_two, findLoad_empty⟩⟩
  case drop =>
    exact ⟨directedDrop_empty, fun front rest r h hr => ⟨directedDrop_outbound h hr, fun hd =>
      ⟨directedDrop_wrongLevel h hr hd, fun hl => judged_in_order (directedDrop_tested h hr hd hl) id⟩⟩⟩
  case take =>
    refine ⟨fun hfull => directedTake_full hfull n, fun h => judged_in_order (directedTake_tested h n) fun hjudged => ?_⟩
    rw [hjudged]
    refine ⟨judgeTotes_short, fun hle => ⟨judgeTotes_inbound hle, fun hout => ?_⟩⟩
    have hlength : ((s.lane { level := l, name := x.outLane }).contents.take n).length = n := by simpa using hle
    have hfit := takeEligible_iff (s := s) (x := x) (hlength.symm ▸ hn)
    refine ⟨fun hunfit => judgeTotes_unfit hle hout (eq_false_of_ne_true (mt hfit.mp hunfit)), fun h hover => ?_,
      fun h hunder => ?_⟩
    · exact (judgeTotes_fit hle hout (hfit.mpr h)).trans (if_pos hover)
    · exact (judgeTotes_fit hle hout (hfit.mpr h)).trans (if_neg (not_lt.mpr hunder))
  case again => rw [selectOn_stuck h, markStuck_again hstuck]
  case first => rw [selectOn_stuck h, markStuck_first hstuck]; rfl
  case inbound => rw [walk_inbound h hd]; cases s.findDrop x front <;> rfl
  case outbound => rw [walk_outbound h hd]; cases s.findUnload x front rest <;> rfl
  case aged => rw [walk_empty h, findEmpty_aged haged]; cases s.findLoad x <;> rfl
  case young =>
    rw [walk_empty h, findEmpty_young hyoung]
    cases s.findTake x with
    | some g => rfl
    | none => cases s.findLoad x <;> rfl
  case found =>
    dsimp only
    rw [findDrop_eq hr]
    refine ⟨by simp, fun g hg => ?_⟩
    obtain ⟨-, hjob⟩ := Option.ite_none_right_eq_some.mp hg
    obtain rfl := Option.some.inj hjob
    exact ⟨rfl, rfl, rfl, rfl, rfl⟩

end Sys2Proof.Machine
end

