-- ==== Sys2Proof/Proofs/LiftRequests.lean ====
section
/-! The host's requests to the lifts: directed jobs (R91), enabling and blocks (R102 to R104), and what READ_LIFT and READ_ENTRY
return (R105, R115). -/

open Sys2Proof Sys2Proof.Machine Sys2Proof.Machine.State

namespace Sys2Proof.Machine

/-! ### The lift that a request names (R171) -/

theorem withLift_of {b : Byte} {x : Side} (h : b.toNat = x.ix.val) (go : Side → Answer) : withLift b go = go x := by
  rw [withLift, Side.ofByte_of h]

theorem withLift_out {b : Byte} (h : 1 < b.toNat) (go : Side → Answer) : withLift b go = .refuse .outOfRange := by
  rw [withLift, Side.ofByte_out h]

/-- What refuses OUT_OF_RANGE for both lifts refuses so whatever lift the byte names. -/
theorem withLift_refuse {go : Side → Answer} (h : ∀ x, go x = .refuse .outOfRange) (b : Byte) :
    withLift b go = .refuse .outOfRange := by
  unfold withLift
  split
  · rfl
  · exact h _

/-! ### The directed job that a request names (R91; log 10) -/

theorem Kind.ofByte_some {b : Byte} {k : Kind} (h : Kind.ofByte b = some k) : b = k.byte := by
  unfold Kind.ofByte at h
  repeat' split at h
  all_goals cases h
  all_goals assumption

theorem Kind.ofByte_byte (k : Kind) : Kind.ofByte k.byte = some k := by cases k <;> rfl

/-- A job is named only by a kind, a level and a count that are in their ranges. -/
theorem Directed.ofArg_some {kind b : Byte} {n : Option Byte} {d : Directed} (h : Directed.ofArg kind b n = some d) :
    (kind = 3 ∨ kind = 4) ∧ (1 ≤ b.toNat ∧ b.toNat ≤ 32) ∧ (kind = 4 → ∀ c, n = some c → c = 1 ∨ c = 2) := by
  have level {l : Level} (hl : Level.ofByte b = some l) : 1 ≤ b.toNat ∧ b.toNat ≤ 32 := by
    have := Level.ofByte_some hl
    have := l.isLt
    omega
  unfold Directed.ofArg at h
  split at h
  · next l c hkind hl =>
    split at h
    · next hc =>
      refine ⟨.inr (Kind.ofByte_some hkind), level hl, fun _ c' hc' => ?_⟩
      cases hc'
      exact hc
    · cases h
  · next l hkind hl => exact ⟨.inl (Kind.ofByte_some hkind), level hl, fun _ c hc => by cases hc⟩
  · cases h

theorem Directed.ofArg_out {kind b : Byte} {n : Option Byte}
    (h : (kind ≠ 3 ∧ kind ≠ 4) ∨ b.toNat < 1 ∨ 32 < b.toNat ∨ ∃ c, kind = 4 ∧ n = some c ∧ c ≠ 1 ∧ c ≠ 2) :
    Directed.ofArg kind b n = none := by
  by_contra hsome
  obtain ⟨d, hd⟩ := Option.ne_none_iff_exists'.mp hsome
  obtain ⟨hkind, hlevel, hcount⟩ := Directed.ofArg_some hd
  obtain h | h | h | ⟨c, hk, hn, hc⟩ := h
  · exact hkind.elim h.1 h.2
  · omega
  · omega
  · exact (hcount hk c hn).elim hc.1 hc.2

theorem Directed.ofArg_of {kind b : Byte} {n : Option Byte} {l : Level} {d : Directed} (hb : b.toNat = l.val + 1)
    (h : kind = 3 ∧ n = none ∧ d = .drop l ∨ ∃ c : Byte, kind = 4 ∧ n = some c ∧ (c = 1 ∨ c = 2) ∧ d = .take l c.toNat) :
    Directed.ofArg kind b n = some d := by
  obtain ⟨rfl, rfl, rfl⟩ | ⟨c, rfl, rfl, hc, rfl⟩ := h
  · have hkind : Kind.ofByte 3 = some .liftDrop := Kind.ofByte_byte .liftDrop
    simp only [Directed.ofArg, hkind, Level.ofByte_of hb]
  · have hkind : Kind.ofByte 4 = some .liftTake := Kind.ofByte_byte .liftTake
    simp only [Directed.ofArg, hkind, Level.ofByte_of hb, if_pos hc]

/-! ### DIRECT_LIFT and CANCEL_DIRECTED (R91) -/

theorem directLift_out {xb kind b : Byte} {n : Option Byte} (h : 1 < xb.toNat ∨ (kind ≠ 3 ∧ kind ≠ 4) ∨ b.toNat < 1 ∨
    32 < b.toNat ∨ ∃ c, kind = 4 ∧ n = some c ∧ c ≠ 1 ∧ c ≠ 2) (s : State) :
    directLift xb kind b n s = .refuse .outOfRange := by
  obtain h | h := h
  · exact withLift_out h _
  · exact withLift_refuse (fun x => by rw [Directed.ofArg_out h]) xb

theorem directLift_of {xb kind b : Byte} {n : Option Byte} {x : Side} {d : Directed} (hx : xb.toNat = x.ix.val)
    (hd : Directed.ofArg kind b n = some d) (s : State) : directLift xb kind b n s =
      if (s.lift x).directed.isSome then .refuse .busy else .accept (s.placeDirected x d) := by
  rw [directLift, withLift_of hx, hd]
  exact Answer.checked_cons ..

theorem placeDirected_eq (s : State) (x : Side) (d : Directed) : s.placeDirected x d = { s with
    lifts := s.lifts.set x.ix.val { s.lift x with directed := some d }
    cause := s.cause || (s.lift x).status == .parked } := by
  unfold placeDirected
  split
  · next h => rw [h, show (LiftStatus.parked == LiftStatus.parked) = true from rfl, Bool.or_true]; rfl
  · next h => rw [beq_false_of_ne h, Bool.or_false]; rfl

theorem cancelDirected_of {xb : Byte} {x : Side} (hx : xb.toNat = x.ix.val) (s : State) : cancelDirected xb s =
    if (s.lift x).directed.isNone then .refuse .wrongState
    else .accept (s.modLift x fun y => { y with directed := none }) := by
  rw [cancelDirected, withLift_of hx]
  exact Answer.checked_cons ..

/-- Settles O37: the operands name a job or are refused, and then the lift's slot for one decides. -/
theorem directedJobsArePlacedAndCancelled : Obligations.DirectedJobsArePlacedAndCancelled := by
  refine ⟨fun s xb kind b n hs => ?_, fun s xb hs => ?_⟩
  · rw [Changes.ready (.direct xb kind b n) hs]
    refine ⟨fun hout => ?_, fun x l d hx hb hnamed => ?_⟩
    · rw [directLift_out hout, answered_refuse]
    · rw [directLift_of hx (Directed.ofArg_of hb hnamed)]
      refine ⟨fun hfull => ?_, fun hempty => ?_⟩
      · rw [if_pos hfull, answered_refuse]
      · rw [hempty, if_neg (by decide), placeDirected_eq, answered_accept]
  · rw [Changes.ready (.cancelDirected xb) hs]
    refine ⟨fun hout => ?_, fun x hx => ?_⟩
    · rw [cancelDirected, withLift_out hout, answered_refuse]
    · rw [cancelDirected_of hx]
      refine ⟨fun hempty => ?_, fun hfull => ?_⟩
      · rw [hempty]; rfl
      · rw [Option.isNone_eq_false_iff.mpr hfull]; rfl

/-! ### Enabling and clearing (R102 to R104) -/

theorem carriageAgrees_iff (s : State) (x : Side) :
    s.carriageAgrees x = true ↔ (s.lift x).report.bind reportCount = some (s.lift x).contents.length := by
  unfold carriageAgrees
  cases (s.lift x).report <;> simp

theorem enableOn_enabled {s : State} {x : Side} (h : (s.lift x).status ≠ .disabled) : enableOn s x = .reply .empty := by
  unfold enableOn
  split
  · next hd => exact absurd hd h
  all_goals rfl

theorem enableOn_disabled {s : State} {x : Side} (h : (s.lift x).status = .disabled) : enableOn s x =
    if s.carriageAgrees x then .accept (s.modLift x fun y => { y with status := .ready }) else .refuse .mismatch := by
  rw [enableOn, h]
  dsimp only
  rw [Answer.checked_cons, Answer.checked_nil]
  cases s.carriageAgrees x <;> rfl

theorem enableOff_enabled {s : State} {x : Side}
    (h : (s.lift x).status = .ready ∨ (s.lift x).status = .parked ∨ (s.lift x).status = .blocked) :
    enableOff s x = .accept (s.disableLift x) := by
  obtain h | h | h := h <;> rw [enableOff, h]

/-- A lift made DISABLED, with its stuck mark clear (R103). -/
def disabledLift (s : State) (x : Side) : State :=
  { s with lifts := s.lifts.set x.ix.val { s.lift x with status := .disabled, stuck := false } }

theorem setLift_unstuck (s : State) (x : Side) :
    (s.setLift x .disabled).modLift x (fun y => { y with stuck := false }) = disabledLift s x :=
  modLift_modLift s x (fun y => { y with status := .disabled }) fun y => { y with stuck := false }

theorem disableLift_idle {s : State} {x : Side} (h : (s.lift x).status ≠ .parked) : s.disableLift x = disabledLift s x := by
  rw [disableLift, dropParked, if_neg h, setLift_unstuck]

theorem disableLift_parked {s : State} {x : Side} (h : (s.lift x).status = .parked) :
    s.disableLift x = (disabledLift s x).send (.lift x) (.refuse .wrongState) := by
  rw [disableLift, dropParked, if_pos h, ← setLift_unstuck]
  rfl

theorem setLiftEnable_out {xb on : Byte} (h : 1 < xb.toNat ∨ 1 < on.toNat) (s : State) :
    setLiftEnable xb on s = .refuse .outOfRange := by
  obtain h | h := h
  · exact withLift_out h _
  · exact withLift_refuse (fun x => by rw [settingOfByte_out h]) xb

theorem setLiftEnable_on {xb : Byte} {x : Side} (hx : xb.toNat = x.ix.val) (s : State) :
    setLiftEnable xb 0 s = enableOn s x := withLift_of hx _

theorem setLiftEnable_off {xb : Byte} {x : Side} (hx : xb.toNat = x.ix.val) (s : State) :
    setLiftEnable xb 1 s = enableOff s x := withLift_of hx _

theorem clearLiftBlock_of {xb : Byte} {x : Side} (hx : xb.toNat = x.ix.val) (s : State) : clearLiftBlock xb s =
    if (s.lift x).status ≠ .blocked then .refuse .wrongState
    else if s.carriageAgrees x then .accept (s.modLift x fun y => { y with status := .ready }) else .refuse .mismatch := by
  rw [clearLiftBlock, withLift_of hx, Answer.checked_cons, Answer.checked_cons, Answer.checked_nil]
  cases s.carriageAgrees x <;> simp

/-- Settles O38: on and off go by the lift's state, and only an agreeing report makes a lift READY. -/
theorem liftsAreEnabledAndUnblocked : Obligations.LiftsAreEnabledAndUnblocked := by
  refine ⟨fun s xb on hs => ?_, fun s xb hs => ?_⟩
  · rw [Changes.ready (.liftEnable xb on) hs]
    refine ⟨fun hout => ?_, fun x hx => ⟨?_, ?_, ?_, ?_, ?_, ?_⟩⟩
    · rw [setLiftEnable_out hout, answered_refuse]
    · rintro rfl h
      rw [setLiftEnable_on hx, enableOn_enabled h, answered_reply]
    · rintro rfl h
      rw [setLiftEnable_on hx, enableOn_disabled h]
      refine ⟨fun hdiffers => ?_, fun hagrees => ?_⟩
      · rw [if_neg (mt (carriageAgrees_iff s x).mp hdiffers), answered_refuse]
      · rw [if_pos ((carriageAgrees_iff s x).mpr hagrees)]; rfl
    · rintro rfl h
      rw [setLiftEnable_off hx, enableOff, h]; rfl
    · rintro rfl h
      rw [setLiftEnable_off hx, enableOff, h]; rfl
    · rintro rfl h
      rw [setLiftEnable_off hx, enableOff_enabled (h.imp_right .inr),
        disableLift_idle (h.elim (fun h => by rw [h]; decide) fun h => by rw [h]; decide)]
      rfl
    · rintro rfl h
      rw [setLiftEnable_off hx, enableOff_enabled (.inr (.inl h)), disableLift_parked h]; rfl
  · rw [Changes.ready (.liftBlock xb) hs]
    refine ⟨fun hout => ?_, fun x hx => ?_⟩
    · rw [clearLiftBlock, withLift_out hout, answered_refuse]
    · rw [clearLiftBlock_of hx]
      refine ⟨fun hfree => ?_, fun hblocked => ?_⟩
      · rw [if_pos hfree, answered_refuse]
      · rw [if_neg (not_not.mpr hblocked)]
        refine ⟨fun hdiffers => ?_, fun hagrees => ?_⟩
        · rw [if_neg (mt (carriageAgrees_iff s x).mp hdiffers), answered_refuse]
        · rw [if_pos ((carriageAgrees_iff s x).mpr hagrees)]; rfl

/-! ### READ_LIFT and READ_ENTRY (R105, R115) -/

theorem openNumber_eq (s : State) (i : Fin 34) : s.openNumber i = (s.slot i).opened.map fun _ =>
    ({ slot := i, gen := (s.slot i).generation } : TransferNumber) := by
  unfold openNumber numberOf
  cases (s.slot i).opened <;> rfl

theorem readLift_of {b : Byte} {x : Side} (h : b.toNat = x.ix.val) (s : State) : readLift b s = .reply (.lift
    { status := (s.lift x).status, contents := (s.lift x).contents, reserved := (s.lift x).reserved.length
      report := (s.lift x).report, parkedRequest := decide ((s.lift x).status = .parked)
      directed := (s.lift x).directed, refusal := (s.lift x).refusal, stuck := (s.lift x).stuck
      transfer := s.openNumber (liftSlot x) }) := withLift_of h _

theorem readEntry_of {b : Byte} {x : Side} (h : b.toNat = x.ix.val) (s : State) : readEntry b s = .reply (.entry
    { rows := (s.queue x).contents.filterMap s.entryRow, age := (s.queue x).age, isAged := s.headAged x
      mark := (s.queue x).aged, load := s.loadNumber x, rejection := (s.queue x).rejection }) := by
  rw [readEntry, Side.ofByte_of h]

theorem readEntry_out {b : Byte} (h : 1 < b.toNat) (s : State) : readEntry b s = .refuse .outOfRange := by
  rw [readEntry, Side.ofByte_out h]

/-- A list of identities that all have records gives one row for each, in its place (R115). -/
theorem filterMap_entryRow {s : State} {totes : List Ident} (h : ∀ i ∈ totes, (s.lookup i).isSome) :
    (totes.filterMap s.entryRow).length = totes.length ∧ ∀ (n : Nat) (i : Ident), totes[n]? = some i → ∃ r, s.lookup i = some r ∧
      (totes.filterMap s.entryRow)[n]? = some ({ ident := i, level := r.level, weight := r.weight } : EntryRow) := by
  induction totes with
  | nil => simp
  | cons j rest ih =>
    obtain ⟨hlength, hrows⟩ := ih fun i hi => h i (List.mem_cons_of_mem j hi)
    obtain ⟨r, hr⟩ := Option.isSome_iff_exists.mp (h j List.mem_cons_self)
    have hrow : s.entryRow j = some { ident := j, level := r.level, weight := r.weight } := by
      rw [entryRow, hr, Option.map_some, lookup_ident hr]
    rw [List.filterMap_cons_some hrow, List.length_cons, List.length_cons, hlength]
    refine ⟨rfl, fun n i hi => ?_⟩
    cases n with
    | zero =>
      obtain rfl : j = i := by simpa using hi
      exact ⟨r, hr, rfl⟩
    | succ n => exact hrows n i (by simpa using hi)

theorem loadNumber_isSome_iff (s : State) (x : Side) :
    (s.loadNumber x).isSome ↔ ∃ o, (s.slot (liftSlot x)).opened = some o ∧ o.kind = .entryLoad := by
  unfold loadNumber
  cases (s.slot (liftSlot x)).opened with
  | none => simp
  | some o => by_cases h : o.kind = .entryLoad <;> simp [h]

theorem loadNumber_eq {s : State} {x : Side} {n : TransferNumber} (h : s.loadNumber x = some n) :
    n = { slot := liftSlot x, gen := (s.slot (liftSlot x)).generation } := by
  unfold loadNumber at h
  repeat' split at h
  all_goals cases h
  rfl

/-- Settles O44. -/
theorem readLiftAndReadEntry : Obligations.ReadLiftAndReadEntry := by
  intro s b hs
  rw [Reads.ready (.lift b) hs, Reads.ready (.entry b) hs]
  refine ⟨fun hout => ⟨?_, ?_⟩, fun x hx => ⟨?_, _, s.loadNumber x, ?_, filterMap_entryRow, loadNumber_isSome_iff s x,
    fun n => loadNumber_eq⟩⟩
  · rw [readLift, withLift_out hout, answered_refuse]
  · rw [readEntry_out hout, answered_refuse]
  · rw [readLift_of hx, answered_reply, openNumber_eq]
  · rw [readEntry_of hx, answered_reply]; rfl

end Sys2Proof.Machine
end

