-- ==== Sys2Proof/Proofs/Parameters.lean ====
section
/-! SET_PARAMETER: the table of R172, the one value that is written, and ENTRY_AGE_LIMIT compared with the running ages (R86, R114,
R172). -/

open Sys2Proof Sys2Proof.Machine Sys2Proof.Machine.State

namespace Sys2Proof.Machine

/-! ### The table of R172 -/

/-- The parameters with their numbers and ranges (R172). -/
def paramTable : List (Nat × Nat × Nat) := [(0, 20, 255), (1, 20, 255), (2, 1, 50), (3, 5, 100), (4, 0, 20), (5, 2, 50),
  (6, 1, 255), (7, 5, 600), (8, 5, 100), (9, 1, 7), (10, 4, 8)]

theorem paramTable_eq : paramTable = (List.finRange 11).map fun k => (k.val, paramRange k) := by decide

theorem exists_param_of_mem {n lo hi : Nat} (h : (n, lo, hi) ∈ paramTable) :
    ∃ k : Fin 11, k.val = n ∧ paramRange k = (lo, hi) := by
  rw [paramTable_eq] at h
  obtain ⟨k, -, hk⟩ := List.mem_map.mp h
  obtain ⟨hn, hrange⟩ := Prod.mk.inj hk
  exact ⟨k, hn, hrange⟩

theorem paramOfByte_of {b : Byte} {k : Fin 11} (h : b.toNat = k.val) : paramOfByte b = some k := by
  rw [paramOfByte, dif_pos (by omega)]
  exact congrArg some (Fin.ext h)

theorem paramOfByte_out {b : Byte} (h : 10 < b.toNat) : paramOfByte b = none := dif_neg (by omega)

theorem Params.values_set (p : Params) (k : Fin 11) (v : Nat) : (p.set k v).values = p.values.set k.val v := by
  fin_cases k <;> rfl

namespace State

/-! ### The comparison of a head's age with its limit (R114) -/

theorem testAged_reached {s : State} {x : Side} (h : s.headAged x = true) (hmark : (s.queue x).aged = false) :
    s.testAged x = (s.modQueue x fun q => { q with aged := true }).raise (.entry x .entryAged) :=
  if_pos (by rw [h, hmark]; rfl)

section
variable (s : State) (x y : Side)

theorem testAged_rest : s.testAged x = { s with entries := (s.testAged x).entries, flags := (s.testAged x).flags } := by
  unfold testAged
  split <;> rfl

/-- The mark of a side's head is set where its age has reached the limit, and no queue changes otherwise. -/
theorem queue_testAged : (s.testAged x).queue y =
    { s.queue y with aged := (s.queue y).aged || (decide (x = y) && s.headAged x) } := by
  unfold testAged
  split
  · next h =>
    obtain ⟨haged, -⟩ := Bool.and_eq_true_iff.mp h
    refine (queue_modQueue s x y _).trans ?_
    split
    · next hxy => simp [hxy, hxy ▸ haged]
    · next hxy => simp [hxy]
  · next h =>
    by_cases hxy : x = y
    · subst hxy
      have hmark : ((s.queue x).aged || s.headAged x) = (s.queue x).aged := by
        cases haged : s.headAged x <;> cases hm : (s.queue x).aged <;> simp [haged, hm] at h ⊢
      simp [hmark]
    · simp [hxy]

theorem headAged_testAged : (s.testAged x).headAged y = s.headAged y := by
  have hsettings : (s.testAged x).settings = s.settings := by rw [testAged_rest]
  rw [headAged, queue_testAged, hsettings]
  rfl

theorem raised_testAged {f : Flag} (h : s.raised f = true) : (s.testAged x).raised f = true := by
  unfold testAged
  split
  · exact raised_raise _ h
  · exact h

/-- Both heads are compared with the limit, side A first (R114). -/
def testAges (s : State) : State := (s.testAged .a).testAged .b

theorem testAges_rest : s.testAges = { s with entries := s.testAges.entries, flags := s.testAges.flags } := by
  unfold testAges
  rw [testAged_rest (s.testAged .a), testAged_rest s]

theorem queue_testAges : s.testAges.queue y = { s.queue y with aged := (s.queue y).aged || s.headAged y } := by
  rw [testAges, queue_testAged, queue_testAged, headAged_testAged]
  cases y <;> simp

theorem raised_testAges {s : State} {y : Side} (h : s.headAged y = true) (hmark : (s.queue y).aged = false) :
    s.testAges.raised (.entry y .entryAged) = true := by
  cases y with
  | a => exact raised_testAged _ _ (by rw [testAged_reached h hmark]; exact raised_raise_self ..)
  | b =>
    have hqueue : (s.testAged .a).queue .b = s.queue .b := by rw [queue_testAged]; simp
    rw [testAges, testAged_reached (by rw [headAged_testAged]; exact h) (by rw [hqueue]; exact hmark)]
    exact raised_raise_self ..

end

/-! ### A parameter written (R172) -/

section
variable (s : State) (k : Fin 11) (v : Nat)

theorem writeParam_other {k : Fin 11} (h : k ≠ 7) : s.writeParam k v = s.setParam k v := if_neg h

theorem writeParam_age : s.writeParam 7 v = (s.setParam 7 v).testAges := if_pos rfl

theorem writeParam_rest : s.writeParam k v = { s with
    settings := { s.settings with params := s.settings.params.set k v }
    entries := (s.writeParam k v).entries, flags := (s.writeParam k v).flags } := by
  by_cases h : k = 7
  · subst h
    rw [writeParam_age, testAges_rest]
    rfl
  · rw [writeParam_other s v h]
    rfl

theorem headAged_setParam (x : Side) :
    (s.setParam 7 v).headAged x = true ↔ ∃ a, (s.queue x).age = some a ∧ 10 * v ≤ a := headAged_iff (s.setParam 7 v) x

theorem queue_writeParam_kept {s : State} {x : Side} {v : Nat}
    (h : (s.queue x).aged = true ∨ ∀ a, (s.queue x).age = some a → a < 10 * v) :
    (s.writeParam 7 v).queue x = s.queue x := by
  have hmark : ((s.queue x).aged || (s.setParam 7 v).headAged x) = (s.queue x).aged := by
    obtain h | h := h
    · rw [h, Bool.true_or]
    · have hyoung : (s.setParam 7 v).headAged x = false := eq_false_of_ne_true fun haged => by
        obtain ⟨a, ha, hle⟩ := (s.headAged_setParam v x).mp haged
        exact absurd (h a ha) (by omega)
      rw [hyoung, Bool.or_false]
  rw [writeParam_age, queue_testAges]
  exact congrArg (fun b => { s.queue x with aged := b }) hmark

/-- A limit that a head's age has reached marks the head and raises its event (R114). -/
theorem writeParam_marks {s : State} {x : Side} {v a : Nat} (hmark : (s.queue x).aged = false)
    (ha : (s.queue x).age = some a) (hle : 10 * v ≤ a) :
    (s.writeParam 7 v).queue x = { s.queue x with aged := true } ∧
      (s.writeParam 7 v).raised (.entry x .entryAged) = true := by
  have haged : (s.setParam 7 v).headAged x = true := (s.headAged_setParam v x).mpr ⟨a, ha, hle⟩
  rw [writeParam_age, queue_testAges, haged, Bool.or_true]
  exact ⟨rfl, raised_testAges haged hmark⟩

end
end State

/-! ### SET_PARAMETER (R172) -/

theorem setParameter_out {nb : Byte} (h : 10 < nb.toNat) (v : BitVec 16) (s : State) :
    setParameter nb v s = .refuse .outOfRange := by rw [setParameter, paramOfByte_out h]

theorem setParameter_of {nb : Byte} {k : Fin 11} {lo hi : Nat} (h : nb.toNat = k.val) (hrange : paramRange k = (lo, hi))
    (v : BitVec 16) (s : State) : setParameter nb v s =
      if v.toNat < lo ∨ hi < v.toNat then .refuse .outOfRange
      else if k = 10 ∧ (v.toNat < s.carriageWeight .a ∨ v.toNat < s.carriageWeight .b) then .refuse .busy
      else .accept (s.writeParam k v.toNat) := by
  rw [setParameter, paramOfByte_of h]
  simp only [hrange, Answer.checked_cons, Answer.checked_nil, Bool.or_eq_true, Bool.and_eq_true, decide_eq_true_eq, beq_iff_eq]

/-- Settles O58: the table, then the weights of the carriages, and then the value; ENTRY_AGE_LIMIT alone writes more. -/
theorem setParameterWritesOneValue : Obligations.SetParameterWritesOneValue := by
  intro s nb v hs
  rw [Changes.ready (.parameter nb v) hs]
  refine ⟨fun hout => ?_, fun n lo hi hmem hnb => ?_⟩
  · rw [setParameter_out hout, answered_refuse]
  · obtain ⟨k, rfl, hrange⟩ := exists_param_of_mem hmem
    rw [setParameter_of hnb hrange]
    refine ⟨fun hout => ?_, fun hlo hhi => ?_⟩
    · rw [if_pos hout, answered_refuse]
    · rw [if_neg (not_or.mpr ⟨not_lt.mpr hlo, not_lt.mpr hhi⟩)]
      refine ⟨fun hk hheavy => ?_, fun hfits => ⟨s.writeParam k v.toNat, ?_, ?_, ?_, fun hk => ?_, fun hk x => ?_⟩⟩
      · rw [if_pos ⟨Fin.ext hk, hheavy⟩, answered_refuse]
      · have hlight : ¬ (k = 10 ∧ (v.toNat < s.carriageWeight .a ∨ v.toNat < s.carriageWeight .b)) := by
          rintro ⟨rfl, hheavy⟩
          obtain ⟨ha, hb⟩ := hfits.resolve_left fun h => h rfl
          exact hheavy.elim (not_lt.mpr ha) (not_lt.mpr hb)
        rw [if_neg hlight, answered_accept]
      · rw [writeParam_rest]
        exact Params.values_set ..
      · rw [writeParam_rest]
      · rw [writeParam_other s _ fun h => hk (congrArg Fin.val h)]
        exact ⟨rfl, rfl⟩
      · obtain rfl : k = 7 := Fin.ext hk
        exact ⟨queue_writeParam_kept, fun a => writeParam_marks⟩

end Sys2Proof.Machine
end

