-- ==== Sys2Proof/Proofs/TakeChoice.lean ====
section
/-! The head that the automatic LIFT_TAKE starts from: the candidates of R97, and the first of them in its order. -/

open Sys2Proof Sys2Proof.Machine Sys2Proof.Machine.State

namespace Sys2Proof.Machine

/-! ### The order of the keys (R97) -/

/-- A key goes before another or is equal to it: by class, then by opening number or level, then by rank (R97). -/
def keyLe (a b : Nat × Nat × Nat) : Prop :=
  a.1 < b.1 ∨ (a.1 = b.1 ∧ (a.2.1 < b.2.1 ∨ (a.2.1 = b.2.1 ∧ a.2.2 ≤ b.2.2)))

theorem keyLe_refl (a : Nat × Nat × Nat) : keyLe a a := .inr ⟨rfl, .inr ⟨rfl, le_rfl⟩⟩

theorem keyLe_trans {a b c : Nat × Nat × Nat} (hab : keyLe a b) (hbc : keyLe b c) : keyLe a c := by
  unfold keyLe at *
  omega

theorem keyLe_of_before {a b : Nat × Nat × Nat} (h : keyBefore a b = true) : keyLe a b := by
  simp only [keyBefore, Bool.or_eq_true, Bool.and_eq_true, decide_eq_true_eq, beq_iff_eq] at h
  unfold keyLe
  omega

theorem keyLe_of_not_before {a b : Nat × Nat × Nat} (h : keyBefore a b = false) : keyLe b a := by
  simp only [keyBefore, Bool.or_eq_false_iff, Bool.and_eq_false_iff, decide_eq_false_iff_not, beq_eq_false_iff_ne] at h
  unfold keyLe
  omega

/-! ### The first of several candidates (R97) -/

theorem betterOf_none (best : Option (Level × Nat × Nat × Nat)) (l : Level) : betterOf best l none = best := by
  cases best <;> rfl

/-- Of what was found so far and one candidate more, the better is one of them and goes behind neither. -/
theorem betterOf_some (best : Option (Level × Nat × Nat × Nat)) (l : Level) (key : Nat × Nat × Nat) :
    ∃ b, betterOf best l (some key) = some b ∧ (b = (l, key) ∨ best = some b) ∧ keyLe b.2 key ∧
      ∀ c, best = some c → keyLe b.2 c.2 := by
  cases best with
  | none => exact ⟨(l, key), rfl, .inl rfl, keyLe_refl key, fun c hc => by cases hc⟩
  | some b =>
    cases h : keyBefore key b.2 with
    | true =>
      refine ⟨(l, key), if_pos h, .inl rfl, keyLe_refl key, fun c hc => ?_⟩
      cases hc
      exact keyLe_of_before h
    | false =>
      refine ⟨b, if_neg (by simp [h]), .inr rfl, keyLe_of_not_before h, fun c hc => ?_⟩
      cases hc
      exact keyLe_refl b.2

/-- The best of the levels of a list by their candidates, beginning with what was found before. -/
def bestOf (candidate : Level → Option (Nat × Nat × Nat)) (best : Option (Level × Nat × Nat × Nat)) (ls : List Level) :
    Option (Level × Nat × Nat × Nat) := ls.foldl (fun best l => betterOf best l (candidate l)) best

section
variable {candidate : Level → Option (Nat × Nat × Nat)}

theorem bestOf_eq_none_iff {best : Option (Level × Nat × Nat × Nat)} {ls : List Level} :
    bestOf candidate best ls = none ↔ best = none ∧ ∀ l ∈ ls, candidate l = none := by
  induction ls generalizing best with
  | nil => simp [bestOf]
  | cons l rest ih =>
    rw [bestOf, List.foldl_cons, ← bestOf, ih, List.forall_mem_cons]
    cases hc : candidate l with
    | none => rw [betterOf_none]; simp
    | some key =>
      obtain ⟨b, hb, -⟩ := betterOf_some best l key
      rw [hb]
      simp

/-- The best is what was found before or the candidate of its level, and goes behind neither that nor any candidate. -/
theorem bestOf_some {best : Option (Level × Nat × Nat × Nat)} {ls : List Level} {b : Level × Nat × Nat × Nat}
    (h : bestOf candidate best ls = some b) : (best = some b ∨ candidate b.1 = some b.2) ∧
      (∀ c, best = some c → keyLe b.2 c.2) ∧ ∀ m ∈ ls, ∀ key, candidate m = some key → keyLe b.2 key := by
  induction ls generalizing best with
  | nil =>
    obtain rfl : best = some b := h
    exact ⟨.inl rfl, fun c hc => by cases hc; exact keyLe_refl b.2, by simp⟩
  | cons l rest ih =>
    obtain ⟨hfrom, hbest, hrest⟩ := ih (best := betterOf best l (candidate l)) h
    rw [List.forall_mem_cons]
    cases hc : candidate l with
    | none =>
      rw [hc, betterOf_none] at hfrom hbest
      exact ⟨hfrom, hbest, by simp, hrest⟩
    | some key =>
      obtain ⟨d, hd, hsource, hkey, hbefore⟩ := betterOf_some best l key
      rw [hc, hd] at hfrom hbest
      have hbd : keyLe b.2 d.2 := hbest d rfl
      refine ⟨?_, fun c hbc => keyLe_trans hbd (hbefore c hbc), fun other hother => ?_, hrest⟩
      · obtain hdb | hcand := hfrom
        · obtain rfl : d = b := Option.some.inj hdb
          exact hsource.symm.imp_right fun hd' => by rw [hd', hc]
        · exact .inr hcand
      · obtain rfl : key = other := Option.some.inj hother
        exact keyLe_trans hbd hkey

end

namespace State

/-! ### The candidate of a level (R97) -/

theorem laneTests_none_iff {s : State} {k : LaneId} :
    s.laneTests k = none ↔ (s.lane k).condition = .clear ∧ s.busy k = false := by
  unfold laneTests
  cases (s.lane k).condition <;> simp

section
variable {s : State} {l : Level} {r : Record}

theorem takeKey_unsequenced (h : r.entry = none) : s.takeKey l r = some (2, l.val, 0) := by rw [takeKey, h]

theorem takeKey_unlisted {ref : EntryRef} (h : r.entry = some ref) (hlist : s.list ref.list = none) :
    s.takeKey l r = none := by
  simp only [takeKey, h, hlist]

theorem takeKey_sequenced {ref : EntryRef} {list : ReleaseList} (h : r.entry = some ref)
    (hlist : s.list ref.list = some list) : s.takeKey l r =
      if s.entryState ref = some .claimed then some (0, list.opening, ref.rank)
      else if s.nextLoadOf list.station = .stands (.entry ref) then some (1, list.opening, ref.rank) else none := by
  simp only [takeKey, h, hlist]

/-- What the key of a head record in the choice of R97 says of it. -/
theorem takeKey_some {key : Nat × Nat × Nat} (h : s.takeKey l r = some key) :
    (r.entry = none → key = (2, l.val, 0)) ∧ ∀ ref, r.entry = some ref → ∃ list, s.list ref.list = some list ∧
      (s.entryState ref = some .claimed → key = (0, list.opening, ref.rank)) ∧
      (s.entryState ref ≠ some .claimed → key = (1, list.opening, ref.rank) ∧
        s.nextLoadOf list.station = .stands (.entry ref)) := by
  refine ⟨fun hnone => ?_, fun ref href => ?_⟩
  · rw [takeKey_unsequenced hnone] at h
    exact (Option.some.inj h).symm
  · cases hlist : s.list ref.list with
    | none => rw [takeKey_unlisted href hlist] at h; cases h
    | some list =>
      rw [takeKey_sequenced href hlist] at h
      refine ⟨list, rfl, fun hclaimed => ?_, fun hother => ?_⟩
      · rw [if_pos hclaimed] at h
        exact (Option.some.inj h).symm
      · rw [if_neg hother] at h
        obtain ⟨hnext, hkey⟩ := Option.ite_none_right_eq_some.mp h
        exact ⟨(Option.some.inj hkey).symm, hnext⟩

end

section
variable {s : State} {x : Side} {l : Level}

/-- A level's OUT lane on a lift's side may give a take: the level is AUTO and not fenced, the lane CLEAR and not busy (R97). -/
def mayGive (s : State) (x : Side) (l : Level) : Prop :=
  (s.level l).mode = .auto ∧ (s.level l).fenced = false ∧ (s.lane { level := l, name := x.outLane }).condition = .clear ∧
    s.busy { level := l, name := x.outLane } = false

theorem candidateAt_head {head : Ident} {rest : List Ident} {r : Record} (hgive : s.mayGive x l)
    (h : (s.lane { level := l, name := x.outLane }).contents = head :: rest) (hr : s.lookup head = some r) :
    s.candidateAt x l = s.takeKey l r := by
  obtain ⟨hmode, hfence, hlane⟩ := hgive
  simp only [candidateAt, hmode, hfence, laneTests_none_iff.mpr hlane, h, hr, and_self, if_true, Option.bind_some]

/-- A candidate is the head of a lane that may give it. -/
theorem candidateAt_some {key : Nat × Nat × Nat} (h : s.candidateAt x l = some key) : s.mayGive x l ∧ ∃ head rest r,
    (s.lane { level := l, name := x.outLane }).contents = head :: rest ∧ s.lookup head = some r ∧
      s.takeKey l r = some key := by
  obtain ⟨⟨hmode, hfence, hlane⟩, h⟩ := Option.ite_none_right_eq_some.mp h
  refine ⟨⟨hmode, hfence, laneTests_none_iff.mp hlane⟩, ?_⟩
  cases hcontents : (s.lane { level := l, name := x.outLane }).contents with
  | nil => simp only [hcontents] at h; cases h
  | cons head rest =>
    simp only [hcontents] at h
    obtain ⟨r, hr, hkey⟩ := Option.bind_eq_some_iff.mp h
    exact ⟨head, rest, r, rfl, hr, hkey⟩

/-! ### The level that is chosen (R97) -/

theorem chosenLevel_eq (s : State) (x : Side) :
    s.chosenLevel x = (bestOf (s.candidateAt x) none (List.finRange 32)).map (·.1) := rfl

theorem chosenLevel_none_iff : s.chosenLevel x = none ↔ ∀ l, s.candidateAt x l = none := by
  rw [chosenLevel_eq, Option.map_eq_none_iff, bestOf_eq_none_iff]
  simp

theorem chosenLevel_some (h : s.chosenLevel x = some l) : ∃ key, s.candidateAt x l = some key ∧
    ∀ m other, s.candidateAt x m = some other → keyLe key other := by
  rw [chosenLevel_eq] at h
  obtain ⟨b, hb, rfl⟩ := Option.map_eq_some_iff.mp h
  obtain ⟨hfrom, -, hfirst⟩ := bestOf_some hb
  exact ⟨b.2, hfrom.resolve_left nofun, fun m other hother => hfirst m (List.mem_finRange m) other hother⟩

theorem findTake_eq (s : State) (x : Side) : s.findTake x = (s.chosenLevel x).map fun l =>
    takeJob x { level := l, name := x.outLane }
      (s.takeTotes x (s.lane { level := l, name := x.outLane }).contents) := rfl

end
end State

/-- Settles O42: the choice is the best of the candidates, each told by its head record's key. -/
theorem takesStartFromTheFirstCandidate : Obligations.TakesStartFromTheFirstCandidate := by
  intro s x
  refine ⟨chosenLevel_none_iff, fun l => chosenLevel_some, fun h => ?_, fun l h => ?_, fun l key h => ?_,
    fun l head rest r hcontents hr hmode hfence hclear hfree => ?_⟩
  · rw [findTake_eq, h, Option.map_none]
  · rw [findTake_eq, h]; rfl
  · obtain ⟨⟨hmode, hfence, hclear, hfree⟩, head, rest, r, hcontents, hr, hkey⟩ := candidateAt_some h
    exact ⟨head, rest, r, hcontents, hr, hmode, hfence, hclear, hfree, takeKey_some hkey⟩
  · rw [candidateAt_head ⟨hmode, hfence, hclear, hfree⟩ hcontents hr]
    refine ⟨takeKey_unsequenced, fun ref list href hlist => ?_⟩
    rw [takeKey_sequenced href hlist]
    refine ⟨fun hclaimed => ?_, fun hother hnext => ?_, fun hother hnext => ?_⟩
    · rw [if_pos hclaimed]
    · rw [if_neg hother, if_pos hnext]
    · rw [if_neg hother, if_neg hnext]

end Sys2Proof.Machine
end

