-- ==== Sys2Proof/Proofs/PointersAndGates.lean ====
section
/-! Station order: the two pointers of a station (R119 to R121), the gates at loading and at the exit that read them (R123, R125), and
the totes that the gates let a job list (R95, R98). -/

open Sys2Proof Sys2Proof.Machine Sys2Proof.Machine.State

namespace Sys2Proof.Machine.State

/-! ### The first entry that is wanted (R120, R121) -/

/-- A list gives a pointer no place: it is not in use, or is CLOSED with no entry that is wanted. -/
def spent (s : State) (want : EntryState → Bool) (l : Fin 16) : Prop :=
  ∀ r, s.list l = some r → r.closed = true ∧ ∀ e ∈ r.entries, want e.state = false

/-- The first wanted entry of a list is the one that a reference names. -/
def firstWanted (s : State) (want : EntryState → Bool) (ref : EntryRef) : Prop :=
  ∃ r e, s.list ref.list = some r ∧ 1 ≤ ref.rank ∧ r.entries[ref.rank - 1]? = some e ∧ want e.state = true ∧
    ∀ d ∈ r.entries.take (ref.rank - 1), want d.state = false

/-- A list is OPEN with no entry that is wanted. -/
def standsOpen (s : State) (want : EntryState → Bool) (l : Fin 16) : Prop :=
  ∃ r, s.list l = some r ∧ r.closed = false ∧ ∀ e ∈ r.entries, want e.state = false

section
variable {s : State} {want : EntryState → Bool}

/-- A list is passed over when it is spent, and otherwise the pointer stands at it. -/
theorem firstEntry_cons (l : Fin 16) (rest : List (Fin 16)) :
    (s.spent want l ∧ s.firstEntry want (l :: rest) = s.firstEntry want rest) ∨
    (∃ ref : EntryRef, ref.list = l ∧ s.firstWanted want ref ∧ s.firstEntry want (l :: rest) = .entry ref) ∨
    (s.standsOpen want l ∧ s.firstEntry want (l :: rest) = .endOfList l) := by
  cases hl : s.list l with
  | none => exact .inl ⟨fun r hr => (by rw [hl] at hr; cases hr), by simp only [firstEntry, hl]⟩
  | some r =>
    cases hi : r.entries.findIdx? fun e => want e.state with
    | none =>
      have hnone : ∀ e ∈ r.entries, want e.state = false := List.findIdx?_eq_none_iff.mp hi
      cases hc : r.closed with
      | true =>
        refine .inl ⟨fun q hq => ?_, by simp only [firstEntry, hl, hi, hc, if_true]⟩
        obtain rfl : r = q := Option.some.inj (hl.symm.trans hq)
        exact ⟨hc, hnone⟩
      | false => exact .inr (.inr ⟨⟨r, hl, hc, hnone⟩, by simp [firstEntry, hl, hi, hc]⟩)
    | some i =>
      obtain ⟨hlt, hwant, hbefore⟩ := List.findIdx?_eq_some_iff_getElem.mp hi
      refine .inr (.inl ⟨⟨l, i + 1⟩, rfl, ⟨r, r.entries[i], hl, by simp, by simp, hwant, fun d hd => ?_⟩,
        by simp only [firstEntry, hl, hi]⟩)
      obtain ⟨j, hj, rfl⟩ := List.mem_take_iff_getElem.mp hd
      exact eq_false_of_ne_true (hbefore j (by simp at hj; omega))

theorem firstEntry_entry {queue : List (Fin 16)} {ref : EntryRef} (h : s.firstEntry want queue = .entry ref) :
    ∃ before behind, queue = before ++ ref.list :: behind ∧ (∀ l ∈ before, s.spent want l) ∧ s.firstWanted want ref := by
  induction queue with
  | nil => cases h
  | cons l rest ih =>
    obtain ⟨hspent, hnext⟩ | ⟨q, rfl, hfirst, hq⟩ | ⟨-, hopen⟩ := firstEntry_cons (s := s) (want := want) l rest
    · obtain ⟨before, behind, rfl, hbefore, hfirst⟩ := ih (hnext.symm.trans h)
      exact ⟨l :: before, behind, rfl, List.forall_mem_cons.mpr ⟨hspent, hbefore⟩, hfirst⟩
    · obtain rfl : q = ref := Pointer.entry.inj (hq.symm.trans h)
      exact ⟨[], rest, rfl, by simp, hfirst⟩
    · cases hopen.symm.trans h

theorem firstEntry_endOfList {queue : List (Fin 16)} {k : Fin 16} (h : s.firstEntry want queue = .endOfList k) :
    ∃ before behind, queue = before ++ k :: behind ∧ (∀ l ∈ before, s.spent want l) ∧ s.standsOpen want k := by
  induction queue with
  | nil => cases h
  | cons l rest ih =>
    obtain ⟨hspent, hnext⟩ | ⟨q, -, -, hq⟩ | ⟨hstands, hopen⟩ := firstEntry_cons (s := s) (want := want) l rest
    · obtain ⟨before, behind, rfl, hbefore, hstands⟩ := ih (hnext.symm.trans h)
      exact ⟨l :: before, behind, rfl, List.forall_mem_cons.mpr ⟨hspent, hbefore⟩, hstands⟩
    · cases hq.symm.trans h
    · obtain rfl : l = k := Pointer.endOfList.inj (hopen.symm.trans h)
      exact ⟨[], rest, rfl, by simp, hstands⟩

theorem firstEntry_atEnd {queue : List (Fin 16)} (h : s.firstEntry want queue = .atEnd) : ∀ l ∈ queue, s.spent want l := by
  induction queue with
  | nil => simp
  | cons l rest ih =>
    obtain ⟨hspent, hnext⟩ | ⟨q, -, -, hq⟩ | ⟨-, hopen⟩ := firstEntry_cons (s := s) (want := want) l rest
    · exact List.forall_mem_cons.mpr ⟨hspent, ih (hnext.symm.trans h)⟩
    · cases hq.symm.trans h
    · cases hopen.symm.trans h

end

/-! ### The two pointers of a station (R119 to R121) -/

theorem not_passed_eq_false_iff (e : EntryState) :
    (!e.passed) = false ↔ e = .delivered ∨ e = .exitHeld ∨ e = .missing ∨ e = .skipped := by
  cases e <;> simp [EntryState.passed]

theorem hasLooseClaim_iff (s : State) (n : StationNo) : s.hasLooseClaim n = true ↔ ∃ l r e, l ∈ (s.station n).queue ∧
    s.list l = some r ∧ e ∈ r.entries ∧ e.state = .claimed ∧ ∀ x, s.lookup e.ident = some x → x.transfer = none := by
  have hloose (e : Entry) : (e.state == .claimed && (s.lookup e.ident).all fun x => x.transfer.isNone) = true ↔
      e.state = .claimed ∧ ∀ x, s.lookup e.ident = some x → x.transfer = none := by
    simp only [Bool.and_eq_true, beq_iff_eq, Option.all_eq_true_iff_get, Option.isNone_iff_eq_none]
    cases s.lookup e.ident <;> simp
  unfold hasLooseClaim
  rw [List.any_eq_true]
  constructor
  · rintro ⟨l, hl, h⟩
    cases hr : s.list l with
    | none => simp only [hr] at h; cases h
    | some r =>
      simp only [hr] at h
      obtain ⟨e, he, hclaim⟩ := List.any_eq_true.mp h
      exact ⟨l, r, e, hl, hr, he, (hloose e).mp hclaim⟩
  · rintro ⟨l, r, e, hl, hr, he, hclaim⟩
    refine ⟨l, hl, ?_⟩
    simp only [hr]
    exact List.any_eq_true.mpr ⟨e, he, (hloose e).mpr hclaim⟩

theorem nextLoadOf_eq_withheld_iff (s : State) (n : StationNo) :
    s.nextLoadOf n = .withheld ↔ (s.station n).stalled = true ∨ s.hasLooseClaim n = true := by
  unfold nextLoadOf withheld
  rw [← Bool.or_eq_true]
  split <;> simp [*]

theorem nextLoadOf_stands {s : State} {n : StationNo} (h : s.nextLoadOf n ≠ .withheld) :
    s.nextLoadOf n = .stands (s.firstEntry (fun e => e == .pending) (s.station n).queue) := by
  unfold nextLoadOf at *
  split at h
  · exact absurd rfl h
  · next hw => exact if_neg hw

/-! ### The two gates (R123, R125) -/

section
variable {s : State} {r : Record}

theorem eligible_unsequenced (h : r.entry = none) : s.eligible r = true := by rw [eligible, h]

theorem admissible_unsequenced (h : r.entry = none) : s.admissible r = true := by rw [admissible, h]

variable {ref : EntryRef} {n : StationNo} (h : r.entry = some ref) (hn : s.stationOf ref = some n)
include h hn

theorem eligible_iff : s.eligible r = true ↔ (s.entryState ref = some .claimed ∧ r.transfer = none) ∨
    s.nextLoadOf n = .stands (.entry ref) := by
  simp only [eligible, h, hn, Bool.or_eq_true, Bool.and_eq_true, beq_iff_eq, Option.isNone_iff_eq_none]

theorem admissible_iff : s.admissible r = true ↔ (s.station n).stalled = false ∧ s.nextExitOf n = .entry ref := by
  simp only [admissible, h, hn, Bool.and_eq_true, Bool.not_eq_true', beq_iff_eq]

end

/-- The unload of totes from a lift's carriage to the exit (R47). -/
def unloadJob (x : Side) (totes : List Ident) : Grant :=
  { slot := liftSlot x, kind := .exitUnload, totes := totes, giver := .carriage x, taker := .exit }

section
variable {s : State} {x : Side} {front : Ident} {r : Record} (hr : s.lookup front = some r)
include hr

theorem findUnload_inadmissible (h : s.admissible r = false) (rest : List Ident) : s.findUnload x front rest = none := by
  simp only [findUnload, hr, h, Bool.false_eq_true, if_false]

theorem findUnload_admissible (h : s.admissible r = true) (rest : List Ident) :
    s.findUnload x front rest = some (unloadJob x (s.unloadTotes r rest)) := by
  simp only [findUnload, hr, h, if_true]
  rfl

end

theorem unloadTotes_alone (s : State) (r : Record) : s.unloadTotes r [] = [r.ident] := rfl

/-- BACK is unloaded behind FRONT when it is admissible behind it (R95). -/
theorem unloadTotes_behind (s : State) (r : Record) (back : Ident) (rest : List Ident) : s.unloadTotes r (back :: rest) =
    if (s.lookup back).any (s.admissibleBehind r) then [r.ident, back] else [r.ident] := by
  rw [unloadTotes]
  cases s.lookup back <;> rfl

theorem admissibleBehind_unsequenced {front : Record} (s : State) (h : front.entry = none) (back : Record) :
    s.admissibleBehind front back = s.admissible back := by rw [admissibleBehind, h]

theorem admissibleBehind_sequenced {front : Record} {ref : EntryRef} (s : State) (h : front.entry = some ref) (back : Record) :
    s.admissibleBehind front back = (s.setEntryState ref .delivered).admissible back := by rw [admissibleBehind, h]

theorem eligibleBehind_unsequenced {head : Record} (s : State) (h : head.entry = none) (second : Record) (i : Fin 34) :
    s.eligibleBehind head second i = s.eligible second := by rw [eligibleBehind, assumeTaken, h]

theorem setEntryState_rest (s : State) (ref : EntryRef) (e : EntryState) :
    s.setEntryState ref e = { s with lists := (s.setEntryState ref e).lists } := by
  unfold setEntryState modEntry
  split <;> rfl

/-- An entry CLAIMED and its record listed in the transfer of a slot (R123). -/
def listedIn (s : State) (ref : EntryRef) (head : Ident) (i : Fin 34) : State :=
  { s.setEntryState ref .claimed with records := s.records.map fun p => if p.2.ident = head
      then (p.1, { p.2 with transfer := some { slot := i, gen := (s.slot i).generation } }) else p }

/-- The second tote of a take is judged with the head's entry CLAIMED and the head listed in the take (R98, R123). -/
theorem eligibleBehind_sequenced {head : Record} {ref : EntryRef} (s : State) (h : head.entry = some ref) (second : Record)
    (i : Fin 34) : s.eligibleBehind head second i = (s.listedIn ref head.ident i).eligible second := by
  have hrecords : (s.setEntryState ref .claimed).records = s.records := by rw [setEntryState_rest]
  have hlisted : s.assumeTaken head i = s.listedIn ref head.ident i := by
    simp only [assumeTaken, h, setTransfer, modRecord, hrecords, listedIn, numberOf]
  rw [eligibleBehind, hlisted]

/-! ### The totes of an automatic take (R98) -/

theorem takeTotes_two {s : State} {x : Side} {head second : Ident} {h r : Record} (hh : s.lookup head = some h)
    (hr : s.lookup second = some r) (rest : List Ident) : s.takeTotes x (head :: second :: rest) =
      if s.eligibleBehind h r (liftSlot x) = true ∧ s.weightSum [head, second] ≤ s.settings.params.carriageLimit ∧
        r.transfer = none then [head, second] else [head] := by
  simp only [takeTotes, hh, hr]

end Sys2Proof.Machine.State

namespace Sys2Proof.Machine

/-- Settles O45: the pointers by the first entry that each wants, the gates by the pointers, and the totes by the gates. -/
theorem pointersAndGates : Obligations.PointersAndGates := by
  refine ⟨⟨fun s want queue => ⟨fun ref h => ?_, fun l h => ?_, firstEntry_atEnd⟩,
    fun s n => ⟨fun e => !e.passed, not_passed_eq_false_iff, rfl⟩,
    fun s n => ⟨?_, fun h => ⟨fun e => e == .pending, fun e => beq_iff_eq, nextLoadOf_stands h⟩⟩⟩,
    fun s r => ⟨fun h => ⟨eligible_unsequenced h, admissible_unsequenced h⟩,
      fun ref n h hn => ⟨eligible_iff h hn, admissible_iff h hn⟩⟩,
    fun s x front rest r hr hident => ⟨fun h => findUnload_inadmissible hr h rest, fun h => ?_⟩,
    fun s front back => ⟨fun h => admissibleBehind_unsequenced s h back, fun ref h => admissibleBehind_sequenced s h back⟩,
    fun s head second i => ⟨fun h => eligibleBehind_unsequenced s h second i,
      fun ref h => eligibleBehind_sequenced s h second i⟩,
    fun s ref e => ⟨entryState_set_self s ref e, fun other h => ?_, stateless_setEntryState s ref e, setEntryState_rest s ref e⟩,
    fun s x head => rfl, fun s x head second rest h r hh hr => ?_⟩
  · obtain ⟨before, behind, hqueue, hspent, r, e, hfirst⟩ := firstEntry_entry h
    exact ⟨before, behind, r, e, hqueue, hspent, hfirst⟩
  · obtain ⟨before, behind, hqueue, hspent, r, hopen⟩ := firstEntry_endOfList h
    exact ⟨before, behind, r, hqueue, hspent, hopen⟩
  · rw [nextLoadOf_eq_withheld_iff, hasLooseClaim_iff]
  · subst hident
    refine (findUnload_admissible hr h rest).trans ?_
    cases rest with
    | nil => exact congrArg (fun totes => some (unloadJob x totes)) (unloadTotes_alone s r)
    | cons back more => exact congrArg (fun totes => some (unloadJob x totes)) (unloadTotes_behind s r back more)
  · exact entryState_set_ne s ref other e (h.imp Ne.symm Ne.symm)
  · rw [takeTotes_two hh hr]
    split <;> simp [*]

end Sys2Proof.Machine
end

