-- ==== Sys2Proof/Proofs/Closing.lean ====
section
/-! The close of an event: the pointers take their values, and parked requests are re-evaluated, pass after pass, until no cause is
left (R100, R101, R116, R122, R179; log 6). -/

open Sys2Proof Sys2Proof.Machine Sys2Proof.Machine.State

namespace Sys2Proof.Machine.State

/-! ### The refresh of the pointers (R116, R122) -/

theorem station_refreshPointers (s : State) (n : StationNo) : s.refreshPointers.station n =
    { s.station n with nextLoad := s.nextLoadOf n, nextExit := s.nextExitOf n } := nth_tab ..

theorem stationNow_eq_iff (s : State) (n : StationNo) : s.stationNow n = s.station n ↔
    (s.station n).nextLoad = s.nextLoadOf n ∧ (s.station n).nextExit = s.nextExitOf n := by
  unfold stationNow
  generalize s.nextLoadOf n = load, s.nextExitOf n = exit
  cases s.station n
  simp only [Station.mk.injEq, true_and, and_true]
  exact and_congr eq_comm eq_comm

theorem stations_moved_iff (s : State) : tab 4 s.stationNow ≠ s.stations ↔
    ∃ n, (s.station n).nextLoad ≠ s.nextLoadOf n ∨ (s.station n).nextExit ≠ s.nextExitOf n := by
  have hsame : tab 4 s.stationNow = s.stations ↔ ∀ n, s.stationNow n = s.station n :=
    ⟨fun h n => (nth_tab ..).symm.trans (congrArg (nth · n) h), fun h => ext_nth fun n => (nth_tab ..).trans (h n)⟩
  rw [ne_eq, hsame, not_forall]
  simp only [stationNow_eq_iff, not_and_or, ne_eq]

/-- A move of a pointer is a cause of re-evaluation (R122). -/
theorem cause_refreshPointers (s : State) : s.refreshPointers.cause = true ↔ s.cause = true ∨
    ∃ n, (s.station n).nextLoad ≠ s.nextLoadOf n ∨ (s.station n).nextExit ≠ s.nextExitOf n := by
  rw [← stations_moved_iff, ← decide_eq_true_iff (p := tab 4 s.stationNow ≠ s.stations), ← Bool.or_eq_true]
  rfl

theorem refreshPointers_of_stand {s : State} (h : s.pointersStand) : s.refreshPointers = s := by
  obtain ⟨hstand, hcause⟩ := h
  have hstations : tab 4 s.stationNow = s.stations := ext_nth fun n => (nth_tab ..).trans (hstand n).symm
  unfold refreshPointers
  rw [hstations, decide_eq_false (not_not.mpr rfl), Bool.or_false]

theorem pointersStand_refresh (s : State) : ({ s.refreshPointers with cause := false } : State).pointersStand :=
  ⟨fun n => (s.stationNow_refresh n).symm.trans (stationNow_congr (by rfl) (by rfl) (by rfl) n).symm, rfl⟩

/-! ### The parked requests (R100) -/

/-- How many lifts are PARKED. -/
def parkedLifts (s : State) : Nat :=
  (if (s.lift .a).status = .parked then 1 else 0) + (if (s.lift .b).status = .parked then 1 else 0)

theorem parkedLifts_le (s : State) : s.parkedLifts ≤ 2 := by
  unfold parkedLifts
  split <;> split <;> omega

/-- One state follows another by re-evaluations without a grant: of the lifts and the flags alone, and as many lifts are PARKED. -/
def quietly (s t : State) : Prop := t = { s with lifts := t.lifts, flags := t.flags } ∧ t.parkedLifts = s.parkedLifts

theorem quietly.refl (s : State) : quietly s s := ⟨rfl, rfl⟩

theorem quietly.trans {s t u : State} (hst : quietly s t) (htu : quietly t u) : quietly s u := by
  obtain ⟨ht, hcount⟩ := hst
  obtain ⟨hu, hcount'⟩ := htu
  refine ⟨?_, hcount'.trans hcount⟩
  rw [ht] at hu
  exact hu

theorem quietly.pointersStand {s t : State} (h : quietly s t) (hs : s.pointersStand) : t.pointersStand := by
  obtain ⟨ht, -⟩ := h
  exact pointersStand_congr (by rw [ht]) (by rw [ht]) (by rw [ht]) (by rw [ht]) hs

/-! ### A selection, and a parked request re-evaluated (R90, R101) -/

section
variable (s : State) (x : Side)

/-- A selection makes its lift WORKING when it grants a job, and otherwise leaves every lift's state. -/
theorem status_select (y : Side) : ((s.select x).1.lift y).status =
    if (s.select x).2 = true ∧ x = y then .working else (s.lift y).status := by
  obtain ⟨u, f, hf, hu, hsel⟩ := select_cases s x
  have hstatus : (u.lift y).status = (s.lift y).status := by
    have hlift : u.lift y = if x = y then f (s.lift y) else s.lift y := by rw [hu]; exact lift_modLift s x y f
    rw [hlift]
    split
    · exact (hf _).1
    · rfl
  obtain hsel | ⟨g, ⟨hslot, -⟩, hsel⟩ := hsel
  · simp [hsel, hstatus]
  · have hlift : (u.grantJob x g).lift y = (u.openTransfer g).lift y := lift_of_lifts (by unfold grantJob; simp) y
    simp only [hsel, hlift, liftState_openTransfer, hslot, Sys2Proof.slotOwner_lift, Sum.inr.injEq, true_and, hstatus]

theorem select_none {s : State} {x : Side} (h : (s.select x).2 = false) :
    (s.select x).1 = { s with lifts := (s.select x).1.lifts, flags := (s.select x).1.flags } := by
  obtain ⟨u, f, -, hu, hsel | ⟨g, -, hsel⟩⟩ := select_cases s x
  · rw [hsel]
    exact hu.trans (by rw [hu])
  · rw [hsel] at h
    cases h

theorem reevaluateLift_running {s : State} {x : Side} (h : s.stopped = false) :
    s.reevaluateLift x = if (s.lift x).status = .parked then (s.select x).1 else s :=
  if_congr (and_iff_left h) rfl rfl

/-- A parked request that is re-evaluated is granted a job, and then one lift less is PARKED, or nothing but the lifts and the
flags changes. -/
theorem reevaluateLift_cases :
    quietly s (s.reevaluateLift x) ∨ (s.reevaluateLift x).parkedLifts + 1 = s.parkedLifts := by
  unfold reevaluateLift
  split
  · next h =>
    have hstatus := s.status_select x
    cases hjob : (s.select x).2 with
    | true =>
      refine .inr ?_
      unfold parkedLifts
      rw [hstatus, hstatus, hjob]
      cases x with
      | a => simp [h.1, Nat.add_comm]
      | b => simp [h.1]
    | false =>
      refine .inl ⟨select_none hjob, ?_⟩
      unfold parkedLifts
      rw [hstatus, hstatus, hjob]
      simp
  · exact .inl (.refl s)

/-- A pass over both lifts leaves fewer of them PARKED, or changes nothing but the lifts and the flags. -/
theorem reevaluate_cases : quietly s s.reevaluate ∨ s.reevaluate.parkedLifts < s.parkedLifts := by
  unfold reevaluate
  obtain ha | ha := s.reevaluateLift_cases .a
  · obtain hb | hb := (s.reevaluateLift .a).reevaluateLift_cases .b
    · exact .inl (ha.trans hb)
    · exact .inr (by rw [← ha.2]; omega)
  · obtain ⟨-, hb⟩ | hb := (s.reevaluateLift .a).reevaluateLift_cases .b <;> exact .inr (by omega)

theorem reevaluate_running {s : State} (h : s.stopped = false) :
    let v : State := if (s.lift .a).status = .parked then (s.select .a).1 else s
    s.reevaluate = if (v.lift .b).status = .parked then (v.select .b).1 else v := by
  have hv : (s.reevaluateLift .a).stopped = false := by simp [h]
  rw [reevaluate, reevaluateLift_running hv, reevaluateLift_running h]

end

/-! ### Passes until no cause is left (R101, R122) -/

/-- One pass: the pointers take their values, and every parked request is re-evaluated (R101, R122). -/
def pass (s : State) : State := ({ s.refreshPointers with cause := false } : State).reevaluate

section
variable {s : State} (n : Nat)

theorem drainCause_pass (h : s.refreshPointers.cause = true) : s.drainCause (n + 1) = s.pass.drainCause n := if_pos h

theorem drainCause_done (h : s.refreshPointers.cause = false) : s.drainCause (n + 1) = s.refreshPointers :=
  if_neg (by simp [h])

theorem drainCause_of_stand (h : s.pointersStand) : s.drainCause n = s := by
  have hrefresh := refreshPointers_of_stand h
  cases n with
  | zero => rw [drainCause, hrefresh, ← h.2]
  | succ n => rw [drainCause_done n (by rw [hrefresh]; exact h.2), hrefresh]

/-- With more passes allowed than lifts are PARKED, one pass more makes no difference: each pass that grants no job is the last. -/
theorem drainCause_stable (h : s.parkedLifts < n) : s.drainCause (n + 1) = s.drainCause n := by
  induction n generalizing s with
  | zero => omega
  | succ n ih =>
    cases hcause : s.refreshPointers.cause with
    | false => rw [drainCause_done _ hcause, drainCause_done _ hcause]
    | true =>
      rw [drainCause_pass _ hcause, drainCause_pass _ hcause]
      obtain hquiet | hfewer := ({ s.refreshPointers with cause := false } : State).reevaluate_cases
      · have hstand : s.pass.pointersStand := hquiet.pointersStand s.pointersStand_refresh
        rw [drainCause_of_stand _ hstand, drainCause_of_stand _ hstand]
      · have hcount : s.pass.parkedLifts < s.parkedLifts := hfewer
        exact ih (by omega)

theorem closeEvent_pass (h : s.refreshPointers.cause = true) : s.closeEvent = s.pass.closeEvent := by
  rw [closeEvent, closeEvent, drainCause_pass 3 h, drainCause_stable 3 (Nat.lt_succ_of_le s.pass.parkedLifts_le)]

theorem closeEvent_done (h : s.refreshPointers.cause = false) :
    s.closeEvent = { s.refreshPointers with attention := s.attentionValue } := by
  rw [closeEvent, drainCause_done 3 h]
  rfl

/-- Without a parked request, or while STOPPED, the close brings the pointers and the attention line to their values. -/
theorem closeEvent_quiet (h : (∀ x, (s.lift x).status ≠ .parked) ∨ s.stopped = true) :
    s.closeEvent = { s with stations := tab 4 s.stationNow, cause := false, attention := s.attentionValue } := by
  rw [closeEvent, drainCause_quiet 4 s h (by decide)]
  rfl

end
end Sys2Proof.Machine.State

namespace Sys2Proof.Machine

/-- Settles O10: a close is a refresh and, while a cause is left, a pass and again a close; what passes may change is
`grantsAtMost`. -/
theorem closingAnEvent : Obligations.ClosingAnEvent := by
  refine ⟨fun s => ⟨s.station_refreshPointers, rfl, s.cause_refreshPointers, closeEvent_done, fun hcause hrun => ?_,
    fun x hparked => ⟨fun hjob => ?_, fun hnone => ?_⟩⟩, fun s => ?_⟩
  · have hpass := reevaluate_running (s := { s.refreshPointers with cause := false }) hrun
    exact (closeEvent_pass hcause).trans (congrArg closeEvent hpass)
  · rw [status_select, hjob]; exact if_pos ⟨rfl, rfl⟩
  · rw [status_select, hnone]; exact (if_neg (by simp)).trans hparked
  · have h := grantsAtMost_closeEvent s
    refine ⟨closeEvent_current s, kept_closeEvent s, fun hquiet => ⟨_, fun n => nth_tab .., closeEvent_quiet hquiet⟩, ?_,
      h.lane, h.shuttleSlots, h.otherLifts, h.carriages, h.records, h.stopLinks, h.frontLink, h.liftLinks⟩
    rw [← h.levels, ← h.claims, ← h.approvals, ← h.entries, ← h.opening, ← h.unsolicited, ← h.fresh]

end Sys2Proof.Machine
end

