-- ==== Sys2Proof/Proofs/LinkStatus.lean ====
section
/-! The links: their status and its changes (R102, R156 to R161), what a receiver holds of bytes that are no frame (R156), and the
order of the frames that leave (R162; logs 3 and 4). -/

open Sys2Proof Sys2Proof.Machine Sys2Proof.Machine.State

namespace Sys2Proof

/-! ### What a receiver still holds (R156) -/

/-- What is held of a run of bytes stands at the run's end and begins with a start marker (R156). -/
def heldOf (bytes held : List Byte) : Prop := held <:+ bytes ∧ ∀ b rest, held = b :: rest → b = 0xC3

theorem heldOf_nil (bytes : List Byte) : heldOf bytes [] := ⟨List.nil_suffix, nofun⟩

theorem heldOf_marker {m : Byte} (h : m = 0xC3) (rest : List Byte) : heldOf (m :: rest) (m :: rest) :=
  ⟨List.suffix_rfl, fun _ _ hb => (List.cons.inj hb).1.symm.trans h⟩

theorem heldOf.of_suffix {bytes more held : List Byte} (h : heldOf more held) (hmore : more <:+ bytes) : heldOf bytes held :=
  ⟨h.1.trans hmore, h.2⟩

/-- The receiver moves on by one byte or by a whole frame, or holds the bytes from a start marker on. -/
theorem heldOf_unfinished (fuel : Nat) (bytes : List Byte) : heldOf bytes (unfinished fuel bytes) := by
  induction fuel generalizing bytes with
  | zero => exact heldOf_nil bytes
  | succ fuel ih =>
    cases bytes with
    | nil => exact heldOf_nil []
    | cons m rest =>
      have hskip : heldOf (m :: rest) (unfinished fuel rest) := (ih rest).of_suffix (List.suffix_cons m rest)
      unfold unfinished
      split
      · exact hskip
      · next hm =>
        have hhold : heldOf (m :: rest) (m :: rest) := heldOf_marker (not_not.mp hm) rest
        split
        · next node kind len more =>
          have hwhole : heldOf (m :: node :: kind :: len :: more) (unfinished fuel (more.drop (len.toNat + 2))) :=
            (ih _).of_suffix ((List.drop_suffix _ more).trans (List.suffix_append [m, node, kind, len] more))
          split
          · exact hskip
          · split
            · exact hhold
            · split
              · exact hwhole
              · exact hskip
        · exact hhold

namespace Machine

/-! ### STATUS in a link's order (R162; log 3) -/

namespace Link

section
variable (x : Link) (begins stopped : Bool)

/-- STATUS goes to the end of an order in which none waits. -/
theorem order_putStatus_none {x : Link} (h : x.order.any OutFrame.isStatus = false) :
    (x.putStatus begins stopped).order = x.order ++ [.status stopped] := by
  unfold putStatus
  cases horder : x.order with
  | nil => rfl
  | cons f rest =>
    rw [horder, List.any_cons, Bool.or_eq_false_iff] at h
    dsimp only
    rw [if_neg (by simp [h.2]), if_neg (by simp [h.1])]
    rfl

/-- STATUS takes the place of one that waits behind the head. -/
theorem order_putStatus_behind {x : Link} {f : OutFrame} {rest : List OutFrame} (horder : x.order = f :: rest)
    (h : rest.any OutFrame.isStatus = true) : (x.putStatus begins stopped).order =
      f :: rest.map fun g => if g.isStatus then .status stopped else g := by
  simp only [putStatus, horder, h, if_true]

/-- STATUS takes the place of one at the head, or goes to the end when that has begun to leave. -/
theorem order_putStatus_head {x : Link} {b : Bool} {rest : List OutFrame} (horder : x.order = .status b :: rest)
    (h : rest.any OutFrame.isStatus = false) : (x.putStatus begins stopped).order =
      if x.begun || begins then .status b :: (rest ++ [.status stopped]) else .status stopped :: rest := by
  simp only [putStatus, horder, h, Bool.false_eq_true, if_false, OutFrame.isStatus, if_true]
  split <;> rfl

end
end Link

namespace State

theorem modLink_modLink (s : State) (p : Port) (f g : Link → Link) :
    (s.modLink p f).modLink p g = s.modLink p fun x => g (f x) := by
  have : upd (upd s.links p.ix f) p.ix g = upd s.links p.ix fun x => g (f x) := by simp [upd, nth]
  exact congrArg (fun v => { s with links := v }) this

/-! ### A valid frame (R156, R158, R160, R163) -/

/-- The link of a valid frame is UP with the silence time set, and nothing is partly received on it. -/
def whole (s : State) (p : Port) : State := { s with
  links := s.links.set p.ix.val { s.link p with status := .up s.settings.params.lossTime, heard := [] } }

theorem hear_setLink (s : State) (p : Port) : (s.hear p []).setLink p (.up s.settings.params.lossTime) = s.whole p :=
  modLink_modLink s p (fun x => { x with heard := [] }) fun x => { x with status := .up s.settings.params.lossTime }

theorem status_hear (s : State) (p : Port) (bytes : List Byte) : ((s.hear p bytes).link p).status = (s.link p).status := by
  rw [link_hear, if_pos rfl]

section
variable {s : State} {p : Port}

theorem takeValid_up {n : Nat} (h : (s.link p).status = .up n) : s.takeValid p = s.whole p := by
  rw [takeValid, bringUp, status_hear, h]
  exact s.hear_setLink p

theorem takeValid_lost (h : (s.link p).status = .lost) : s.takeValid p = (s.whole p).linkChanged p := by
  rw [takeValid, bringUp, status_hear, h]
  exact congrArg (linkChanged · p) (s.hear_setLink p)

theorem takeValid_down (h : (s.link p).status = .down) :
    s.takeValid p = ((s.whole p).linkChanged p).send p (.resync s.resetKind) := by
  rw [takeValid, bringUp, status_hear, h]
  exact congrArg (fun t : State => (t.linkChanged p).send p (.resync s.resetKind)) (s.hear_setLink p)

/-! ### The silence of a link (R102, R160) -/

theorem loseLink_up {n : Nat} (h : (s.link p).status = .up n) :
    s.loseLink p = ((s.setLink p .lost).linkChanged p).unpark p := by rw [loseLink, h]

theorem loseLink_not_up (h : ∀ n, (s.link p).status ≠ .up n) : s.loseLink p = s := by
  unfold loseLink
  split
  · next n hn => exact absurd hn (h n)
  · rfl
  · rfl

theorem unpark_parked {x : Side} (h : (s.lift x).status = .parked) : s.unpark (.lift x) = s.setLift x .ready := if_pos h

theorem unpark_other {x : Side} (h : (s.lift x).status ≠ .parked) : s.unpark (.lift x) = s := if_neg h

/-! ### Events of a stop's link (R157, R161) -/

variable {n : Stop}

theorem linkChanged_level {l : Level} (h : s.levelAt n = some l) :
    s.linkChanged (.stop n) = (s.raise (.level l .linkChange)).recomputeFence l := by simp only [linkChanged, h]

theorem linkChanged_spare (h : s.levelAt n = none) : s.linkChanged (.stop n) = s.raise (.aisle .spareLink) := by
  simp only [linkChanged, h]

theorem raiseWrongNode_level {l : Level} (h : s.levelAt n = some l) :
    s.raiseWrongNode (.stop n) = s.raise (.level l .wrongNode) := by simp only [raiseWrongNode, h]

theorem raiseWrongNode_spare (h : s.levelAt n = none) : s.raiseWrongNode (.stop n) = s.raise (.aisle .spareLink) := by
  simp only [raiseWrongNode, h]

theorem levelAt_hear (p : Port) (bytes : List Byte) : (s.hear p bytes).levelAt n = s.levelAt n := rfl

end

theorem link_endStatusPeriod (s : State) (p : Port) :
    s.endStatusPeriod.link p = (s.link p).putStatus (Config.frameBegun s.fresh p.ix.val) s.stopped := nth_tab ..

end State

/-! ### The commands of the links -/

section
variable {s : State} (hs : s.inReset = false)
include hs

theorem exec_wrongNode (p : Port) : exec (.wrongNode p) s = .next ((s.hear p []).raiseWrongNode p).closeEvent :=
  ((Events.wrongNode p).exec_eq s).trans (event_out hs _)

theorem exec_linkLost (p : Port) : exec (.linkLost p) s = .next (s.loseLink p).closeEvent :=
  ((Events.linkLost p).exec_eq s).trans (event_out hs _)

theorem exec_discardedFrame (run : Incoming) : exec (.discardedFrame run) s =
    .next (s.hear run.port (unfinished run.bytes.length run.bytes)) := by
  show Host.Outcome.next (s.discard run) = _
  rw [State.discard, hs]
  rfl

end

/-- Settles O55: the status of a link by its frames and its silence, and the order on it by STATUS and by what leaves. -/
theorem linkStatusAndOrder : Obligations.LinkStatusAndOrder := by
  refine ⟨⟨fun s p hs => ⟨(Frames.frontBeacon.exec_eq s).trans (frame_out hs ..),
    ((Frames.foreign p).exec_eq s).trans (frame_out hs ..), ((Frames.malformed p).exec_eq s).trans (frame_out hs ..),
    fun n hup => ?_, fun hdown => ?_⟩, fun s run hs => exec_discardedFrame hs run, fun bytes => heldOf_unfinished _ bytes,
    fun s p => ⟨fun n => takeValid_up, takeValid_lost, takeValid_down⟩,
    fun s n => ⟨fun l => linkChanged_level, linkChanged_spare, rfl⟩, fun s x => ⟨rfl, unpark_other, unpark_parked⟩,
    fun s => ⟨rfl, rfl⟩, fun s hs => ⟨fun n l hl => ?_, fun n hn => ?_, fun x => exec_wrongNode hs (.lift x),
    exec_wrongNode hs .front⟩⟩, fun s hs => ⟨s.endStatusPeriod, (Events.statusPeriod.exec_eq s).trans (event_out hs _), rfl,
    fun p => ?_⟩, fun s p hs => ((Events.frameLeaves p).exec_eq s).trans (event_out hs _)⟩
  · rw [exec_linkLost hs, loseLink_up hup]
    rfl
  · rw [exec_linkLost hs, loseLink_not_up hdown]
  · rw [exec_wrongNode hs, raiseWrongNode_level (by rw [levelAt_hear]; exact hl)]
    rfl
  · rw [exec_wrongNode hs, raiseWrongNode_spare (by rw [levelAt_hear]; exact hn)]
    rfl
  · rw [link_endStatusPeriod]
    refine ⟨sameFences.status_putStatus .., Link.heard_putStatus .., Link.unstatused_putStatus ..,
      Link.order_putStatus_none _ _, fun f rest => Link.order_putStatus_behind _ _, fun b rest horder h => ?_⟩
    rw [Link.order_putStatus_head _ _ horder h]
    refine ⟨?_, fun hbegun => by rw [hbegun]; rfl⟩
    split
    · exact .inr rfl
    · exact .inl rfl

end Machine
end Sys2Proof
end

