-- ==== Sys2Proof/Proofs/Arrivals.lean ====
section
/-! The entry point: an arrival judged, rejected or accepted at the tail of its queue (R108 to R111, R113), and the ageing of a
queue's head (R114; log 4). -/

open Sys2Proof Sys2Proof.Machine Sys2Proof.Machine.State

namespace Sys2Proof.Machine

/-! ### The weight byte of an ARRIVAL (R108, R159) -/

theorem weighedOfByte_out {w : Byte} (h : 4 < w.toNat) (hw : w ≠ 255) : weighedOfByte w = none := by
  rw [weighedOfByte, if_neg hw, Weight.ofByte_out h]
  rfl

theorem weighedOfByte_class {w : Byte} {k : Weight} (h : w.toNat = k.val) : weighedOfByte w = some (.weight k) := by
  have hw : w ≠ 255 := by
    rintro rfl
    exact absurd k.isLt (by rw [← h]; decide)
  rw [weighedOfByte, if_neg hw, Weight.ofByte_of h]
  rfl

theorem weighedOfByte_of {w : Byte} {m : Weighed}
    (h : (w = 255 ∧ m = .overweight) ∨ ∃ k : Weight, w.toNat = k.val ∧ m = .weight k) : weighedOfByte w = some m := by
  obtain ⟨rfl, rfl⟩ | ⟨k, hk, rfl⟩ := h
  · rfl
  · exact weighedOfByte_class hk

namespace State

/-! ### The checks of an arrival (R109) -/

section
variable {s : State} {i : Ident}

theorem arrivalRecord_noRecord (h : s.lookup i = none) : s.arrivalRecord i = some .noRecord := by
  simp only [arrivalRecord, h]

variable {r : Record} (hr : s.lookup i = some r)
include hr

theorem arrivalRecord_wrongState (h : r.direction = .outbound ∨ r.place.isHeld = true) :
    s.arrivalRecord i = some .wrongState := by
  simp only [arrivalRecord, hr]
  cases hd : r.direction with
  | outbound => rfl
  | inbound =>
    have hheld : r.place.isHeld = true := h.resolve_left (by simp [hd])
    cases hp : r.place with
    | held => rfl
    | expected | entry | lane | carriage => simp [hp, Place.isHeld] at hheld

theorem arrivalRecord_duplicate (hd : r.direction = .inbound) (hp : r.place ≠ .expected) (hheld : r.place.isHeld = false) :
    s.arrivalRecord i = some .duplicate := by
  simp only [arrivalRecord, hr, hd]
  cases hplace : r.place with
  | expected => exact absurd hplace hp
  | held => simp [hplace, Place.isHeld] at hheld
  | entry | lane | carriage => rfl

theorem arrivalRecord_expected (hd : r.direction = .inbound) (hp : r.place = .expected) : s.arrivalRecord i = none := by
  simp only [arrivalRecord, hr, hd, hp]

end

/-- The checks of R109 in their order: those of the read and the tote, those of its record, and the room in the queue. -/
theorem arrivalRefusal_eq (s : State) (x : Side) (i : Ident) (m : Weighed) (overhang : Bool) :
    s.arrivalRefusal x i m overhang =
      if s.stopped = true then some .stopped
      else if i = 0 then some .noRead
      else if overhang = true then some .overhang
      else if m = .overweight then some .overweight
      else (s.arrivalRecord i).or (if (s.queue x).contents.length < 4 then none else some .queueFull) := by
  have hroom : (if 4 ≤ (s.queue x).contents.length then some Code.queueFull else none) =
      if (s.queue x).contents.length < 4 then none else some .queueFull := by
    rw [← ite_not]
    exact if_congr not_le rfl rfl
  simp only [arrivalRefusal, firstRefusal, beq_iff_eq, hroom]
  cases s.arrivalRecord i
  all_goals split_ifs <;> rfl

section
variable {s : State} {x : Side} {i : Ident} {m : Weighed}

/-- What is not overweight, read, within the profile and arrives while the aisle runs is judged by its record and the room. -/
theorem arrivalRefusal_judged (hrun : s.stopped = false) (hi : i ≠ 0) (hm : m ≠ .overweight) :
    s.arrivalRefusal x i m false =
      (s.arrivalRecord i).or (if (s.queue x).contents.length < 4 then none else some .queueFull) := by
  rw [arrivalRefusal_eq, hrun, if_neg Bool.false_ne_true, if_neg hi, if_neg Bool.false_ne_true, if_neg hm]

/-- Only a tote whose class was measured is accepted. -/
theorem weight_of_not_refused {overhang : Bool} (h : s.arrivalRefusal x i m overhang = none) : ∃ k, m = .weight k := by
  cases m with
  | weight k => exact ⟨k, rfl⟩
  | overweight =>
    rw [arrivalRefusal_eq, if_pos rfl] at h
    repeat' split at h
    all_goals cases h

end

/-! ### Rejection and acceptance (R110, R111, R113) -/

section
variable (s : State) (x : Side) (i : Ident)

theorem rejectArrival_eq (m : Weighed) (why : Code) : s.rejectArrival x i m why = (({ s with
    entries := s.entries.set x.ix.val { s.queue x with
      rejection := some { ident := i, reason := why, weighed := m } } } : State).send .front
        (.reject i why)).raise (.entry x .rejected) := rfl

/-- A tote that joins the tail of a queue is its head, with a new age, only where the queue was empty (R113). -/
theorem queue_setQueue_append : (s.setQueue x ((s.queue x).contents ++ [i])).queue x = { s.queue x with
    contents := (s.queue x).contents ++ [i]
    age := if (s.queue x).contents = [] then some 0 else (s.queue x).age
    aged := if (s.queue x).contents = [] then false else (s.queue x).aged } := by
  obtain ⟨hsame, hnew⟩ := queue_setQueue s x ((s.queue x).contents ++ [i])
  by_cases hempty : (s.queue x).contents = []
  · rw [hnew (by simp [hempty])]
    simp [hempty]
  · rw [hsame (List.head?_append_of_ne_nil _ hempty), if_neg hempty, if_neg hempty]

theorem setQueue_eq (c : List Ident) : s.setQueue x c =
    { s with entries := s.entries.set x.ix.val ((s.setQueue x c).queue x) } := by
  rw [queue, setQueue, modQueue, nth_upd_self]
  rfl

theorem acceptArrival_eq (k : Weight) : s.acceptArrival x i (.weight k) = ({ s with
    records := s.records.map fun q =>
      if q.2.ident = i then (q.1, { q.2 with place := .entry x, weight := some k }) else q
    entries := s.entries.set x.ix.val { s.queue x with
      contents := (s.queue x).contents ++ [i]
      age := if (s.queue x).contents = [] then some 0 else (s.queue x).age
      aged := if (s.queue x).contents = [] then false else (s.queue x).aged }
    cause := true } : State).send .front (.accept i ((s.queue x).contents.length + 1)) := by
  set t := (s.send .front (.accept i ((s.queue x).contents.length + 1))).modRecord i
    fun r => { r with place := .entry x, weight := some k }
  have hjoin : s.acceptArrival x i (.weight k) = (t.setQueue x ((t.queue x).contents ++ [i])).withCause := rfl
  rw [hjoin, setQueue_eq, queue_setQueue_append]
  rfl

end

/-! ### An ARRIVAL taken (R108) -/

section
variable {s : State} {xb w : Byte}

theorem takeArrival_out (h : 1 < xb.toNat ∨ (4 < w.toNat ∧ w ≠ 255)) (read : Ident) (p : Byte) :
    s.takeArrival xb read w p = s.send .front (.reject (s.correct read) .outOfRange) := by
  unfold takeArrival
  obtain h | ⟨h, hw⟩ := h
  · rw [Side.ofByte_out h]
  · rw [weighedOfByte_out h hw]
    cases Side.ofByte xb <;> rfl

variable {x : Side} {m : Weighed} (hx : xb.toNat = x.ix.val) (hm : weighedOfByte w = some m) {read : Ident} {p : Byte}
include hx hm

theorem takeArrival_refused {why : Code} (h : s.arrivalRefusal x (s.correct read) m (p != 0) = some why) :
    s.takeArrival xb read w p = s.rejectArrival x (s.correct read) m why := by
  simp only [takeArrival, Side.ofByte_of hx, hm, judgeArrival, h]

theorem takeArrival_accepted (h : s.arrivalRefusal x (s.correct read) m (p != 0) = none) :
    s.takeArrival xb read w p = s.acceptArrival x (s.correct read) m := by
  simp only [takeArrival, Side.ofByte_of hx, hm, judgeArrival, h]

end

/-! ### The head's age at the limit (R113, R114; log 4) -/

section
variable {s : State} {x : Side}

theorem modQueue_self {f : EntryQueue → EntryQueue} (h : f (s.queue x) = s.queue x) : s.modQueue x f = s := by
  have hset : s.entries.set x.ix.val (f (s.queue x)) = s.entries := by
    rw [h]
    exact Vector.set_getElem_self x.ix.isLt
  exact congrArg (fun v => ({ s with entries := v } : State)) hset

theorem modQueue_modQueue (f g : EntryQueue → EntryQueue) :
    (s.modQueue x f).modQueue x g = s.modQueue x fun q => g (f q) := by
  have hupd : upd (upd s.entries x.ix f) x.ix g = upd s.entries x.ix fun q => g (f q) := by simp [upd, nth]
  exact congrArg (fun v => ({ s with entries := v } : State)) hupd

theorem reachAge_marked (h : (s.queue x).aged = true) : s.reachAge x = s := if_pos h

/-- A queue that counts no age has no head to mark. -/
theorem reachAge_empty (h : (s.queue x).age = none) : s.reachAge x = s := by
  have hyoung : s.headAged x = false := by simp [headAged, h]
  unfold reachAge
  split
  · rfl
  · rw [modQueue_self (by rw [h]; exact congrArg (fun a => { s.queue x with age := a }) h.symm), testAged, hyoung]
    rfl

/-- A head without its mark has its age at the limit at least, is marked, and its event is raised. -/
theorem reachAge_marks {a : Nat} (hmark : (s.queue x).aged = false) (ha : (s.queue x).age = some a) :
    s.reachAge x = ({ s with entries := s.entries.set x.ix.val { s.queue x with
      age := some (max a (10 * s.settings.params.entryAgeLimit)), aged := true } } : State).raise (.entry x .entryAged) := by
  set t := s.modQueue x fun q => { q with age := q.age.map fun a => max a (10 * s.settings.params.entryAgeLimit) } with ht
  have hqueue : t.queue x = { s.queue x with age := some (max a (10 * s.settings.params.entryAgeLimit)) } := by
    rw [ht, queue_modQueue, if_pos rfl, ha]
    rfl
  have haged : t.headAged x = true := (headAged_iff t x).mpr ⟨max a (10 * s.settings.params.entryAgeLimit), by rw [hqueue], le_max_right ..⟩
  have hreach : s.reachAge x = t.testAged x := if_neg (by rw [hmark]; exact Bool.false_ne_true)
  rw [hreach, testAged_reached haged (by rw [hqueue]; exact hmark), ht, modQueue_modQueue]
  refine congrArg (fun q => ({ s with entries := s.entries.set x.ix.val q } : State).raise (.entry x .entryAged)) ?_
  show ({ s.queue x with age := (s.queue x).age.map _, aged := true } : EntryQueue) = _
  rw [ha]
  rfl

end
end State

/-! ### The commands of the entry point -/

section
variable {s : State} (hs : s.inReset = false)
include hs

theorem exec_arrival (xb w p : Byte) (read : Ident) :
    exec (.arrival xb read w p) s = .next ((s.takeValid .front).takeArrival xb read w p).closeEvent :=
  ((Frames.arrival xb read w p).exec_eq s).trans (frame_out hs ..)

theorem exec_entryAged (x : Side) : exec (.entryAged x) s = .next (s.reachAge x).closeEvent :=
  ((Events.aged x).exec_eq s).trans (event_out hs _)

end

/-- Settles O43: an arrival by the first check it fails or at the tail of its queue, and a head marked once. -/
theorem arrivalsAndAgedHeads : Obligations.ArrivalsAndAgedHeads := by
  refine ⟨fun s xb w p read hs => ⟨fun hout => ?_, fun x m hx hw => ⟨fun why hwhy => ?_, fun hnone => ?_⟩,
    fun x m => ⟨fun hstop => ?_, fun hrun => ⟨fun hi => ?_, fun hi hp => ?_, fun hi hp => ⟨fun hm => ?_, fun hm => ?_⟩⟩⟩⟩,
    fun s x hs => ⟨fun h => ?_, fun a hmark ha => ?_⟩⟩
  · rw [exec_arrival hs, takeArrival_out hout]
  · rw [exec_arrival hs, takeArrival_refused hx (weighedOfByte_of hw) hwhy, rejectArrival_eq]
  · obtain ⟨k, rfl⟩ := weight_of_not_refused hnone
    refine ⟨k, rfl, ?_⟩
    rw [exec_arrival hs, takeArrival_accepted hx (weighedOfByte_of hw) hnone, acceptArrival_eq]
  · rw [arrivalRefusal_eq, if_pos hstop]
  · rw [arrivalRefusal_eq, hrun, if_neg Bool.false_ne_true, if_pos hi]
  · rw [arrivalRefusal_eq, hrun, if_neg Bool.false_ne_true, if_neg hi, if_pos (bne_iff_ne.mpr hp)]
  · subst hp hm
    rw [arrivalRefusal_eq, hrun, if_neg Bool.false_ne_true, if_neg hi, if_neg (by simp), if_pos rfl]
  · subst hp
    rw [show ((0 : Byte) != 0) = false from rfl, arrivalRefusal_judged hrun hi hm]
    refine ⟨fun hnone => ?_, fun r hr => ⟨fun hd hp hheld => ?_, fun h => ?_, fun hd hp => ?_⟩⟩
    · rw [arrivalRecord_noRecord hnone, Option.some_or]
    · rw [arrivalRecord_duplicate hr hd hp hheld, Option.some_or]
    · rw [arrivalRecord_wrongState hr h, Option.some_or]
    · rw [arrivalRecord_expected hr hd hp, Option.none_or]
  · have hkept : s.reachAge x = s := h.elim reachAge_marked reachAge_empty
    rw [exec_entryAged hs, hkept]
  · rw [exec_entryAged hs, reachAge_marks hmark ha]

end Sys2Proof.Machine
end

