-- ==== Sys2Proof/Proofs/Current.lean ====
section
/-! Every step leaves the station pointers and the attention line at their values (R116, R120 to R122, R179): each command
either reads and writes none of what they stand for, or ends with the close of an event, which brings them up to date. -/

open Sys2Proof Sys2Proof.Machine Sys2Proof.Machine.State

namespace Sys2Proof.Machine

namespace State

/-! ### What `current` does not read -/

section
variable {s : State} (h : s.current)
include h

theorem current_port (o : List Byte) (b : Option Response) (v : Bool) (c : ChipSelect) :
    ({ s with portOut := o, buffer := b, overrun := v, chip := c } : State).current :=
  current_congr (s := s) rfl rfl rfl rfl rfl rfl rfl h

theorem current_queued (n : Nat) (q : List Instr) : ({ s with fresh := n, pending := q } : State).current :=
  current_congr (s := s) rfl rfl rfl rfl rfl rfl rfl h

theorem current_hear (p : Port) (bytes : List Byte) : (s.hear p bytes).current :=
  current_congr (s := s) rfl rfl rfl rfl rfl rfl rfl h

theorem current_leaveReset : s.leaveReset.current := current_congr (s := s) rfl rfl rfl rfl rfl rfl rfl h

theorem current_setLine (line : Bool) : (s.setLine line).current := current_congr (s := s) rfl rfl rfl rfl rfl rfl rfl h

theorem current_tick : s.tick.current := by
  unfold State.tick
  split
  · exact h
  · exact current_congr (s := s) rfl rfl rfl rfl rfl rfl rfl h

end

/-- In hard reset the stations, the lists, the records, the flags and the settings are those of the state after reset. -/
theorem current_inHardReset (line : Bool) (chip : ChipSelect) (fresh : Nat) (pending : List Instr) :
    (State.inHardReset line chip fresh pending).current :=
  current_congr (s := State.reset) rfl rfl rfl rfl rfl rfl rfl reset_current

/-! ### How a request and an event end -/

/-- A request that changes the state closes its event; any other moves only the port. -/
theorem current_takeRequest {s : State} (h : s.current) (f : State → Answer) : (s.takeRequest f).current := by
  by_cases hport : s.hearsPort
  · rw [takeRequest, onRelease_hears hport]
    split
    · exact current_port h _ s.buffer true _
    · cases f s with
      | unchanged r => exact current_port h _ (some r) s.overrun _
      | changed t r => exact current_port t.closeEvent_current _ (some r) t.closeEvent.overrun _
  · rw [takeRequest, onRelease_deaf hport]
    exact current_port h s.portOut s.buffer s.overrun _

/-- An event is closed whatever its own effect was. -/
theorem current_takeEvent {s : State} (h : s.current) (f : State → State) : (s.takeEvent f).current := by
  unfold takeEvent
  split
  · exact h
  · exact closeEvent_current _

end State

/-! ### Every command, and the step -/

section
variable {s t : State} (h : s.current)
include h

theorem current_afterRequest {f : State → Answer} (e : request f s = .next t) : t.current := by
  cases e
  exact current_takeRequest h f

theorem current_afterEvent {f : State → State} (e : event f s = .next t) : t.current := by
  cases e
  exact current_takeEvent h f

theorem current_afterOthers {c : Instr} (hc : Others c) (e : exec c s = .next t) : t.current := by
  cases hc with
  | hardReset =>
    cases e
    exact current_inHardReset ..
  | resetRelease =>
    cases e
    split
    · exact current_leaveReset h
    · exact h
  | stopAsserted =>
    cases e
    repeat' split
    · exact h
    · exact current_setLine h true
    · exact closeEvent_current _
  | stopReleased =>
    cases e
    repeat' split
    · exact current_setLine h false
    · exact closeEvent_current _
    · exact h
  | collect => exact transaction_inv (P := State.current) (fun _ o b v c hs => current_port hs o b v c) h e
  | discarded =>
    cases e
    unfold State.discard
    split
    · exact h
    · exact current_hear h _ _

theorem current_afterExec {c : Instr} (e : exec c s = .next t) : t.current := by
  obtain ⟨f, hc⟩ | ⟨f, hc⟩ | ⟨p, f, hc⟩ | ⟨f, hc⟩ | hc := instr_kinds c
  · exact current_afterRequest h ((hc.exec_eq s).symm.trans e)
  · exact current_afterRequest h ((hc.exec_eq s).symm.trans e)
  · exact current_afterEvent h ((hc.exec_eq s).symm.trans e)
  · exact current_afterEvent h ((hc.exec_eq s).symm.trans e)
  · exact current_afterOthers h hc e

end

/-- Settles O6: a step takes a command, which closes its event or moves nothing that the pointers and the line read, or it is a
tick, which moves timers alone. -/
theorem stepKeepsPointersAndAttentionCurrent : Obligations.StepKeepsPointersAndAttentionCurrent := by
  intro s t h e
  cases hq : s.pending with
  | cons c rest =>
    have hstep : step s = exec c { s with pending := rest } := by simp only [step, hq]
    exact current_afterExec (current_queued h s.fresh rest) (hstep.symm.trans e)
  | nil =>
    obtain ⟨c, n, -, hstep, -⟩ | ⟨-, hstep⟩ := step_idle hq
    · exact current_afterExec (current_queued h n s.pending) (hstep.symm.trans e)
    · cases hstep.symm.trans e
      exact current_tick h

end Sys2Proof.Machine
end

