-- ==== Sys2Proof/Proofs/EntryChecks.lean ====
section
/-! The entry checks of OPEN_LIST and APPEND_ENTRIES, one check after another over all the entries of a request (R133; log 8). -/

open Sys2Proof Sys2Proof.Machine Sys2Proof.Machine.State

namespace Sys2Proof.Machine

/-! ### Checks made on every entry, one after another -/

section
variable {es : List NewEntry} {fails : NewEntry → Bool} {P : NewEntry → Prop} (hP : ∀ e, fails e = true ↔ P e)
include hP

/-- The first check refuses at the first entry that fails it. -/
theorem firstEntryRefusal_first {k : Nat} (h : (∃ e, es[k]? = some e ∧ P e) ∧ ∀ j < k, ∀ d, es[j]? = some d → ¬ P d)
    (c : Code) (rest : List ((NewEntry → Bool) × Code)) :
    firstEntryRefusal es ((fails, c) :: rest) = some (c, k + 1) := by
  obtain ⟨⟨e, he, hfail⟩, hbefore⟩ := h
  obtain ⟨hk, rfl⟩ := List.getElem?_eq_some_iff.mp he
  have hfind : es.findIdx? fails = some k := List.findIdx?_eq_some_iff_getElem.mpr
    ⟨hk, (hP _).mpr hfail, fun j hj hc =>
      hbefore j hj _ (List.getElem?_eq_getElem (hj.trans hk)) ((hP _).mp hc)⟩
  rw [firstEntryRefusal, hfind]

/-- A check that no entry fails leaves the entries to the next. -/
theorem firstEntryRefusal_next (h : ∀ e ∈ es, ¬ P e) (c : Code) (rest : List ((NewEntry → Bool) × Code)) :
    firstEntryRefusal es ((fails, c) :: rest) = firstEntryRefusal es rest := by
  have hfind : es.findIdx? fails = none :=
    List.findIdx?_eq_none_iff.mpr fun e he => Bool.eq_false_iff.mpr fun hc => h e he ((hP e).mp hc)
  rw [firstEntryRefusal, hfind]

end

namespace State

/-! ### What each check says of an entry -/

/-- An element that a list holds at least twice stands at two places of it. -/
theorem two_le_count_iff {xs : List Ident} {i : Ident} : 2 ≤ xs.count i ↔
    ∃ j k : Nat, j ≠ k ∧ xs[j]? = some i ∧ xs[k]? = some i := by
  rw [← List.duplicate_iff_two_le_count, List.duplicate_iff_exists_distinct_get]
  constructor
  · rintro ⟨j, k, hjk, hj, hk⟩
    refine ⟨j, k, fun hc => hjk.ne (Fin.ext hc), ?_, ?_⟩
    · rw [hj]; exact List.getElem?_eq_getElem j.isLt
    · rw [hk]; exact List.getElem?_eq_getElem k.isLt
  · rintro ⟨j, k, hjk, hj, hk⟩
    obtain ⟨hjlt, hj⟩ := List.getElem?_eq_some_iff.mp hj
    obtain ⟨hklt, hk⟩ := List.getElem?_eq_some_iff.mp hk
    obtain hlt | hlt := Nat.lt_or_gt_of_ne hjk
    · exact ⟨⟨j, hjlt⟩, ⟨k, hklt⟩, hlt, hj.symm, hk.symm⟩
    · exact ⟨⟨k, hklt⟩, ⟨j, hjlt⟩, hlt, hk.symm, hj.symm⟩

section
variable (s : State) (es : List NewEntry) (e : NewEntry)

/-- An identity that stands twice in a request (log 8). -/
theorem twice_iff (i : Ident) : 2 ≤ (es.filter fun x => x.ident == i).length ↔
    ∃ j k : Nat, j ≠ k ∧ (es[j]?).map (·.ident) = some i ∧ (es[k]?).map (·.ident) = some i := by
  have hcount : (es.map (·.ident)).count i = (es.filter fun x => x.ident == i).length := by
    rw [List.count_eq_length_filter, List.filter_map, List.length_map]
    rfl
  rw [← hcount, two_le_count_iff]
  simp only [List.getElem?_map]

theorem listedAnywhere_iff (i : Ident) : s.listedAnywhere i = true ↔
    ∃ l r d, s.list l = some r ∧ d ∈ r.entries ∧ d.ident = i := by
  simp only [listedAnywhere, List.any_eq_true, Option.any_eq_true, beq_iff_eq]
  constructor
  · rintro ⟨x, hx, r, hr, d, hd, hi⟩
    obtain ⟨l, hl, rfl⟩ := List.getElem_of_mem hx
    exact ⟨⟨l, by simpa using hl⟩, r, d, by simpa [State.list, nth] using hr, hd, hi⟩
  · rintro ⟨l, r, d, hr, hd, hi⟩
    exact ⟨s.list l, by simp [State.list, nth], r, hr, d, hd, hi⟩

theorem entryDuplicate_iff : s.entryDuplicate es e = true ↔
    (∃ j k : Nat, j ≠ k ∧ (es[j]?).map (·.ident) = some e.ident ∧ (es[k]?).map (·.ident) = some e.ident) ∨
      (∃ l r d, s.list l = some r ∧ d ∈ r.entries ∧ d.ident = e.ident) ∨ ∃ r, s.lookup e.ident = some r ∧ r.entry.isSome := by
  simp only [entryDuplicate, Bool.or_eq_true, decide_eq_true_iff, twice_iff, listedAnywhere_iff, Option.any_eq_true, or_assoc]

theorem entryWrongState_iff : s.entryWrongState e = true ↔ ∃ r, s.lookup e.ident = some r ∧
    (r.direction = .inbound ∨ r.place.isCarriage ∨ r.place.isHeld) := by
  simp only [entryWrongState, Option.any_eq_true, Bool.or_eq_true, beq_iff_eq, or_assoc]

theorem entryWrongLevel_iff : s.entryWrongLevel e = true ↔ ∃ r, s.lookup e.ident = some r ∧ r.level ≠ e.level := by
  simp only [entryWrongLevel, Option.any_eq_true, bne_iff_ne]

theorem entryBusy_iff : s.entryBusy e = true ↔
    ∃ r, s.lookup e.ident = some r ∧ r.place.isLane ∧ r.transfer.isSome := by
  simp only [entryBusy, Option.any_eq_true, Bool.and_eq_true]

end

/-! ### The room in the table (log 8) -/

/-- TABLE_FULL concerns the whole request: every entry fails that check, or none does. -/
theorem firstEntryRefusal_full {n m : Nat} {es : List NewEntry} (hm : m ≤ es.length) :
    firstEntryRefusal es [(fun _ => decide (n < m), .tableFull)] = if n < m then some (.tableFull, 1) else none := by
  split
  · next hlt =>
    have hpos : 0 < es.length := by omega
    exact firstEntryRefusal_first (P := fun _ => n < m) (fun _ => decide_eq_true_iff)
      ⟨⟨es[0], List.getElem?_eq_getElem hpos, hlt⟩, fun j hj => absurd hj (Nat.not_lt_zero j)⟩ _ _
  · next hge =>
    exact firstEntryRefusal_next (P := fun _ => n < m) (fun _ => decide_eq_true_iff) (fun _ _ => hge) _ _

end State

/-- Settles O46: each check in its place, by `firstEntryRefusal_first` where an entry fails it and `firstEntryRefusal_next` where
none does. -/
theorem entryChecksInOrder : Obligations.EntryChecksInOrder := by
  intro s es
  refine ⟨fun k hk => firstEntryRefusal_first (entryDuplicate_iff s es) hk _ _, fun hdup => ?_⟩
  rw [entryRefusal, firstEntryRefusal_next (entryDuplicate_iff s es) hdup]
  refine ⟨fun k hk => firstEntryRefusal_first (entryWrongState_iff s) hk _ _, fun hstate => ?_⟩
  rw [firstEntryRefusal_next (entryWrongState_iff s) hstate]
  refine ⟨fun k hk => firstEntryRefusal_first (entryWrongLevel_iff s) hk _ _, fun hlevel => ?_⟩
  rw [firstEntryRefusal_next (entryWrongLevel_iff s) hlevel]
  refine ⟨fun k hk => firstEntryRefusal_first (entryBusy_iff s) hk _ _, fun hbusy => ?_⟩
  rw [firstEntryRefusal_next (entryBusy_iff s) hbusy, firstEntryRefusal_full (List.length_filter_le _ _)]
  exact ⟨fun hfull => if_pos hfull, fun hroom => if_neg (Nat.not_lt.mpr hroom)⟩

end Sys2Proof.Machine
end

