-- ==== Sys2Proof/Proofs/StationRequests.lean ====
section
/-! READ_STATION and READ_LIST return the state as it stands (R140); SET_REPORT_MODE writes the one mode it names (R139). -/

open Sys2Proof Sys2Proof.Machine Sys2Proof.Machine.State

namespace Sys2Proof.Machine

/-! ### Requests on a station (R171) -/

theorem withStation_out {b : Byte} (h : b.toNat < 1 ∨ 4 < b.toNat) (go : StationNo → Answer) :
    withStation b go = .refuse .outOfRange := by rw [withStation, StationNo.ofByte_out h]

theorem withStation_of {b : Byte} {n : StationNo} (h : b.toNat = n.val + 1) (go : StationNo → Answer) :
    withStation b go = go n := by rw [withStation, StationNo.ofByte_of h]

/-! ### READ_STATION (R140) -/

theorem queueRow_some {s : State} {l : Fin 16} {r : ReleaseList} (h : s.list l = some r) :
    s.queueRow l = some { list := l, opening := r.opening, closed := r.closed } := by rw [queueRow, h]; rfl

/-- A map that gives something for every element of a list keeps every element at its place. -/
theorem filterMap_in_place {α β : Type} {f : α → Option β} {xs : List α} (h : ∀ x ∈ xs, (f x).isSome) :
    (xs.filterMap f).length = xs.length ∧ ∀ (k : Nat) (x : α), xs[k]? = some x → (xs.filterMap f)[k]? = f x := by
  induction xs with
  | nil => exact ⟨rfl, fun k x hx => by simp at hx⟩
  | cons y xs ih =>
    obtain ⟨hy, hxs⟩ := List.forall_mem_cons.mp h
    obtain ⟨z, hz⟩ := Option.isSome_iff_exists.mp hy
    obtain ⟨hlength, hplace⟩ := ih hxs
    rw [List.filterMap_cons_some hz]
    refine ⟨congrArg (· + 1) hlength, fun k x hx => ?_⟩
    cases k with
    | zero =>
      obtain rfl : y = x := by simpa using hx
      exact hz.symm
    | succ k => exact hplace k x (by simpa using hx)

/-! ### READ_LIST (R140) -/

theorem getElem?_rows (r : ReleaseList) (k : Nat) :
    r.rows[k]? = (r.entries[k]?).map fun e => { rank := k + 1, entry := e } := by
  rw [ReleaseList.rows, List.getElem?_map, List.getElem?_zipIdx]
  cases r.entries[k]? with
  | none => rfl
  | some e => simp

theorem length_rows (r : ReleaseList) : r.rows.length = r.entries.length := by
  rw [ReleaseList.rows, List.length_map, List.length_zipIdx]

/-- The rows that READ_LIST gives from a first rank: up to 16, each with its own rank. -/
theorem rows_from (r : ReleaseList) {first : Nat} (h : 1 ≤ first) :
    ((r.rows.drop (first - 1)).take 16).length = min 16 (r.entries.length - (first - 1)) ∧
    ∀ (k : Nat) (e : Entry), k < ((r.rows.drop (first - 1)).take 16).length → r.entries[first - 1 + k]? = some e →
      ((r.rows.drop (first - 1)).take 16)[k]? = some ({ rank := first + k, entry := e } : ListRow) := by
  have hlength : ((r.rows.drop (first - 1)).take 16).length = min 16 (r.entries.length - (first - 1)) := by
    rw [List.length_take, List.length_drop, length_rows]
  refine ⟨hlength, fun k e hk he => ?_⟩
  have hrank : first - 1 + k + 1 = first + k := by omega
  rw [List.getElem?_take_of_lt (by omega), List.getElem?_drop, getElem?_rows, he, Option.map_some, hrank]

/-! ### The bytes of a report mode (R139, R171) -/

theorem ReportMode.ofByte_out {b : Byte} (h : 1 < b.toNat) : ReportMode.ofByte b = none := by
  rw [ReportMode.ofByte, if_neg (by rintro rfl; exact absurd h (by decide)),
    if_neg (by rintro rfl; exact absurd h (by decide))]

theorem ReportMode.ofByte_of {b : Byte} {m : ReportMode} (h : b = 0 ∧ m = .each ∨ b = 1 ∧ m = .list) :
    ReportMode.ofByte b = some m := by
  obtain ⟨rfl, rfl⟩ | ⟨rfl, rfl⟩ := h <;> rfl

/-! ### The requests -/

section
variable {s : State} {b f : Byte} (hs : s.ready)
include hs

theorem readStation_out (h : b.toNat < 1 ∨ 4 < b.toNat) :
    exec (.readStation b) s = .next (s.told .outOfRange .empty) := by
  rw [Reads.ready (.station b) hs, readStation, withStation_out h]; rfl

theorem readStation_of {n : StationNo} (h : b.toNat = n.val + 1) : exec (.readStation b) s = .next (s.told .ok (.station
    { queue := (s.station n).queue.filterMap s.queueRow, nextLoad := (s.station n).nextLoad
      nextExit := (s.station n).nextExit, stalled := (s.station n).stalled, mode := nth s.settings.reportMode n
      fault := (s.station n).fault, unsolicited := s.unsolicited })) := by
  rw [Reads.ready (.station b) hs, readStation, withStation_of h]; rfl

theorem readList_out (h : 15 < b.toNat ∨ f.toNat < 1 ∨ 64 < f.toNat) :
    exec (.readList b f) s = .next (s.told .outOfRange .empty) := by
  rw [Reads.ready (.list b f) hs, readList]
  by_cases hb : 15 < b.toNat
  · rw [withList_out hb]; rfl
  · have hrank : f.toNat < 1 ∨ Config.listEntries < f.toNat := h.resolve_left hb
    rw [withList_of (l := ⟨b.toNat, by omega⟩) rfl, if_pos hrank]; rfl

theorem readList_free {l : Fin 16} (hl : b.toNat = l.val) (h₁ : 1 ≤ f.toNat) (h₂ : f.toNat ≤ 64) (h : s.list l = none) :
    exec (.readList b f) s = .next (s.told .wrongState .empty) := by
  rw [Reads.ready (.list b f) hs, readList, withList_of hl, if_neg (rank_in_range h₁ h₂), withUsed_none h]; rfl

theorem readList_used {l : Fin 16} {r : ReleaseList} (hl : b.toNat = l.val) (h₁ : 1 ≤ f.toNat) (h₂ : f.toNat ≤ 64)
    (h : s.list l = some r) : exec (.readList b f) s = .next (s.told .ok (.list
      { station := r.station, opening := r.opening, closed := r.closed, size := r.entries.length
        rows := (r.rows.drop (f.toNat - 1)).take 16 })) := by
  rw [Reads.ready (.list b f) hs, readList, withList_of hl, if_neg (rank_in_range h₁ h₂), withUsed_some h]; rfl

theorem setReportMode_out (h : b.toNat < 1 ∨ 4 < b.toNat ∨ 1 < f.toNat) :
    exec (.setReportMode b f) s = .next (s.told .outOfRange .empty) := by
  rw [Changes.ready (.reportMode b f) hs, setReportMode]
  by_cases hb : b.toNat < 1 ∨ 4 < b.toNat
  · rw [withStation_out hb]; rfl
  · have hn : b.toNat = (⟨b.toNat - 1, by omega⟩ : StationNo).val + 1 := by show b.toNat = b.toNat - 1 + 1; omega
    rw [withStation_of hn, ReportMode.ofByte_out (by omega)]; rfl

theorem setReportMode_of {n : StationNo} {m : ReportMode} (h : b.toNat = n.val + 1)
    (hm : f = 0 ∧ m = .each ∨ f = 1 ∧ m = .list) : exec (.setReportMode b f) s = .next (s.doneWith { s with
      settings := { s.settings with reportMode := s.settings.reportMode.set n.val m } } .empty) := by
  rw [Changes.ready (.reportMode b f) hs, setReportMode, withStation_of h, ReportMode.ofByte_of hm]; rfl

end

/-- Settles O52. -/
theorem stationsAreReadAndTheirModeSet : Obligations.StationsAreReadAndTheirModeSet := by
  refine ⟨fun s b f hs => ⟨readStation_out hs, fun n hn => ⟨_, readStation_of hs hn, fun hused => ?_⟩, readList_out hs,
    fun l hl h₁ h₂ => ⟨readList_free hs hl h₁ h₂, fun r hr => ⟨_, readList_used hs hl h₁ h₂ hr, rows_from r h₁⟩⟩⟩,
    fun s b mb hs => ⟨setReportMode_out hs, fun n m hn hm => setReportMode_of hs hn hm⟩⟩
  have hrows : ∀ l ∈ (s.station n).queue, (s.queueRow l).isSome := fun l hl => by
    obtain ⟨r, hr⟩ := Option.ne_none_iff_exists'.mp (hused l hl)
    rw [queueRow_some hr]; rfl
  obtain ⟨hlength, hplace⟩ := filterMap_in_place hrows
  exact ⟨hlength, fun k l r hl hr => (hplace k l hl).trans (queueRow_some hr)⟩

end Sys2Proof.Machine
end

