-- ==== Sys2Proof/Proofs/ExitSettlement.lean ====
section
/-! CONFIRM_EXIT and DECLARE_MISSING: the settlement of records held by an exit read, the final state of their entries, and the
end of a station's stall (R126, R131, R139). -/

open Sys2Proof Sys2Proof.Machine Sys2Proof.Machine.State

namespace Sys2Proof.Machine.State

/-! ### An entry that becomes final (R118, R139) -/

theorem stationOf_of_lists {s t : State} (h : s.lists = t.lists) (ref : EntryRef) : s.stationOf ref = t.stationOf ref := by
  unfold stationOf State.list; rw [h]

section
variable (s : State) (ref : EntryRef) (e : EntryState)

theorem lists_finishEntry : (s.finishEntry ref e).lists = (s.setEntryState ref e).lists := by unfold finishEntry; simp

theorem stationOf_finishEntry (other : EntryRef) : (s.finishEntry ref e).stationOf other = s.stationOf other := by
  rw [stationOf_of_lists (lists_finishEntry s ref e), stationOf_setEntryState]

theorem entryState_finishEntry : (s.finishEntry ref e).entryState ref = (s.entryState ref).map fun _ => e := by
  rw [entryState_of_lists (lists_finishEntry s ref e), entryState_set_self]

/-- The report of a delivery writes the flags alone (R139). -/
theorem reportDelivery_rest : s.reportDelivery ref e = { s with flags := (s.reportDelivery ref e).flags } := by
  unfold reportDelivery raiseDelivered
  repeat' split
  all_goals rfl

theorem finishEntry_rest : s.finishEntry ref e =
    { s with lists := (s.finishEntry ref e).lists, flags := (s.finishEntry ref e).flags } := by
  have hreport := reportDelivery_rest (s.setEntryState ref e) ref e
  rw [← finishEntry] at hreport
  rw [lists_finishEntry]
  refine hreport.trans ?_
  rw [setEntryState_rest]

variable {s ref e} {n : StationNo} (h : s.stationOf ref = some n)
include h

/-- A delivery is reported in the report mode of its entry's station, and no other final state is (R139). -/
theorem finishEntry_eq : s.finishEntry ref e =
    if e = .delivered then (s.setEntryState ref e).raiseDelivered n else s.setEntryState ref e := by
  rw [finishEntry, reportDelivery, stationOf_setEntryState, h]

theorem raised_finishEntry (he : e = .delivered) (hmode : nth s.settings.reportMode n = .each) :
    (s.finishEntry ref e).raised (.station n .delivered) = true := by
  have hsettings : (s.setEntryState ref e).settings = s.settings := by simp
  rw [finishEntry_eq h, if_pos he, raiseDelivered_each (by rw [hsettings]; exact hmode)]
  exact raised_raise_self ..

theorem flags_finishEntry (hquiet : e ≠ .delivered ∨ nth s.settings.reportMode n = .list) :
    (s.finishEntry ref e).flags = s.flags := by
  have hsettings : (s.setEntryState ref e).settings = s.settings := by simp
  rw [finishEntry_eq h]
  split
  · next he =>
    rw [raiseDelivered_list (by rw [hsettings]; exact hquiet.resolve_left (not_not.mpr he))]
    simp
  · simp

/-- A record is retired and its entry becomes final: what the record table, the lists and the flags become, and that nothing else
changes. -/
theorem finishEntry_retired (i : Ident) : let u := (s.retire i).finishEntry ref e
    u = { s with records := s.records.filter fun p => p.2.ident ≠ i, lists := u.lists, flags := u.flags } ∧
    u.entryState ref = (s.entryState ref).map (fun _ => e) ∧
    (e = .delivered → nth s.settings.reportMode n = .each → u.raised (.station n .delivered) = true) ∧
    (e ≠ .delivered ∨ nth s.settings.reportMode n = .list → u.flags = s.flags) := by
  have hretired : (s.retire i).stationOf ref = some n := h
  have hrest := finishEntry_rest (s.retire i) ref e
  have hstate := entryState_finishEntry (s.retire i) ref e
  have hraised := raised_finishEntry (e := e) hretired
  have hflags := flags_finishEntry (e := e) hretired
  generalize (s.retire i).finishEntry ref e = u at hrest hstate hraised hflags ⊢
  exact ⟨hrest, hstate, hraised, hflags⟩

end

/-! ### The stall of a station (R126) -/

theorem hasExitHeld_iff (s : State) (n : StationNo) : s.hasExitHeld n = true ↔
    ∃ l r e, l ∈ (s.station n).queue ∧ s.list l = some r ∧ e ∈ r.entries ∧ e.state = .exitHeld := by
  rw [hasExitHeld, List.any_eq_true]
  constructor
  · rintro ⟨l, hl, hheld⟩
    split at hheld
    · cases hheld
    · next r hr =>
      obtain ⟨e, he, hstate⟩ := List.any_eq_true.mp hheld
      exact ⟨l, r, e, hl, hr, he, beq_iff_eq.mp hstate⟩
  · rintro ⟨l, r, e, hl, hr, he, hstate⟩
    refine ⟨l, hl, ?_⟩
    rw [hr]
    exact List.any_eq_true.mpr ⟨e, he, beq_iff_eq.mpr hstate⟩

section
variable {s : State} {n : StationNo}

theorem testStall_stays (h : (s.station n).stalled = false ∨
    ∃ l r e, l ∈ (s.station n).queue ∧ s.list l = some r ∧ e ∈ r.entries ∧ e.state = .exitHeld) : s.testStall n = s := by
  refine if_neg fun hc => ?_
  obtain ⟨hstalled, hnone⟩ := Bool.and_eq_true_iff.mp hc
  rw [← hasExitHeld_iff, hstalled] at h
  rw [h.resolve_left (by simp)] at hnone
  cases hnone

theorem testStall_ends (hstalled : (s.station n).stalled = true) (hnone : ∀ l r e, l ∈ (s.station n).queue →
    s.list l = some r → e ∈ r.entries → e.state ≠ .exitHeld) : s.testStall n = ({ s with
      stations := s.stations.set n.val { s.station n with stalled := false }
      cause := true } : State).raise (.station n .stallCleared) := by
  have hheld : s.hasExitHeld n = false := by
    rw [Bool.eq_false_iff, Ne, hasExitHeld_iff]
    rintro ⟨l, r, e, hl, hr, he, hstate⟩
    exact hnone l r e hl hr he hstate
  rw [testStall, hstalled, hheld]
  rfl

end

/-! ### The settlement of a record held at the exit (R131) -/

theorem settleExit_unsequenced {s : State} {r : Record} (h : r.entry = none) (e : EntryState) :
    s.settleExit r e = s.retire r.ident := by rw [settleExit, h]

theorem settleExit_sequenced {s : State} {r : Record} {ref : EntryRef} {n : StationNo} (h : r.entry = some ref)
    (hn : s.stationOf ref = some n) (e : EntryState) : s.settleExit r e =
      (((s.retire r.ident).finishEntry ref e).testStall n).testComplete ref.list := by
  have hstation : ((s.retire r.ident).finishEntry ref e).stationOf ref = some n := by
    rw [stationOf_finishEntry]; exact hn
  rw [settleExit, h]
  dsimp only
  rw [testStallOf, hstation]

end Sys2Proof.Machine.State

namespace Sys2Proof.Machine

/-! ### The requests (R131) -/

theorem atExit_iff (w : HoldReason) : w.atExit = true ↔ w = .exitMismatch ∨ w = .exitNoRead := by
  cases w <;> simp [HoldReason.atExit]

theorem heldAtExit_iff (p : Place) : p.heldAtExit = true ↔
    ∃ h, p = .held h ∧ (h.reason = .exitMismatch ∨ h.reason = .exitNoRead) := by
  cases p <;> simp [Place.heldAtExit, atExit_iff]

/-- Both commands are one request, with the final state that each gives the entry. -/
theorem exec_settle {s : State} (hs : s.ready) {i : Ident} {c : Instr} {e : EntryState}
    (h : c = .confirmExit i ∧ e = .delivered ∨ c = .declareMissing i ∧ e = .missing) :
    exec c s = .next (s.answered (settleRequest i e s)) := by
  obtain ⟨rfl, rfl⟩ | ⟨rfl, rfl⟩ := h
  · exact Changes.ready (.confirmExit i) hs
  · exact Changes.ready (.declareMissing i) hs

section
variable {s : State} {i : Ident} {e : EntryState} {r : Record} (hi : i ≠ 0) (hr : s.lookup i = some r)
include hi hr

theorem settleRequest_wrongState (h : ∀ x, r.place = .held x → x.reason ≠ .exitMismatch ∧ x.reason ≠ .exitNoRead) :
    settleRequest i e s = .refuse .wrongState := by
  have hout : r.place.heldAtExit = false := by
    rw [Bool.eq_false_iff, Ne, heldAtExit_iff]
    rintro ⟨x, hx, hreason⟩
    obtain ⟨hmismatch, hnoRead⟩ := h x hx
    exact hreason.elim hmismatch hnoRead
  rw [settleRequest, withRecord_some hi hr, hout]
  rfl

theorem settleRequest_accepted (h : ∃ x, r.place = .held x ∧ (x.reason = .exitMismatch ∨ x.reason = .exitNoRead)) :
    settleRequest i e s = .accept (s.settleExit r e) := by
  rw [settleRequest, withRecord_some hi hr, (heldAtExit_iff _).mpr h]
  rfl

end

/-- Settles O51: both commands run `settleRequest`, whose effect retires the record and finishes its entry, and the test of a stall
ends it exactly where no entry is held. -/
theorem recordsHeldAtTheExitAreSettled : Obligations.RecordsHeldAtTheExitAreSettled := by
  refine ⟨fun s i c e hs hc => ⟨?_, fun hi hnone => ?_, fun r hi hr => ⟨fun hout => ?_, fun x hx hreason =>
    ⟨fun hentry => ?_, fun ref n hentry hn => ⟨(s.retire i).finishEntry ref e, ?_, ?_⟩⟩⟩⟩,
    fun s n => ⟨testStall_stays, testStall_ends⟩⟩
  · rintro rfl
    rw [exec_settle hs hc, settleRequest, withRecord_zero]; rfl
  · rw [exec_settle hs hc, settleRequest, withRecord_none hi hnone]; rfl
  · rw [exec_settle hs hc, settleRequest_wrongState hi hr hout]; rfl
  · rw [exec_settle hs hc, settleRequest_accepted hi hr ⟨x, hx, hreason⟩, settleExit_unsequenced hentry, lookup_ident hr]; rfl
  · rw [exec_settle hs hc, settleRequest_accepted hi hr ⟨x, hx, hreason⟩, settleExit_sequenced hentry hn, lookup_ident hr]; rfl
  · obtain ⟨hrest, hstate, hraised, hflags⟩ := finishEntry_retired (e := e) hn i
    refine ⟨hrest, hstate, hraised, fun hquiet => hflags (hquiet.imp_left ?_)⟩
    rintro rfl
    decide

end Sys2Proof.Machine
end

