-- ==== Sys2Proof/Proofs/NewEntries.lean ====
section
/-! The entries that a request names, and what each makes of its list and of the record table (R118, R132 to R134). -/

open Sys2Proof Sys2Proof.Machine Sys2Proof.Machine.State

namespace Sys2Proof.Machine

/-! ### The entries that a request names (R132, R171) -/

section
variable {a : EntryArg} {e : NewEntry}

theorem Pref.ofByte_of {b : Byte} {p : Pref} (h : b.toNat = match p with | .a => 0 | .b => 1 | .either => 2) :
    Pref.ofByte b = some p := by
  cases p with
  | a => rw [byte_eq (by decide) h]; rfl
  | b => rw [byte_eq (by decide) h]; rfl
  | either => rw [byte_eq (by decide) h]; rfl

theorem Pref.toNat_of_ofByte {b : Byte} {p : Pref} :
    Pref.ofByte b = some p → b.toNat = match p with | .a => 0 | .b => 1 | .either => 2 := by
  intro h
  unfold Pref.ofByte at h
  repeat' split at h
  all_goals cases h
  all_goals subst b; rfl

theorem Weight.toNat_of_ofByte {b : Byte} {w : Weight} (h : Weight.ofByte b = some w) : b.toNat = w.val := by
  unfold Weight.ofByte at h
  split at h
  all_goals cases h
  rfl

theorem NewEntry.ofArg_of (h : e.namedBy a) : NewEntry.ofArg a = some e := by
  obtain ⟨hident, hzero, hlevel, hweight, hpref⟩ := h
  rw [← hident] at hzero
  rw [NewEntry.ofArg, Level.ofByte_of hlevel, Pref.ofByte_of hpref, Weight.ofByte_of hweight]
  dsimp only
  rw [if_neg hzero, hident]

theorem NewEntry.namedBy_of_ofArg (h : NewEntry.ofArg a = some e) : e.namedBy a := by
  unfold NewEntry.ofArg at h
  split at h
  · next l p w hlevel hpref hweight =>
    split at h
    · cases h
    · next hzero =>
      cases h
      exact ⟨rfl, hzero, Level.ofByte_some hlevel, Weight.toNat_of_ofByte hweight, Pref.toNat_of_ofByte hpref⟩
  · cases h

/-- An entry that names no new entry keeps the whole request out (R132). -/
theorem NewEntry.ofArgs_out {args : List EntryArg} (h : ∃ a ∈ args, ∀ e : NewEntry, ¬ e.namedBy a) :
    NewEntry.ofArgs args = none := by
  obtain ⟨a, ha, hout⟩ := h
  induction args with
  | nil => cases ha
  | cons b rest ih =>
    obtain rfl | ha := List.mem_cons.mp ha
    · have hnone : NewEntry.ofArg a = none := Option.eq_none_iff_forall_ne_some.mpr fun e he =>
        hout e (namedBy_of_ofArg he)
      rw [NewEntry.ofArgs, hnone]
    · rw [NewEntry.ofArgs, ih ha]
      cases NewEntry.ofArg b <;> rfl

theorem NewEntry.ofArgs_of {args : List EntryArg} {es : List NewEntry} (h : List.Forall₂ NewEntry.namedBy es args) :
    NewEntry.ofArgs args = some es := by
  induction h with
  | nil => rfl
  | cons hnamed _ ih => rw [NewEntry.ofArgs, ofArg_of hnamed, ih]

end

namespace State

/-! ### The record of a new entry (R133) -/

/-- The record that a new entry leaves: the one that held its identity, attached, or a new one. -/
def attached (x : Option Record) (e : NewEntry) (ref : EntryRef) : Record :=
  match x with
  | some r => { r with entry := some ref, pref := some e.pref, weight := some e.weight }
  | none => e.record ref

theorem entry_attached (x : Option Record) (e : NewEntry) (ref : EntryRef) : (attached x e ref).entry = some ref := by
  cases x <;> rfl

theorem lookup_attach (s : State) (e : NewEntry) (ref : EntryRef) (i : Ident) : (s.attach e ref).lookup i =
    if e.ident = i then some (attached (s.lookup e.ident) e ref) else s.lookup i := by
  unfold attach
  cases h : s.lookup e.ident with
  | some r =>
    have hmod := lookup_modRecord s e.ident i
      (fun y => { y with entry := some ref, pref := some e.pref, weight := some e.weight }) fun _ => rfl
    refine hmod.trans ?_
    split
    · next hi => rw [← hi, h]; rfl
    · rfl
  | none => exact lookup_create s (e.record ref) i h

/-! ### One entry more (R133, R134) -/

section
variable {s : State} {l : Fin 16} {r : ReleaseList} (h : s.list l = some r)
include h

theorem addEntry_eq (e : NewEntry) : s.addEntry l e = (s.setList l (some { r with entries := r.entries ++ [e.entry] })).attach e
    { list := l, rank := r.entries.length + 1 } := by rw [addEntry, h]

theorem list_addEntry (e : NewEntry) (k : Fin 16) : (s.addEntry l e).list k =
    if l = k then some { r with entries := r.entries ++ [e.entry] } else s.list k := by
  rw [addEntry_eq h, ← list_setList]
  exact congrArg (nth · k) (by simp)

theorem lookup_addEntry (e : NewEntry) (i : Ident) : (s.addEntry l e).lookup i =
    if e.ident = i then some (attached (s.lookup e.ident) e ⟨l, r.entries.length + 1⟩) else s.lookup i := by
  rw [addEntry_eq h, lookup_attach]
  rfl

end

/-! ### All the entries of a request -/

section
variable {l : Fin 16} (es : List NewEntry) {s : State} {r : ReleaseList} (h : s.list l = some r)
include h

theorem list_addEntries : (s.addEntries l es).list l = some { r with entries := r.entries ++ es.map NewEntry.entry } := by
  induction es generalizing s r with
  | nil => simpa [addEntries] using h
  | cons e es ih =>
    have hadded := (list_addEntry h e l).trans (if_pos rfl)
    refine (ih hadded).trans ?_
    rw [List.map_cons, List.append_assoc]
    rfl

theorem list_addEntries_ne {k : Fin 16} (hk : k ≠ l) : (s.addEntries l es).list k = s.list k := by
  induction es generalizing s r with
  | nil => rfl
  | cons e es ih =>
    have hadded := (list_addEntry h e l).trans (if_pos rfl)
    exact (ih hadded).trans ((list_addEntry h e k).trans (if_neg (Ne.symm hk)))

theorem lookup_addEntries_other {i : Ident} (hi : ∀ e ∈ es, e.ident ≠ i) : (s.addEntries l es).lookup i = s.lookup i := by
  induction es generalizing s r with
  | nil => rfl
  | cons e es ih =>
    obtain ⟨he, hes⟩ := List.forall_mem_cons.mp hi
    have hadded := (list_addEntry h e l).trans (if_pos rfl)
    exact (ih hadded hes).trans ((lookup_addEntry h e i).trans (if_neg he))

/-- Of entries that no two share an identity, each has its record, with its own rank. -/
theorem lookup_addEntries (hdistinct : (es.map (·.ident)).Nodup) {k : Nat} {e : NewEntry} (he : es[k]? = some e) :
    (s.addEntries l es).lookup e.ident = some (attached (s.lookup e.ident) e ⟨l, r.entries.length + k + 1⟩) := by
  induction es generalizing s r k with
  | nil => simp at he
  | cons d es ih =>
    obtain ⟨hd, hes⟩ := List.nodup_cons.mp hdistinct
    have hadded := (list_addEntry h d l).trans (if_pos rfl)
    cases k with
    | zero =>
      obtain rfl : d = e := by simpa using he
      have hothers : ∀ x ∈ es, x.ident ≠ d.ident := fun x hx hc => hd (List.mem_map.mpr ⟨x, hx, hc⟩)
      exact (lookup_addEntries_other es hadded hothers).trans ((lookup_addEntry h d d.ident).trans (if_pos rfl))
    | succ k =>
      have he : es[k]? = some e := by simpa using he
      have hne : d.ident ≠ e.ident := fun hc => hd (List.mem_map.mpr ⟨e, List.mem_of_getElem? he, hc.symm⟩)
      rw [show s.addEntries l (d :: es) = (s.addEntry l d).addEntries l es from rfl, ih hadded hes he, lookup_addEntry h,
        if_neg hne]
      simp only [List.length_append, List.length_singleton]
      congr 3
      omega

end

theorem addEntries_rest (s : State) (l : Fin 16) (es : List NewEntry) : s.addEntries l es =
    { s with records := (s.addEntries l es).records, lists := (s.addEntries l es).lists } := by
  obtain ⟨-, -, hlanes, hlevels, hslots, hclaims, happrovals, hlifts, hentries, hstations, hopening, hunsolicited, hlinks,
    hflags, hattention, hcause, hfresh⟩ := addEntries_frame s l es
  exact eq_of_fields (kept_addEntries s l es) rfl hlanes hlevels hslots hclaims happrovals hlifts hentries hstations rfl
    hopening hunsolicited hlinks hflags hattention hcause hfresh

end State
end Sys2Proof.Machine
end

