-- ==== Sys2Proof/Proofs/ReleaseLists.lean ====
section
/-! The requests that make release lists: OPEN_LIST, APPEND_ENTRIES and CLOSE_LIST, and the completion of a list (R117, R132,
R134, R135). -/

open Sys2Proof Sys2Proof.Machine Sys2Proof.Machine.State

namespace Sys2Proof.Machine.State

/-! ### The opening of a list (R117, R132) -/

section
variable {s : State} {l : Fin 16}

theorem freeList?_none (h : ∀ l, s.list l ≠ none) : s.freeList? = none :=
  List.find?_eq_none.mpr fun l _ => by simpa using h l

/-- The lowest-numbered free slot is the one found. -/
theorem freeList?_of (h : s.list l = none) (hbelow : ∀ k, k < l → s.list k ≠ none) : s.freeList? = some l := by
  refine List.find?_eq_some_iff_getElem.mpr ⟨by rw [h]; rfl, l.val, by simp, by simp, fun j hj => ?_⟩
  have hused := hbelow ⟨j, hj.trans l.isLt⟩ hj
  simpa [Option.isNone_eq_false_iff, Option.isSome_iff_ne_none] using hused

variable (s l) (n : StationNo)

/-- A new list at the end of its station's queue, before its entries are made. -/
def opened : State := (s.newList n l).modStation n fun x => { x with queue := x.queue ++ [l] }

theorem opened_eq : s.opened l n = { s with
    lists := s.lists.set l.val (some { station := n, opening := s.opening + 1, closed := false, entries := [] })
    stations := s.stations.set n.val { s.station n with queue := (s.station n).queue ++ [l] }
    opening := s.opening + 1 } := rfl

theorem list_opened (k : Fin 16) : (s.opened l n).list k =
    if l = k then some { station := n, opening := s.opening + 1, closed := false, entries := [] } else s.list k :=
  list_setList ..

theorem station_opened (m : StationNo) : (s.opened l n).station m =
    if n = m then { s.station m with queue := (s.station m).queue ++ [l] } else s.station m := station_modStation ..

theorem openIn_eq (es : List NewEntry) : s.openIn n l es = (s.opened l n).addEntries l es := rfl

theorem openIn_rest (es : List NewEntry) : s.openIn n l es = { s with
    records := (s.openIn n l es).records, lists := (s.openIn n l es).lists
    stations := (s.openIn n l es).stations, opening := s.opening + 1 } := by
  rw [openIn_eq, addEntries_rest, opened_eq]

theorem station_openIn (es : List NewEntry) (m : StationNo) : (s.openIn n l es).station m =
    if n = m then { s.station m with queue := (s.station m).queue ++ [l] } else s.station m := by
  rw [openIn_eq, addEntries_rest, ← station_opened]
  rfl

end

/-! ### The completion of a list (R135) -/

section
variable {s : State} {l : Fin 16}

theorem testComplete_stays (h : s.list l = none ∨
    ∃ r, s.list l = some r ∧ (r.closed = false ∨ ∃ e ∈ r.entries, e.state.final = false)) : s.testComplete l = s := by
  obtain h | ⟨r, hr, hopen⟩ := h
  · rw [testComplete, h]
  · rw [testComplete, hr]
    refine if_neg fun hc => ?_
    obtain ⟨hclosed, hfinal⟩ := Bool.and_eq_true_iff.mp hc
    obtain hopen | ⟨e, he, hstate⟩ := hopen
    · rw [hopen] at hclosed; cases hclosed
    · rw [List.all_eq_true.mp hfinal e he] at hstate; cases hstate

theorem testComplete_completes {r : ReleaseList} (hr : s.list l = some r) (hclosed : r.closed = true)
    (hfinal : ∀ e ∈ r.entries, e.state.final = true) :
    s.testComplete l = (s.freeList l).raise (.station r.station .listComplete) := by
  rw [testComplete, hr]
  exact if_pos (Bool.and_eq_true_iff.mpr ⟨hclosed, List.all_eq_true.mpr hfinal⟩)

end

end Sys2Proof.Machine.State

namespace Sys2Proof.Machine

/-! ### OPEN_LIST (R132) -/

section
variable {s : State} (hs : s.ready) {b : Byte} {args : List EntryArg}
include hs

theorem openList_out (h : b.toNat < 1 ∨ 4 < b.toNat ∨ 16 < args.length ∨ ∃ a ∈ args, ∀ e : NewEntry, ¬ e.namedBy a) :
    exec (.openList b args) s = .next (s.told .outOfRange .empty) := by
  have hout : openList b args s = .refuse .outOfRange := by
    unfold openList
    split
    · next n es hn hes =>
      refine if_pos ?_
      by_contra hlength
      have hentry : ∃ a ∈ args, ∀ e : NewEntry, ¬ e.namedBy a := by
        by_contra hc
        have hstation : b.toNat < 1 ∨ 4 < b.toNat := by
          obtain h | h | h | h := h
          · exact .inl h
          · exact .inr h
          · exact absurd h hlength
          · exact absurd h hc
        rw [StationNo.ofByte_out hstation] at hn
        cases hn
      rw [NewEntry.ofArgs_out hentry] at hes
      cases hes
    · rfl
  rw [Changes.ready (.openList b args) hs, hout]
  rfl

variable {n : StationNo} {es : List NewEntry} (hn : b.toNat = n.val + 1) (hlength : args.length ≤ 16)
  (hes : List.Forall₂ NewEntry.namedBy es args)
include hn hlength hes

/-- Without a free slot, or with the last number given, no list is opened. -/
theorem openList_busy (h : (∀ l, s.list l ≠ none) ∨ s.opening = 65535) :
    exec (.openList b args) s = .next (s.told .busy .empty) := by
  have hbusy : openList b args s = .refuse .busy := by
    simp only [openList, StationNo.ofByte_of hn, NewEntry.ofArgs_of hes, if_neg (Nat.not_lt.mpr hlength)]
    cases hl : s.freeList? with
    | none => rfl
    | some l => exact if_pos (h.resolve_left fun hc => by rw [freeList?_none hc] at hl; cases hl)
  rw [Changes.ready (.openList b args) hs, hbusy]
  rfl

variable {l : Fin 16} (hfree : s.list l = none) (hbelow : ∀ k, k < l → s.list k ≠ none) (hopening : s.opening ≠ 65535)
include hfree hbelow hopening

/-- With a slot and a number to give, OPEN_LIST leaves its entries to the entry checks. -/
theorem openList_checked : exec (.openList b args) s = .next (s.answered ((s.entryRefusal es).elim
    (.acceptWith (s.openIn n l es) (.opened l (s.opening + 1))) refuseEntry)) := by
  rw [Changes.ready (.openList b args) hs]
  simp only [openList, StationNo.ofByte_of hn, NewEntry.ofArgs_of hes, if_neg (Nat.not_lt.mpr hlength),
    freeList?_of hfree hbelow, if_neg hopening]
  cases s.entryRefusal es <;> rfl

theorem openList_refused {c : Code} {k : Nat} (h : s.entryRefusal es = some (c, k)) :
    exec (.openList b args) s = .next (s.told c (.position k)) := by
  rw [openList_checked hs hn hlength hes hfree hbelow hopening, h]
  rfl

theorem openList_accepted (h : s.entryRefusal es = none) : exec (.openList b args) s =
    .next (s.doneWith (s.openIn n l es) (.opened l (s.opening + 1))) := by
  rw [openList_checked hs hn hlength hes hfree hbelow hopening, h]
  rfl

end

/-- Settles O47: the list is opened empty and takes its entries one by one; entries that pass R133 share no identity, so each keeps
its record. -/
theorem openListMakesAListAndItsRecords : Obligations.OpenListMakesAListAndItsRecords := by
  refine fun s b args hs => ⟨openList_out hs, fun n es hn hlength hes => ⟨openList_busy hs hn hlength hes,
    fun l hfree hbelow hopening => ⟨fun c k => openList_refused hs hn hlength hes hfree hbelow hopening, fun hpassed =>
      ⟨s.openIn n l es, openList_accepted hs hn hlength hes hfree hbelow hopening hpassed, openIn_rest s l n es, ?_⟩⟩⟩⟩
  have hopened : (s.opened l n).list l = some { station := n, opening := s.opening + 1, closed := false, entries := [] } :=
    (list_opened s l n l).trans (if_pos rfl)
  obtain ⟨hdistinct, -⟩ := of_entryRefusal_none hpassed
  refine ⟨list_addEntries es hopened, fun k hk => ?_, ?_, fun m hm => ?_, fun i hi => ?_, fun k e he => ?_⟩
  · exact (list_addEntries_ne es hopened hk).trans ((list_opened s l n k).trans (if_neg (Ne.symm hk)))
  · rw [station_openIn, if_pos rfl]
  · rw [station_openIn, if_neg (Ne.symm hm)]
  · exact lookup_addEntries_other es hopened hi
  · refine (lookup_addEntries es hopened hdistinct he).trans ?_
    rw [List.length_nil, Nat.zero_add]
    show some (attached (s.lookup e.ident) e ⟨l, k + 1⟩) = _
    cases s.lookup e.ident <;> rfl

/-! ### APPEND_ENTRIES (R134) -/

section
variable {s : State} (hs : s.ready) {b : Byte} {args : List EntryArg}
include hs

theorem append_out (h : 15 < b.toNat ∨ args = [] ∨ 16 < args.length ∨ ∃ a ∈ args, ∀ e : NewEntry, ¬ e.namedBy a) :
    exec (.appendEntries b args) s = .next (s.told .outOfRange .empty) := by
  have hout : appendEntries b args s = .refuse .outOfRange := by
    by_cases hb : 15 < b.toNat
    · rw [appendEntries, withList_out hb]
    · rw [appendEntries, withList_of (l := ⟨b.toNat, by omega⟩) rfl]
      split
      · rfl
      · next es hes =>
        refine if_pos ?_
        by_contra hlength
        obtain ⟨hsome, hcount⟩ := not_or.mp hlength
        have hentry : ∃ a ∈ args, ∀ e : NewEntry, ¬ e.namedBy a :=
          ((h.resolve_left hb).resolve_left hsome).resolve_left hcount
        rw [NewEntry.ofArgs_out hentry] at hes
        cases hes
  rw [Changes.ready (.append b args) hs, hout]
  rfl

variable {l : Fin 16} {es : List NewEntry} (hl : b.toNat = l.val) (hsome : args ≠ []) (hlength : args.length ≤ 16)
  (hes : List.Forall₂ NewEntry.namedBy es args)
include hl hsome hlength hes

/-- APPEND_ENTRIES of a list number and entries in range asks for the list in use (R134). -/
theorem append_free (h : s.list l = none) : exec (.appendEntries b args) s = .next (s.told .wrongState .empty) := by
  rw [Changes.ready (.append b args) hs]
  simp only [appendEntries, withList_of hl, NewEntry.ofArgs_of hes, hsome, Nat.not_lt.mpr hlength, or_self, if_false,
    withUsed_none h]
  rfl

variable {r : ReleaseList} (hr : s.list l = some r)
include hr

theorem append_closed (h : r.closed = true) : exec (.appendEntries b args) s = .next (s.told .wrongState .empty) := by
  rw [Changes.ready (.append b args) hs]
  simp only [appendEntries, withList_of hl, NewEntry.ofArgs_of hes, hsome, Nat.not_lt.mpr hlength, or_self, if_false,
    withUsed_some hr, if_pos h]
  rfl

variable (hopen : r.closed = false)
include hopen

theorem append_tooMany (h : 64 < r.entries.length + es.length) :
    exec (.appendEntries b args) s = .next (s.told .outOfRange .empty) := by
  have hover : Config.listEntries < r.entries.length + es.length := h
  rw [Changes.ready (.append b args) hs]
  simp only [appendEntries, withList_of hl, NewEntry.ofArgs_of hes, hsome, Nat.not_lt.mpr hlength, or_self, if_false,
    withUsed_some hr, hopen, Bool.false_eq_true, if_pos hover]
  rfl

variable (hroom : r.entries.length + es.length ≤ 64)
include hroom

/-- An OPEN list with room for the entries leaves them to the entry checks. -/
theorem append_checked : exec (.appendEntries b args) s = .next (s.answered ((s.entryRefusal es).elim
    (.acceptWith (s.addEntries l es) (.rank (r.entries.length + 1))) refuseEntry)) := by
  have hfits : ¬ Config.listEntries < r.entries.length + es.length := Nat.not_lt.mpr hroom
  rw [Changes.ready (.append b args) hs]
  simp only [appendEntries, withList_of hl, NewEntry.ofArgs_of hes, hsome, Nat.not_lt.mpr hlength, or_self, if_false,
    withUsed_some hr, hopen, Bool.false_eq_true, if_neg hfits]
  cases s.entryRefusal es <;> rfl

theorem append_refused {c : Code} {k : Nat} (h : s.entryRefusal es = some (c, k)) :
    exec (.appendEntries b args) s = .next (s.told c (.position k)) := by
  rw [append_checked hs hl hsome hlength hes hr hopen hroom, h]
  rfl

theorem append_accepted (h : s.entryRefusal es = none) : exec (.appendEntries b args) s =
    .next (s.doneWith (s.addEntries l es) (.rank (r.entries.length + 1))) := by
  rw [append_checked hs hl hsome hlength hes hr hopen hroom, h]
  rfl

end

/-! ### CLOSE_LIST (R135) -/

section
variable {s : State} (hs : s.ready) {b : Byte}
include hs

theorem close_out (h : 15 < b.toNat) : exec (.closeList b) s = .next (s.told .outOfRange .empty) := by
  rw [Changes.ready (.closeList b) hs, closeList, withList_out h]
  rfl

variable {l : Fin 16} (hl : b.toNat = l.val)
include hl

theorem close_wrongState (h : s.list l = none ∨ ∃ r, s.list l = some r ∧ r.closed = true) :
    exec (.closeList b) s = .next (s.told .wrongState .empty) := by
  rw [Changes.ready (.closeList b) hs, closeList, withList_of hl]
  obtain h | ⟨r, hr, hclosed⟩ := h
  · rw [withUsed_none h]; rfl
  · rw [withUsed_some hr, if_pos hclosed]; rfl

theorem close_accepted {r : ReleaseList} (hr : s.list l = some r) (hopen : r.closed = false) :
    exec (.closeList b) s = .next (s.doneWith
      (({ s with lists := s.lists.set l.val (some { r with closed := true }) } : State).testComplete l) .empty) := by
  rw [Changes.ready (.closeList b) hs, closeList, withList_of hl, withUsed_some hr, if_neg (by simp [hopen])]
  rfl

end

/-- Settles O48. -/
theorem listsAreExtendedClosedAndCompleted : Obligations.ListsAreExtendedClosedAndCompleted := by
  refine ⟨fun s b args hs => ⟨append_out hs, fun l es hl hsome hlength hes => ⟨append_free hs hl hsome hlength hes,
    fun r hr => ⟨append_closed hs hl hsome hlength hes hr, append_tooMany hs hl hsome hlength hes hr, fun hopen hroom =>
      ⟨fun c k => append_refused hs hl hsome hlength hes hr hopen hroom, fun hpassed => ⟨s.addEntries l es,
        append_accepted hs hl hsome hlength hes hr hopen hroom hpassed, addEntries_rest s l es, list_addEntries es hr,
        fun k => list_addEntries_ne es hr, fun i => lookup_addEntries_other es hr, fun k e he => ?_⟩⟩⟩⟩⟩,
    fun s b hs => ⟨close_out hs, fun l hl => ⟨close_wrongState hs hl, fun r => close_accepted hs hl⟩⟩,
    fun s l => ⟨testComplete_stays, fun r hr hclosed hfinal => ?_⟩⟩
  · obtain ⟨hdistinct, -⟩ := of_entryRefusal_none hpassed
    rw [lookup_addEntries es hr hdistinct he, Option.bind_some, entry_attached]
  · rw [testComplete_completes hr hclosed hfinal, freeList_eq hr]

end Sys2Proof.Machine
end

