-- ==== Sys2Proof/Proofs/HoldResolution.lean ====
section
/-! RESOLVE_HOLD: its checks, those of the holder that the disposition names, and the placement of R144's table (R138, R144 to
R150). -/

open Sys2Proof Sys2Proof.Machine Sys2Proof.Machine.State

namespace Sys2Proof.Machine

/-! ### The disposition and the placement it names (R144, R149) -/

/-- A disposition byte puts a record with this hold in this place. -/
def Hold.placed (h : Hold) (d : Byte) (p : Placement) : Prop :=
  ∃ x, Disposition.ofByte d = some x ∧ x.place h = p

theorem Disposition.ofByte_out {d : Byte} (h : 2 < d.toNat) : Disposition.ofByte d = none := by
  rw [Disposition.ofByte, if_neg (by rintro rfl; exact absurd h (by decide)),
    if_neg (by rintro rfl; exact absurd h (by decide)), if_neg (by rintro rfl; exact absurd h (by decide))]

theorem Disposition.ofByte_in {d : Byte} (h : d.toNat ≤ 2) : ∃ x, Disposition.ofByte d = some x := by
  obtain h | h | h : d.toNat = 0 ∨ d.toNat = 1 ∨ d.toNat = 2 := by omega
  · exact ⟨.atGiver, by rw [byte_eq (by decide) h]; rfl⟩
  · exact ⟨.atTaker, by rw [byte_eq (by decide) h]; rfl⟩
  · exact ⟨.retire, by rw [byte_eq (by decide) h]; rfl⟩

namespace Hold

variable {h : Hold} {d : Byte}

theorem placed_expected {l : Level} (hd : d = 0) (hg : h.giver = .rack l) : h.placed d .expected := by
  obtain ⟨why, giver, taker⟩ := h
  subst hd hg
  exact ⟨.atGiver, rfl, rfl⟩

/-- A lane gives at its head and takes at its tail. -/
theorem placed_lane {l : LaneId} (hd : (d = 0 ∧ h.giver = .lane l) ∨ (d = 1 ∧ h.taker = .lane l)) :
    h.placed d (.lane l (decide (d = 0))) := by
  obtain ⟨why, giver, taker⟩ := h
  obtain ⟨rfl, rfl⟩ | ⟨rfl, rfl⟩ := hd
  · exact ⟨.atGiver, rfl, rfl⟩
  · exact ⟨.atTaker, rfl, rfl⟩

theorem placed_queueHead {x : Side} (hd : d = 0) (hg : h.giver = .entry x) : h.placed d (.queueHead x) := by
  obtain ⟨why, giver, taker⟩ := h
  subst hd hg
  exact ⟨.atGiver, rfl, rfl⟩

/-- A carriage gives at FRONT and takes behind what it holds. -/
theorem placed_carriage {x : Side} (hd : (d = 0 ∧ h.giver = .carriage x) ∨ (d = 1 ∧ h.taker = .carriage x)) :
    h.placed d (.carriage x (decide (d = 0))) := by
  obtain ⟨why, giver, taker⟩ := h
  obtain ⟨rfl, rfl⟩ | ⟨rfl, rfl⟩ := hd
  · exact ⟨.atGiver, rfl, rfl⟩
  · exact ⟨.atTaker, rfl, rfl⟩

theorem placed_stored (hd : d = 1) (ht : h.taker = .shuttle) : h.placed d .stored := by
  obtain ⟨why, giver, taker⟩ := h
  subst hd ht
  exact ⟨.atTaker, rfl, rfl⟩

theorem placed_delivered (hd : d = 1) (ht : h.taker = .exit) : h.placed d .delivered := by
  obtain ⟨why, giver, taker⟩ := h
  subst hd ht
  exact ⟨.atTaker, rfl, rfl⟩

theorem placed_writtenOff (hd : d = 2) : h.placed d .writtenOff := by
  subst hd
  exact ⟨.retire, rfl, rfl⟩

end Hold

namespace State

/-! ### What each placement writes (R145 to R149) -/

/-- The record table with one record in a new place. -/
def moved (s : State) (i : Ident) (p : Place) : List (Nat × Record) :=
  s.records.map fun q => if q.2.ident = i then (q.1, { q.2 with place := p }) else q

theorem loadEntry_rest (s : State) (i : Ident) : s.loadEntry i = { s with lists := (s.loadEntry i).lists } := by
  unfold loadEntry
  split
  · exact setEntryState_rest ..
  · rfl

theorem loadEntry_sequenced {s : State} {i : Ident} {r : Record} {ref : EntryRef} (hr : s.lookup i = some r)
    (h : r.entry = some ref) : s.loadEntry i = s.setEntryState ref .loaded := by
  rw [loadEntry, hr, Option.bind_some, h]

theorem loadEntry_unsequenced {s : State} {i : Ident} {r : Record} (hr : s.lookup i = some r) (h : r.entry = none) :
    s.loadEntry i = s := by
  rw [loadEntry, hr, Option.bind_some, h]

/-- New contents of a carriage clear its stuck mark (R85). -/
theorem setCarriage_eq {s : State} {x : Side} {c : List Ident} (h : (s.lift x).contents ≠ c) : s.setCarriage x c =
    { s with lifts := s.lifts.set x.ix.val { s.lift x with contents := c, stuck := false } } := by
  have hnew : (if (s.lift x).contents = c then s.lift x else { s.lift x with contents := c, stuck := false }) =
      { s.lift x with contents := c, stuck := false } := if_neg h
  rw [← hnew]
  rfl

/-- A tote put before a queue's head is a new head, and begins its age (R113, R147). -/
theorem queue_setQueue_head {s : State} {x : Side} {i : Ident} (h : i ∉ (s.queue x).contents) :
    (s.setQueue x (i :: (s.queue x).contents)).queue x =
      { s.queue x with contents := i :: (s.queue x).contents, age := some 0, aged := false } := by
  refine ((queue_setQueue s x (i :: (s.queue x).contents)).2 fun hc => ?_).trans (by simp)
  exact h (List.mem_of_mem_head? hc.symm)

section
variable (s : State) (r : Record)

theorem resolve_expected : s.resolve r .expected = { s with records := s.moved r.ident .expected } := rfl

theorem resolve_lane (l : LaneId) (atHead : Bool) : s.resolve r (.lane l atHead) = { s with
    records := s.moved r.ident (.lane l)
    lanes := s.lanes.set l.ix.val { s.lane l with
      contents := if atHead then r.ident :: (s.lane l).contents else (s.lane l).contents ++ [r.ident] }
    cause := true } := rfl

theorem resolve_queueHead {x : Side} (h : r.ident ∉ (s.queue x).contents) : s.resolve r (.queueHead x) = { s with
    records := s.moved r.ident (.entry x)
    entries := s.entries.set x.ix.val { s.queue x with
      contents := r.ident :: (s.queue x).contents, age := some 0, aged := false }
    cause := true } := by
  have hqueue := queue_setQueue_head (s := s.setPlace r.ident (.entry x)) h
  show ((s.setPlace r.ident (.entry x)).setQueue x (r.ident :: ((s.setPlace r.ident (.entry x)).queue x).contents)).withCause = _
  rw [setQueue_eq, hqueue]
  rfl

theorem resolve_carriage (x : Side) (atFront : Bool) : s.resolve r (.carriage x atFront) = { s with
    records := s.moved r.ident (.carriage x)
    lifts := s.lifts.set x.ix.val { s.lift x with
      contents := if atFront then r.ident :: (s.lift x).contents else (s.lift x).contents ++ [r.ident], stuck := false }
    lists := if atFront then s.lists else (s.loadEntry r.ident).lists
    cause := true } := by
  cases atFront with
  | true =>
    have hnew : (s.lift x).contents ≠ r.ident :: (s.lift x).contents := (List.cons_ne_self _ _).symm
    show ((s.setPlace r.ident (.carriage x)).setCarriage x (r.ident :: (s.lift x).contents)).withCause = _
    rw [setCarriage_eq (s := s.setPlace r.ident (.carriage x)) hnew]
    rfl
  | false =>
    have hnew : (s.lift x).contents ≠ (s.lift x).contents ++ [r.ident] := by simp
    have hlift : ((s.loadEntry r.ident).setPlace r.ident (.carriage x)).lift x = s.lift x := lift_of_lifts (by simp) x
    show (((s.loadEntry r.ident).setPlace r.ident (.carriage x)).setCarriage x
      ((s.lift x).contents ++ [r.ident])).withCause = _
    rw [setCarriage_eq (by rw [hlift]; exact hnew), hlift, loadEntry_rest]
    rfl

theorem resolve_stored : s.resolve r .stored = { s with records := s.records.filter fun q => q.2.ident ≠ r.ident } := rfl

end

/-- A record whose entry becomes final is retired, and the list of its entry is tested (R138). -/
theorem finishHeld_unsequenced {s : State} {r : Record} (h : r.entry = none) (e : EntryState) :
    s.finishHeld r e = { s with records := s.records.filter fun q => q.2.ident ≠ r.ident } := by
  rw [finishHeld, h]
  rfl

theorem finishHeld_sequenced {s : State} {r : Record} {ref : EntryRef} (h : r.entry = some ref) (e : EntryState) :
    s.finishHeld r e = ((s.retire r.ident).finishEntry ref e).testComplete ref.list := by rw [finishHeld, h]

/-! ### The checks of the holders (R145 to R148) -/

theorem loading_iff (s : State) (x : Side) : s.loading x = true ↔
    ∃ o, (s.slot (liftSlot x)).opened = some o ∧ o.kind = .entryLoad := by
  simp only [loading, Option.any_eq_true, beq_iff_eq]

theorem laneFull_iff (s : State) (l : LaneId) : s.laneFull l = true ↔ s.depth l ≤ (s.lane l).contents.length :=
  decide_eq_true_iff

theorem weightOf_eq (r : Record) : weightOf r = (r.weight.map Fin.val).getD 0 := by
  unfold weightOf
  cases r.weight <;> rfl

/-- A record is FAILED and held: RESOLVE_HOLD of it goes on to the holder that its disposition names (R150). -/
structure resolvable (s : State) (i : Ident) (r : Record) (h : Hold) : Prop where
  ready : s.ready
  notZero : i ≠ 0
  found : s.lookup i = some r
  held : r.place = .held h
  failed : ∃ why, h.reason = .failed why

end State

/-! ### The checks before the holder's (R150) -/

section
variable {s : State} {i : Ident} {d : Byte} (hs : s.ready)
include hs

theorem resolveHold_out (h : i = 0 ∨ 2 < d.toNat) : exec (.resolveHold i d) s = .next (s.told .outOfRange .empty) := by
  rw [Changes.ready (.resolve i d) hs, resolveHold]
  by_cases hd : 2 < d.toNat
  · rw [Disposition.ofByte_out hd]; rfl
  · obtain ⟨x, hx⟩ := Disposition.ofByte_in (Nat.not_lt.mp hd)
    rw [hx, h.resolve_right hd]
    dsimp only
    rw [withRecord_zero]; rfl

variable (hi : i ≠ 0) (hd : d.toNat ≤ 2)
include hi hd

theorem resolveHold_noRecord (h : s.lookup i = none) : exec (.resolveHold i d) s = .next (s.told .noRecord .empty) := by
  obtain ⟨x, hx⟩ := Disposition.ofByte_in hd
  rw [Changes.ready (.resolve i d) hs, resolveHold, hx]
  dsimp only
  rw [withRecord_none hi h]; rfl

theorem resolveHold_wrongState {r : Record} (hr : s.lookup i = some r)
    (h : ∀ x why, r.place = .held x → x.reason ≠ .failed why) :
    exec (.resolveHold i d) s = .next (s.told .wrongState .empty) := by
  obtain ⟨x, hx⟩ := Disposition.ofByte_in hd
  rw [Changes.ready (.resolve i d) hs, resolveHold, hx]
  dsimp only
  rw [withRecord_some hi hr]
  split
  · next y hy =>
    have hexit : y.reason.atExit = true := by
      cases hreason : y.reason with
      | failed why => exact absurd hreason (h y why hy)
      | exitMismatch => rfl
      | exitNoRead => rfl
    rw [if_pos hexit]; rfl
  all_goals rfl

end

/-! ### The holder's checks and the placement -/

section
variable {s : State} {i : Ident} {d : Byte} {r : Record} {h : Hold} (hres : s.resolvable i r h)
include hres

theorem exec_resolve {p : Placement} (hp : h.placed d p) : exec (.resolveHold i d) s =
    .next (s.answered (.checked (s.placementChecks r p) (.accept (s.resolve r p)))) := by
  obtain ⟨hs, hi, hr, hheld, why, hwhy⟩ := hres
  obtain ⟨x, hx, rfl⟩ := hp
  have hexit : h.reason.atExit = false := by rw [hwhy]; rfl
  rw [Changes.ready (.resolve i d) hs]
  simp only [resolveHold, hx, withRecord_some hi hr, hheld, hexit]
  rfl

theorem resolve_toExpected {l : Level} (hd : d = 0) (hg : h.giver = .rack l) : exec (.resolveHold i d) s =
    .next (s.doneWith { s with records := s.moved i .expected } .empty) := by
  rw [exec_resolve hres (Hold.placed_expected hd hg), resolve_expected, lookup_ident hres.found]
  rfl

theorem resolve_toShuttle (hd : d = 1) (ht : h.taker = .shuttle) : exec (.resolveHold i d) s =
    .next (s.doneWith { s with records := s.records.filter fun q => q.2.ident ≠ i } .empty) := by
  rw [exec_resolve hres (Hold.placed_stored hd ht), resolve_stored, lookup_ident hres.found]
  rfl

/-! #### In a lane (R146) -/

section
variable {l : LaneId} (hd : (d = 0 ∧ h.giver = .lane l) ∨ (d = 1 ∧ h.taker = .lane l))
include hd

theorem exec_resolve_lane : exec (.resolveHold i d) s = .next (s.answered (
    if s.busy l then .refuse .laneBusy
    else if s.laneFull l then .refuse .laneFull
    else .accept (s.resolve r (.lane l (decide (d = 0)))))) := by
  rw [exec_resolve hres (Hold.placed_lane hd)]
  simp only [placementChecks, Answer.checked_cons, Answer.checked_nil]

theorem resolve_laneBusy (hbusy : s.busy l = true) : exec (.resolveHold i d) s = .next (s.told .laneBusy .empty) := by
  rw [exec_resolve_lane hres hd, if_pos hbusy]; rfl

variable (hfree : s.busy l = false)
include hfree

theorem resolve_laneFull (hfull : s.depth l ≤ (s.lane l).contents.length) :
    exec (.resolveHold i d) s = .next (s.told .laneFull .empty) := by
  rw [exec_resolve_lane hres hd, if_neg (by simp [hfree]), if_pos ((laneFull_iff s l).mpr hfull)]; rfl

theorem resolve_toLane (hroom : (s.lane l).contents.length < s.depth l) : exec (.resolveHold i d) s =
    .next (s.doneWith { s with
      records := s.moved i (.lane l)
      lanes := s.lanes.set l.ix.val { s.lane l with
        contents := if d = 0 then i :: (s.lane l).contents else (s.lane l).contents ++ [i] }
      cause := true } .empty) := by
  have hfull : ¬ s.laneFull l = true := by rw [laneFull_iff]; omega
  rw [exec_resolve_lane hres hd, if_neg (by simp [hfree]), if_neg hfull, resolve_lane, lookup_ident hres.found]
  simp only [decide_eq_true_eq]
  rfl

end

/-! #### At the head of an entry queue (R147) -/

section
variable {x : Side} (hd : d = 0) (hg : h.giver = .entry x)
include hd hg

theorem exec_resolve_queue : exec (.resolveHold i d) s = .next (s.answered (
    if s.loading x then .refuse .busy
    else if 4 ≤ (s.queue x).contents.length then .refuse .queueFull
    else .accept (s.resolve r (.queueHead x)))) := by
  rw [exec_resolve hres (Hold.placed_queueHead hd hg)]
  simp only [placementChecks, Answer.checked_cons, Answer.checked_nil, decide_eq_true_eq]

theorem resolve_queueBusy (hload : ∃ o, (s.slot (liftSlot x)).opened = some o ∧ o.kind = .entryLoad) :
    exec (.resolveHold i d) s = .next (s.told .busy .empty) := by
  rw [exec_resolve_queue hres hd hg, if_pos ((loading_iff s x).mpr hload)]; rfl

variable (hidle : ∀ o, (s.slot (liftSlot x)).opened = some o → o.kind ≠ .entryLoad)
include hidle

theorem resolve_queueFull (hfull : 4 ≤ (s.queue x).contents.length) :
    exec (.resolveHold i d) s = .next (s.told .queueFull .empty) := by
  have hload : ¬ s.loading x = true := by rw [loading_iff]; rintro ⟨o, ho, hkind⟩; exact hidle o ho hkind
  rw [exec_resolve_queue hres hd hg, if_neg hload, if_pos hfull]; rfl

theorem resolve_toQueue (hroom : (s.queue x).contents.length < 4) (hnew : i ∉ (s.queue x).contents) :
    exec (.resolveHold i d) s = .next (s.doneWith { s with
      records := s.moved i (.entry x)
      entries := s.entries.set x.ix.val { s.queue x with
        contents := i :: (s.queue x).contents, age := some 0, aged := false }
      cause := true } .empty) := by
  have hload : ¬ s.loading x = true := by rw [loading_iff]; rintro ⟨o, ho, hkind⟩; exact hidle o ho hkind
  have hident := lookup_ident hres.found
  rw [exec_resolve_queue hres hd hg, if_neg hload, if_neg (by omega), resolve_queueHead s r (by rw [hident]; exact hnew),
    hident]
  rfl

end

/-! #### On a carriage (R145) -/

section
variable {x : Side} (hd : (d = 0 ∧ h.giver = .carriage x) ∨ (d = 1 ∧ h.taker = .carriage x))
include hd

theorem exec_resolve_carriage : exec (.resolveHold i d) s = .next (s.answered (
    if (s.lift x).status = .working then .refuse .busy
    else if 2 ≤ (s.lift x).contents.length then .refuse .carriageFull
    else if ∃ e, s.carriageDirection x = some e ∧ e ≠ r.direction then .refuse .mixedDirection
    else if s.settings.params.carriageLimit < s.weightSum (s.lift x).contents + (r.weight.map Fin.val).getD 0 then
      .refuse .weightLimit
    else .accept (s.resolve r (.carriage x (decide (d = 0)))))) := by
  rw [exec_resolve hres (Hold.placed_carriage hd)]
  simp only [placementChecks, carriageTests, Answer.checked_cons, Answer.checked_nil, decide_eq_true_eq, beq_iff_eq,
    Option.any_eq_true, bne_iff_ne, weightOf_eq]

theorem resolve_carriageBusy (hbusy : (s.lift x).status = .working) :
    exec (.resolveHold i d) s = .next (s.told .busy .empty) := by
  rw [exec_resolve_carriage hres hd, if_pos hbusy]; rfl

variable (hidle : (s.lift x).status ≠ .working)
include hidle

theorem resolve_carriageFull (hfull : 2 ≤ (s.lift x).contents.length) :
    exec (.resolveHold i d) s = .next (s.told .carriageFull .empty) := by
  rw [exec_resolve_carriage hres hd, if_neg hidle, if_pos hfull]; rfl

variable (hroom : (s.lift x).contents.length < 2)
include hroom

theorem resolve_mixedDirection (hmixed : ∃ e, s.carriageDirection x = some e ∧ e ≠ r.direction) :
    exec (.resolveHold i d) s = .next (s.told .mixedDirection .empty) := by
  rw [exec_resolve_carriage hres hd, if_neg hidle, if_neg (by omega), if_pos hmixed]; rfl

variable (halike : ∀ e, s.carriageDirection x = some e → e = r.direction)
include halike

theorem resolve_weightLimit (hheavy : s.settings.params.carriageLimit <
    s.weightSum (s.lift x).contents + (r.weight.map Fin.val).getD 0) :
    exec (.resolveHold i d) s = .next (s.told .weightLimit .empty) := by
  have hmixed : ¬ ∃ e, s.carriageDirection x = some e ∧ e ≠ r.direction := fun ⟨e, he, hne⟩ => hne (halike e he)
  rw [exec_resolve_carriage hres hd, if_neg hidle, if_neg (by omega), if_neg hmixed, if_pos hheavy]; rfl

theorem resolve_toCarriage (hlight : ¬ s.settings.params.carriageLimit <
    s.weightSum (s.lift x).contents + (r.weight.map Fin.val).getD 0) : exec (.resolveHold i d) s =
    .next (s.doneWith { s with
      records := s.moved i (.carriage x)
      lifts := s.lifts.set x.ix.val { s.lift x with
        contents := if d = 0 then i :: (s.lift x).contents else (s.lift x).contents ++ [i], stuck := false }
      lists := if d = 0 then s.lists else (s.loadEntry i).lists
      cause := true } .empty) := by
  have hmixed : ¬ ∃ e, s.carriageDirection x = some e ∧ e ≠ r.direction := fun ⟨e, he, hne⟩ => hne (halike e he)
  rw [exec_resolve_carriage hres hd, if_neg hidle, if_neg (by omega), if_neg hmixed, if_neg hlight, resolve_carriage,
    lookup_ident hres.found]
  simp only [decide_eq_true_eq]
  rfl

end

/-! #### Delivered or written off (R138, R148, R149) -/

/-- A sequenced tote is not delivered before its turn at the exit (R148). -/
theorem resolve_notEligible {ref : EntryRef} {n : StationNo} (hd : d = 1) (ht : h.taker = .exit) (hentry : r.entry = some ref)
    (hn : s.stationOf ref = some n) (hnot : s.nextExitOf n ≠ .entry ref) :
    exec (.resolveHold i d) s = .next (s.told .notEligible .empty) := by
  rw [exec_resolve hres (Hold.placed_delivered hd ht)]
  simp only [placementChecks, Answer.checked_cons, hentry, hn, Option.any_some, bne_iff_ne.mpr hnot, if_true]
  rfl

theorem resolve_finishes (hd : d = 2 ∨ (d = 1 ∧ h.taker = .exit ∧
    ∀ ref n, r.entry = some ref → s.stationOf ref = some n → s.nextExitOf n = .entry ref)) :
    exec (.resolveHold i d) s =
      .next (s.doneWith (s.finishHeld r (if d = 2 then .missing else .delivered)) .empty) := by
  obtain rfl | ⟨rfl, ht, hturn⟩ := hd
  · rw [exec_resolve hres (Hold.placed_writtenOff rfl)]; rfl
  · have hpassed : (r.entry.any fun ref => (s.stationOf ref).any fun n => s.nextExitOf n != .entry ref) = false := by
      rw [Bool.eq_false_iff, Ne, Option.any_eq_true]
      rintro ⟨ref, hentry, hany⟩
      obtain ⟨n, hn, hne⟩ := (Option.any_eq_true _ _).mp hany
      exact bne_iff_ne.mp hne (hturn ref n hentry hn)
    rw [exec_resolve hres (Hold.placed_delivered rfl ht)]
    simp only [placementChecks, Answer.checked_cons, Answer.checked_nil, hpassed]
    rfl

end

/-- Settles O53: the disposition and the hold name a placement, and each placement has its checks and its effect. -/
theorem resolveHoldPlacesTheRecord : Obligations.ResolveHoldPlacesTheRecord := by
  intro s i d hs no moved
  refine ⟨resolveHold_out hs, fun hi hd => resolveHold_noRecord hs hi hd, fun r hi hd hr =>
    ⟨resolveHold_wrongState hs hi hd hr, fun h why hheld hwhy => ?_⟩⟩
  have hres : s.resolvable i r h := ⟨hs, hi, hr, hheld, why, hwhy⟩
  refine ⟨fun l hd hg => resolve_toExpected hres hd hg,
    fun l hd => ⟨resolve_laneBusy hres hd, resolve_laneFull hres hd, resolve_toLane hres hd⟩,
    fun x hd hg => ⟨resolve_queueBusy hres hd hg, fun hidle => ⟨resolve_queueFull hres hd hg hidle,
      resolve_toQueue hres hd hg hidle⟩⟩,
    fun x hd => ⟨resolve_carriageBusy hres hd, fun hidle => ⟨resolve_carriageFull hres hd hidle, fun hroom =>
      ⟨resolve_mixedDirection hres hd hidle hroom, fun halike => ⟨resolve_weightLimit hres hd hidle hroom halike,
        fun hlight => ⟨_, resolve_toCarriage hres hd hidle hroom halike hlight, rfl, fun hkeeps => ?_,
          fun ref hd hentry => ?_⟩⟩⟩⟩⟩,
    fun hd ht => resolve_toShuttle hres hd ht,
    fun ref n hd ht hentry hn => resolve_notEligible hres hd ht hentry hn,
    fun hentry hd => ?_, fun ref n hentry hn hd => ⟨(s.retire i).finishEntry ref (if d = 2 then .missing else .delivered),
      ?_, ?_⟩⟩
  · by_cases hzero : d = 0
    · exact if_pos hzero
    · exact (if_neg hzero).trans (by rw [loadEntry_unsequenced hr (hkeeps.resolve_left hzero)])
  · have hlists : (if d = 0 then s.lists else (s.loadEntry i).lists) = (s.setEntryState ref .loaded).lists := by
      rw [hd, loadEntry_sequenced hr hentry]; rfl
    exact (entryState_of_lists hlists ref).trans (entryState_set_self s ref .loaded)
  · rw [resolve_finishes hres (hd.imp_right fun ⟨hone, ht⟩ => ⟨hone, ht, by simp [hentry]⟩), finishHeld_unsequenced hentry,
      lookup_ident hr]
  · have hturn : d = 2 ∨ (d = 1 ∧ h.taker = .exit ∧
        ∀ other m, r.entry = some other → s.stationOf other = some m → s.nextExitOf m = .entry other) := by
      refine hd.imp_right fun ⟨hone, ht, hnext⟩ => ⟨hone, ht, fun other m hother hm => ?_⟩
      cases hentry.symm.trans hother
      cases hn.symm.trans hm
      exact hnext
    rw [resolve_finishes hres hturn, finishHeld_sequenced hentry, lookup_ident hr]
  · obtain ⟨hrest, hstate, hraised, hflags⟩ := finishEntry_retired (e := if d = 2 then .missing else .delivered) hn i
    refine ⟨hrest, hstate, fun hone => hraised (if_neg ?_), fun hquiet => hflags (hquiet.imp_left fun htwo => ?_)⟩
    · rw [hone]; decide
    · rw [if_pos htwo]; decide

end Sys2Proof.Machine
end

