-- ==== Sys2Proof/Proofs/ToteDeclaration.lean ====
section
/-! DECLARE_TOTE: the fields that name a declaration, its checks with those of the location, and the record that it creates at
the tail of that location (R151 to R155). -/

open Sys2Proof Sys2Proof.Machine Sys2Proof.Machine.State

namespace Sys2Proof.Machine

/-! ### The fields of a declaration (R151, R171; log 10) -/

theorem Direction.ofByte_out {b : Byte} (h : 1 < b.toNat) : Direction.ofByte b = none := by
  rw [Direction.ofByte, if_neg (by rintro rfl; exact absurd h (by decide)), if_neg (by rintro rfl; exact absurd h (by decide))]

theorem Pref.ofByte_out {b : Byte} (h : 2 < b.toNat) : Pref.ofByte b = none := by
  rw [Pref.ofByte, if_neg (by rintro rfl; exact absurd h (by decide)), if_neg (by rintro rfl; exact absurd h (by decide)),
    if_neg (by rintro rfl; exact absurd h (by decide))]

namespace Location

theorem ofArg_lane (k : LaneId) :
    ofArg (.lane (BitVec.ofNat 8 (k.level.val + 1)) (BitVec.ofNat 8 k.name.ix.val)) = some (.lane k) := by
  have hlevel : (BitVec.ofNat 8 (k.level.val + 1)).toNat = k.level.val + 1 := by rw [BitVec.toNat_ofNat]; omega
  have hname : (BitVec.ofNat 8 k.name.ix.val).toNat = k.name.ix.val := by rw [BitVec.toNat_ofNat]; omega
  rw [ofArg, Level.ofByte_of hlevel, LaneName.ofByte_of hname]

theorem ofArg_carriage (x : Side) : ofArg (.carriage (BitVec.ofNat 8 x.ix.val)) = some (.carriage x) := by cases x <;> rfl

theorem ofArg_entry (x : Side) : ofArg (.entry (BitVec.ofNat 8 x.ix.val)) = some (.entry x) := by cases x <;> rfl

theorem ofArg_out {loc : LocArg} (h : (∃ a b, loc = .lane a b ∧ (a.toNat < 1 ∨ 32 < a.toNat ∨ 3 < b.toNat)) ∨
    (∃ a, loc = .carriage a ∧ 1 < a.toNat) ∨ (∃ a, loc = .entry a ∧ 1 < a.toNat) ∨ ∃ a, loc = .noForm a) :
    ofArg loc = none := by
  obtain ⟨a, b, rfl, h⟩ | ⟨a, rfl, h⟩ | ⟨a, rfl, h⟩ | ⟨a, rfl⟩ := h
  · obtain h | h := (or_assoc (c := 3 < b.toNat)).mpr h
    · rw [ofArg, Level.ofByte_out h]
    · rw [ofArg, LaneName.ofByte_out h]
      cases Level.ofByte a <;> rfl
  · rw [ofArg, Side.ofByte_out h, Option.map_none]
  · rw [ofArg, Side.ofByte_out h, Option.map_none]
  · rfl

end Location

namespace Declaration

/-- The bytes of a request name this preference; those of an inbound tote name none (R151). -/
def prefNamedBy (d : Direction) (p : Option Pref) (pb : Byte) : Prop :=
  d = .inbound ∧ p = none ∨ d = .outbound ∧ ∃ x, Pref.ofByte pb = some x ∧ p = some x

section
variable {i : Ident} {db lb wb pb : Byte} {loc : LocArg}

theorem ofArgs_of {d : Direction} {l : Level} {w : Weight} {p : Option Pref} {k : Location} (hi : i ≠ 0)
    (hd : Direction.ofByte db = some d) (hl : Level.ofByte lb = some l) (hw : Weight.ofByte wb = some w)
    (hp : prefNamedBy d p pb) (hk : Location.ofArg loc = some k) : ofArgs i db lb wb pb loc =
      some { ident := i, direction := d, level := l, weight := w, pref := p, location := k } := by
  simp only [ofArgs, hd, hl, hw, hk, if_neg hi]
  obtain ⟨rfl, rfl⟩ | ⟨rfl, x, hx, rfl⟩ := hp
  · rfl
  · rw [hx]

/-- Only fields that are in their ranges name a declaration. -/
theorem of_ofArgs {x : Declaration} (h : ofArgs i db lb wb pb loc = some x) : i ≠ 0 ∧
    Direction.ofByte db = some x.direction ∧ Level.ofByte lb = some x.level ∧ Weight.ofByte wb = some x.weight ∧
    prefNamedBy x.direction x.pref pb ∧ Location.ofArg loc = some x.location := by
  unfold ofArgs at h
  split at h
  · next d l w k hd hl hw hk =>
    split at h
    · cases h
    · next hi =>
      split at h
      · cases h; exact ⟨hi, hd, hl, hw, .inl ⟨rfl, rfl⟩, hk⟩
      · next p hp => cases h; exact ⟨hi, hd, hl, hw, .inr ⟨rfl, p, hp, rfl⟩, hk⟩
      · cases h
  · cases h

theorem ofArgs_out (h : i = 0 ∨ 1 < db.toNat ∨ lb.toNat < 1 ∨ 32 < lb.toNat ∨ 4 < wb.toNat ∨ (db = 1 ∧ 2 < pb.toNat) ∨
    (∃ a b, loc = .lane a b ∧ (a.toNat < 1 ∨ 32 < a.toNat ∨ 3 < b.toNat)) ∨ (∃ a, loc = .carriage a ∧ 1 < a.toNat) ∨
    (∃ a, loc = .entry a ∧ 1 < a.toNat) ∨ ∃ a, loc = .noForm a) : ofArgs i db lb wb pb loc = none := by
  refine Option.eq_none_iff_forall_ne_some.mpr fun x hx => ?_
  obtain ⟨hi, hd, hl, hw, hp, hk⟩ := of_ofArgs hx
  obtain h | h | h | h | h | ⟨rfl, h⟩ | h := h
  · exact hi h
  · rw [Direction.ofByte_out h] at hd; cases hd
  · rw [Level.ofByte_out (.inl h)] at hl; cases hl
  · rw [Level.ofByte_out (.inr h)] at hl; cases hl
  · rw [Weight.ofByte_out h] at hw; cases hw
  · obtain ⟨hin, -⟩ | ⟨-, y, hy, -⟩ := hp
    · rw [hin] at hd; cases hd
    · rw [Pref.ofByte_out h] at hy; cases hy
  · rw [Location.ofArg_out h] at hk; cases hk

end

end Declaration

/-! ### The checks in order (R151 to R154) -/

/-- A check refuses unless what it tests holds. -/
theorem firstRefusal_unless {b : Bool} {P : Prop} [Decidable P] (h : b = true ↔ ¬ P) (c : Code) (rest : List (Bool × Code)) :
    firstRefusal ((b, c) :: rest) = if ¬ P then some c else firstRefusal rest := if_congr h rfl rfl

/-- What four checks in order answer, case by case. -/
theorem refusal_of_four {first second third fourth : Prop} [Decidable first] [Decidable second] [Decidable third]
    [Decidable fourth] {a b c d : Code} {answer : Option Code} (h : answer =
      if ¬ first then some a else if ¬ second then some b else if ¬ third then some c else if ¬ fourth then some d
      else none) :
    (¬ first → answer = some a) ∧ (first → ¬ second → answer = some b) ∧ (first → second → ¬ third → answer = some c) ∧
    (first → second → third → ¬ fourth → answer = some d) ∧ (first → second → third → fourth → answer = none) := by
  subst h
  refine ⟨fun h1 => if_pos h1, fun h1 h2 => ?_, fun h1 h2 h3 => ?_, fun h1 h2 h3 h4 => ?_, fun h1 h2 h3 h4 => ?_⟩
  · rw [if_neg (not_not_intro h1), if_pos h2]
  · rw [if_neg (not_not_intro h1), if_neg (not_not_intro h2), if_pos h3]
  · rw [if_neg (not_not_intro h1), if_neg (not_not_intro h2), if_neg (not_not_intro h3), if_pos h4]
  · rw [if_neg (not_not_intro h1), if_neg (not_not_intro h2), if_neg (not_not_intro h3), if_neg (not_not_intro h4)]

theorem Answer.checked_append (before rest : List (Bool × Code)) (go : Answer) :
    Answer.checked (before ++ rest) go = .checked before (.checked rest go) := by
  induction before with
  | nil => rfl
  | cons check before ih =>
    obtain ⟨fails, c⟩ := check
    rw [List.cons_append, Answer.checked_cons, Answer.checked_cons, ih]

section
variable (s : State) {x : Declaration}

/-- A lane takes what its mapped level, its direction, the tote's level and its depth allow, while its level is OFF (R152). -/
theorem locationRefusal_lane {k : LaneId} (h : x.location = .lane k) : firstRefusal (s.locationChecks x) =
    if ¬ s.stopOf k.level ≠ none then some .unmapped
    else if ¬ ((s.level k.level).mode = .off ∧ laneDirection k.name = x.direction) then some .wrongState
    else if ¬ (x.direction = .outbound → x.level = k.level) then some .wrongLevel
    else if ¬ (s.lane k).contents.length < s.depth k then some .laneFull
    else none := by
  have hfull : s.laneFull k = true ↔ ¬ (s.lane k).contents.length < s.depth k := (laneFull_iff s k).trans not_lt.symm
  rw [locationChecks, h]
  dsimp only
  rw [firstRefusal_unless (P := s.stopOf k.level ≠ none) (by simp),
    firstRefusal_unless (P := (s.level k.level).mode = .off ∧ laneDirection k.name = x.direction)
      (by simp [Decidable.imp_iff_not_or]),
    firstRefusal_unless (P := x.direction = .outbound → x.level = k.level) (by simp), firstRefusal_unless hfull]
  rfl

/-- The carriage of a DISABLED lift takes what its room, its direction and its weight limit allow (R153). -/
theorem locationRefusal_carriage {y : Side} (h : x.location = .carriage y) : firstRefusal (s.locationChecks x) =
    if ¬ (s.lift y).status = .disabled then some .wrongState
    else if ¬ (s.lift y).contents.length < 2 then some .carriageFull
    else if ¬ (∀ e, s.carriageDirection y = some e → e = x.direction) then some .mixedDirection
    else if ¬ s.weightSum (s.lift y).contents + x.weight.val ≤ s.settings.params.carriageLimit then some .weightLimit
    else none := by
  rw [locationChecks, h]
  dsimp only
  rw [carriageTests, firstRefusal_unless (P := (s.lift y).status = .disabled) (by simp),
    firstRefusal_unless (P := (s.lift y).contents.length < 2) (decide_eq_true_iff.trans not_lt.symm),
    firstRefusal_unless (P := ∀ e, s.carriageDirection y = some e → e = x.direction) (by simp [Option.any_eq_true]),
    firstRefusal_unless (P := s.weightSum (s.lift y).contents + x.weight.val ≤ s.settings.params.carriageLimit) (by simp)]
  rfl

/-- An entry queue takes what is inbound, while it has room (R154). -/
theorem locationRefusal_entry {y : Side} (h : x.location = .entry y) : firstRefusal (s.locationChecks x) =
    if ¬ x.direction = .inbound then some .wrongState
    else if ¬ (s.queue y).contents.length < 4 then some .queueFull
    else none := by
  have hinbound : (x.direction == .outbound) = true ↔ ¬ x.direction = .inbound := by cases x.direction <;> decide
  rw [locationChecks, h]
  dsimp only
  rw [firstRefusal_unless hinbound, firstRefusal_unless (P := (s.queue y).contents.length < 4) (by simp)]
  rfl

end

/-- The last check finds no free slot in the table (R151). -/
theorem freeSlots_none_iff (s : State) : (s.freeSlots == 0) = true ↔ 512 ≤ s.records.length := by
  rw [beq_iff_eq, freeSlots, Config.recordSlots]; omega

/-! ### The record at the tail of its location (R152 to R155) -/

section
variable (s : State) {x : Declaration}

theorem declare_lane {k : LaneId} (h : x.location = .lane k) : s.declare x = { s with
    records := (s.create x.record).records
    lanes := s.lanes.set k.ix.val { s.lane k with contents := (s.lane k).contents ++ [x.ident] }
    cause := true } := by
  rw [declare, h]; rfl

theorem declare_carriage {y : Side} (h : x.location = .carriage y) : s.declare x = { s with
    records := (s.create x.record).records
    lifts := s.lifts.set y.ix.val { s.lift y with contents := (s.lift y).contents ++ [x.ident], stuck := false }
    cause := true } := by
  have hjoin : (s.create x.record).joinLocation x.ident (.carriage y) =
      (s.create x.record).setCarriage y ((s.lift y).contents ++ [x.ident]) := rfl
  have hlift : (s.create x.record).lift y = s.lift y := lift_of_lifts rfl y
  have hlonger : ((s.create x.record).lift y).contents ≠ (s.lift y).contents ++ [x.ident] := by rw [hlift]; simp
  rw [declare, h, hjoin, setCarriage_eq hlonger]; rfl

theorem declare_entry {y : Side} (h : x.location = .entry y) : s.declare x = { s with
    records := (s.create x.record).records
    entries := s.entries.set y.ix.val { s.queue y with
      contents := (s.queue y).contents ++ [x.ident]
      age := if (s.queue y).contents = [] then some 0 else (s.queue y).age
      aged := if (s.queue y).contents = [] then false else (s.queue y).aged }
    cause := true } := by
  have hjoin : (s.create x.record).joinLocation x.ident (.entry y) =
      (s.create x.record).setQueue y (((s.create x.record).queue y).contents ++ [x.ident]) := rfl
  rw [declare, h, hjoin, setQueue_eq, queue_setQueue_append]; rfl

end

/-! ### The request (R151, R155) -/

section
variable {s : State} {i : Ident} {db lb wb pb : Byte} {loc : LocArg} (hs : s.ready)
include hs

theorem declareTote_out (h : Declaration.ofArgs i db lb wb pb loc = none) :
    exec (.declareTote i db lb wb pb loc) s = .next (s.told .outOfRange .empty) := by
  rw [Changes.ready (.declareTote i db lb wb pb loc) hs, declareTote, h]; rfl

variable {x : Declaration} (hx : Declaration.ofArgs i db lb wb pb loc = some x)
include hx

theorem declareTote_duplicate (h : (s.lookup i).isSome) :
    exec (.declareTote i db lb wb pb loc) s = .next (s.told .duplicate .empty) := by
  rw [Changes.ready (.declareTote i db lb wb pb loc) hs, declareTote, hx]
  dsimp only
  rw [List.cons_append, Answer.checked_cons, if_pos h, answered_refuse]

variable (hnew : s.lookup i = none)
include hnew

theorem declareTote_judged : exec (.declareTote i db lb wb pb loc) s = .next (s.answered (
    .checked (s.locationChecks x) (if 512 ≤ s.records.length then .refuse .tableFull else .accept (s.declare x)))) := by
  rw [Changes.ready (.declareTote i db lb wb pb loc) hs, declareTote, hx]
  dsimp only
  rw [List.cons_append, Answer.checked_cons, hnew, if_neg (by simp), Answer.checked_append, Answer.checked_cons,
    Answer.checked_nil, if_congr (freeSlots_none_iff s) rfl rfl]

theorem declareTote_refused {c : Code} (h : firstRefusal (s.locationChecks x) = some c) :
    exec (.declareTote i db lb wb pb loc) s = .next (s.told c .empty) := by
  rw [declareTote_judged hs hx hnew, Answer.checked, h, answered_refuse]

variable (hpassed : firstRefusal (s.locationChecks x) = none)
include hpassed

theorem declareTote_tableFull (hfull : 512 ≤ s.records.length) :
    exec (.declareTote i db lb wb pb loc) s = .next (s.told .tableFull .empty) := by
  rw [declareTote_judged hs hx hnew, Answer.checked, hpassed]
  dsimp only
  rw [if_pos hfull, answered_refuse]

/-- The record stands in the lowest free slot, and `placed` tells what else the declaration writes. -/
theorem declareTote_created (hroom : ¬ 512 ≤ s.records.length) (htable : s.tableLegal)
    {placed : List (Nat × Record) → State} (hplaced : s.declare x = placed (s.create x.record).records) :
    ∃ rs, CreatedIn s.records rs x.record ∧
      exec (.declareTote i db lb wb pb loc) s = .next (s.doneWith (placed rs) .empty) := by
  refine ⟨_, createdIn_create htable x.record, ?_⟩
  rw [declareTote_judged hs hx hnew, Answer.checked, hpassed]
  dsimp only
  rw [if_neg hroom, answered_accept, hplaced]

end

/-- Settles O54: the fields name a declaration or are refused, and then the checks of its location decide in their order. -/
theorem declareToteCreatesTheRecordInPlace : Obligations.DeclareToteCreatesTheRecordInPlace := by
  intro s i db lb wb pb loc hs no
  refine ⟨fun hout => declareTote_out hs (Declaration.ofArgs_out hout), ?_⟩
  intro d l w p hi hl hw hfields made full
  have hd : Direction.ofByte db = some d := by obtain ⟨rfl, rfl, -⟩ | ⟨rfl, rfl, -⟩ := hfields <;> rfl
  have hp : Declaration.prefNamedBy d p pb := by
    obtain ⟨-, hin, hnone⟩ | ⟨-, hout, ⟨rfl, hp⟩ | ⟨rfl, hp⟩ | ⟨rfl, hp⟩⟩ := hfields
    · exact .inl ⟨hin, hnone⟩
    all_goals exact .inr ⟨hout, _, rfl, hp⟩
  have named {k : Location} (hk : Location.ofArg loc = some k) :
      Declaration.ofArgs i db lb wb pb loc = some ⟨i, d, l, w, p, k⟩ :=
    Declaration.ofArgs_of hi hd (Level.ofByte_of hl) (Weight.ofByte_of hw) hp hk
  refine ⟨fun k hloc => ?_, fun y hloc => ?_, fun y hloc => ?_⟩
  · have hx := named (hloc ▸ Location.ofArg_lane k)
    obtain ⟨unmapped, wrongState, wrongLevel, laneFull, passed⟩ :=
      refusal_of_four (locationRefusal_lane s (x := ⟨i, d, l, w, p, .lane k⟩) rfl)
    refine ⟨declareTote_duplicate hs hx, fun hnew => ?_⟩
    have refused {c : Code} := declareTote_refused (c := c) hs hx hnew
    exact ⟨fun hno => refused (unmapped hno), fun hmapped hno => refused (wrongState hmapped hno),
      fun hmapped hstate hno => refused (wrongLevel hmapped hstate hno),
      fun hmapped hstate hlevel hno => refused (laneFull hmapped hstate hlevel hno),
      fun hmapped hstate hlevel hroom => declareTote_tableFull hs hx hnew (passed hmapped hstate hlevel hroom),
      fun hmapped hstate hlevel hroom hfree htable =>
        declareTote_created hs hx hnew (passed hmapped hstate hlevel hroom) hfree htable (declare_lane s rfl)⟩
  · have hx := named (hloc ▸ Location.ofArg_carriage y)
    obtain ⟨wrongState, carriageFull, mixedDirection, weightLimit, passed⟩ :=
      refusal_of_four (locationRefusal_carriage s (x := ⟨i, d, l, w, p, .carriage y⟩) rfl)
    refine ⟨declareTote_duplicate hs hx, fun hnew => ?_⟩
    have refused {c : Code} := declareTote_refused (c := c) hs hx hnew
    exact ⟨fun hno => refused (wrongState hno), fun hstate hno => refused (carriageFull hstate hno),
      fun hstate hplace hno => refused (mixedDirection hstate hplace hno),
      fun hstate hplace halike hno => refused (weightLimit hstate hplace halike hno),
      fun hstate hplace halike hlight => declareTote_tableFull hs hx hnew (passed hstate hplace halike hlight),
      fun hstate hplace halike hlight hfree htable =>
        declareTote_created hs hx hnew (passed hstate hplace halike hlight) hfree htable (declare_carriage s rfl)⟩
  · have hx := named (hloc ▸ Location.ofArg_entry y)
    have hchecks := locationRefusal_entry s (x := ⟨i, d, l, w, p, .entry y⟩) rfl
    have passed hin hroom := hchecks.trans (by rw [if_neg (not_not_intro hin), if_neg (not_not_intro hroom)])
    refine ⟨declareTote_duplicate hs hx, fun hnew => ⟨fun hout => declareTote_refused hs hx hnew ?_,
      fun hin hfull => declareTote_refused hs hx hnew ?_,
      fun hin hroom => declareTote_tableFull hs hx hnew (passed hin hroom),
      fun hin hroom hfree htable =>
        declareTote_created hs hx hnew (passed hin hroom) hfree htable (declare_entry s rfl)⟩⟩
    · subst hout
      exact hchecks.trans (if_pos (by simp))
    · rw [hchecks, if_neg (not_not_intro hin), if_pos (Nat.not_lt.mpr hfull)]

end Sys2Proof.Machine
end

