-- ==== Sys2Proof/Proofs/PlainReads.lean ====
section
/-! READ_LINKS, IDENTIFY, READ_SUMMARY, READ_PARAMETERS and READ_CORRECTIONS (R17, R166, R172, R174, R178). -/

open Sys2Proof Sys2Proof.Machine Sys2Proof.Machine.State

namespace Sys2Proof.Machine

/-- READ_LINKS takes each port's status from the place of its link (R166). -/
theorem status_at_ix (s : State) (p : Port) : (s.links.map (·.status))[p.ix.val] = (s.link p).status :=
  Vector.getElem_map ..

/-- A byte with two bits of its own and six zeros. -/
def bitPair (a b : Bool) : Byte := (if a then 1 else 0) ||| (if b then 2 else 0)

theorem bitPair_bits (a b : Bool) :
    (bitPair a b).getLsbD 0 = a ∧ (bitPair a b).getLsbD 1 = b ∧ bitPair a b &&& 0xFC = 0 := by
  revert a b
  decide

theorem summaryByte_eq (s : State) (g : Fin 41) :
    s.summaryByte g = bitPair (nth s.flags g != 0) (nth s.flags g &&& nth s.settings.masks g != 0) := rfl

/-- The two bits of a summary byte: some flag of the group is set; some flag is set and unmasked (R178). -/
theorem summaryByte_bits (s : State) (g : Fin 41) :
    ((s.summaryByte g).getLsbD 0 = true ↔ nth s.flags g ≠ 0) ∧
    ((s.summaryByte g).getLsbD 1 = true ↔ nth s.flags g &&& nth s.settings.masks g ≠ 0) ∧ s.summaryByte g &&& 0xFC = 0 := by
  rw [summaryByte_eq]
  obtain ⟨hset, hopen, hrest⟩ := bitPair_bits (nth s.flags g != 0) (nth s.flags g &&& nth s.settings.masks g != 0)
  rw [hset, hopen]
  exact ⟨bne_iff_ne, bne_iff_ne, hrest⟩

/-- Eleven parameters of two bytes each (R171, R172). -/
theorem length_params_bytes (p : Params) : (Body.params p).bytes.length = 22 := rfl

/-- Settles O60. -/
theorem plainReadsReturnTheStateAsItStands : Obligations.PlainReadsReturnTheStateAsItStands := by
  intro s hs
  rw [Reads.ready .links hs, Reads.ready .identify hs, Reads.ready .summary hs, Reads.ready .params hs,
    Reads.ready .corrections hs]
  refine ⟨⟨_, rfl, fun n => status_at_ix s (.stop n), status_at_ix s (.lift .a), status_at_ix s (.lift .b),
    status_at_ix s .front⟩, ⟨_, rfl, by decide⟩, ⟨_, rfl, fun g => ?_⟩, rfl, ⟨_, rfl, length_params_bytes _⟩, rfl⟩
  rw [nth_tab]
  exact summaryByte_bits s g

end Sys2Proof.Machine
end

