-- ==== Sys2Proof/Proofs/FrameBytes.lean ====
section
/-! The frames of the partners: their fields and bodies read back from their bytes (R159, R164, R165), and what a receiver makes of
a whole frame and of one not yet whole (R156 to R158). -/

open Sys2Proof

namespace Sys2Proof

/-! ### Fields (R159, R165) -/

theorem identOf_bytes (i : Ident) :
    identOf (i.extractLsb' 24 8) (i.extractLsb' 16 8) (i.extractLsb' 8 8) (i.extractLsb' 0 8) = i := by
  unfold identOf
  rw [BitVec.extractLsb'_append_extractLsb'_eq_extractLsb' (rfl : 24 = 16 + 8),
    BitVec.extractLsb'_append_extractLsb'_eq_extractLsb' (rfl : 16 = 8 + 8),
    BitVec.extractLsb'_append_extractLsb'_eq_extractLsb' (rfl : 8 = 0 + 8)]
  exact BitVec.extractLsb'_eq_self

@[simp] theorem length_identBytes (i : Ident) : (identBytes i).length = 4 := rfl

theorem laneReportOf_byte (r : LaneReport) : laneReportOf (laneReportByte r) = some r := by
  have hall : ∀ (n : Fin 4) (b : Bool), laneReportOf (laneReportByte ⟨n, b⟩) = some ⟨n, b⟩ := by decide
  exact hall r.count r.settled

theorem carriageReportOf_byte (r : CarriageReport) : carriageReportOf (carriageReportByte r) = some r := by
  obtain ⟨front, back⟩ := r
  cases front <;> cases back <;> rfl

theorem laneIndexOf_byte (x : LaneName) : laneIndexOf (laneIndexByte x) = some x := by cases x <;> rfl

/-! ### The lists of an AUDIT_SCAN (R159) -/

theorem takeIdents_bytes (l : List Ident) (rest : List Byte) :
    takeIdents l.length (identsBytes l ++ rest) = some (l, rest) := by
  induction l with
  | nil => rfl
  | cons i l ih =>
    have hfront : takeIdents (i :: l).length (identsBytes (i :: l) ++ rest) =
        (takeIdents l.length (identsBytes l ++ rest)).map fun p =>
          (identOf (i.extractLsb' 24 8) (i.extractLsb' 16 8) (i.extractLsb' 8 8) (i.extractLsb' 0 8) :: p.1, p.2) := rfl
    rw [hfront, ih, identOf_bytes]
    rfl

theorem length_identsBytes (l : List Ident) : (identsBytes l).length = 4 * l.length := by
  induction l with
  | nil => rfl
  | cons i l ih =>
    have hfront : (identsBytes (i :: l)).length = (identsBytes l).length + 4 := rfl
    rw [hfront, ih, List.length_cons, Nat.mul_succ]

theorem toNat_length_byte {n : Nat} (h : n ≤ 60) : (BitVec.ofNat 8 n).toNat = n := by
  rw [BitVec.toNat_ofNat]
  omega

theorem takeScan_bytes {l : List Ident} (h : l.length ≤ 3) (rest : List Byte) :
    takeScan (scanListBytes l ++ rest) = some (l, rest) := by
  rw [scanListBytes, List.cons_append, takeScan, toNat_length_byte (by omega), if_neg (by omega), takeIdents_bytes]

theorem length_scanListBytes (l : List Ident) : (scanListBytes l).length = 4 * l.length + 1 := by
  rw [scanListBytes, List.length_cons, length_identsBytes]

/-- No list of a well-formed scan is longer than three (R41). -/
theorem Scan.wf_iff (x : Scan) : x.wf = true ↔
    x.aIn.length ≤ 3 ∧ x.aOut.length ≤ 3 ∧ x.bIn.length ≤ 3 ∧ x.bOut.length ≤ 3 := by
  simp only [Scan.wf, Bool.and_eq_true, decide_eq_true_eq, and_assoc]

theorem scanOf_bytes {x : Scan} (h : x.wf = true) : scanOf (scanBytes x) = some x := by
  obtain ⟨haIn, haOut, hbIn, hbOut⟩ := x.wf_iff.mp h
  have hlast : takeScan (scanListBytes x.bOut) = some (x.bOut, []) := by
    simpa using takeScan_bytes hbOut []
  simp only [scanOf, scanBytes, List.append_assoc, takeScan_bytes haIn, takeScan_bytes haOut, takeScan_bytes hbIn, hlast]

theorem length_scanBytes {x : Scan} (h : x.wf = true) : (scanBytes x).length ≤ 52 := by
  obtain ⟨haIn, haOut, hbIn, hbOut⟩ := x.wf_iff.mp h
  simp only [scanBytes, List.length_append, length_scanListBytes]
  omega

/-! ### The bodies of the partners' frames (R158, R159, R164) -/

/-- A body within R156's length that the reader of its kind on its port reads as the command. -/
def readsAs (p : Port) (kind : Byte) (body : List Byte) (c : Instr) : Prop :=
  body.length ≤ 60 ∧ ∃ read, frameReader p kind.toNat = some read ∧ read body = some c

theorem commandOfFrame_of_reads {p : Port} {kind : Byte} {body : List Byte} {c : Instr} (h : readsAs p kind body c) :
    commandOfFrame p p.node kind body = c := by
  obtain ⟨-, read, hkind, hbody⟩ := h
  simp only [commandOfFrame, ne_eq, not_true_eq_false, if_false, hkind, hbody]

/-- Every body that a partner sends reads as its command: the fields do, and no body is longer than a scan of twelve totes. -/
theorem readsAs_of_parts {c : Instr} {p : Port} {kind : Byte} {body : List Byte} (hwf : c.wf = true)
    (h : frameParts c = some (p, kind, body)) : readsAs p kind body c := by
  cases c
  case beacon n a b c d =>
    cases h
    refine ⟨by simp, _, rfl, ?_⟩
    simp only [beaconOf, laneReportOf_byte]
  case laneState n l r =>
    cases h
    refine ⟨by simp, _, rfl, ?_⟩
    simp only [laneStateOf, laneIndexOf_byte, laneReportOf_byte]
  case claimPut n i =>
    cases h
    exact ⟨by simp, _, rfl, congrArg (some <| Instr.claimPut n ·) (identOf_bytes i)⟩
  case arrival b i w p =>
    cases h
    exact ⟨by simp, _, rfl, congrArg (some <| Instr.arrival b · w p) (identOf_bytes i)⟩
  case exitRead b i =>
    cases h
    exact ⟨by simp, _, rfl, congrArg (some <| Instr.exitRead b ·) (identOf_bytes i)⟩
  case auditScan n x =>
    cases h
    exact ⟨(length_scanBytes hwf).trans (by decide), _, rfl, congrArg (Option.map (Instr.auditScan n)) (scanOf_bytes hwf)⟩
  case liftBeacon side r =>
    cases h
    exact ⟨by simp, _, rfl, congrArg (Option.map (Instr.liftBeacon side)) (carriageReportOf_byte r)⟩
  case carriageState side r =>
    cases h
    exact ⟨by simp, _, rfl, congrArg (Option.map (Instr.carriageState side)) (carriageReportOf_byte r)⟩
  case claimTake n side => cases side <;> cases h <;> exact ⟨by simp, _, rfl, rfl⟩
  case done sender x g => cases sender <;> cases h <;> exact ⟨by simp, _, rfl, rfl⟩
  case aborted sender x g => cases sender <;> cases h <;> exact ⟨by simp, _, rfl, rfl⟩
  case jobRequest | frontBeacon => cases h; exact ⟨by simp, _, rfl, rfl⟩
  all_goals cases h

/-! ### The receiver at a start marker (R156) -/

section
variable {len : Byte} {more : List Byte} (p : Port) (fuel : Nat) (node kind : Byte)

/-- Until the body and the check word have come, nothing is read and all bytes are held. -/
theorem receiver_waits (hlen : len.toNat ≤ 60) (hmore : more.length < len.toNat + 2) :
    receive p (fuel + 1) (0xC3 :: node :: kind :: len :: more) = [] ∧
    unfinished (fuel + 1) (0xC3 :: node :: kind :: len :: more) = 0xC3 :: node :: kind :: len :: more := by
  simp [receive, unfinished, hlen.not_gt, hmore]

/-- Once they have come and the check word agrees, the frame is read and the receiver goes on behind it. -/
theorem receiver_reads (hlen : len.toNat ≤ 60) (hmore : len.toNat + 2 ≤ more.length)
    (hcheck : (more.drop len.toNat).take 2 = wordBytes (crc16 (node :: kind :: len :: more.take len.toNat))) :
    receive p (fuel + 1) (0xC3 :: node :: kind :: len :: more) =
      commandOfFrame p node kind (more.take len.toNat) :: receive p fuel (more.drop (len.toNat + 2)) ∧
    unfinished (fuel + 1) (0xC3 :: node :: kind :: len :: more) = unfinished fuel (more.drop (len.toNat + 2)) := by
  simp [receive, unfinished, hlen.not_gt, hmore.not_gt, hcheck]

theorem receive_nil : receive p fuel [] = [] := by cases fuel <;> rfl

theorem unfinished_nil : unfinished fuel [] = [] := by cases fuel <;> rfl

end

/-! ### A frame as the receiver takes it (R156) -/

/-- What follows the length byte of a frame: the body and the check word. -/
def checkedBody (node kind : Byte) (body : List Byte) : List Byte :=
  body ++ wordBytes (crc16 (node :: kind :: BitVec.ofNat 8 body.length :: body))

theorem linkFrame_eq (node kind : Byte) (body : List Byte) : linkFrame node kind body =
    0xC3 :: node :: kind :: BitVec.ofNat 8 body.length :: checkedBody node kind body := rfl

theorem length_checkedBody (node kind : Byte) (body : List Byte) : (checkedBody node kind body).length = body.length + 2 :=
  List.length_append

section
variable (p : Port) (fuel : Nat) (node kind : Byte) {body : List Byte} (hlen : body.length ≤ 60)
include hlen

/-- A whole frame gives one command, and the receiver goes on with the bytes behind it. -/
theorem receiver_linkFrame (more : List Byte) :
    receive p (fuel + 1) (linkFrame node kind body ++ more) = commandOfFrame p node kind body :: receive p fuel more ∧
    unfinished (fuel + 1) (linkFrame node kind body ++ more) = unfinished fuel more := by
  have hnat := toNat_length_byte hlen
  have hbody : (checkedBody node kind body ++ more).take body.length = body := by
    rw [checkedBody, List.append_assoc, List.take_left]
  have hword : (checkedBody node kind body ++ more).drop body.length =
      wordBytes (crc16 (node :: kind :: BitVec.ofNat 8 body.length :: body)) ++ more := by
    rw [checkedBody, List.append_assoc, List.drop_left]
  have hrest : (checkedBody node kind body ++ more).drop (body.length + 2) = more := by
    rw [← length_checkedBody node kind, List.drop_left]
  have hlong : body.length + 2 ≤ (checkedBody node kind body ++ more).length := by
    rw [List.length_append, length_checkedBody]
    exact Nat.le_add_right ..
  have hreads := receiver_reads p fuel node kind (hnat.le.trans hlen) (by rwa [hnat]) (by rw [hnat, hbody, hword]; rfl)
  rwa [hnat, hbody, hrest] at hreads

/-- Of a frame not yet whole nothing is read, and all that has come is held. -/
theorem receiver_part {n : Nat} (hn : n < (linkFrame node kind body).length) :
    receive p n ((linkFrame node kind body).take n) = [] ∧
    unfinished n ((linkFrame node kind body).take n) = (linkFrame node kind body).take n := by
  match n with
  | 0 | 1 | 2 | 3 => exact ⟨rfl, rfl⟩
  | n + 4 =>
    have hnat := toNat_length_byte hlen
    have hshort : n < body.length + 2 := by
      rw [linkFrame_eq] at hn
      simpa only [List.length_cons, length_checkedBody, Nat.add_lt_add_iff_right] using hn
    refine receiver_waits (more := (checkedBody node kind body).take n) p (n + 3) node kind (hnat.le.trans hlen) ?_
    rw [hnat, List.length_take]
    omega

end

/-- Settles O13: a partner's body reads as its command, and the receiver takes its frame when whole and waits before. -/
theorem framesReadBack : Obligations.FramesReadBack := by
  intro c p kind body hwf hparts
  have hreads := readsAs_of_parts hwf hparts
  have hlen : body.length ≤ 60 := hreads.1
  obtain ⟨hread, hheld⟩ := receiver_linkFrame p ((checkedBody p.node kind body).length + 3) p.node kind hlen []
  rw [List.append_nil] at hread hheld
  rw [commandOfFrame_of_reads hreads, receive_nil] at hread
  rw [unfinished_nil] at hheld
  exact ⟨linkFrame p.node kind body, by rw [frameBytes, hparts]; rfl, hread, hheld,
    fun n hn => receiver_part p p.node kind hlen hn⟩

end Sys2Proof
end

