-- ==== Sys2Proof/Proofs/RequestBytes.lean ====
section
/-! The requests of the host: their fields and bodies read back from their bytes, and what a transaction spells (R167, R170,
R171). -/

open Sys2Proof

namespace Sys2Proof

/-! ### Fields (R171) -/

theorem wordOf_bytes (w : BitVec 16) : wordOf (w.extractLsb' 8 8) (w.extractLsb' 0 8) = w := by
  unfold wordOf
  rw [BitVec.extractLsb'_append_extractLsb'_eq_extractLsb' (rfl : 8 = 0 + 8)]
  exact BitVec.extractLsb'_eq_self

theorem length_entriesBytes (es : List EntryArg) : (entriesBytes es).length = 7 * es.length := by
  induction es with
  | nil => rfl
  | cons e es ih =>
    have hfront : (entriesBytes (e :: es)).length = (entriesBytes es).length + 7 := rfl
    rw [hfront, ih, List.length_cons, Nat.mul_succ]

theorem entriesOf_bytes (es : List EntryArg) : entriesOf (entriesBytes es) = some es := by
  induction es with
  | nil => rfl
  | cons e es ih =>
    have hfront : entriesOf (entriesBytes (e :: es)) = (entriesOf (entriesBytes es)).map fun rest =>
        { e with ident := identOf (e.ident.extractLsb' 24 8) (e.ident.extractLsb' 16 8) (e.ident.extractLsb' 8 8)
                            (e.ident.extractLsb' 0 8) } :: rest := rfl
    rw [hfront, ih, identOf_bytes]
    rfl

/-- A claim of a known kind has the kind's own form (R77); one of another kind is told by its length (log 10). -/
theorem claimArgOf_bytes {kind : Byte} {a : ClaimArg} (h : a.wf kind = true) :
    claimArgOf kind (claimArgBytes a) = some a := by
  cases a with
  | identity i =>
    have hput : claimArgOf kind (claimArgBytes (.identity i)) = some (.identity (identOf (i.extractLsb' 24 8)
        (i.extractLsb' 16 8) (i.extractLsb' 8 8) (i.extractLsb' 0 8))) := if_neg (bne_iff_ne.mp h)
    rw [hput, identOf_bytes]
  | side b => exact if_neg (bne_iff_ne.mp h)

theorem directCountOf_bytes {kind : Byte} {n : Option Byte} (h : countWf kind n = true) :
    directCountOf kind (countBytes n) = some n := by
  cases n with
  | none => exact if_neg (bne_iff_ne.mp h)
  | some c => exact if_neg (bne_iff_ne.mp h)

theorem locArgOf_bytes {a : LocArg} (h : a.wf = true) : locArgOf (locArgBytes a) = some a := by
  cases a with
  | lane | carriage | entry => rfl
  | noForm f =>
    have hform : ¬ (f = 0 ∨ f = 1 ∨ f = 2) := by simpa [LocArg.wf, and_assoc] using h
    exact if_neg hform

theorem length_claimArgBytes (a : ClaimArg) : (claimArgBytes a).length ≤ 4 := by cases a <;> simp [claimArgBytes]

theorem length_countBytes (n : Option Byte) : (countBytes n).length ≤ 4 := by cases n <;> simp [countBytes]

theorem length_locArgBytes (a : LocArg) : (locArgBytes a).length ≤ 4 := by cases a <;> simp [locArgBytes]

/-! ### Bodies (R171) -/

theorem bodyIdent_bytes (c : Ident → Instr) (i : Ident) : bodyIdent c (identBytes i) = some (c i) :=
  congrArg (some <| c ·) (identOf_bytes i)

theorem bodyIdent1_bytes (c : Ident → Byte → Instr) (i : Ident) (b : Byte) :
    bodyIdent1 c (identBytes i ++ [b]) = some (c i b) :=
  congrArg (some <| c · b) (identOf_bytes i)

theorem bodyWord_bytes (c : BitVec 16 → Instr) (w : BitVec 16) : bodyWord c (wordBytes w) = some (c w) :=
  congrArg (some <| c ·) (wordOf_bytes w)

theorem body1Word_bytes (c : Byte → BitVec 16 → Instr) (b : Byte) (w : BitVec 16) :
    body1Word c (b :: wordBytes w) = some (c b w) :=
  congrArg (some <| c b ·) (wordOf_bytes w)

theorem bodyCorrection_bytes (e on : Byte) (r c : Ident) :
    bodyCorrection ([e, on] ++ identBytes r ++ identBytes c) = some (.setCorrection e on r c) :=
  congrArg₂ (some <| Instr.setCorrection e on · ·) (identOf_bytes r) (identOf_bytes c)

theorem bodyClaim_bytes (c : Byte → Byte → ClaimArg → Instr) (level : Byte) {kind : Byte} {a : ClaimArg}
    (h : a.wf kind = true) : bodyClaim c ([level, kind] ++ claimArgBytes a) = some (c level kind a) :=
  congrArg (Option.map (c level kind)) (claimArgOf_bytes h)

theorem bodyDirect_bytes (lift level : Byte) {kind : Byte} {n : Option Byte} (h : countWf kind n = true) :
    bodyDirect ([lift, kind, level] ++ countBytes n) = some (.directLift lift kind level n) :=
  congrArg (Option.map (Instr.directLift lift kind level)) (directCountOf_bytes h)

theorem bodyEntries_bytes (c : Byte → List EntryArg → Instr) (b : Byte) (es : List EntryArg) :
    bodyEntries c (b :: entriesBytes es) = some (c b es) :=
  congrArg (Option.map (c b)) (entriesOf_bytes es)

theorem bodyDeclare_bytes (i : Ident) (d l w p : Byte) {a : LocArg} (h : a.wf = true) :
    bodyDeclare (identBytes i ++ [d, l, w, p] ++ locArgBytes a) = some (.declareTote i d l w p a) := by
  have hfields : bodyDeclare (identBytes i ++ [d, l, w, p] ++ locArgBytes a) =
      (locArgOf (locArgBytes a)).map (Instr.declareTote (identOf (i.extractLsb' 24 8) (i.extractLsb' 16 8)
        (i.extractLsb' 8 8) (i.extractLsb' 0 8)) d l w p) := rfl
  rw [hfields, locArgOf_bytes h, identOf_bytes]
  rfl

/-! ### Codes (R170, 10.4) -/

/-- A body within R170's length that the reader of its code reads as the request. -/
def requestReadsAs (code : Byte) (body : List Byte) (c : Instr) : Prop :=
  body.length ≤ 250 ∧ ∃ read, requestReader code.toNat = some read ∧ read body = some c

/-- A body of the station or list and up to 35 entries (R132, R171). -/
theorem length_entriesBody (b : Byte) {es : List EntryArg} (h : entriesWf es = true) :
    (b :: entriesBytes es).length ≤ 250 := by
  have hmost : es.length ≤ 35 := of_decide_eq_true h
  rw [List.length_cons, length_entriesBytes]
  omega

/-- A body whose last field has at most four bytes. -/
theorem length_body_append {fields last : List Byte} (hfields : fields.length ≤ 246) (hlast : last.length ≤ 4) :
    (fields ++ last).length ≤ 250 := by
  rw [List.length_append]
  omega

/-- Every body reads as its request: each field does, and none is longer than R170 allows. -/
theorem requestReadsAs_of_parts {c : Instr} {code : Byte} {body : List Byte} (hwf : c.wf = true)
    (h : requestParts c = some (code, body)) : requestReadsAs code body c := by
  cases c
  case readTote i | cancelRecord i | confirmExit i | declareMissing i =>
    cases h
    exact ⟨by simp, _, rfl, bodyIdent_bytes _ i⟩
  case announceInbound i b | retarget i b | resolveHold i b =>
    cases h
    exact ⟨by simp, _, rfl, bodyIdent1_bytes _ i b⟩
  case walk w =>
    cases h
    exact ⟨by simp [wordBytes], _, rfl, bodyWord_bytes _ w⟩
  case setParameter n w =>
    cases h
    exact ⟨by simp [wordBytes], _, rfl, body1Word_bytes _ n w⟩
  case setCorrection e on r x =>
    cases h
    exact ⟨by simp, _, rfl, bodyCorrection_bytes e on r x⟩
  case approveClaim l k a | denyClaim l k a =>
    cases h
    exact ⟨length_body_append (by simp) (length_claimArgBytes a), _, rfl, bodyClaim_bytes _ l hwf⟩
  case directLift x k l n =>
    cases h
    exact ⟨length_body_append (by simp) (length_countBytes n), _, rfl, bodyDirect_bytes x l hwf⟩
  case openList n es | appendEntries n es =>
    cases h
    exact ⟨length_entriesBody n hwf, _, rfl, bodyEntries_bytes _ n es⟩
  case declareTote i d l w p a =>
    cases h
    exact ⟨length_body_append (by simp) (length_locArgBytes a), _, rfl, bodyDeclare_bytes i d l w p hwf⟩
  case readCorrections | readLinks | softReset | identify | readParameters | readSummary | startAudit | readLevel |
      readTransfer | readApprovals | cancelDirected | clearLiftBlock | readLift | readEntry | closeList | abortList |
      readStation | readEvents | readClearEvents | setSummaryEnable | setLevelMap | setLevelMode | setFenceOnLoss |
      clearLaneBlock | readLane | setLiftEnable | skipEntry | setReportMode | readList | setEventMask | setLaneDepth =>
    cases h
    exact ⟨by simp, _, rfl, rfl⟩
  all_goals cases h

/-! ### Transactions (R167, R170) -/

/-- A request whose bytes have all come, and whose check byte agrees, is what its code's reader makes of its body; what stands
behind the check byte plays no part. -/
theorem requestOfBytes_reads {code len : Byte} {body : List Byte} {c : Instr} (more : List Byte)
    (hlen : len.toNat = body.length) (h : requestReadsAs code body c) :
    requestOfBytes (code :: len :: (body ++ crc8 (code :: len :: body) :: more)) = c := by
  obtain ⟨hmost, read, hcode, hbody⟩ := h
  simp [requestOfBytes, hlen, hmost.not_gt, hcode, hbody]

theorem requestOfBytes_portFrame {code : Byte} {body : List Byte} {c : Instr} (h : requestReadsAs code body c)
    (more : List Byte) : requestOfBytes (portFrame code body ++ more) = c := by
  have hmost : body.length ≤ 250 := h.1
  have hframe : portFrame code body ++ more = code :: BitVec.ofNat 8 body.length ::
      (body ++ crc8 (code :: BitVec.ofNat 8 body.length :: body) :: more) := by simp [portFrame]
  have hlen : (BitVec.ofNat 8 body.length).toNat = body.length := by
    rw [BitVec.toNat_ofNat]
    omega
  rw [hframe, requestOfBytes_reads more hlen h]

/-- Settles O12: the frame of a body that reads back, and the selector's three cases. -/
theorem requestsReadBack : Obligations.RequestsReadBack := by
  refine ⟨fun c bytes more hwf hbytes => ?_, fun rest => rfl, fun selector rest hrequest hcollect => ?_⟩
  · obtain ⟨⟨code, body⟩, hparts, rfl⟩ := Option.map_eq_some_iff.mp hbytes
    have hread := requestOfBytes_portFrame (requestReadsAs_of_parts hwf hparts) more
    exact ⟨hread, hread⟩
  · rw [transactionOf, if_neg hrequest, if_neg hcollect]

end Sys2Proof
end

