-- ==== Sys2Proof/Proofs/RequestPort.lean ====
section
/-! The request port: what its transactions shift out, the response buffer and the overrun flag (R167 to R170; log 14). -/

open Sys2Proof Sys2Proof.Machine Sys2Proof.Machine.State

namespace Sys2Proof.Machine

namespace State

/-! ### The status byte (R168) -/

/-- Five bits at their places in a byte whose upper three are 101. -/
def statusBits (seen stopped overrun full attention : Bool) : Byte :=
  0xA0 ||| (if seen then 0x10 else 0) ||| (if stopped then 0x08 else 0) ||| (if overrun then 0x04 else 0)
    ||| (if full then 0x02 else 0) ||| (if attention then 0x01 else 0)

theorem statusBits_bits (seen stopped overrun full attention : Bool) :
    let b := statusBits seen stopped overrun full attention
    b.getLsbD 0 = attention ∧ b.getLsbD 1 = full ∧ b.getLsbD 2 = overrun ∧ b.getLsbD 3 = stopped ∧
    b.getLsbD 4 = seen ∧ b.getLsbD 5 = true ∧ b.getLsbD 6 = false ∧ b.getLsbD 7 = true := by
  revert seen stopped overrun full attention
  decide

theorem statusByte_eq (s : State) : s.statusByte =
    statusBits ((nth s.flags 0).getLsbD 0) s.stopped s.overrun s.buffer.isSome s.attention := by
  rw [statusByte, raised_eq_bit]
  rfl

section
variable {s : State}

theorem firstByte_idle (h : s.chip = .idle) : s.firstByte = s.statusByte := by
  rw [firstByte, h]

/-! ### Chip select (R167, R168) -/

theorem assertSelect_idle (hs : s.inReset = false) (h : s.chip = .idle) :
    s.assertSelect = { s with chip := .asserted s.statusByte } := by
  rw [assertSelect_eq, h, hs]
  rfl

theorem assertSelect_asserted {b : Byte} (h : s.chip = .asserted b) : s.assertSelect = s := by
  rw [assertSelect, h]

/-! ### COLLECT (R169) -/

variable {n : Nat}

/-- The whole frame has gone out: the buffer is empty and nothing is overrun. -/
theorem collect_whole (h : (collected s.buffer).length ≤ n) : s.collect n =
    { s with buffer := none, overrun := false, chip := .idle, portOut := s.firstByte :: collected s.buffer } := by
  simp only [collect, if_pos h, List.take_of_length_le h, shift]

/-- A part of the frame has gone out, and the frame stays for the next COLLECT. -/
theorem collect_part (h : n < (collected s.buffer).length) : s.collect n =
    { s with chip := .idle, portOut := s.firstByte :: (collected s.buffer).take n } := by
  simp only [collect, if_neg h.not_ge, shift]

end
end State

/-! ### A transaction that the part does not hear (R167) -/

theorem not_hearsPort_of_abandoned {s : State} (h : s.chip = .abandoned) : ¬ s.hearsPort := fun hs => hs.2 h

/-- Whatever it carries, it ends with nothing but chip select released. -/
theorem exec_port_deaf {s : State} (hdeaf : ¬ s.hearsPort) {c : Instr} (h : (requestParts c).isSome ∨
    (∃ why, c = .unknownRequest why) ∨ ∃ n, c = .collect (.collects n) ∨ c = .collect (.polls n)) :
    exec c s = .next { s with chip := .idle } := by
  rw [← or_assoc] at h
  obtain hrequest | ⟨n, rfl | rfl⟩ := h
  · obtain ⟨f, hf⟩ := exec_request_eq hrequest
    rw [hf, request_deaf hdeaf]
  · exact (execCollect_deaf hdeaf n).1
  · exact (execCollect_deaf hdeaf n).2

/-! ### The port as a whole -/

theorem exec_request_overrun {s : State} (hs : s.hearsPort) (hfull : s.buffer.isSome) {c : Instr}
    (h : (requestParts c).isSome ∨ ∃ why, c = .unknownRequest why) :
    exec c s = .next { s with portOut := [s.firstByte], chip := .idle, overrun := true } := by
  obtain ⟨f, hf⟩ := exec_request_eq h
  exact (hf s).trans (request_overrun hs hfull f)

theorem exec_unknownRequest {s : State} (hs : s.ready) (why : PortError) :
    exec (.unknownRequest why) s = .next (s.told (PortError.code why) .empty) := (Reads.unknown why).ready hs

/-- Settles O11: the transactions one by one, and the status byte bit by bit. -/
theorem portBufferAndOverrun : Obligations.PortBufferAndOverrun := by
  refine ⟨fun c s hc hs hfull => exec_request_overrun hs hfull hc, fun n s hs => ?collect, fun s hs hidle => ?asserts,
    fun s b hchip => ?asserted, fun c s hc hchip => exec_port_deaf (not_hearsPort_of_abandoned hchip) hc,
    fun s n => List.getD_getElem?, fun s b => ?bits, fun s hs => ?checks, fun s hempty => ?none⟩
  case collect =>
    obtain ⟨hcollects, hpolls⟩ := execCollect_hears hs n
    exact ⟨fun hwhole => hcollects.trans (congrArg _ (collect_whole hwhole)),
      fun hpart => hcollects.trans (congrArg _ (collect_part hpart)), hpolls⟩
  case asserts => exact ⟨congrArg Host.Outcome.next (assertSelect_idle hs hidle), firstByte_idle hidle⟩
  case asserted => exact ⟨firstByte_asserted hchip, congrArg Host.Outcome.next (assertSelect_asserted hchip)⟩
  case bits =>
    rw [statusByte_eq]
    obtain ⟨hattention, hfull, hoverrun, hstopped, hseen, hbit5, hbit6, hbit7⟩ :=
      statusBits_bits ((nth s.flags 0).getLsbD 0) s.stopped s.overrun s.buffer.isSome s.attention
    match b with
    | 0 => exact hattention
    | 1 => exact hfull
    | 2 => exact hoverrun
    | 3 => exact hstopped
    | 4 => exact hseen
    | 5 => exact hbit5
    | 6 => exact hbit6
    | 7 => exact hbit7
    | b + 8 => exact BitVec.getLsbD_of_ge _ _ (Nat.le_add_left 8 b)
  case checks => exact ⟨exec_unknownRequest hs _, exec_unknownRequest hs _, exec_unknownRequest hs _⟩
  case none => rw [hempty]; rfl

end Sys2Proof.Machine
end

