-- ==== Sys2Proof/Proofs/CommandQueue.lean ====
section
/-! The queue of waiting commands: a step takes its front, and every command has a next state and leaves the queue alone
(00_scope.md, Events taken by the part and Answers; 95_what_each_step_holds.md). -/

open Sys2Proof Sys2Proof.Machine Sys2Proof.Machine.State

namespace Sys2Proof.Machine

/-- Settles O1: taken off the queue, the front leaves the state as it was before it was put there. -/
theorem stepTakesTheFrontCommand : Obligations.StepTakesTheFrontCommand := fun _ _ => rfl

/-- The second state holds the same commands in wait as the first. -/
def sameQueue (s t : State) : Prop := t.pending = s.pending

namespace sameQueue

theorem of_kept {s t : State} (h : t.kept = s.kept) : sameQueue s t := congrArg Kept.pending h

theorem of_eq {s t u : State} (h : t = u) (hu : u.pending = s.pending) : sameQueue s t := (congrArg State.pending h).trans hu

theorem trans {s t u : State} (h : sameQueue s t) (hu : sameQueue t u) : sameQueue s u := Eq.trans hu h

/-- The fence of a level is recomputed after a change of the settings (R20, R37, R38). -/
theorem recomputeFence {s u : State} (h : sameQueue s u) (l : Level) : sameQueue s (u.recomputeFence l) :=
  h.trans (of_kept (kept_recomputeFence u l))

theorem closeEvent {s u : State} (h : sameQueue s u) : sameQueue s u.closeEvent := h.trans (of_kept (kept_closeEvent u))

end sameQueue

/-! ### Requests -/

/-- No request that is accepted writes the queue, and a soft reset carries it over (R173). -/
theorem Effect.sameQueue {s u : State} (e : Effect s u) : sameQueue s u := by
  cases e with
  | corrected | depthSet | reportModeSet | maskSet | summarySet | blockCleared | softReset => rfl
  | redirected r l => exact .of_eq (redirect_eq s r l) rfl
  | remapped l n => exact .recomputeFence (.of_eq (mapped_rest s l n) rfl) l
  | fenceSet l on => exact .recomputeFence (.of_eq rfl rfl) l
  | paramWritten n v => exact .of_eq (writeParam_rest s n v) rfl
  | created | retired | modeAsked | auditBegun | claimGranted | claimEnded | directedPlaced | liftChanged | liftDisabled
  | listOpened | entriesAdded | listClosed | listAborted | entrySkipped | exitSettled | holdResolved | declared | eventsCleared =>
    exact .of_kept (by simp)

theorem request_next_sameQueue {f : State → Answer} {s : State} (hf : (f s).holds (sameQueue s)) :
    ∃ t, request f s = .next t ∧ sameQueue s t := by
  obtain ⟨t, ht⟩ := request_next f s
  exact ⟨t, ht, request_inv (fun _ _ _ _ _ h => h) (fun _ h => h.closeEvent) rfl hf ht⟩

/-! ### Events and frames -/

theorem kept_answerParty (s : State) (x : Sender) (i g : Byte) {act : State → Fin 34 → State}
    (hact : ∀ u k, (act u k).kept = u.kept) : (s.answerParty x i g act).kept = s.kept := by
  unfold answerParty
  split
  · exact (hact _ _).trans (kept_send ..)
  · exact kept_send ..
  · exact kept_send ..

/-- What a frame does after its link is up writes nothing that events leave alone. -/
theorem Frames.kept {c : Instr} {p : Port} {f : State → State} (h : Frames c p f) (s : State) : (f s).kept = s.kept := by
  cases h with
  | done => exact kept_answerParty s _ _ _ kept_takeDone
  | aborted => exact kept_answerParty s _ _ _ kept_takeAborted
  | auditScan =>
    dsimp only; split
    · exact kept_takeScan ..
    · rfl
  | exitRead =>
    dsimp only; split
    · exact kept_takeExitRead ..
    · rfl
  | frontBeacon | foreign | malformed => rfl
  | beacon | laneState | claimPut | claimTake | liftBeacon | carriageState | jobRequest | arrival => simp

/-- The end of a status period starts the next (R162); the other events write nothing that events leave alone. -/
theorem Events.sameQueue {c : Instr} {f : State → State} (h : Events c f) (s : State) : sameQueue s (f s) := by
  cases h with
  | statusPeriod => rfl
  | wrongNode | motionTimeout | confirmTimeout | readWindow | settle | scan | approval | linkLost | aged | frameLeaves =>
    exact .of_kept (by simp)

theorem event_next_sameQueue {f : State → State} {s : State} (hf : sameQueue s (f s)) :
    ∃ t, event f s = .next t ∧ sameQueue s t :=
  ⟨_, rfl, event_inv (fun _ h => h.closeEvent) rfl hf rfl⟩

/-! ### The lines, the port's other transactions and discarded bytes -/

theorem sameQueue_assertStop (s : State) : sameQueue s s.assertStop := .of_eq s.assertStop_rest rfl

theorem Others.next_sameQueue {c : Instr} (h : Others c) (s : State) : ∃ t, exec c s = .next t ∧ sameQueue s t := by
  cases h with
  | hardReset => exact ⟨_, rfl, rfl⟩
  | resetRelease => exact ⟨_, rfl, by split <;> rfl⟩
  | stopAsserted =>
    refine ⟨_, rfl, ?_⟩
    repeat' split
    · rfl
    · rfl
    · exact (sameQueue_assertStop s).closeEvent
  | stopReleased =>
    refine ⟨_, rfl, ?_⟩
    repeat' split
    · rfl
    · exact sameQueue.closeEvent (u := s.releaseStop) rfl
    · rfl
  | collect => exact ⟨_, rfl, transaction_inv (fun _ _ _ _ _ h => h) rfl rfl⟩
  | discarded => exact ⟨_, rfl, by unfold State.discard; split <;> rfl⟩

/-! ### Every command -/

/-- Settles O2: requests, frames, other events and the rest each have a next state, and the effect of none writes the queue. -/
theorem everyCommandCompletes : Obligations.EveryCommandCompletes := fun c s => by
  rcases instr_kinds c with ⟨f, hc⟩ | ⟨f, hc⟩ | ⟨p, f, hc⟩ | ⟨f, hc⟩ | hc
  · rw [hc.exec_eq]
    exact request_next_sameQueue (hc.holds _ s)
  · rw [hc.exec_eq]
    exact request_next_sameQueue (Answer.holds_mono (fun _ => Effect.sameQueue) (hc.effect s))
  · rw [hc.exec_eq]
    exact event_next_sameQueue (.of_kept ((hc.kept _).trans (kept_takeValid s p)))
  · rw [hc.exec_eq]
    exact event_next_sameQueue (hc.sameQueue s)
  · exact hc.next_sameQueue s

end Sys2Proof.Machine
end
